-- ==== Sys2Proof/Word.lean ====
section
/-! DEFINITION. The word types of the secure-storage access block. Every quantity is unsigned (R9). -/

namespace Sys2Proof

/-- One byte of a region or of the caller buffer. -/
abbrev Byte := BitVec 8

/-- A 16-bit word of the EEPROM, and the width of `tx_val` and `rx_acc` (R25, R37). -/
abbrev Half := BitVec 16

/-- A 32-bit word: a block of the fuse array or of a mirror, a platform register (R7, R24). -/
abbrev Word := BitVec 32

/-- A byte position inside a block, or a count of its bytes (R23). -/
abbrev Pos := BitVec 3

/-- An 11-bit EEPROM command word, `CMD_BITS = 11` (R7, R84). -/
abbrev Command := BitVec 11

end Sys2Proof
end

