-- ==== Sys2Proof/Config.lean ====
section
/-! DEFINITION. What an implementation fixes (the parameters of R8) and the free values (the `draw` of R10). -/

namespace Sys2Proof

/-- The platform's two execution modes (R19, R167). -/
inductive Mode where
  | primary
  | alternate
deriving DecidableEq, Repr

/-- The parameters the source leaves open (R8). They are fixed for a machine: no step writes them. They stand
in the state so that a claim about every state is a claim about every value of them. -/
structure Params where
  /-- `T_Q`, the quantum in microseconds, a lower bound no rule depends on (R132, R231). -/
  quantum : Nat
  /-- `OP_READ`, the command word base for read. -/
  opRead : Command
  /-- `OP_WRITE`, the command word base for write. -/
  opWrite : Command
  /-- `OP_EWEN`, the enable-writes command word. -/
  opEwen : Command
  /-- `OP_EWDS`, the disable-writes command word. -/
  opEwds : Command
  /-- `EWDS_BITS`, the bit length of the disable-writes command (R87). -/
  ewdsBits : Nat
  /-- `CS_ACTIVE_LEVEL`, the electrical level of an asserted chip-select (R131). -/
  csActiveLevel : Bool
  /-- `READY_LEVEL`, the level of the data-in line that means write-complete (R67, R143). -/
  readyLevel : Bool
  /-- `POLL_LIMIT`; `none` is `inf` (R143). -/
  pollLimit : Option Nat
  /-- `W_OFF`, the bit width of `offset` and `length` (D4, log 2). -/
  wOff : Nat
  /-- `OTP_RD_FLAG`, OR-ed with the word index (R88). -/
  otpRdFlag : Word
  /-- `OTP_CMD_ADDR`. -/
  otpCmdAddr : Nat
  /-- `OTP_DATA_ADDR`. -/
  otpDataAddr : Nat
  /-- `PROT_ADDR`. -/
  protAddr : Nat
  /-- `PROT_BIT`, the one-bit mask of `MIRROR_EN` (R33). -/
  protBit : Word
  /-- `BOOT0_SIZE`, in bytes. -/
  boot0Size : Nat
  /-- `BOOT0_MIRROR_BASE`. -/
  boot0Base : Nat
  /-- `SOTP_MIRROR_BASE`. -/
  sotpBase : Nat
  /-- `GPIO_OUT_ADDR`; the model treats the lines as wires (R8, R29, log 23). -/
  gpioOutAddr : Nat
  /-- `GPIO_IN_ADDR`. -/
  gpioInAddr : Nat
  /-- `PIN_CS`. -/
  pinCs : Nat
  /-- `PIN_CLK`. -/
  pinClk : Nat
  /-- `PIN_DO`. -/
  pinDo : Nat
  /-- `PIN_DI`. -/
  pinDi : Nat
  /-- `MODE`; the block does not read it (R167, R178, D25). -/
  mode : Mode
deriving DecidableEq, Repr

/-- FREE VALUES (log 7). `Config.free n k` is slot `k` of draw number `n`: nothing constrains it. -/
opaque Config.free : Nat → Nat → Nat

/-- A free bit. -/
def Config.freeBit (n k : Nat) : Bool := Config.free n k % 2 == 1

/-- A free bit vector; every value of the width is the image of some draw. -/
def Config.freeVec (w n k : Nat) : BitVec w := BitVec.ofNat w (Config.free n k)

/-- A free moment: a natural number, or never (`none`) (R66). -/
def Config.freeTime (n k : Nat) : Option Nat :=
  match Config.free n k with
  | 0 => none
  | t + 1 => some t

end Sys2Proof
end

