-- ==== Sys2Proof/Machine/Defaults.lean ====
section
/-! DEFINITION. The value each parameter of R8 has in the state after reset: the spec's default where R8 gives one
(log 4), else the model's choice (log 3). No statement rests on them. -/

namespace Sys2Proof.Machine

/-- The parameters of `State.reset`. `OP_READ`, `OP_WRITE`, `OP_EWEN`, `OP_EWDS`, `EWDS_BITS`, `CS_ACTIVE_LEVEL`,
`READY_LEVEL`, `W_OFF`, `OTP_RD_FLAG` and `T_Q` are the defaults of R8; the rest R8 leaves open. -/
def platformParams : Params where
  quantum := 5
  opRead := 0x600
  opWrite := 0x500
  opEwen := 0x4C0
  opEwds := 0x400
  ewdsBits := 11
  csActiveLevel := true
  readyLevel := true
  pollLimit := none
  wOff := 16
  otpRdFlag := 0x80000000
  otpCmdAddr := 0x10000
  otpDataAddr := 0x10004
  protAddr := 0x10008
  protBit := 0x20
  boot0Size := 4096
  boot0Base := 0
  sotpBase := 0x1000
  gpioOutAddr := 0x1000C
  gpioInAddr := 0x10010
  pinCs := 0
  pinClk := 1
  pinDo := 2
  pinDi := 3
  mode := .primary

end Sys2Proof.Machine
end

