-- ==== Sys2Proof/Syntax.lean ====
section
/-! DEFINITION. The instructions: one constructor for each row of spec/opcode_table.json (R80). -/

namespace Sys2Proof

/-- The five legal and three illegal host operations (HOSTREQ, R81; `offset` and `length` are the unsigned numbers of
`W_OFF` bits of R82, `Instr.encodable`), the four EEPROM command frames (EEP11 and EEP27, R83, R84) and the OTP command
word (OTPCMD32, R88). The caller buffer of a host operation is `State.buf`. -/
inductive Instr where
  /-- `OTP.READ`, R121. -/
  | otpRead (offset length : Nat) (bufValid : Bool)
  /-- `OTP.WRITE`, illegal, R123. -/
  | otpWrite (offset length : Nat) (bufValid : Bool)
  /-- `SEEPROM.READ`, R151. -/
  | seepromRead (offset length : Nat) (bufValid : Bool)
  /-- `SEEPROM.WRITE`, R155. -/
  | seepromWrite (offset length : Nat) (bufValid : Bool)
  /-- `BOOT0.READ`, R177. -/
  | boot0Read (offset length : Nat) (bufValid : Bool)
  /-- `BOOT0.WRITE`, illegal, R179. -/
  | boot0Write (offset length : Nat) (bufValid : Bool)
  /-- `SOTP.READ`, R178. -/
  | sotpRead (offset length : Nat) (bufValid : Bool)
  /-- `SOTP.WRITE`, illegal, R179. -/
  | sotpWrite (offset length : Nat) (bufValid : Bool)
  /-- `EEP.READ`: the read frame of block `a`, R140. -/
  | eepRead (a : Byte)
  /-- `EEP.WRITE`: the write frame of block `a` with data `d`, and its status frame, R142. -/
  | eepWrite (a : Byte) (d : Half)
  /-- `EEP.EWEN`: enable-writes, R141. The device ignores `pad` (R84). -/
  | eepEwen (pad : BitVec 6)
  /-- `EEP.EWDS`: disable-writes, R144. The device ignores `pad` (R84). -/
  | eepEwds (pad : BitVec 6)
  /-- `OTP.CMD.READ`: the OTP command word and the data word it selects, R120. -/
  | otpCmdRead (w : BitVec 5)
deriving DecidableEq, Repr

end Sys2Proof
end

