-- ==== Sys2Proof/WellFormed.lean ====
section
/-! DEFINITION. What the master of the spec may send, and what a set of parameters must satisfy. -/

namespace Sys2Proof

/-- An instruction the spec's master may issue: a block index of the EEPROM is at most 127, so that bit 7 of the
address field is 0 (R85), and the control commands send `A[5:0]` as 0 (R84). A host request has no operand that is
ill-formed: a range that is not legal is answered with a status (R101). -/
def Instr.wellFormed : Instr → Bool
  | .otpRead _ _ _ => true
  | .otpWrite _ _ _ => true
  | .seepromRead _ _ _ => true
  | .seepromWrite _ _ _ => true
  | .boot0Read _ _ _ => true
  | .boot0Write _ _ _ => true
  | .sotpRead _ _ _ => true
  | .sotpWrite _ _ _ => true
  | .eepRead a => a.toNat < 128
  | .eepWrite a _ => a.toNat < 128
  | .eepEwen pad => pad == 0
  | .eepEwds pad => pad == 0
  | .otpCmdRead _ => true

/-- A one-bit mask (R8, `PROT_BIT`). -/
def isOneBit (m : Word) : Bool := (List.range 32).any fun k => m == BitVec.twoPow 32 k

/-- The constraints the spec puts on the parameters: the address and pad fields of the command bases are 0 and the
fields that select a command tell the four apart (R84, R85), `EWDS_BITS = 11` (R87), the low five bits of
`OTP_RD_FLAG` leave room for the word index (R31), `W_OFF` is at least 16 (D4: it may be widened), `PROT_BIT` is one
bit, the mirror bases and `BOOT0_SIZE` are multiples of 4, `BOOT0_SIZE` and a finite `POLL_LIMIT` are positive (R8). -/
def Params.wellFormed (p : Params) : Bool :=
  p.opRead.extractLsb' 0 8 == 0 && p.opWrite.extractLsb' 0 8 == 0 &&
  p.opEwen.extractLsb' 0 6 == 0 && p.opEwds.extractLsb' 0 6 == 0 &&
  p.opRead.extractLsb' 8 3 != p.opWrite.extractLsb' 8 3 &&
  p.opRead.extractLsb' 8 3 != p.opEwen.extractLsb' 8 3 &&
  p.opRead.extractLsb' 8 3 != p.opEwds.extractLsb' 8 3 &&
  p.opWrite.extractLsb' 8 3 != p.opEwen.extractLsb' 8 3 &&
  p.opWrite.extractLsb' 8 3 != p.opEwds.extractLsb' 8 3 &&
  p.opEwen.extractLsb' 6 5 != p.opEwds.extractLsb' 6 5 &&
  p.ewdsBits == 11 && decide (16 ≤ p.wOff) &&
  p.otpRdFlag.extractLsb' 0 5 == 0 &&
  isOneBit p.protBit &&
  p.boot0Base % 4 == 0 && p.sotpBase % 4 == 0 &&
  p.boot0Size % 4 == 0 && decide (0 < p.boot0Size) &&
  p.pollLimit != some 0

/-- An offset and a length have an encoding: each fits in `W_OFF` bits (R82, U25). -/
abbrev Params.encodes (p : Params) (offset length : Nat) : Prop := offset < 2 ^ p.wOff ∧ length < 2 ^ p.wOff

/-- The instruction has a word: the operands of a host request fit in `W_OFF` bits (R81, U25); the operands of a
command frame and of an OTP command word always fit. -/
def Instr.encodable (p : Params) : Instr → Bool
  | .otpRead o l _ => decide (p.encodes o l)
  | .otpWrite o l _ => decide (p.encodes o l)
  | .seepromRead o l _ => decide (p.encodes o l)
  | .seepromWrite o l _ => decide (p.encodes o l)
  | .boot0Read o l _ => decide (p.encodes o l)
  | .boot0Write o l _ => decide (p.encodes o l)
  | .sotpRead o l _ => decide (p.encodes o l)
  | .sotpWrite o l _ => decide (p.encodes o l)
  | .eepRead _ => true
  | .eepWrite _ _ => true
  | .eepEwen _ => true
  | .eepEwds _ => true
  | .otpCmdRead _ => true

end Sys2Proof
end

