-- ==== Sys2Proof/Decode.lean ====
section
/-! DEFINITION. The three formats of R80, their decoder and, after it, their encoder. -/

namespace Sys2Proof

/-- The low `w` bits of a number: what a field or a register of `w` bits holds of it. In an operation no bit is lost:
"All adapter arithmetic is on unsigned naturals and exact" (R109). -/
def narrow (w n : Nat) : Nat := n % 2 ^ w

/-- A word of one of the formats of R80. `HOSTREQ` is a number of `2 * W_OFF + 4` bits, packed in the order in which R81
lists its fields, from bit 0 up: `opsel` in three bits, `offset` and `length` in `W_OFF` bits each, `buf_valid` in one;
with `W_OFF = 16` these are the bits 2:0, 18:3, 34:19 and 35 (log 1).
Bit 10 of an `EEP11` word and bit 26 of an `EEP27` word cross the wire first (R83). -/
inductive Raw where
  | hostreq (w : Nat)
  | eep11 (w : BitVec 11)
  | eep27 (w : BitVec 27)
  | otpcmd32 (w : BitVec 32)
deriving DecidableEq, Repr

/-- What the EEPROM device reads in a command word (R63). -/
inductive EepCmd where
  | read (a : Byte)
  | write (a : Byte)
  | ewen (pad : BitVec 6)
  | ewds (pad : BitVec 6)
  | reserved
deriving DecidableEq, Repr

/-- Why a word is no instruction. -/
inductive DecodeError where
  /-- A `HOSTREQ` of more than `2 * W_OFF + 4` bits: an offset or a length above `2^W_OFF - 1` has no encoding (U25). -/
  | requestTooWide
  /-- `c[10] = 0` (R90). -/
  | noStartBit
  /-- `c[9:8] = 0b11` (R90). -/
  | reservedOperation
  /-- A control word whose `A[7:6]` is neither enable-writes nor disable-writes (R90). -/
  | reservedControl
  /-- A write command word in a frame of 11 bits: a write frame has 27 (R63, R92). -/
  | writeWithoutData
  /-- A frame of 27 bits whose command is not write: only write is followed by data bits (R92). -/
  | dataWithoutWrite
  /-- A value of `OTP_CMD` that is not `OTP_RD_FLAG | w` (R91). -/
  | reservedOtpCommand
deriving DecidableEq, Repr

/-- The field that tells read, write and control apart: start bit and operation, `c[10:8]` (R63, R84). -/
def opField (c : Command) : BitVec 3 := c.extractLsb' 8 3

/-- The field that selects a control command, `c[10:6]` (R63, R84). -/
def controlField (c : Command) : BitVec 5 := c.extractLsb' 6 5

/-- The address field `A = c[7:0]` (R84). -/
def addressField (c : Command) : Byte := c.extractLsb' 0 8

/-- The bits `A[5:0]` of a control command, which the device ignores (R84). -/
def padField (c : Command) : BitVec 6 := c.extractLsb' 0 6

/-- The command decode of R63 with the layout of R84; the four command words are the parameters' (log 25). -/
def decodeCommand (p : Params) (c : Command) : EepCmd :=
  if opField c = opField p.opRead then .read (addressField c)
  else if opField c = opField p.opWrite then .write (addressField c)
  else if controlField c = controlField p.opEwen then .ewen (padField c)
  else if controlField c = controlField p.opEwds then .ewds (padField c)
  else .reserved

/-- The class of reserved words (R90) a word falls in. -/
def reservedReason (c : Command) : DecodeError :=
  if c.getLsbD 10 = false then .noStartBit
  else if c.extractLsb' 8 2 = 3 then .reservedOperation
  else .reservedControl

/-- The instruction of a frame of 11 bits (R83). -/
def decodeEep11 (p : Params) (c : Command) : Except DecodeError Instr :=
  match decodeCommand p c with
  | .read a => .ok (.eepRead a)
  | .write _ => .error .writeWithoutData
  | .ewen pad => .ok (.eepEwen pad)
  | .ewds pad => .ok (.eepEwds pad)
  | .reserved => .error (reservedReason c)

/-- The command word of a frame of 27 bits: the 11 bits sent first (R83). -/
def frameCommand (w : BitVec 27) : Command := w.extractLsb' 16 11

/-- The data word of a frame of 27 bits (R83, R86). -/
def frameData (w : BitVec 27) : Half := w.extractLsb' 0 16

/-- The instruction of a frame of 27 bits: the device tells it from a frame of 11 bits by the `OP` field (R92). -/
def decodeEep27 (p : Params) (w : BitVec 27) : Except DecodeError Instr :=
  match decodeCommand p (frameCommand w) with
  | .write a => .ok (.eepWrite a (frameData w))
  | .reserved => .error (reservedReason (frameCommand w))
  | .read _ => .error .dataWithoutWrite
  | .ewen _ => .error .dataWithoutWrite
  | .ewds _ => .error .dataWithoutWrite

/-- The word index an OTP command selects, if the word is a read command (R61, R88, R91). -/
def decodeOtpCommand (p : Params) (w : Word) : Option (BitVec 5) :=
  if w.extractLsb' 5 27 = p.otpRdFlag.extractLsb' 5 27 then some (w.extractLsb' 0 5) else none

/-- The host request of a `HOSTREQ` word (R81); all eight values of `opsel` are assigned. -/
def hostreqInstr (p : Params) (w : Nat) : Instr :=
  let offset := narrow p.wOff (w / 8)
  let length := narrow p.wOff (w / 8 / 2 ^ p.wOff)
  let bufValid := w / 8 / 2 ^ p.wOff / 2 ^ p.wOff % 2 == 1
  match w % 8 with
  | 0 => .otpRead offset length bufValid
  | 1 => .otpWrite offset length bufValid
  | 2 => .seepromRead offset length bufValid
  | 3 => .seepromWrite offset length bufValid
  | 4 => .boot0Read offset length bufValid
  | 5 => .boot0Write offset length bufValid
  | 6 => .sotpRead offset length bufValid
  | _ => .sotpWrite offset length bufValid

/-- The instruction of a `HOSTREQ` word (R81, U25). -/
def decodeHostreq (p : Params) (w : Nat) : Except DecodeError Instr :=
  if w < 2 ^ (2 * p.wOff + 4) then .ok (hostreqInstr p w) else .error .requestTooWide

/-- The decoder: total, rejecting by name. -/
def decode (p : Params) : Raw → Except DecodeError Instr
  | .hostreq w => decodeHostreq p w
  | .eep11 w => decodeEep11 p w
  | .eep27 w => decodeEep27 p w
  | .otpcmd32 w =>
    match decodeOtpCommand p w with
    | some i => .ok (.otpCmdRead i)
    | none => .error .reservedOtpCommand

/-! ### The encoder -/

/-- Assembly of a command word with an address: `OP | a` (R84, R85). -/
def addressCommand (base : Command) (a : Byte) : Command := base ||| a.setWidth 11

/-- A control command word with its ignored bits (R84). -/
def controlCommand (base : Command) (pad : BitVec 6) : Command := base ||| pad.setWidth 11

/-- The OTP command word `OTP_RD_FLAG | zext_32(w)` (R88). -/
def otpCommand (p : Params) (w : BitVec 5) : Word := p.otpRdFlag ||| w.setWidth 32

/-- The `HOSTREQ` word of a request (R81, log 1). -/
def packHostreq (p : Params) (opsel : BitVec 3) (offset length : Nat) (bufValid : Bool) : Nat :=
  opsel.toNat + 8 * (narrow p.wOff offset + 2 ^ p.wOff * (narrow p.wOff length + 2 ^ p.wOff * bufValid.toNat))

/-- The encoder. -/
def encode (p : Params) : Instr → Raw
  | .otpRead o l b => .hostreq (packHostreq p 0 o l b)
  | .otpWrite o l b => .hostreq (packHostreq p 1 o l b)
  | .seepromRead o l b => .hostreq (packHostreq p 2 o l b)
  | .seepromWrite o l b => .hostreq (packHostreq p 3 o l b)
  | .boot0Read o l b => .hostreq (packHostreq p 4 o l b)
  | .boot0Write o l b => .hostreq (packHostreq p 5 o l b)
  | .sotpRead o l b => .hostreq (packHostreq p 6 o l b)
  | .sotpWrite o l b => .hostreq (packHostreq p 7 o l b)
  | .eepRead a => .eep11 (addressCommand p.opRead a)
  | .eepWrite a d => .eep27 (addressCommand p.opWrite a ++ d)
  | .eepEwen pad => .eep11 (controlCommand p.opEwen pad)
  | .eepEwds pad => .eep11 (controlCommand p.opEwds pad)
  | .otpCmdRead w => .otpcmd32 (otpCommand p w)

/-! ### Words numbered as spec/opcode_table.json numbers them -/

/-- The word of a format that a table row's bits stand for: up to 8 bits are `opsel` with every operand above them
0, up to 16 bits an `EEP11` word, up to 32 bits an `EEP27` word or an `OTPCMD32` word (bit 31, always 0 above a
27-bit frame, tells them apart), more than that a whole `HOSTREQ` word. -/
def Raw.ofTableWord (nbits w : Nat) : Option Raw :=
  if nbits ≤ 8 then if w < 2 ^ 8 then some (.hostreq w) else none
  else if nbits ≤ 16 then if w < 2 ^ 11 then some (.eep11 (BitVec.ofNat 11 w)) else none
  else if nbits ≤ 32 then
    if w < 2 ^ 27 then some (.eep27 (BitVec.ofNat 27 w))
    else if w < 2 ^ 32 then some (.otpcmd32 (BitVec.ofNat 32 w)) else none
  else some (.hostreq w)

/-- The instruction the decoder reads from a table word, with the parameters the machine has after reset. -/
def decodeTableWord (nbits w : Nat) : Option Instr :=
  match Raw.ofTableWord nbits w with
  | some r =>
    match decode Machine.platformParams r with
    | .ok i => some i
    | .error _ => none
  | none => none

end Sys2Proof
end

