-- ==== Sys2Proof/Machine/State.lean ====
section
/-! DEFINITION. The state of the machine as plain data (10_state.md), its inputs, what an operation can be disturbed
by, the reasons of a refusal, and the state after reset. -/

namespace Sys2Proof.Machine

/-- A byte space: address and byte, addresses strictly rising, no entry equal to what an unlisted address reads as
(`Memory.wf` of Machine/Memory.lean). -/
abbrev Memory := List Host.Cell

/-- The values of `phase` (R27). -/
inductive Phase where
  | idle
  | check
  | plan
  | opening
  | xfer
  | closing
deriving DecidableEq, Repr

/-- The values of `status`; their codes are `Status.code` (R26, R187). -/
inductive Status where
  | ok
  | precond
  | illegal
  | timeout
deriving DecidableEq, Repr

/-- The four regions (R3), numbered as in `opsel[2:1]` (R81). -/
inductive Region where
  | otp
  | seeprom
  | boot0
  | sotp
deriving DecidableEq, Repr

/-- The two variants of the mirror window (R52, R170). -/
inductive Mirror where
  | boot0
  | sotp
deriving DecidableEq, Repr

/-- The lines the master drives (R29). -/
inductive Line where
  | cs
  | clk
  | dOut
deriving DecidableEq, Repr

/-- The platform registers of the register trace (R10, R50). -/
inductive Reg where
  | otpCmd
  | otpData
  | prot
deriving DecidableEq, Repr

/-- An event of the trace of R17. -/
inductive Event where
  /-- `Line(L) <- b`. -/
  | line (l : Line) (b : Bool)
  /-- `Delay()`. -/
  | delay
  /-- `Sample(DI)` with the level it returned. -/
  | sample (b : Bool)
  /-- `RegRead(REG)` with the value it returned. -/
  | regRead (r : Reg) (v : Word)
  /-- `RegWrite(REG, v)`. -/
  | regWrite (r : Reg) (v : Word)
  /-- `MemRead(addr, 4)` with the value it returned. -/
  | memRead (addr : Nat) (v : Word)
deriving DecidableEq, Repr

/-- An access to the caller buffer (R14, R108). -/
inductive BufEvent where
  | read (i : Nat)
  | write (i : Nat)
deriving DecidableEq, Repr

/-- One step of the sequencer: a primitive of R10 or a register assignment of the pseudocode. -/
inductive Micro where
  /-- `phase <- P` (R27). -/
  | setPhase (p : Phase)
  /-- `Line(L) <- b`. -/
  | line (l : Line) (b : Bool)
  /-- `Delay()`. -/
  | delay
  /-- `tx_val <- v`, with `n` bits to send (R133). -/
  | loadTx (v : Half) (n : Nat)
  /-- `tx_val <- blk[15:0]`, with `n` bits to send (R133, R142). -/
  | loadTxBlk (n : Nat)
  /-- `Line(DO) <- tx_val[i]`; `i` bits are then still to send (R133). -/
  | txBit (i : Nat)
  /-- `rx_acc <- 0`, with `n` bits to receive (R138). -/
  | clearRx (n : Nat)
  /-- `rx_acc <- (rx_acc << 1) | Sample(DI)`; `i` bits are then still to receive (R138). -/
  | rxBit (i : Nat)
  /-- `blk[15:0] <- rx_acc` (R140). -/
  | storeRx
  /-- `blk[15:0] <- d`: the data word of a write frame taken as an instruction. -/
  | loadBlk (d : Half)
  /-- `poll_cnt <- 0` (R143). -/
  | pollStart
  /-- The loop of `PollReady()` (R143). -/
  | poll
  /-- At most `n` rounds of that loop: a poll that something meets (log 20). -/
  | pollSome (n : Nat)
  /-- `RegWrite(OTP_CMD, v)` (R120). -/
  | otpWriteCmd (v : Word)
  /-- `blk <- RegRead(OTP_DATA)` (R120). -/
  | otpReadData
  /-- `blk <- MemRead(BASE_M + 4*i, 4)` (R170). -/
  | mirrorLoad (m : Mirror) (i : Nat)
  /-- R171. -/
  | protCheck
  /-- R172. -/
  | protExpose
  /-- R175, first access. -/
  | protReread
  /-- R175, second access. -/
  | protRestore
  /-- R156. -/
  | lockIrq
  /-- R163. -/
  | unlockIrq
  /-- `count <- 0`, and the status the loop ends with if nothing fails (R105, R107). -/
  | startLoop
  /-- `cur_block <- i` (R105, R107). -/
  | setBlock (i : Nat)
  /-- `lo`, `hi`, `bufpos` of the current block (R104). -/
  | slice (B : Nat)
  /-- One byte of the copy into the caller buffer (R105). -/
  | copyByte (B p : Nat)
  /-- One byte of the splice from the caller buffer (R107, R159). -/
  | spliceByte (B p : Nat)
  /-- `count <- count + (hi - lo)` (R105). -/
  | addCount
  /-- The end of a block of the write loop: its bytes count, or the loop stops with a time-out (R107, R161). -/
  | blockDone
  /-- What is unspecified after a time-out (R161). -/
  | afterTimeout
  /-- Return (R195). -/
  | finish
deriving DecidableEq, Repr

/-- A micro-operation in its place: one that belongs to the block loop is passed over once the loop has stopped with
a time-out (R27, R161). -/
structure Item where
  inLoop : Bool
  op : Micro
deriving DecidableEq, Repr

/-- The working registers of the sequencer (R22 to R28). A register of `W_OFF` bits is a number, narrowed where it is
written (`narrow`); `Sequencer.fits` says that it holds no more. Beside them the two temporaries `v` and `ok` its
pseudocode names (R171, R142), and the model's own `heldOpen`, `hung`
and `ahead`. -/
structure Sequencer where
  phase : Phase
  reqOp : BitVec 3
  reqOffset : Nat
  reqLength : Nat
  bufValid : Bool
  startBlock : Nat
  startOff : Pos
  endBlock : Nat
  endRes : Pos
  endSum : Nat
  curBlock : Nat
  lo : Pos
  hi : Pos
  bufpos : Nat
  blk : Word
  txVal : Half
  rxAcc : Half
  bitCnt : BitVec 5
  pollCnt : Nat
  count : Nat
  status : Status
  protChanged : Bool
  irqSaved : Bool
  /-- `v` of R171, `v2` of R175. -/
  v : Word
  /-- The answer of the last `PollReady()`, absent while the poll is undecided (R143). -/
  ok : Option Bool
  /-- This operation has set the protection bit (R172) and has not cleared it again (R175): what R211 asks of a reset
  inside a mirror read. It is false in every other operation, where `prot_changed` has no value (R21; log 18). -/
  heldOpen : Bool
  /-- The sequencer stands in a completion poll whose device does not become ready of itself (R227, U17; log 11). -/
  hung : Bool
  /-- What the operation has still to do once that poll returns (R143; log 11). -/
  ahead : List Item
deriving DecidableEq, Repr

/-- The line latches and the lock output (R29, R30). -/
structure Lines where
  cs : Bool
  clk : Bool
  dOut : Bool
  lock : Bool
deriving DecidableEq, Repr

/-- The platform registers (R31 to R34) and the processor's side of R192: an interrupt that waits because it is
masked, and for each handler run the value `lock` had then (log 21). -/
structure Platform where
  otpCmd : Word
  otpData : Word
  prot : Word
  irqEnable : Bool
  irqPending : Bool
  handlers : List Bool
deriving DecidableEq, Repr

/-- The EEPROM device (R37, R38, R62 to R68). -/
structure Eeprom where
  /-- `eep_mem`: byte `k` of the region (R51). -/
  mem : Memory
  /-- `eep_wel`. -/
  wel : Bool
  /-- `eep_busy`. -/
  busy : Bool
  /-- The word of the pending write (R66). -/
  pendAddr : BitVec 7
  /-- The data of the pending write (R66). -/
  pendData : Half
  /-- `Delay()` events still to pass before the device is ready; `none` when nothing is under way, and for a write
  that never completes (R66, log 8). -/
  left : Option Nat
  /-- After a write frame that was not enabled: the drawn level of the line is not ready yet (R66, log 9). -/
  unready : Bool
  /-- The last frame that had clock edges was a write frame (R67). -/
  afterWrite : Bool
  /-- Clock edges of the present frame (R62). -/
  edges : Nat
  /-- The bits taken in the present frame, the last one in bit 0. -/
  shift : BitVec 27
  /-- The command word of the present frame, latched at its 11th edge (R63). -/
  cmd : Command
  /-- A clock edge of the present frame met a busy device (R68). -/
  spoiled : Bool
  /-- The environment's choice of the moments `t` of the next writes; free values when it is empty (R66, log 8). -/
  times : List (Option Nat)
deriving DecidableEq, Repr

/-- What can meet an operation from outside while it runs (log 20). -/
inductive DisturbKind where
  /-- A reset of the block (R211). -/
  | reset
  /-- Loss and return of power (R193, R200). -/
  | powerLoss
  /-- An event `irq_enable` cannot mask (R193). -/
  | nonMaskable
  /-- A maskable interrupt (R192). -/
  | interrupt
  /-- A second request, or a handler that uses the block, its lines, `OTP_CMD` or `PROT` (R195, U22). -/
  | intruder
deriving DecidableEq, Repr

/-- A disturbance and its moment: after `after` micro-operations of the operation, counted from the disturbance before
it, and, when the next one is a completion poll, after `samples` rounds of it. -/
structure Disturbance where
  after : Nat
  samples : Nat
  kind : DisturbKind
deriving DecidableEq, Repr

/-- What the world around the block does next (log 12, log 30). -/
inductive Input where
  /-- The host presents a request; also a command frame or an OTP command word taken as an instruction. -/
  | present (r : Raw)
  /-- The host fills the caller buffer (R14). -/
  | setBuf (bytes : List Byte)
  /-- Software outside the block writes `PROT` (R33). -/
  | setProt (v : Word)
  /-- The processor changes its interrupt enable (R34). -/
  | setIrq (b : Bool)
  /-- A maskable interrupt arrives (R192). -/
  | interrupt
  /-- An event arrives that `irq_enable` cannot mask (R193). -/
  | nonMaskable
  /-- Nothing happens for a step: a sequencer that stands in a poll goes on with it (R143). -/
  | wait
  /-- The EEPROM device takes its own step and completes a write (R66). -/
  | deviceStep
  /-- What will meet the next operation while it runs, or the rest of one that stands in a poll (log 20). -/
  | disturb (ds : List Disturbance)
  /-- Reset of the block (R210 to R212). -/
  | reset
  /-- Loss and return of power (R200). -/
  | powerCycle
deriving DecidableEq, Repr

/-- Why the machine stops with a fault: never. "The block raises no exception, trap or interrupt, in any
circumstance" (R185), and no address outside a region is ever accessed (R101), so the type has no constructor
(log 27). Safe. -/
inductive Fault : Type
deriving DecidableEq, Repr

/-- Why an input has no meaning. -/
inductive Refusal where
  /-- Raised by an arm of `exec` whose instruction has no meaning in the model; safe. No arm raises it. -/
  | notModelled (mnemonic : String)
  /-- Raised by `step` when the word presented is no instruction: the master never sends it (R63, R90, R91; U12,
  U19 say refuse). Safe. -/
  | undecodable (e : DecodeError)
  /-- Raised by every meaning, and by `step`, when an operation is already in progress, or when another user of the
  block meets a running operation (R195, D29, U22 say refuse). Safe. -/
  | concurrentUse
deriving DecidableEq, Repr

/-- The state. `params` is configuration and never written; `draws`, `trace`, `bufTrace`, `inbox` and `disturb`
are the model's own (INVENTORY.md, State). -/
structure State where
  params : Params
  seq : Sequencer
  lines : Lines
  plat : Platform
  eep : Eeprom
  /-- `fuse`: byte `k` of region `OTP` (R36, R51). -/
  fuse : Memory
  /-- `boot0_rom`: byte `k` of region `BOOT0` (R39, R51). -/
  boot0 : Memory
  /-- `sotp`: byte `k` of region `SOTP` (R39, R51). -/
  sotp : Memory
  /-- The caller buffer (R14). -/
  buf : Memory
  /-- The trace of R17, newest event first (log 24). -/
  trace : List Event
  /-- The accesses to the caller buffer, newest first (log 24). -/
  bufTrace : List BufEvent
  /-- Free values drawn so far (log 7). -/
  draws : Nat
  /-- What the world does next, first input first (log 12). -/
  inbox : List Input
  /-- What will meet the next operation, first first (log 20). -/
  disturb : List Disturbance
deriving DecidableEq, Repr

/-- The sequencer after reset: `IDLE`, count 0, status OK, flags 0 (R40, R210); R40 leaves the other working
registers unspecified, and the model names 0 for them (log 6). -/
def Sequencer.reset : Sequencer where
  phase := .idle
  reqOp := 0
  reqOffset := 0
  reqLength := 0
  bufValid := false
  startBlock := 0
  startOff := 0
  endBlock := 0
  endRes := 0
  endSum := 0
  curBlock := 0
  lo := 0
  hi := 0
  bufpos := 0
  blk := 0
  txVal := 0
  rxAcc := 0
  bitCnt := 0
  pollCnt := 0
  count := 0
  status := .ok
  protChanged := false
  irqSaved := false
  v := 0
  ok := none
  heldOpen := false
  hung := false
  ahead := []

/-- Lines deasserted and low, lock released (R40, R210). -/
def Lines.reset : Lines where
  cs := false
  clk := false
  dOut := false
  lock := false

/-- R40 leaves the platform registers unspecified at reset; the model names 0 for them (log 6). -/
def Platform.reset : Platform where
  otpCmd := 0
  otpData := 0
  prot := 0
  irqEnable := false
  irqPending := false
  handlers := []

/-- The device at power-on: `eep_wel = 0`, `eep_busy = 0` (R40); nothing of a frame, no write under way. -/
def Eeprom.reset : Eeprom where
  mem := []
  wel := false
  busy := false
  pendAddr := 0
  pendData := 0
  left := none
  unready := false
  afterWrite := false
  edges := 0
  shift := 0
  cmd := 0
  spoiled := false
  times := []

/-- The machine right after reset (R40, R210, R212). -/
def State.reset : State where
  params := platformParams
  seq := Sequencer.reset
  lines := Lines.reset
  plat := Platform.reset
  eep := Eeprom.reset
  fuse := []
  boot0 := []
  sotp := []
  buf := []
  trace := []
  bufTrace := []
  draws := 0
  inbox := []
  disturb := []

end Sys2Proof.Machine
end

