-- ==== Sys2Proof/Machine/Memory.lean ====
section
/-! DEFINITION. Byte spaces in canonical form, and the byte order of R55, which stands in this file alone. -/

namespace Sys2Proof.Machine

/-- What an address that no entry lists reads as: in every byte space 0 (DESIGN CHOICE, log 5). -/
def Memory.fill : Byte := 0

/-- The byte at an address. -/
def Memory.read : Memory → Nat → Byte
  | [], _ => Memory.fill
  | (x, c) :: t, a => if x = a then c else Memory.read t a

/-- An entry in front of the rest, or none where the byte is what an unlisted address reads as. -/
def Memory.put (a : Nat) (b : Byte) (t : Memory) : Memory :=
  if b = Memory.fill then t else (a, b) :: t

/-- Store one byte; the canonical form is kept. -/
def Memory.write : Memory → Nat → Byte → Memory
  | [], a, b => Memory.put a b []
  | (x, c) :: t, a, b =>
    if a < x then Memory.put a b ((x, c) :: t)
    else if a = x then Memory.put a b t
    else (x, c) :: Memory.write t a b

/-- The canonical form: addresses strictly rising, no entry equal to what an unlisted address reads as. -/
def Memory.wf : Memory → Bool
  | [] => true
  | (x, c) :: t =>
    c != Memory.fill && t.all (fun e => decide (x < e.1)) && Memory.wf t

/-- Every listed address is below `n`. -/
def Memory.below (m : Memory) (n : Nat) : Bool := m.all fun e => decide (e.1 < n)

/-- The memory whose byte `k` is `f k` for `k < n`. -/
def Memory.ofFn (f : Nat → Byte) : Nat → Memory
  | 0 => []
  | n + 1 => Memory.write (Memory.ofFn f n) n (f n)

/-- `size` free bytes of draw `n`, from slot `slot` on (log 7). Irreducible: a proof uses `Memory.read_drawn`. -/
@[irreducible] def Memory.drawn (n slot size : Nat) : Memory :=
  Memory.ofFn (fun k => Config.freeVec 8 n (k + slot)) size

/-- The memory that holds a list of bytes from address `a` on. -/
def Memory.ofBytes : Nat → List Byte → Memory
  | _, [] => []
  | a, b :: bs => Memory.put a b (Memory.ofBytes (a + 1) bs)

/-- Byte position `p` of a block of `B` bytes: position 0 is the most significant byte (R24, R55). -/
def blockByte (B p : Nat) (w : Word) : Byte := w.extractLsb' (8 * (B - 1 - p)) 8

/-- The word with byte position `p` replaced (R107, R159). -/
def setBlockByte (B p : Nat) (b : Byte) (w : Word) : Word :=
  (w &&& ~~~((0xFF : Word) <<< (8 * (B - 1 - p)))) ||| (b.setWidth 32 <<< (8 * (B - 1 - p)))

/-- Word `i` of the EEPROM array (R37, R51, R55). -/
def Memory.half (m : Memory) (i : Nat) : Half := m.read (2 * i) ++ m.read (2 * i + 1)

/-- Word `i` of the fuse array or of a mirrored memory (R36, R39, R51, R55). -/
def Memory.word (m : Memory) (i : Nat) : Word :=
  m.read (4 * i) ++ m.read (4 * i + 1) ++ m.read (4 * i + 2) ++ m.read (4 * i + 3)

/-- Store word `i` of the EEPROM array. -/
def Memory.writeHalf (m : Memory) (i : Nat) (d : Half) : Memory :=
  (m.write (2 * i) (d.extractLsb' 8 8)).write (2 * i + 1) (d.extractLsb' 0 8)

end Sys2Proof.Machine
end

