-- ==== Sys2Proof/Machine/Update.lean ====
section
/-! DEFINITION. The named updates of the state; Laws/State.lean says what each field reads after each of them. -/

namespace Sys2Proof.Machine

/-- Replace the working registers. -/
def State.setSeq (s : State) (q : Sequencer) : State := { s with seq := q }

/-- Replace the line latches and the lock. -/
def State.setLines (s : State) (l : Lines) : State := { s with lines := l }

/-- Replace the platform registers. -/
def State.setPlat (s : State) (p : Platform) : State := { s with plat := p }

/-- Replace the EEPROM device. -/
def State.setEep (s : State) (d : Eeprom) : State := { s with eep := d }

/-- Replace the caller buffer. -/
def State.setBuf (s : State) (m : Memory) : State := { s with buf := m }

/-- Record an event of the trace (R17). -/
def State.emit (s : State) (e : Event) : State := { s with trace := e :: s.trace }

/-- Record an access to the caller buffer. -/
def State.emitBuf (s : State) (e : BufEvent) : State := { s with bufTrace := e :: s.bufTrace }

/-- One more free value has been drawn (log 7). -/
def State.drawn (s : State) : State := { s with draws := s.draws + 1 }

/-- Replace the inputs that are still to come. -/
def State.setInbox (s : State) (is : List Input) : State := { s with inbox := is }

/-- Replace the disturbances of the next operation. -/
def State.setDisturb (s : State) (ds : List Disturbance) : State := { s with disturb := ds }

end Sys2Proof.Machine
end

