-- ==== Sys2Proof/Machine/Device.lean ====
section
/-! DEFINITION. The environment contracts of 20_memory.md section 4: the EEPROM device (R62 to R68), the OTP
register pair (R61) and the mirror window (R60). -/

namespace Sys2Proof.Machine

/-! ### The EEPROM device -/

/-- A `draw` of the whole device state (R68): the array, `eep_wel`, `eep_busy`, what is pending and when it
completes. -/
def Eeprom.havoc (n : Nat) (d : Eeprom) : Eeprom :=
  { d with
    mem := Memory.drawn n 16 256
    wel := Config.freeBit n 0
    busy := Config.freeBit n 1
    unready := Config.freeBit n 2
    pendAddr := Config.freeVec 7 n 3
    pendData := Config.freeVec 16 n 4
    left := Config.freeTime n 5
    afterWrite := true }

/-- Chip-select is asserted: a frame begins (R62). -/
def Eeprom.frameStart (d : Eeprom) : Eeprom :=
  { d with edges := 0, shift := 0, spoiled := false }

/-- The 11th bit of a frame completes the command word: enable-writes and disable-writes act at once (R63, R65). -/
def Eeprom.latchCommand (p : Params) (d : Eeprom) : Eeprom :=
  let c : Command := d.shift.setWidth 11
  match decodeCommand p c with
  | .ewen _ => { d with cmd := c, wel := true }
  | .ewds _ => { d with cmd := c, wel := false }
  | .read _ => { d with cmd := c }
  | .write _ => { d with cmd := c }
  | .reserved => { d with cmd := c }

/-- The device takes the bit on the data-out line at a clock edge (R62). -/
def Eeprom.takeBit (bit : Bool) (d : Eeprom) : Eeprom :=
  { d with
    edges := d.edges + 1
    shift := (d.shift <<< 1) ||| (BitVec.ofBool bit).setWidth 27 }

/-- A clock edge (R62): on a busy device it is misuse, whose effect is drawn when the frame ends (R68). -/
def Eeprom.clockEdge (p : Params) (bit : Bool) (d : Eeprom) : Eeprom :=
  let d' := d.takeBit bit
  if d.busy || d.spoiled then { d' with spoiled := true }
  else if d'.edges = 11 then d'.latchCommand p
  else d'

/-- A frame the contract gives an effect: a read frame or a write frame of 27 edges, a control frame of 11
(R63 to R66; log 15). -/
def Eeprom.frameClean (p : Params) (d : Eeprom) : Bool :=
  match decodeCommand p d.cmd with
  | .read _ => d.edges == 27
  | .write _ => d.edges == 27
  | .ewen _ => d.edges == 11
  | .ewds _ => d.edges == 11
  | .reserved => false

/-- The moment of completion the environment draws for a write (R66, log 8). -/
def Eeprom.moment (n : Nat) (d : Eeprom) : Option Nat :=
  match d.times with
  | t :: _ => t
  | [] => Config.freeTime n 0

/-- A write frame of word `a` has ended (R66). Enabled: the device is busy with the pair, and the word reads as
anything until it completes. Not enabled: nothing changes but the level of the data-in line, which is drawn. -/
def Eeprom.beginWrite (n : Nat) (a : Byte) (d : Eeprom) : Eeprom :=
  if d.wel then
    { d with
      mem := d.mem.writeHalf (a.toNat % 128) (Config.freeVec 16 n 1)
      busy := true
      pendAddr := a.setWidth 7
      pendData := d.shift.setWidth 16
      left := d.moment n
      times := d.times.tail
      afterWrite := true }
  else
    { d with
      unready := true
      left := d.moment n
      times := d.times.tail
      afterWrite := true }

/-- Chip-select is deasserted: the frame ends and a write takes effect (R66). A frame without edges is a status
frame and changes nothing (R67); a frame that met a busy device (R68), or that the contract gives no effect (R63),
draws the device state. `closing` says that the frame is the disable-writes frame that closes a write after a
time-out: R161 then says what is unspecified (`State.timedOut`), the rest of the array stays (R59; log 14). -/
def Eeprom.frameEnd (p : Params) (n : Nat) (closing : Bool) (d : Eeprom) : Eeprom :=
  if d.edges = 0 then d
  else if d.spoiled || !d.frameClean p then (if closing then d else d.havoc n)
  else
    match decodeCommand p d.cmd with
    | .write a => d.beginWrite n a
    | .read _ => { d with afterWrite := false }
    | .ewen _ => { d with afterWrite := false }
    | .ewds _ => { d with afterWrite := false }
    | .reserved => { d with afterWrite := false }

/-- The device completes what is under way (R66). -/
def Eeprom.complete (d : Eeprom) : Eeprom :=
  { d with
    mem := if d.busy then d.mem.writeHalf d.pendAddr.toNat d.pendData else d.mem
    busy := false
    unready := false
    left := none }

/-- The device's own time, counted in `Delay()` events (R66, log 8). -/
def Eeprom.tick (d : Eeprom) : Eeprom :=
  match d.left with
  | none => d
  | some 0 => d.complete
  | some (k + 1) => { d with left := some k }

/-- The level the device drives on the data-in line, or `none` where the contract leaves it open: chip-select
deasserted (R62), the first ten edges, a control or write frame, after the data (R64), a spoiled frame (R68), and
an edgeless frame that follows no write frame (R67). -/
def Eeprom.drives (p : Params) (cs : Bool) (d : Eeprom) : Option Bool :=
  if cs = false then none
  else if d.edges = 0 then
    if d.afterWrite then some (if d.busy || d.unready then !p.readyLevel else p.readyLevel) else none
  else if d.spoiled || decide (d.edges < 11) then none
  else
    match decodeCommand p d.cmd with
    | .read a =>
      if d.edges = 11 then some false
      else if d.edges ≤ 27 then some ((d.mem.half (a.toNat % 128)).getLsbD (27 - d.edges))
      else none
    | .write _ => none
    | .ewen _ => none
    | .ewds _ => none
    | .reserved => none

/-! ### The fuse array -/

/-- What `OTP_DATA` holds after a write of `v` to `OTP_CMD`: the selected word (R32, R61), any value after a word
that is no read command (R61, U19; log 29). -/
def State.otpSelect (s : State) (v : Word) : Word :=
  match decodeOtpCommand s.params v with
  | some w => s.fuse.word w.toNat
  | none => Config.freeVec 32 s.draws 0

/-! ### The mirror window -/

/-- The base address of a variant's window (R52, R170). -/
def mirrorBase (p : Params) : Mirror → Nat
  | .boot0 => p.boot0Base
  | .sotp => p.sotpBase

/-- The memory a variant shadows (R39). -/
def State.mirrored (s : State) : Mirror → Memory
  | .boot0 => s.boot0
  | .sotp => s.sotp

/-- `PROT.MIRROR_EN` (R33). -/
def State.mirrorEnabled (s : State) : Bool := s.plat.prot &&& s.params.protBit != 0

/-- The value an aligned load of block `i` returns: the mirrored word, any value with the window closed (R60). -/
def State.mirrorWord (s : State) (m : Mirror) (i : Nat) : Word :=
  if s.mirrorEnabled then (s.mirrored m).word i else Config.freeVec 32 s.draws 0

end Sys2Proof.Machine
end

