-- ==== Sys2Proof/Machine/Operands.lean ====
section
/-! DEFINITION. Operand assembly (R82, R85, R88) and the arithmetic of the range adapter (R100 to R104, R109). -/

namespace Sys2Proof.Machine

/-- `block_size` (R3). -/
def Region.blockSize : Region → Nat
  | .otp => 4
  | .seeprom => 2
  | .boot0 => 4
  | .sotp => 4

/-- `total_size` (R3, R7, R8). -/
def Region.totalSize (p : Params) : Region → Nat
  | .otp => 128
  | .seeprom => 256
  | .boot0 => p.boot0Size
  | .sotp => 128

/-- `opsel[2:1]` of a region (R81). -/
def Region.code : Region → BitVec 2
  | .otp => 0
  | .seeprom => 1
  | .boot0 => 2
  | .sotp => 3

/-- `opsel` of a request: region and direction, 1 for a write (R81). -/
def Region.opsel (r : Region) (write : Bool) : BitVec 3 := r.code ++ BitVec.ofBool write

/-- The four tests of R101; all of them give the same answer, so their order cannot be observed. -/
def rangeAccepted (total : Nat) (q : Sequencer) : Bool :=
  q.bufValid && q.reqLength != 0 && decide (q.reqOffset < total) && decide (q.endSum ≤ total)

/-- `end_sum <- zext(req_offset) + zext(req_length)`, a register of `W_OFF + 1` bits, so that the sum does not wrap
(R82, R101). -/
def Sequencer.formEndSum (p : Params) (q : Sequencer) : Sequencer :=
  { q with endSum := narrow (p.wOff + 1) (q.reqOffset + q.reqLength) }

/-- The range plan of R102, first half. -/
def Sequencer.planFirst (p : Params) (B : Nat) (q : Sequencer) : Sequencer :=
  { q with
    startBlock := narrow p.wOff (q.reqOffset / B)
    startOff := BitVec.ofNat 3 (q.reqOffset % B)
    endBlock := narrow p.wOff (q.endSum / B)
    endRes := BitVec.ofNat 3 (q.endSum % B) }

/-- The adjustment of an exact end (R103). -/
def Sequencer.planAdjust (B : Nat) (q : Sequencer) : Sequencer :=
  if q.endRes = 0 then { q with endBlock := q.endBlock - 1, endRes := BitVec.ofNat 3 B } else q

/-- The range plan (R102, R103). -/
def Sequencer.plan (p : Params) (B : Nat) (q : Sequencer) : Sequencer := (q.planFirst p B).planAdjust B

/-- `lo` of block `i` (R104). -/
def Sequencer.sliceLo (q : Sequencer) (i : Nat) : Pos :=
  if i = q.startBlock then q.startOff else 0

/-- `hi` of block `i` (R104). -/
def Sequencer.sliceHi (B : Nat) (q : Sequencer) (i : Nat) : Pos :=
  if i = q.endBlock then q.endRes else BitVec.ofNat 3 B

/-- The slice of the current block (R104): `lo`, `hi` and `bufpos`. -/
def Sequencer.slice (p : Params) (B : Nat) (q : Sequencer) : Sequencer :=
  let i := q.curBlock
  let lo := q.sliceLo i
  { q with
    lo := lo
    hi := q.sliceHi B i
    bufpos := narrow p.wOff (i * B + lo.toNat - q.reqOffset) }

/-- The byte positions of block `i` that belong to the range, ascending: `lo .. hi-1` (R104). -/
def Sequencer.positions (B : Nat) (q : Sequencer) (i : Nat) : List Nat :=
  List.range' (q.sliceLo i).toNat ((q.sliceHi B i).toNat - (q.sliceLo i).toNat)

/-- Block `i` is only partially covered by the range: `hi - lo < B` (R104, R107). -/
def Sequencer.partialBlock (B : Nat) (q : Sequencer) (i : Nat) : Bool :=
  (q.sliceHi B i).toNat - (q.sliceLo i).toNat < B

/-- The block indices of the loops of R105 and R107, ascending. -/
def Sequencer.blocks (q : Sequencer) : List Nat :=
  List.range' q.startBlock (q.endBlock + 1 - q.startBlock)

/-- Every register of `W_OFF` bits holds a number of that width, and `end_sum` one of one bit more (R22, R23, R26). -/
def Sequencer.fits (p : Params) (q : Sequencer) : Prop :=
  q.reqOffset < 2 ^ p.wOff ∧ q.reqLength < 2 ^ p.wOff ∧ q.startBlock < 2 ^ p.wOff ∧ q.endBlock < 2 ^ p.wOff ∧
    q.curBlock < 2 ^ p.wOff ∧ q.bufpos < 2 ^ p.wOff ∧ q.count < 2 ^ p.wOff ∧ q.endSum < 2 ^ (p.wOff + 1)

/-- The command word of a read frame of block `i` (R84, R85). -/
def readCommand (p : Params) (i : Nat) : Command := addressCommand p.opRead (BitVec.ofNat 8 i)

/-- The command word of a write frame of block `i` (R84, R85). -/
def writeCommand (p : Params) (i : Nat) : Command := addressCommand p.opWrite (BitVec.ofNat 8 i)

/-- The address of block `i` of a mirror variant (R52, R170). -/
def mirrorAddress (p : Params) (m : Mirror) (i : Nat) : Nat := mirrorBase p m + 4 * i

/-- The address of a platform register (R8, R31 to R33). -/
def regAddress (p : Params) : Reg → Nat
  | .otpCmd => p.otpCmdAddr
  | .otpData => p.otpDataAddr
  | .prot => p.protAddr

end Sys2Proof.Machine
end

