-- ==== Sys2Proof/Machine/Flags.lean ====
section
/-! DEFINITION. The block has no condition codes (R28). Its two flags, `prot_changed` and `irq_saved`, with the steps
that set and read them (R156, R163, R171, R172, R175), and the status codes (R187). -/

namespace Sys2Proof.Machine

/-- The 2-bit code of a status (R26, R187). -/
def Status.code : Status → BitVec 2
  | .ok => 0
  | .precond => 1
  | .illegal => 2
  | .timeout => 3

/-- Lock (R156): save `irq_enable`, clear it, raise `lock`. -/
def State.lockIrq (s : State) : State :=
  ((s.setSeq { s.seq with irqSaved := s.plat.irqEnable }).setPlat { s.plat with irqEnable := false }).setLines
    { s.lines with lock := true }

/-- A maskable interrupt arrives (R192): taken where `irq_enable` is 1, else it waits. The handler uses neither the
block nor its lines (R195), so that taking it changes nothing the block sees (R146, log 21). -/
def State.interruptArrives (s : State) : State :=
  if s.plat.irqEnable then s.setPlat { s.plat with handlers := s.lines.lock :: s.plat.handlers }
  else s.setPlat { s.plat with irqPending := true }

/-- An interrupt that waited is taken as soon as `irq_enable` is 1 (R192). -/
def State.takePending (s : State) : State :=
  if s.plat.irqEnable && s.plat.irqPending then
    s.setPlat { s.plat with irqPending := false, handlers := s.lines.lock :: s.plat.handlers }
  else s

/-- Unlock (R163): restore `irq_enable`, release `lock`; then an interrupt that waited is taken (R192). -/
def State.unlockIrq (s : State) : State :=
  ((s.setPlat { s.plat with irqEnable := s.seq.irqSaved }).setLines { s.lines with lock := false }).takePending

/-- `v <- RegRead(PROT); prot_changed <- 0` (R171). -/
def State.protCheck (s : State) : State :=
  (s.setSeq { s.seq with v := s.plat.prot, protChanged := false }).emit (.regRead .prot s.plat.prot)

/-- Expose the window if it is not exposed, and remember that this operation did it (R172). -/
def State.protExpose (s : State) : State :=
  if s.seq.v &&& s.params.protBit = 0 then
    ((s.setPlat { s.plat with prot := s.seq.v ||| s.params.protBit }).setSeq
      { s.seq with protChanged := true, heldOpen := true }).emit (.regWrite .prot (s.seq.v ||| s.params.protBit))
  else s

/-- The first access of the restore, `v2 <- RegRead(PROT)`, if this operation exposed the window (R175). -/
def State.protReread (s : State) : State :=
  if s.seq.protChanged then
    (s.setSeq { s.seq with v := s.plat.prot }).emit (.regRead .prot s.plat.prot)
  else s

/-- The second access of the restore, `RegWrite(PROT, v2 & ~PROT_BIT)` (R175). -/
def State.protRestore (s : State) : State :=
  if s.seq.protChanged then
    ((s.setPlat { s.plat with prot := s.seq.v &&& ~~~s.params.protBit }).setSeq { s.seq with heldOpen := false }).emit
      (.regWrite .prot (s.seq.v &&& ~~~s.params.protBit))
  else s

end Sys2Proof.Machine
end

