-- ==== Sys2Proof/Machine/Ops.lean ====
section
/-! DEFINITION. The primitives of R10 as operations on the state, the micro-operations an operation is a list of, the
run of such a list with what can meet it from outside, and the acceptance of a request and its return, which stand
where another machine takes an exception and returns from it (R194, R195). -/

namespace Sys2Proof.Machine

/-! ### Primitives -/

/-- The closing steps of a write whose block loop stopped with a time-out (R161). -/
def State.closingTimeout (s : State) : Bool :=
  decide (s.seq.phase = .closing) && decide (s.seq.status = .timeout)

/-- `Line(L) <- b` (R131), with the device's side of it: a frame begins and ends with chip-select, and a change of
the clock from 0 to 1 inside a frame takes the bit on the data-out line (R62). -/
def State.line (l : Line) (b : Bool) (s : State) : State :=
  match l with
  | .dOut => (s.setLines { s.lines with dOut := b }).emit (.line .dOut b)
  | .clk =>
    let s' := (s.setLines { s.lines with clk := b }).emit (.line .clk b)
    if s.lines.cs && !s.lines.clk && b then s'.setEep (s.eep.clockEdge s.params s.lines.dOut) else s'
  | .cs =>
    let s' := (s.setLines { s.lines with cs := b }).emit (.line .cs b)
    if !s.lines.cs && b then s'.setEep s.eep.frameStart
    else if s.lines.cs && !b then (s'.setEep (s.eep.frameEnd s.params s.draws s.closingTimeout)).drawn
    else s'

/-- `Delay()` (R132): the device's time goes on (R66, log 8). -/
def State.delay (s : State) : State := (s.setEep s.eep.tick).emit .delay

/-- The present level of the data-in line: what the device drives, else a free value (R62). -/
def State.diLevel (s : State) : Bool :=
  (s.eep.drives s.params s.lines.cs).getD (Config.freeBit s.draws 0)

/-- `Sample(DI)`: the state after it; the level is `diLevel` of the state before it. -/
def State.sample (s : State) : State := (s.emit (.sample s.diLevel)).drawn

/-- `RegWrite(OTP_CMD, v)` (R61). -/
def State.otpWriteCmd (v : Word) (s : State) : State :=
  ((s.setPlat { s.plat with otpCmd := v, otpData := s.otpSelect v }).emit (.regWrite .otpCmd v)).drawn

/-- `blk <- RegRead(OTP_DATA)` (R61, R120). -/
def State.otpReadData (s : State) : State :=
  (s.setSeq { s.seq with blk := s.plat.otpData }).emit (.regRead .otpData s.plat.otpData)

/-- `blk <- MemRead(BASE_M + 4*i, 4)` (R60, R170). -/
def State.mirrorLoad (m : Mirror) (i : Nat) (s : State) : State :=
  ((s.setSeq { s.seq with blk := s.mirrorWord m i }).emit
    (.memRead (mirrorAddress s.params m i) (s.mirrorWord m i))).drawn

/-- `buf[bufpos + p - lo] <- byte position p of blk` (R105). -/
def State.copyOutByte (B : Nat) (s : State) (p : Nat) : State :=
  let i := s.seq.bufpos + p - s.seq.lo.toNat
  (s.setBuf (s.buf.write i (blockByte B p s.seq.blk))).emitBuf (.write i)

/-- `byte position p of blk <- buf[bufpos + p - lo]` (R107). -/
def State.spliceByte (B : Nat) (s : State) (p : Nat) : State :=
  let i := s.seq.bufpos + p - s.seq.lo.toNat
  (s.setSeq { s.seq with blk := setBlockByte B p (s.buf.read i) s.seq.blk }).emitBuf (.read i)

/-- One round of the completion poll (R143); nothing once it has its answer. -/
def State.pollRound (s : State) : State :=
  if s.seq.ok.isSome then s
  else
    let b := s.diLevel
    let n := s.seq.pollCnt + 1
    let s' := s.sample
    if b = s.params.readyLevel then s'.setSeq { s'.seq with pollCnt := n, ok := some true }
    else if s.params.pollLimit = some n then s'.setSeq { s'.seq with pollCnt := n, ok := some false }
    else (s'.setSeq { s'.seq with pollCnt := n }).delay

/-- At most `n` rounds of the poll. -/
def State.pollRounds : Nat → State → State
  | 0, s => s
  | n + 1, s => if s.seq.ok.isSome then s else State.pollRounds n s.pollRound

/-- Rounds after which a poll that ends of itself has ended: the bound of R143, or the device's own time (log 11). -/
def State.pollFuel (s : State) : Nat := s.params.pollLimit.getD 0 + s.eep.left.getD 0 + 2

/-- `PollReady()` (R143). A poll that does not end of itself leaves the sequencer standing in it: `hung` (R227, U17). -/
def State.poll (s : State) : State :=
  let s' := s.pollRounds s.pollFuel
  if s'.seq.ok.isSome then s' else s'.setSeq { s'.seq with hung := true }

/-- After a time-out the word of the block, `eep_wel` and `eep_busy` are unspecified (R161, U16). -/
def State.timedOut (s : State) : State :=
  (s.setEep
    { s.eep with
      mem := s.eep.mem.writeHalf (s.seq.curBlock % 128) (Config.freeVec 16 s.draws 0)
      wel := Config.freeBit s.draws 1
      busy := Config.freeBit s.draws 2
      pendAddr := BitVec.ofNat 7 s.seq.curBlock
      pendData := Config.freeVec 16 s.draws 3
      left := Config.freeTime s.draws 4 }).drawn

/-- The working registers of an idle block: `count` and `status` stay, the others have no defined value (R21,
log 10). -/
def Sequencer.idle (p : Params) (n : Nat) (q : Sequencer) : Sequencer where
  phase := .idle
  reqOp := Config.freeVec 3 n 0
  reqOffset := narrow p.wOff (Config.free n 1)
  reqLength := narrow p.wOff (Config.free n 2)
  bufValid := Config.freeBit n 3
  startBlock := narrow p.wOff (Config.free n 4)
  startOff := Config.freeVec 3 n 5
  endBlock := narrow p.wOff (Config.free n 6)
  endRes := Config.freeVec 3 n 7
  endSum := narrow (p.wOff + 1) (Config.free n 8)
  curBlock := narrow p.wOff (Config.free n 9)
  lo := Config.freeVec 3 n 10
  hi := Config.freeVec 3 n 11
  bufpos := narrow p.wOff (Config.free n 12)
  blk := Config.freeVec 32 n 13
  txVal := Config.freeVec 16 n 14
  rxAcc := Config.freeVec 16 n 15
  bitCnt := Config.freeVec 5 n 16
  pollCnt := Config.free n 17
  count := q.count
  status := q.status
  protChanged := Config.freeBit n 18
  irqSaved := Config.freeBit n 19
  v := Config.freeVec 32 n 20
  ok := none
  heldOpen := false
  hung := false
  ahead := []

/-- `count <- count + (hi - lo)` (R105, R107). -/
def Sequencer.counted (p : Params) (q : Sequencer) : Sequencer :=
  { q with count := narrow p.wOff (q.count + (q.hi.toNat - q.lo.toNat)) }

/-- Return to `IDLE` with `count` and `status` as they stand (R195). -/
def State.finish (s : State) : State := (s.setSeq (s.seq.idle s.params s.draws)).drawn

/-! ### Micro-operations -/

/-- What a micro-operation does. -/
def Micro.run (m : Micro) (s : State) : State :=
  match m with
  | .setPhase p => s.setSeq { s.seq with phase := p }
  | .line l b => s.line l b
  | .delay => s.delay
  | .loadTx v n => s.setSeq { s.seq with txVal := v, bitCnt := BitVec.ofNat 5 n }
  | .loadTxBlk n => s.setSeq { s.seq with txVal := s.seq.blk.setWidth 16, bitCnt := BitVec.ofNat 5 n }
  | .txBit i => (s.line .dOut (s.seq.txVal.getLsbD i)).setSeq { s.seq with bitCnt := BitVec.ofNat 5 i }
  | .clearRx n => s.setSeq { s.seq with rxAcc := 0, bitCnt := BitVec.ofNat 5 n }
  | .rxBit i =>
    s.sample.setSeq
      { s.seq with
        rxAcc := (s.seq.rxAcc <<< 1) ||| (BitVec.ofBool s.diLevel).setWidth 16
        bitCnt := BitVec.ofNat 5 i }
  | .storeRx => s.setSeq { s.seq with blk := s.seq.blk.extractLsb' 16 16 ++ s.seq.rxAcc }
  | .loadBlk d => s.setSeq { s.seq with blk := s.seq.blk.extractLsb' 16 16 ++ d }
  | .pollStart => s.setSeq { s.seq with pollCnt := 0, ok := none }
  | .poll => s.poll
  | .pollSome n => s.pollRounds n
  | .otpWriteCmd v => s.otpWriteCmd v
  | .otpReadData => s.otpReadData
  | .mirrorLoad m i => s.mirrorLoad m i
  | .protCheck => s.protCheck
  | .protExpose => s.protExpose
  | .protReread => s.protReread
  | .protRestore => s.protRestore
  | .lockIrq => s.lockIrq
  | .unlockIrq => s.unlockIrq
  | .startLoop => s.setSeq { s.seq with count := 0, status := .ok }
  | .setBlock i => s.setSeq { s.seq with curBlock := narrow s.params.wOff i }
  | .slice B => s.setSeq (s.seq.slice s.params B)
  | .copyByte B p => s.copyOutByte B p
  | .spliceByte B p => s.spliceByte B p
  | .addCount => s.setSeq (s.seq.counted s.params)
  | .blockDone =>
    if s.seq.ok = some true then s.setSeq (s.seq.counted s.params)
    else s.setSeq { s.seq with status := .timeout }
  | .afterTimeout => if s.seq.status = .timeout then s.timedOut else s
  | .finish => s.finish

/-- An item that finds the sequencer standing in a poll waits until that poll returns (R69, R143). The rounds of a poll
that something would have met (`pollSome`) stand beside that poll itself, and do not wait. -/
def State.putOff (s : State) (it : Item) : State :=
  match it.op with
  | .pollSome _ => s
  | _ => s.setSeq { s.seq with ahead := s.seq.ahead ++ [it] }

/-- One item. -/
def Item.run (s : State) (it : Item) : State :=
  if s.seq.hung then s.putOff it
  else if it.inLoop && s.seq.status = .timeout then s
  else it.op.run s

/-- The items of an operation in order (R69). -/
def runItems (items : List Item) (s : State) : State := items.foldl Item.run s

/-- Micro-operations outside the block loop. -/
def always (ms : List Micro) : List Item := ms.map (Item.mk false)

/-- Micro-operations of the block loop. -/
def inLoop (ms : List Micro) : List Item := ms.map (Item.mk true)

/-! ### What meets an operation -/

/-- The block is not free: an operation is in progress (R195), or the sequencer stands in a poll (R227). -/
def State.busy (s : State) : Bool := s.seq.hung || decide (s.seq.phase ≠ .idle)

/-- A draw of the whole device state (R68). -/
def State.havocEep (s : State) : State := (s.setEep (s.eep.havoc s.draws)).drawn

/-- An event `irq_enable` cannot mask: inside the write transaction the device state is unspecified (R193), outside
it a stretch of a gap (R146). -/
def State.nonMaskable (s : State) : State := if s.lines.lock then s.havocEep else s

/-- Reset of the block (R210): `IDLE`, count 0, status OK, lines and lock 0, flags 0; the other working registers
are unspecified. -/
def Sequencer.afterReset (p : Params) (n : Nat) (q : Sequencer) : Sequencer :=
  { q.idle p n with count := 0, status := .ok, protChanged := false, irqSaved := false }

/-- The platform registers after a reset of the block: unspecified (R212), but for what R211 says of a reset inside
an operation: `irq_enable` stays as the write transaction left it, and a protection bit this mirror read set, and has not
cleared again, stays 1 (DEDUCED, log 18: R211 is taken before R212 there, and at the moment after the second access of
R175, where `prot_changed` is still 1 and the bit is 0 again, the register is free). In every other operation, and in a
mirror read before R172, the register is free whatever `prot_changed` holds (R21, R40). -/
def State.platAfterReset (s : State) : Platform :=
  { s.plat with
    otpCmd := Config.freeVec 32 s.draws 32
    otpData := Config.freeVec 32 s.draws 33
    prot :=
      if s.seq.heldOpen then Config.freeVec 32 s.draws 34 ||| s.params.protBit
      else Config.freeVec 32 s.draws 34
    irqEnable := if s.lines.lock then s.plat.irqEnable else Config.freeBit s.draws 35 }

/-- Reset of the block, at rest or in mid-operation (R210 to R212). A write transaction or a frame cut short leaves
the device state unspecified (R68, R211); else the device does not change (R212). The closing steps do not run. An
interrupt that waited is taken where `irq_enable` comes up as 1 (R192). -/
def State.blockReset (s : State) : State :=
  let s' := if s.lines.lock || s.lines.cs then s.havocEep else s
  ((((s'.setPlat s'.platAfterReset).setSeq (s'.seq.afterReset s'.params s'.draws)).setLines
    Lines.reset).drawn).takePending

/-- The EEPROM device at power-on (R38, R200): a word under an unfinished write is unspecified, `eep_wel = 0`,
`eep_busy = 0`. -/
def Eeprom.powerOn (n : Nat) (d : Eeprom) : Eeprom :=
  { d with
    mem := if d.busy then d.mem.writeHalf d.pendAddr.toNat (Config.freeVec 16 n 36) else d.mem
    wel := false
    busy := false
    unready := false
    left := none
    afterWrite := false
    edges := 0
    spoiled := false }

/-- Loss and return of power (R193, R200): `fuse`, `boot0_rom`, `sotp` and the EEPROM array survive, the array with
the exceptions of R68; the block is reset; every other register and the caller buffer are unspecified (log 19). -/
def State.powerCycle (s : State) : State :=
  let s' := if s.lines.lock || s.lines.cs then s.havocEep else s
  (((((s'.setEep (s'.eep.powerOn s'.draws)).setPlat
      { s'.plat with
        otpCmd := Config.freeVec 32 s'.draws 32
        otpData := Config.freeVec 32 s'.draws 33
        prot := Config.freeVec 32 s'.draws 34
        irqEnable := Config.freeBit s'.draws 35
        irqPending := false }).setSeq (s'.seq.afterReset s'.params s'.draws)).setLines Lines.reset).setBuf
    (Memory.drawn s'.draws 64 (2 ^ s'.params.wOff))).drawn

/-- The items before a moment: with `k` rounds of the poll if the moment lies in one. -/
def itemsBefore (n k : Nat) (items : List Item) : List Item :=
  match (items.drop n).head? with
  | some ⟨l, .poll⟩ => items.take n ++ [⟨l, .pollSome k⟩]
  | _ => items.take n

/-- The run of items with what meets them, one event after the other (log 20). A reset or a loss of power abandons the
operation; after an interrupt or a non-maskable event it goes on; another user of the block in mid-operation gives the
run no meaning (R195). An event whose moment lies after a poll the sequencer stands in meets it there. -/
def meet : List Disturbance → List Item → State → Host.Outcome State Fault Refusal
  | [], items, s => .next (runItems items s)
  | d :: ds, items, s =>
    let s1 := runItems (itemsBefore d.after d.samples items) s
    let rest := items.drop d.after
    match d.kind with
    | .reset => .next s1.blockReset
    | .powerLoss => .next s1.powerCycle
    | .nonMaskable => meet ds rest s1.nonMaskable
    | .interrupt => meet ds rest s1.interruptArrives
    | .intruder => if rest.isEmpty && !s1.seq.hung then meet ds rest s1 else .refused .concurrentUse

/-- The run of an operation, with what meets it (log 20). Undisturbed it runs to completion before the step
returns (R16). -/
def operate (items : List Item) (s : State) : Host.Outcome State Fault Refusal :=
  meet s.disturb items (s.setDisturb [])

/-- The poll the sequencer stood in has returned (R143). -/
def State.resumed (s : State) : State := s.setSeq { s.seq with hung := false, ahead := [] }

/-- One more round of the poll the sequencer stands in. A round without an answer leaves it there (R227); a round with
one, as with a ready sample, returns, and the rest of the operation follows (R143). -/
def State.pollOn (s : State) : Host.Outcome State Fault Refusal :=
  let s' := s.pollRound
  if s'.seq.ok.isSome then operate s'.seq.ahead s'.resumed else .next s'

/-! ### Acceptance of a request and return -/

/-- Acceptance: the request registers are latched and the block leaves `IDLE` (R22, R194). -/
def State.accept (op : BitVec 3) (offset length : Nat) (bufValid : Bool) (s : State) : State :=
  s.setSeq
    { s.seq with
      phase := .check
      reqOp := op
      reqOffset := narrow s.params.wOff offset
      reqLength := narrow s.params.wOff length
      bufValid := bufValid }

/-- A failure return: count 0 and a status, nothing else (R89, R101, R188). -/
def State.giveUp (st : Status) (s : State) : State := (s.setSeq { s.seq with count := 0, status := st }).finish

/-- A write to a region without a write path (R89): refused before the range is looked at. -/
def illegalRequest (r : Region) (offset length : Nat) (bufValid : Bool) (s : State) :
    Host.Outcome State Fault Refusal :=
  if s.busy then .refused .concurrentUse
  else .next ((s.accept (r.opsel true) offset length bufValid).giveUp .illegal)

/-- An accepted request at its check: the request registers and `end_sum` (R101). -/
def State.checked (r : Region) (write : Bool) (offset length : Nat) (bufValid : Bool) (s : State) : State :=
  let s1 := s.accept (r.opsel write) offset length bufValid
  s1.setSeq (s1.seq.formEndSum s1.params)

/-- A request that passed its check, with its plan (R102, R103). -/
def State.planned (r : Region) (s : State) : State :=
  s.setSeq ({ s.seq with phase := .plan }.plan s.params r.blockSize)

/-- A legal request: acceptance, the check of R101, the plan of R102 and R103, then the items, which are read off
the plan registers. -/
def hostRequest (r : Region) (write : Bool) (items : Params → Sequencer → List Item) (offset length : Nat)
    (bufValid : Bool) (s : State) : Host.Outcome State Fault Refusal :=
  if s.busy then .refused .concurrentUse
  else
    let s2 := s.checked r write offset length bufValid
    if rangeAccepted (r.totalSize s.params) s2.seq then
      let s3 := s2.planned r
      operate (items s3.params s3.seq) s3
    else .next (s2.giveUp .precond)

/-- The items of a sub-step taken as an operation of its own: it runs in phase `XFER`, the phase of a block transfer,
and returns to `IDLE`, where no working register but `count` and `status` holds a value (R21, R27; log 13). -/
def subItems (ms : List Micro) : List Item := always (.setPhase .xfer :: ms ++ [.finish])

/-- A command frame or an OTP command word taken as an instruction of its own: the sub-step its rule gives,
started only when the block is free (log 13). -/
def subStep (ms : List Micro) (s : State) : Host.Outcome State Fault Refusal :=
  if s.busy then .refused .concurrentUse else operate (subItems ms) s

end Sys2Proof.Machine
end

