-- ==== Sys2Proof/Machine/Wire.lean ====
section
/-! DEFINITION. The wire level of the EEPROM master (42_seeprom_wire.md): the two primitives, the frames, and the four
command frames as instructions. -/

namespace Sys2Proof.Machine

/-- The bits `n-1` down to 0 of `tx_val`, six events each (R133). -/
def sendLoop : Nat → List Micro
  | 0 => []
  | i + 1 => [.txBit i, .delay, .line .clk true, .delay, .line .clk false, .delay] ++ sendLoop i

/-- `send_bits(value, n)` (R133, R134). -/
def sendBits (v : Half) (n : Nat) : List Micro := .loadTx v n :: sendLoop n

/-- `send_bits` of the data word in `blk[15:0]` (R142). -/
def sendBlk : List Micro := .loadTxBlk 16 :: sendLoop 16

/-- `n` bits, five events each, the sample after the pulse (R138). -/
def recvLoop : Nat → List Micro
  | 0 => []
  | i + 1 => [.line .clk true, .delay, .line .clk false, .delay, .rxBit i] ++ recvLoop i

/-- `recv_bits(n)` (R138). -/
def recvBits (n : Nat) : List Micro := .clearRx n :: recvLoop n

/-- The line preamble of a SEEPROM operation (R139). -/
def preamble : List Micro := [.line .clk false, .line .cs false, .delay]

/-- The read frame with command word `c` (R140). -/
def readFrameOf (c : Command) : List Micro :=
  .line .cs true :: sendBits (c.setWidth 16) 11 ++ recvBits 16 ++ [.storeRx, .line .cs false, .delay]

/-- `BlockRead(SEEPROM, i)` (R140). -/
def readFrame (p : Params) (i : Nat) : List Micro := readFrameOf (readCommand p i)

/-- A frame of `n` command bits and nothing else (R141, R144). -/
def controlFrame (c : Command) (n : Nat) : List Micro :=
  .line .cs true :: sendBits (c.setWidth 16) n ++ [.line .cs false, .delay]

/-- The write frame with command word `c` and the data word in `blk[15:0]`, then the status frame with the poll
(R142, R143). -/
def writeFrameOf (c : Command) : List Micro :=
  .line .cs true :: sendBits (c.setWidth 16) 11 ++ sendBlk ++
    [.line .cs false, .delay, .line .cs true, .pollStart, .poll, .line .cs false, .delay]

/-- `BlockWrite(SEEPROM, i, blk[15:0])` (R142); its answer is `ok`. -/
def writeFrame (p : Params) (i : Nat) : List Micro := writeFrameOf (writeCommand p i)

/-- The enable-writes frame (R141). -/
def enableFrame (p : Params) : List Micro := controlFrame p.opEwen 11

/-- The disable-writes frame (R144, R87). -/
def disableFrame (p : Params) : List Micro := controlFrame p.opEwds p.ewdsBits

/-- `EEP.READ` (R140): `blk[15:0]` receives the word, until the block returns to `IDLE` (R21); the trace shows it. -/
def execEepRead (a : Byte) (s : State) : Host.Outcome State Fault Refusal :=
  subStep (readFrameOf (addressCommand s.params.opRead a)) s

/-- `EEP.WRITE` (R142, R143): the answer of the poll stands in `ok`, until the block returns to `IDLE` (R21). -/
def execEepWrite (a : Byte) (d : Half) (s : State) : Host.Outcome State Fault Refusal :=
  subStep (.loadBlk d :: writeFrameOf (addressCommand s.params.opWrite a)) s

/-- `EEP.EWEN` (R141). -/
def execEepEwen (pad : BitVec 6) (s : State) : Host.Outcome State Fault Refusal :=
  subStep (controlFrame (controlCommand s.params.opEwen pad) 11) s

/-- `EEP.EWDS` (R144). -/
def execEepEwds (pad : BitVec 6) (s : State) : Host.Outcome State Fault Refusal :=
  subStep (controlFrame (controlCommand s.params.opEwds pad) s.params.ewdsBits) s

end Sys2Proof.Machine
end

