-- ==== Sys2Proof/Machine/Adapter.lean ====
section
/-! DEFINITION. The block loops of the range adapter (R105, R107), stated once for every medium (R226). -/

namespace Sys2Proof.Machine

/-- One round of the read loop (R105): the copy takes one byte at a time. -/
def readStep (B : Nat) (blockRead : Nat → List Micro) (q : Sequencer) (i : Nat) : List Micro :=
  .setBlock i :: blockRead i ++ (.slice B :: (q.positions B i).map (.copyByte B) ++ [.addCount])

/-- The read loop (R105). -/
def readLoop (B : Nat) (blockRead : Nat → List Micro) (q : Sequencer) : List Item :=
  always [.setPhase .xfer, .startLoop] ++ q.blocks.flatMap fun i => inLoop (readStep B blockRead q i)

/-- One round of the write loop: a partially covered block is read first, a fully covered one never (R107, R158); the
splice takes one byte at a time. -/
def writeStep (p : Params) (q : Sequencer) (i : Nat) : List Micro :=
  .setBlock i :: .slice 2 :: (if q.partialBlock 2 i then readFrame p i else []) ++
    ((q.positions 2 i).map (.spliceByte 2) ++ (writeFrame p i ++ [.blockDone]))

/-- The write loop (R107). -/
def writeLoop (p : Params) (q : Sequencer) : List Item :=
  always [.setPhase .xfer, .startLoop] ++ q.blocks.flatMap fun i => inLoop (writeStep p q i)

end Sys2Proof.Machine
end

