-- ==== Sys2Proof/Machine/Mirror.lean ====
section
/-! DEFINITION. The mirror readers (44_mirror.md). -/

namespace Sys2Proof.Machine

/-- `BlockRead(M, i)`: one aligned load (R170). -/
def mirrorBlockRead (m : Mirror) (i : Nat) : List Micro := [.mirrorLoad m i]

/-- The items of a mirror read: the protection bit is checked and set, the blocks are loaded, the bit is restored
(R171, R172, R175, R177). -/
def mirrorReadItems (m : Mirror) (_p : Params) (q : Sequencer) : List Item :=
  always [.setPhase .opening, .protCheck, .protExpose] ++ readLoop 4 (mirrorBlockRead m) q ++
    always [.setPhase .closing, .protReread, .protRestore, .finish]

/-- `BOOT0.READ` (R177). -/
def execBoot0Read (offset length : Nat) (bufValid : Bool) (s : State) : Host.Outcome State Fault Refusal :=
  hostRequest .boot0 false (mirrorReadItems .boot0) offset length bufValid s

/-- `BOOT0.WRITE`: illegal (R179, R89). -/
def execBoot0Write (offset length : Nat) (bufValid : Bool) (s : State) : Host.Outcome State Fault Refusal :=
  illegalRequest .boot0 offset length bufValid s

/-- `SOTP.READ` (R178). -/
def execSotpRead (offset length : Nat) (bufValid : Bool) (s : State) : Host.Outcome State Fault Refusal :=
  hostRequest .sotp false (mirrorReadItems .sotp) offset length bufValid s

/-- `SOTP.WRITE`: illegal (R179, R89). -/
def execSotpWrite (offset length : Nat) (bufValid : Bool) (s : State) : Host.Outcome State Fault Refusal :=
  illegalRequest .sotp offset length bufValid s

end Sys2Proof.Machine
end

