-- ==== Sys2Proof/Machine/Otp.lean ====
section
/-! DEFINITION. The fuse-array reader (41_otp.md). -/

namespace Sys2Proof.Machine

/-- `BlockRead(OTP, i)`: exactly two register accesses, the write first (R120). -/
def otpBlockRead (p : Params) (i : Nat) : List Micro :=
  [.otpWriteCmd (otpCommand p (BitVec.ofNat 5 i)), .otpReadData]

/-- The items of `OTP.READ` (R121). -/
def otpReadItems (p : Params) (q : Sequencer) : List Item :=
  always [.setPhase .opening] ++ readLoop 4 (otpBlockRead p) q ++ always [.setPhase .closing, .finish]

/-- `OTP.READ` (R121). -/
def execOtpRead (offset length : Nat) (bufValid : Bool) (s : State) : Host.Outcome State Fault Refusal :=
  hostRequest .otp false otpReadItems offset length bufValid s

/-- `OTP.WRITE`: illegal (R123, R89). -/
def execOtpWrite (offset length : Nat) (bufValid : Bool) (s : State) : Host.Outcome State Fault Refusal :=
  illegalRequest .otp offset length bufValid s

/-- `OTP.CMD.READ`: the command word written to `OTP_CMD` and the word read back into `blk` (R120, R88), until the block
returns to `IDLE` (R21). -/
def execOtpCmdRead (w : BitVec 5) (s : State) : Host.Outcome State Fault Refusal :=
  subStep [.otpWriteCmd (otpCommand s.params w), .otpReadData] s

end Sys2Proof.Machine
end

