-- ==== Sys2Proof/Machine/Seeprom.lean ====
section
/-! DEFINITION. The EEPROM operations (43_seeprom_ops.md). -/

namespace Sys2Proof.Machine

/-- The items of `SEEPROM.READ` (R151). -/
def seepromReadItems (p : Params) (q : Sequencer) : List Item :=
  always (.setPhase .opening :: preamble) ++ readLoop 2 (readFrame p) q ++ always [.setPhase .closing, .finish]

/-- `SEEPROM.READ` (R151). -/
def execSeepromRead (offset length : Nat) (bufValid : Bool) (s : State) : Host.Outcome State Fault Refusal :=
  hostRequest .seeprom false seepromReadItems offset length bufValid s

/-- The items of `SEEPROM.WRITE` in the order of R164: lock, preamble, enable-writes, the blocks, disable-writes,
unlock; the closing ones run after a time-out too (R155 to R163). -/
def seepromWriteItems (p : Params) (q : Sequencer) : List Item :=
  always (.setPhase .opening :: .lockIrq :: preamble ++ enableFrame p) ++ writeLoop p q ++
    always (.setPhase .closing :: disableFrame p ++ [.afterTimeout, .unlockIrq, .finish])

/-- `SEEPROM.WRITE` (R155). -/
def execSeepromWrite (offset length : Nat) (bufValid : Bool) (s : State) : Host.Outcome State Fault Refusal :=
  hostRequest .seeprom true seepromWriteItems offset length bufValid s

end Sys2Proof.Machine
end

