-- ==== Sys2Proof/Machine/Dispatch.lean ====
section
/-! DEFINITION. One arm for each constructor of `Instr`. -/

namespace Sys2Proof.Machine

def exec (i : Instr) (s : State) : Host.Outcome State Fault Refusal :=
  match i with
  | .otpRead offset length bufValid => Sys2Proof.Machine.execOtpRead offset length bufValid s
  | .otpWrite offset length bufValid => Sys2Proof.Machine.execOtpWrite offset length bufValid s
  | .seepromRead offset length bufValid => Sys2Proof.Machine.execSeepromRead offset length bufValid s
  | .seepromWrite offset length bufValid => Sys2Proof.Machine.execSeepromWrite offset length bufValid s
  | .boot0Read offset length bufValid => Sys2Proof.Machine.execBoot0Read offset length bufValid s
  | .boot0Write offset length bufValid => Sys2Proof.Machine.execBoot0Write offset length bufValid s
  | .sotpRead offset length bufValid => Sys2Proof.Machine.execSotpRead offset length bufValid s
  | .sotpWrite offset length bufValid => Sys2Proof.Machine.execSotpWrite offset length bufValid s
  | .eepRead a => Sys2Proof.Machine.execEepRead a s
  | .eepWrite a d => Sys2Proof.Machine.execEepWrite a d s
  | .eepEwen pad => Sys2Proof.Machine.execEepEwen pad s
  | .eepEwds pad => Sys2Proof.Machine.execEepEwds pad s
  | .otpCmdRead w => Sys2Proof.Machine.execOtpCmdRead w s

end Sys2Proof.Machine
end

