-- ==== Sys2Proof/Machine/Inputs.lean ====
section
/-! DEFINITION. What a step does with each input, and the observations of R17 and R29 a claim is stated over. -/

namespace Sys2Proof.Machine

/-- An instruction word is decoded and run; a word that is no instruction is refused by name (U12, U19). -/
def presentWord (r : Raw) (s : State) : Host.Outcome State Fault Refusal :=
  match decode s.params r with
  | .ok i => exec i s
  | .error e => .refused (.undecodable e)

/-- The device's own step (R66): it completes what is under way, unless it never completes. -/
def State.deviceStep (s : State) : State :=
  match s.eep.left with
  | none => s
  | some _ => s.setEep s.eep.complete

/-- A step in which nothing happens: an idle block waits for a request (R210), a sequencer that stands in a poll goes on
with it (R143, R227). -/
def waitStep (s : State) : Host.Outcome State Fault Refusal := if s.seq.hung then s.pollOn else .next s

/-- One input. The host, and software outside the block, act only while the block is free: at any other time the
run has no meaning (R16, R195, U22). Reset, power, interrupts and the device wait for nobody. -/
def handleInput (inp : Input) (s : State) : Host.Outcome State Fault Refusal :=
  match inp with
  | .present r => presentWord r s
  | .setBuf bytes => if s.busy then .refused .concurrentUse else .next (s.setBuf (Memory.ofBytes 0 bytes))
  | .setProt v => if s.busy then .refused .concurrentUse else .next (s.setPlat { s.plat with prot := v })
  | .setIrq b =>
    if s.busy then .refused .concurrentUse else .next (s.setPlat { s.plat with irqEnable := b }).takePending
  | .interrupt => .next s.interruptArrives
  | .nonMaskable => .next s.nonMaskable
  | .wait => waitStep s
  | .deviceStep => .next s.deviceStep
  | .disturb ds => .next (s.setDisturb ds)
  | .reset => .next s.blockReset
  | .powerCycle => .next s.powerCycle

/-! ### Observations -/

/-- Time, observed only as the count of `Delay()` events (R17, R232). -/
def State.delays (s : State) : Nat := s.trace.count .delay

/-- Clock pulses: the changes of the clock line to 1 (R232). -/
def State.pulses (s : State) : Nat := s.trace.count (.line .clk true)

/-- Region byte `k` (R51). -/
def State.regionByte (s : State) : Region → Nat → Byte
  | .otp, k => s.fuse.read k
  | .seeprom, k => s.eep.mem.read k
  | .boot0, k => s.boot0.read k
  | .sotp, k => s.sotp.read k

/-- The electrical level of the chip-select line (R29, R131). -/
def State.csElectrical (s : State) : Bool :=
  if s.lines.cs then s.params.csActiveLevel else !s.params.csActiveLevel

end Sys2Proof.Machine
end

