-- ==== Sys2Proof/Machine/Step.lean ====
section
/-! DEFINITION. One step of the machine, and where it fetches its next instruction. -/

namespace Sys2Proof.Machine

/-- One step: the next input, if there is one; else nothing happens (log 12). -/
def step (s : State) : Host.Outcome State Fault Refusal :=
  match s.inbox with
  | [] => waitStep s
  | inp :: rest => handleInput inp (s.setInbox rest)

/-- The state in which the host has just presented the instruction whose table bits are `w` (log 12). -/
def State.withFetchWord (s : State) (nbits w : Nat) : State :=
  match Raw.ofTableWord nbits w with
  | some r => s.setInbox (.present r :: s.inbox)
  | none => s

end Sys2Proof.Machine
end

