-- ==== Sys2Proof/Machine/Traces.lean ====
section
/-! DEFINITION. The event lists of 42_seeprom_wire.md and 95_test_vectors.md, oldest event first, for claims about the
trace. Nothing of the machine is defined by them. -/

namespace Sys2Proof.Machine

/-- `bit(b)`: the six events of one bit sent (R133). -/
def bitTrace (b : Bool) : List Event :=
  [.line .dOut b, .delay, .line .clk true, .delay, .line .clk false, .delay]

/-- `send_bits(value, n)`: the bits `n-1` down to 0 (R133). -/
def sendTrace (v : Half) : Nat → List Event
  | 0 => []
  | i + 1 => bitTrace (v.getLsbD i) ++ sendTrace v i

/-- `in(b)`: the five events of one bit received (R138). -/
def sampleTrace (b : Bool) : List Event :=
  [.line .clk true, .delay, .line .clk false, .delay, .sample b]

/-- `recv_bits(n)` that returns `w` (R138). -/
def recvTrace (w : Half) : Nat → List Event
  | 0 => []
  | i + 1 => sampleTrace (w.getLsbD i) ++ recvTrace w i

/-- The line preamble (R139). -/
def preambleTrace : List Event := [.line .clk false, .line .cs false, .delay]

/-- A read frame with command `c` that received `w` (R140). -/
def readTrace (c : Command) (w : Half) : List Event :=
  .line .cs true :: sendTrace (c.setWidth 16) 11 ++ recvTrace w 16 ++ [.line .cs false, .delay]

/-- A control frame of `n` bits (R141, R144). -/
def controlTrace (c : Command) (n : Nat) : List Event :=
  .line .cs true :: sendTrace (c.setWidth 16) n ++ [.line .cs false, .delay]

/-- A poll that finds `k` samples busy and then one ready (R143). -/
def pollTrace (ready : Bool) : Nat → List Event
  | 0 => [.sample ready]
  | k + 1 => .sample (!ready) :: .delay :: pollTrace ready k

/-- A poll that finds all its `k + 1` samples busy and gives up (R143). -/
def lateTrace (ready : Bool) : Nat → List Event
  | 0 => [.sample (!ready)]
  | k + 1 => .sample (!ready) :: .delay :: lateTrace ready k

/-- A write frame with command `c` and data `d`, and its status frame with the poll events `poll` (R142). -/
def writeTrace (c : Command) (d : Half) (poll : List Event) : List Event :=
  .line .cs true :: sendTrace (c.setWidth 16) 11 ++ sendTrace d 16 ++
    [.line .cs false, .delay, .line .cs true] ++ poll ++ [.line .cs false, .delay]

/-- The two register accesses of a block of the fuse array (R120). -/
def otpEvents (s : State) (i : Nat) : List Event :=
  [.regWrite .otpCmd (otpCommand s.params (BitVec.ofNat 5 i)), .regRead .otpData (s.fuse.word i)]

/-- The load of a block of a mirror (R170). -/
def mirrorEvents (s : State) (m : Mirror) (i : Nat) : List Event :=
  [.memRead (mirrorAddress s.params m i) ((s.mirrored m).word i)]

/-- The protection bit is set where it was clear (R171, R172). -/
def exposed (s : State) : Word := s.plat.prot ||| s.params.protBit

/-- The register accesses before the loads of a mirror read (R171, R172). -/
def openTrace (s : State) : List Event :=
  .regRead .prot s.plat.prot :: if s.plat.prot &&& s.params.protBit = 0 then [.regWrite .prot (exposed s)] else []

/-- The register accesses after the loads of a mirror read (R175). -/
def closeTrace (s : State) : List Event :=
  if s.plat.prot &&& s.params.protBit = 0 then [.regRead .prot (exposed s), .regWrite .prot s.plat.prot] else []

/-- The wire levels after an event. -/
def Lines.after (l : Lines) : Event → Lines
  | .line .cs b => { l with cs := b }
  | .line .clk b => { l with clk := b }
  | .line .dOut b => { l with dOut := b }
  | _ => l

/-- `cs` and `do` change only while `clk = 0` (R145), for the events of a trace oldest first, from given levels on. -/
def stableUnderClock (l : Lines) : List Event → Bool
  | [] => true
  | e :: es =>
    (match e with
      | .line .cs b => b == l.cs || !l.clk
      | .line .dOut b => b == l.dOut || !l.clk
      | _ => true) && stableUnderClock (l.after e) es

/-- Between two changes of any line there is at least one `Delay()`, except that after chip-select was asserted the
data-out line may change, or the first sample be taken, at once (R145). `last` is the change no `Delay()` has followed
yet; an event that sets a line to the level it has changes nothing (R131). -/
def spacedChanges (l : Lines) (last : Option (Line × Bool)) : List Event → Bool
  | [] => true
  | e :: es =>
    match e with
    | .delay => spacedChanges l none es
    | .line x b =>
      if l.after e = l then spacedChanges l last es
      else (last == none || (last == some (.cs, true) && x == .dOut)) && spacedChanges (l.after e) (some (x, b)) es
    | .sample _ => spacedChanges l (if last = some (.cs, true) then none else last) es
    | _ => spacedChanges l last es

end Sys2Proof.Machine
end

