-- ==== Sys2Proof/Safety.lean ====
section
/-! DEFINITION. What counts as a safe state and a safe run, and the words claims are stated in: the invariant every
step keeps, when the block is free, what an operation returned, what it left alone, and the blocks of a range. -/

namespace Sys2Proof.Machine

/-! ### How an operation ends -/

/-- The control side of a state: line levels, lock, phase, whether the block loop has stopped with a
time-out, and whether this operation holds the mirror window open. -/
structure Ctl where
  cs : Bool
  clk : Bool
  lock : Bool
  phase : Phase
  stopped : Bool
  heldOpen : Bool
deriving DecidableEq, Repr

/-- The control side of a state. -/
def State.ctl (s : State) : Ctl where
  cs := s.lines.cs
  clk := s.lines.clk
  lock := s.lines.lock
  phase := s.seq.phase
  stopped := decide (s.seq.status = .timeout)
  heldOpen := s.seq.heldOpen

/-- Where the block is when it is free: `IDLE`, lines low, lock released, no window held open (R145, R162, R163, R175). -/
def Ctl.atRest (c : Ctl) : Prop :=
  c.cs = false ∧ c.clk = false ∧ c.lock = false ∧ c.phase = .idle ∧ c.heldOpen = false

/-- Where the sequencer is in a completion poll: in a block transfer, chip-select asserted, clock low, no window held open
(R142, R143). -/
def Ctl.polling (c : Ctl) : Prop := c.cs = true ∧ c.clk = false ∧ c.phase = .xfer ∧ c.heldOpen = false

/-- What a micro-operation makes of the control side satisfies `Q`, whatever the device answers; a poll stands where a
poll may stand. -/
def Micro.Leads (m : Micro) (Q : Ctl → Prop) (c : Ctl) : Prop :=
  match m with
  | .line .cs b => Q { c with cs := b }
  | .line .clk b => Q { c with clk := b }
  | .setPhase p => Q { c with phase := p }
  | .lockIrq => Q { c with lock := true }
  | .unlockIrq => Q { c with lock := false }
  | .startLoop => Q { c with stopped := false }
  | .blockDone => Q c ∧ Q { c with stopped := true }
  | .poll => c.polling ∧ Q c
  | .protExpose => Q c ∧ Q { c with heldOpen := true }
  | .protRestore => Q c ∧ Q { c with heldOpen := false }
  | .finish => Q { c with phase := .idle, heldOpen := false }
  | .line .dOut _ | .delay | .loadTx _ _ | .loadTxBlk _ | .txBit _ | .clearRx _ | .rxBit _ | .storeRx | .loadBlk _
  | .pollStart | .pollSome _ | .otpWriteCmd _ | .otpReadData | .mirrorLoad _ _ | .protCheck | .protReread
  | .setBlock _ | .slice _ | .copyByte _ _ | .spliceByte _ _ | .addCount | .afterTimeout => Q c

/-- What a list of items makes of the control side satisfies `Q`, whatever the device answers, and every poll in it
stands where a poll may stand. -/
def Leads : List Item → (Ctl → Prop) → Ctl → Prop
  | [], Q, c => Q c
  | it :: is, Q, c => if it.inLoop && c.stopped then Leads is Q c else it.op.Leads (Leads is Q) c

/-! ### The invariant -/

/-- What holds of every state a run reaches. Each byte space is in canonical form and inside its region (R50). A free
block has its lines low, holds no lock and holds no mirror window open (R145, R162, R163, R175); the sequencer is at rest
unless it stands in a poll (R227), in a block transfer with chip-select asserted (R142), from where what is left of its
operation ends at rest. Under the lock interrupts are disabled, no handler has ever run under it (R71), and an interrupt
waits only while interrupts are disabled (R192). The registers of `W_OFF` bits hold no more than that (R22, R23, R26,
R109). -/
structure Inv (s : State) : Prop where
  fuse : s.fuse.wf = true ∧ s.fuse.below 128 = true
  eepMem : s.eep.mem.wf = true ∧ s.eep.mem.below 256 = true
  boot0 : s.boot0.wf = true ∧ s.boot0.below s.params.boot0Size = true
  sotp : s.sotp.wf = true ∧ s.sotp.below 128 = true
  buf : s.buf.wf = true
  clock : s.lines.clk = false
  rest : s.seq.hung = false → s.seq.phase = .idle ∧ s.lines.cs = false ∧ s.lines.lock = false ∧ s.seq.ahead = [] ∧
    s.seq.heldOpen = false
  polling : s.seq.hung = true → s.lines.cs = true ∧ s.seq.phase = .xfer ∧ s.seq.heldOpen = false ∧
    Leads s.seq.ahead Ctl.atRest s.ctl
  masked : s.lines.lock = true → s.plat.irqEnable = false
  pending : s.plat.irqPending = true → s.plat.irqEnable = false
  handlers : ∀ h ∈ s.plat.handlers, h = false
  widths : s.seq.fits s.params

/-! ### Before an operation -/

/-- The block is free, and nothing from outside meets the next operation. -/
abbrev Free (s : State) : Prop := s.busy = false ∧ s.disturb = []

/-- The request has an encoding (U25) and passes the check of R101. -/
abbrev InRange (p : Params) (total offset length : Nat) (bufValid : Bool) : Prop :=
  p.encodes offset length ∧ bufValid = true ∧ 0 < length ∧ offset + length ≤ total

/-- The indices of the blocks a range of bytes meets, ascending. -/
def blockRange (B o l : Nat) : List Nat := List.range' (o / B) ((o + l - 1) / B + 1 - o / B)

/-- Bytes of the range that lie in blocks below `i`: what the blocks before `i` count (R104, R107). -/
def done (B o l i : Nat) : Nat := min (o + l) (max o (i * B)) - o

/-- `POLL_LIMIT` allows a poll to take `k + 1` samples more, after `c` of them (R143). -/
def LimitAllows (p : Params) (c k : Nat) : Prop := ∀ L, p.pollLimit = some L → c + k + 1 ≤ L

/-- The instruction of a host request (R81). -/
def request : Region → Bool → Nat → Nat → Bool → Instr
  | .otp, false, o, l, b => .otpRead o l b
  | .otp, true, o, l, b => .otpWrite o l b
  | .seeprom, false, o, l, b => .seepromRead o l b
  | .seeprom, true, o, l, b => .seepromWrite o l b
  | .boot0, false, o, l, b => .boot0Read o l b
  | .boot0, true, o, l, b => .boot0Write o l b
  | .sotp, false, o, l, b => .sotpRead o l b
  | .sotp, true, o, l, b => .sotpWrite o l b

/-- The items of a legal operation (R121, R151, R155, R177, R178). -/
def opItems : Region → Bool → Params → Sequencer → List Item
  | .otp, _ => otpReadItems
  | .seeprom, false => seepromReadItems
  | .seeprom, true => seepromWriteItems
  | .boot0, _ => mirrorReadItems .boot0
  | .sotp, _ => mirrorReadItems .sotp

/-- Where a request that passes its check starts its items: the plan registers hold the range (R102, R103). -/
def State.started (r : Region) (write : Bool) (offset length : Nat) (bufValid : Bool) (s : State) : State :=
  (s.checked r write offset length bufValid).planned r

/-- The items of a request that passes its check. -/
def State.itemsOf (r : Region) (write : Bool) (offset length : Nat) (bufValid : Bool) (s : State) : List Item :=
  opItems r write s.params (s.started r write offset length bufValid).seq

/-- Only the SEEPROM has a write path (R36, R39, R89). -/
abbrev Legal (r : Region) (write : Bool) : Prop := write = false ∨ r = .seeprom

/-! ### After an operation -/

/-- The operation has returned with a count and a status (R195). -/
structure Returned (t : State) (count : Nat) (status : Status) : Prop where
  phase : t.seq.phase = .idle
  hung : t.seq.hung = false
  count : t.seq.count = count
  status : t.seq.status = status

/-- No hardware access and no buffer access has happened: nothing differs but the working registers and the number
of draws (R101, R188). -/
structure Untouched (s t : State) : Prop where
  params : t.params = s.params
  lines : t.lines = s.lines
  plat : t.plat = s.plat
  eep : t.eep = s.eep
  fuse : t.fuse = s.fuse
  boot0 : t.boot0 = s.boot0
  sotp : t.sotp = s.sotp
  buf : t.buf = s.buf
  trace : t.trace = s.trace
  bufTrace : t.bufTrace = s.bufTrace
  inbox : t.inbox = s.inbox
  disturb : t.disturb = s.disturb

/-- What no operation changes: the parameters, the immutable storage, and what the world does next (R36, R39). -/
structure Elsewhere (s t : State) : Prop where
  params : t.params = s.params
  fuse : t.fuse = s.fuse
  boot0 : t.boot0 = s.boot0
  sotp : t.sotp = s.sotp
  inbox : t.inbox = s.inbox
  disturb : t.disturb = s.disturb

/-- Nothing differs but the working registers, the lines, the device, the trace and the draws. -/
structure WireOnly (s t : State) : Prop where
  params : t.params = s.params
  plat : t.plat = s.plat
  fuse : t.fuse = s.fuse
  boot0 : t.boot0 = s.boot0
  sotp : t.sotp = s.sotp
  buf : t.buf = s.buf
  bufTrace : t.bufTrace = s.bufTrace
  inbox : t.inbox = s.inbox
  disturb : t.disturb = s.disturb

/-- What a frame leaves as it was on a device with no write under way: everything but `eep_wel`, the marks of the
frame and the device's own time. -/
structure FrameKept (d e : Eeprom) : Prop where
  mem : e.mem = d.mem
  busy : e.busy = false
  pendAddr : e.pendAddr = d.pendAddr
  pendData : e.pendData = d.pendData
  times : e.times = d.times

/-- A read of `length` bytes has filled the buffer from position 0 on and touched no other byte of it (R105, R106,
R110), one write for each byte, ascending. -/
structure Delivered (s t : State) (r : Region) (offset length : Nat) : Prop where
  bytes : ∀ j, j < length → t.buf.read j = s.regionByte r (offset + j)
  rest : ∀ j, length ≤ j → t.buf.read j = s.buf.read j
  accesses : t.bufTrace = ((List.range length).map BufEvent.write).reverse ++ s.bufTrace

/-- The EEPROM array after the buffer's bytes `0 .. n-1` were stored from region byte `offset` on (R107, R159). -/
def storedByte (s : State) (offset n k : Nat) : Byte :=
  if offset ≤ k ∧ k < offset + n then s.buf.read (k - offset) else s.eep.mem.read k

/-- The word of block `i` after that: position 0 is the most significant byte (R55, R159). -/
def storedWord (s : State) (offset n i : Nat) : Half := storedByte s offset n (2 * i) ++ storedByte s offset n (2 * i + 1)

/-- The read frame of block `i` before it is written, if the range covers it only partially (R158). -/
def preReadTrace (s : State) (offset n i : Nat) : List Event :=
  if offset ≤ 2 * i ∧ 2 * i + 2 ≤ offset + n then [] else readTrace (readCommand s.params i) (s.eep.mem.half i)

/-- The events of block `i` of a write whose poll finds the device ready at sample `k + 1` (R164). -/
def blockWriteTrace (s : State) (offset n i k : Nat) : List Event :=
  preReadTrace s offset n i ++
    writeTrace (writeCommand s.params i) (storedWord s offset n i) (pollTrace s.params.readyLevel k)

/-- The events of the block whose poll gives up after `k + 1` samples (R161). -/
def blockLateTrace (s : State) (offset n i k : Nat) : List Event :=
  preReadTrace s offset n i ++
    writeTrace (writeCommand s.params i) (storedWord s offset n i) (lateTrace s.params.readyLevel k)

/-- The events of the blocks `i, i+1, ..` whose polls take `ks` samples beyond the first (R164). -/
def blocksTrace (s : State) (offset n : Nat) : Nat → List Nat → List Event
  | _, [] => []
  | i, k :: ks => blockWriteTrace s offset n i k ++ blocksTrace s offset n (i + 1) ks

/-- The events of a SEEPROM write: preamble, enable-writes, the events of its blocks, disable-writes (R164). -/
def writeOpTrace (p : Params) (blocks : List Event) : List Event :=
  preambleTrace ++ controlTrace p.opEwen 11 ++ blocks ++ controlTrace p.opEwds 11

/-- What a SEEPROM write has still to do once the poll of a block returns: the end of that status frame, the bytes of the
block count, the blocks `bs` follow, then the closing steps (R107, R142, R160 to R163). -/
def writeAhead (p : Params) (q : Sequencer) (bs : List Nat) : List Item :=
  inLoop [.line .cs false, .delay, .blockDone] ++ (bs.flatMap fun i => inLoop (writeStep p q i)) ++
    always (.setPhase .closing :: disableFrame p ++ [.afterTimeout, .unlockIrq, .finish])

/-- A sequencer that stands in a poll which never ends: no limit, and a device that never completes (R227, U17). -/
structure Stuck (s : State) : Prop where
  hung : s.seq.hung = true
  undecided : s.seq.ok = none
  unlimited : s.params.pollLimit = none
  cs : s.lines.cs = true
  busy : s.eep.busy = true
  never : s.eep.left = none
  status : s.eep.edges = 0 ∧ s.eep.afterWrite = true

/-- A run of the machine: the states one step leads to, from one input to the next. -/
inductive Reaches : State → State → Prop where
  | refl (s : State) : Reaches s s
  | tail {s t u : State} (h : Reaches s t) (k : step t = .next u) : Reaches s u

end Sys2Proof.Machine
end

