-- ==== Sys2Proof/Certificates/Slice0/Obligations.lean ====
section
/-! DEFINITION. The statements for the provers. Each docstring names the rules of the spec a statement rests on, and
the log entry where a clause is the model's choice. `Inv`, `Free`, `InRange`, `Returned`, `Delivered`, `Elsewhere`,
`WireOnly` and `FrameKept` stand in Safety.lean; the event lists in Machine/Traces.lean. -/

open Sys2Proof Sys2Proof.Machine

/-! ### Reset, power, invariant -/

/-- After reset the sequencer is in `IDLE` with count 0 and status OK, the lock is released, the lines are 0, the two
flags are 0, the EEPROM device is neither enabled nor busy, and the block waits (R40, R210). -/
def Obligations.ResetLeaves : Prop :=
  let s := State.reset
  s.seq.phase = .idle ∧ s.seq.count = 0 ∧ s.seq.status = .ok ∧ s.seq.protChanged = false ∧ s.seq.irqSaved = false ∧
    s.lines.lock = false ∧ s.lines.cs = false ∧ s.lines.clk = false ∧ s.lines.dOut = false ∧
    s.eep.wel = false ∧ s.eep.busy = false ∧ step s = .next s

/-- The invariant holds after reset. -/
def Obligations.ResetHasInv : Prop := Inv State.reset

/-- Every step of the machine, whatever the input and whatever meets the operation, keeps the invariant: byte spaces in
canonical form and inside their regions, lines low and lock released at rest, interrupts disabled under the lock, no
handler run under it (R50, R71, R145, R163, R192). -/
def Obligations.StepKeepsInv : Prop := ∀ s t : State, Inv s → step s = .next t → Inv t

/-- No run lets an interrupt handler start between the lock and the unlock of a write transaction (R71, R192). -/
def Obligations.NoHandlerUnderLock : Prop :=
  ∀ s t : State, Inv s → Reaches s t → (∀ h ∈ t.plat.handlers, h = false) ∧
    (t.lines.lock = true → t.plat.irqEnable = false)

/-- A reset of the block leaves `IDLE`, count 0, status OK, lines 0, lock 0 and flags 0; it changes neither the fuses
nor the mirrored memories, and outside a frame and a write transaction it does not change the EEPROM device; inside
them the device state is drawn anew (R68). Inside an operation `irq_enable` stays as the write transaction left it, and
a protection bit a mirror read set, and has not cleared again, stays 1; but for that `PROT` is drawn anew, whatever
`prot_changed` holds (R40, R210, R211, R212). That the two registers stay is the model's choice of R211 before R212, which
calls both unspecified (log 18). -/
def Obligations.ResetOfTheBlock : Prop :=
  ∀ s : State,
    let t := s.blockReset
    (t.seq.phase = .idle ∧ t.seq.count = 0 ∧ t.seq.status = .ok ∧ t.seq.hung = false ∧ t.seq.protChanged = false ∧
      t.seq.irqSaved = false ∧ t.lines = Lines.reset) ∧
    t.fuse = s.fuse ∧ t.boot0 = s.boot0 ∧ t.sotp = s.sotp ∧
    (s.lines.lock = false → s.lines.cs = false → t.eep = s.eep) ∧
    ((s.lines.lock = true ∨ s.lines.cs = true) → t.eep = s.eep.havoc s.draws) ∧
    (s.lines.lock = true → t.plat.irqEnable = s.plat.irqEnable) ∧
    (s.seq.heldOpen = true → t.plat.prot &&& s.params.protBit = s.params.protBit) ∧
    (s.seq.heldOpen = false → ∃ d, t.plat.prot = Config.freeVec 32 d 34)

/-- A reset that meets an operation at any moment (log 20) abandons it: nothing is returned, and the closing steps do not
run, nor any other event after that moment: the trace, the buffer and the buffer accesses are those of the items before
it. From the lock of a write to its unlock `irq_enable` stays 0; from the exposure of a mirror window that was found
closed to its restore the protection bit stays 1 (R211; taken before R212, log 18). In every other operation, in a mirror
read that found the window open, and in one before its exposure or after its restore, `PROT` is drawn anew (R40, R212).
The immutable storage does not change (R212). -/
def Obligations.ResetAbandonsAnOperation : Prop :=
  ∀ (r : Region) (w : Bool) (o l : Nat) (b : Bool) (s : State) (n k : Nat) (ds : List Disturbance), Legal r w →
    Inv s → s.busy = false → s.params.wellFormed = true → InRange s.params (r.totalSize s.params) o l b →
    s.disturb = ⟨n, k, .reset⟩ :: ds →
    let is := s.itemsOf r w o l b
    let u := runItems (itemsBefore n k is) ((s.started r w o l b).setDisturb [])
    ∃ t, exec (request r w o l b) s = .next t ∧ Returned t 0 .ok ∧ t.lines = Lines.reset ∧ t.disturb = [] ∧
      t.trace = u.trace ∧ t.bufTrace = u.bufTrace ∧ t.buf = u.buf ∧
      (w = true → 2 ≤ n → n + 2 ≤ is.length → t.plat.irqEnable = false) ∧
      ((r = .boot0 ∨ r = .sotp) → s.plat.prot &&& s.params.protBit = 0 → 3 ≤ n → n + 2 ≤ is.length →
        t.plat.prot &&& s.params.protBit = s.params.protBit) ∧
      (¬ (r = .boot0 ∨ r = .sotp) ∨ s.plat.prot &&& s.params.protBit ≠ 0 ∨ n ≤ 2 ∨ is.length < n + 2 →
        ∃ d, t.plat.prot = Config.freeVec 32 d 34) ∧
      t.fuse = s.fuse ∧ t.boot0 = s.boot0 ∧ t.sotp = s.sotp

/-- Loss of power outside a frame and a write transaction: fuses, mirrored memories and the EEPROM array survive, but
for the word under an unfinished write; `eep_wel` and `eep_busy` return to 0 (R38, R200). That the block comes up as after
a reset, its lines and its phase, is the model's choice (log 19). -/
def Obligations.PowerLoss : Prop :=
  ∀ s : State, Inv s →
    let t := s.powerCycle
    t.fuse = s.fuse ∧ t.boot0 = s.boot0 ∧ t.sotp = s.sotp ∧ t.eep.wel = false ∧ t.eep.busy = false ∧
      t.lines = Lines.reset ∧ t.seq.phase = .idle ∧
      (s.lines.lock = false → s.lines.cs = false →
        ∀ k, (s.eep.busy = true → k / 2 ≠ s.eep.pendAddr.toNat) → t.eep.mem.read k = s.eep.mem.read k)

/-- No step ever changes the fuses, the mirrored memories or the parameters (R36, R39, R123, R212). -/
def Obligations.ImmutableStorage : Prop :=
  ∀ s t : State, step s = .next t →
    t.params = s.params ∧ t.fuse = s.fuse ∧ t.boot0 = s.boot0 ∧ t.sotp = s.sotp

/-! ### Encodings -/

/-- Decode and encode agree for every instruction, with every operand at every value the encoding admits, for every set of
parameters that meets the constraints of the spec (R80 to R88). -/
def Obligations.DecodeEncode : Prop :=
  ∀ (p : Params) (i : Instr), p.wellFormed = true → i.encodable p = true → decode p (encode p i) = .ok i

/-- Every word that decodes is the word the encoder writes for what it decodes to: no bit of a word is ignored, and the
operands fit their fields (R80 to R88). -/
def Obligations.EncodeDecode : Prop :=
  ∀ (p : Params) (r : Raw) (i : Instr), p.wellFormed = true → decode p r = .ok i →
    encode p i = r ∧ i.encodable p = true

/-- Words written out from the layouts of R84 and R88 with their default command words (log 4), and a `HOSTREQ` word
packed as the model packs the fields of R81, which gives them no bit positions (log 1), decode to the instructions they
stand for. -/
def Obligations.DecodeWords : Prop :=
  decode platformParams (.eep11 0b11000000001) = .ok (.eepRead 1) ∧
  decode platformParams (.eep27 0b101000000011100001101011010) = .ok (.eepWrite 1 0xC35A) ∧
  decode platformParams (.eep11 0b10011000000) = .ok (.eepEwen 0) ∧
  decode platformParams (.eep11 0b10000000000) = .ok (.eepEwds 0) ∧
  decode platformParams (.otpcmd32 0b10000000000000000000000000011111) = .ok (.otpCmdRead 31) ∧
  decode platformParams (.hostreq 0b1_0000000000000011_0000000000000001_010) = .ok (.seepromRead 1 3 true)

/-- Reserved words are not instructions. With the command words of R84 (log 4) a command word is reserved exactly if its
start bit is 0, if `c[9:8] = 0b11`, or if it is a control word with `A[7:6]` equal to `0b01` or `0b10` (R90); a frame of
11 bits decodes exactly if its command word is neither reserved nor a write, a frame of 27 bits exactly if it is a write
(R92), and an OTP command word exactly if it is `OTP_RD_FLAG | k` (R91). The step refuses a word that does not decode
(U12, U19, log 28). -/
def Obligations.ReservedWords : Prop :=
  let Reserved (c : Command) : Prop := c.getLsbD 10 = false ∨ c.extractLsb' 8 2 = 3 ∨
    c.extractLsb' 8 2 = 0 ∧ (c.extractLsb' 6 2 = 1 ∨ c.extractLsb' 6 2 = 2)
  (∀ c : Command, decodeCommand platformParams c = .reserved ↔ Reserved c) ∧
  (∀ c : Command, Reserved c → ∃ e, decode platformParams (.eep11 c) = .error e) ∧
  (∀ w : BitVec 27, Reserved (frameCommand w) → ∃ e, decode platformParams (.eep27 w) = .error e) ∧
  (∀ c : Command, (∃ i, decode platformParams (.eep11 c) = .ok i) ↔ ¬ Reserved c ∧ c.extractLsb' 8 2 ≠ 1) ∧
  (∀ w : BitVec 27, (∃ i, decode platformParams (.eep27 w) = .ok i) ↔
    ¬ Reserved (frameCommand w) ∧ (frameCommand w).extractLsb' 8 2 = 1) ∧
  (∀ (p : Params) (w : Word), p.wellFormed = true →
    ((∃ i, decode p (.otpcmd32 w) = .ok i) ↔ ∃ k : BitVec 5, w = otpCommand p k)) ∧
  ∀ (s : State) (r : Raw) (rest : List Input) (e : DecodeError), s.inbox = .present r :: rest →
    decode s.params r = .error e → step s = .refused (.undecodable e)

/-- A step runs the decoded instruction: when the next input is a word that decodes to `i`, the step is `exec` of `i`
with that input taken from the queue (log 12). -/
def Obligations.StepRunsDecoded : Prop :=
  ∀ (s : State) (r : Raw) (rest : List Input) (i : Instr), s.inbox = .present r :: rest → decode s.params r = .ok i →
    step s = exec i (s.setInbox rest)

/-- The state in which a word of the opcode table was presented: the next step decodes and runs that word (log 12). -/
def Obligations.FetchedWordRuns : Prop :=
  ∀ (s : State) (nbits w : Nat) (r : Raw) (i : Instr), Raw.ofTableWord nbits w = some r → decode s.params r = .ok i →
    step (s.withFetchWord nbits w) = exec i s

/-! ### Requests that are refused with a status -/

/-- The three write requests without a write path, whatever their operands: count 0, status ILLEGAL, no line event, no
register access, no mirror load, the caller buffer untouched; and the `opsel` values `0b001`, `0b101`, `0b111` are
these requests (R89, R123, R179). -/
def Obligations.IllegalWrites : Prop :=
  (∀ (o l : Nat) (b : Bool) (s : State), s.busy = false →
    (∃ t, exec (.otpWrite o l b) s = .next t ∧ Returned t 0 .illegal ∧ Untouched s t) ∧
    (∃ t, exec (.boot0Write o l b) s = .next t ∧ Returned t 0 .illegal ∧ Untouched s t) ∧
    (∃ t, exec (.sotpWrite o l b) s = .next t ∧ Returned t 0 .illegal ∧ Untouched s t)) ∧
  ∀ (p : Params) (o l : Nat) (b : Bool), p.encodes o l →
    decode p (.hostreq (packHostreq p 0b001 o l b)) = .ok (.otpWrite o l b) ∧
    decode p (.hostreq (packHostreq p 0b101 o l b)) = .ok (.boot0Write o l b) ∧
    decode p (.hostreq (packHostreq p 0b111 o l b)) = .ok (.sotpWrite o l b)

/-- The five legal operations check the request first: a null buffer, a zero length, an offset at or beyond the total
size, or an end beyond it, returns count 0 and status PRECOND with no hardware access, the caller buffer untouched
(R101, R186, R188). The sum is formed without wrap, whatever the operands that have an encoding (R82, U25). -/
def Obligations.PreconditionFails : Prop :=
  ∀ (r : Region) (w : Bool) (o l : Nat) (b : Bool) (s : State), Legal r w → s.busy = false → s.params.encodes o l →
    (b = false ∨ l = 0 ∨ r.totalSize s.params ≤ o ∨ r.totalSize s.params < o + l) →
    ∃ t, exec (request r w o l b) s = .next t ∧ Returned t 0 .precond ∧ Untouched s t

/-- A request presented while an operation is in progress is not accepted, and gives the run no meaning
(R195, D29): every instruction is refused by name. -/
def Obligations.ConcurrentRefused : Prop :=
  ∀ (i : Instr) (s : State), s.busy = true → exec i s = .refused .concurrentUse

/-! ### The range adapter -/

/-- The range plan: `start_block`, `start_off`, `end_block` and `end_res` from `offset` and `offset + length`, with an
exact end moved to the last byte of the block before; after it `1 <= end_res <= B` and
`start_block <= end_block <= TOTAL/B - 1` (R102, R103, R109). -/
def Obligations.RangePlan : Prop :=
  ∀ (r : Region) (p : Params) (q : Sequencer),
    let B := r.blockSize
    let o := q.reqOffset
    let n := q.reqLength
    let f := (q.formEndSum p).plan p B
    p.wellFormed = true → p.encodes o n → 0 < n →
      f.endSum = o + n ∧ f.startBlock = o / B ∧ f.startOff.toNat = o % B ∧
      f.endBlock = (if (o + n) % B = 0 then (o + n) / B - 1 else (o + n) / B) ∧
      f.endRes.toNat = (if (o + n) % B = 0 then B else (o + n) % B) ∧
      1 ≤ f.endRes.toNat ∧ f.endRes.toNat ≤ B ∧ f.startBlock ≤ f.endBlock ∧
      f.endBlock * B + f.endRes.toNat = o + n ∧
      (o + n ≤ r.totalSize p → f.endBlock ≤ r.totalSize p / B - 1)

/-- The slice of block `i`: `lo`, `hi` and `bufpos` as R104 gives them, at least one byte and at most a block; `bufpos`
is 0 for the first block and grows by the bytes of the block before; the last slice ends at `length`; byte position
`lo` of block `i` is region byte `offset + bufpos` (R104, R109). -/
def Obligations.SliceOfABlock : Prop :=
  ∀ (r : Region) (p : Params) (q0 : Sequencer) (i : Nat),
    let B := r.blockSize
    let o := q0.reqOffset
    let n := q0.reqLength
    let q := (q0.formEndSum p).plan p B
    let at_ (j : Nat) := ({ q with curBlock := narrow p.wOff j } : Sequencer).slice p B
    let lo := (at_ i).lo.toNat
    let hi := (at_ i).hi.toNat
    p.encodes o n → 0 < n → q.startBlock ≤ i → i ≤ q.endBlock →
      lo = (if i = q.startBlock then q.startOff.toNat else 0) ∧
      hi = (if i = q.endBlock then q.endRes.toNat else B) ∧ lo < hi ∧ hi ≤ B ∧
      (at_ i).bufpos = i * B + lo - o ∧
      (i = q.startBlock → (at_ i).bufpos = 0) ∧
      (i < q.endBlock → (at_ (i + 1)).bufpos = (at_ i).bufpos + (hi - lo)) ∧
      (i = q.endBlock → (at_ i).bufpos + (hi - lo) = n) ∧
      i * B + lo = o + (at_ i).bufpos

/-- The partial first block: for an offset that is not block-aligned the bytes copied from the first block are
`block_size - (offset mod block_size)`, provided the range reaches the end of that block; else `end_res - start_off`
(R111, C2). -/
def Obligations.PartialFirstBlock : Prop :=
  ∀ (r : Region) (p : Params) (q0 : Sequencer),
    let B := r.blockSize
    let o := q0.reqOffset
    let q := (q0.formEndSum p).plan p B
    let f := ({ q with curBlock := q.startBlock } : Sequencer).slice p B
    p.encodes o q0.reqLength → 0 < q0.reqLength → o % B ≠ 0 →
      (q.startBlock < q.endBlock ∨ q.endRes.toNat = B → f.hi.toNat - f.lo.toNat = B - o % B) ∧
      (q.startBlock = q.endBlock → f.hi.toNat - f.lo.toNat = q.endRes.toNat - q.startOff.toNat)

/-! ### The wire -/

/-- `send_bits(value, n)`: for each of the `n` bits from most to least significant the six events of R133; `3n` delays
in all; on return the clock is 0 and the data-out line carries bit 0. Only the low `n` bits are sent; chip-select is
not touched (R133, R134). -/
def Obligations.SendBits : Prop :=
  ∀ (v : Half) (n : Nat) (s : State), 1 ≤ n → n ≤ 16 → s.seq.hung = false →
    let t := runItems (always (sendBits v n)) s
    t.trace = (sendTrace v n).reverse ++ s.trace ∧ (sendTrace v n).length = 6 * n ∧
      (sendTrace v n).count .delay = 3 * n ∧
      t.lines = { s.lines with clk := false, dOut := v.getLsbD 0 } ∧
      t.seq = { s.seq with txVal := v, bitCnt := 0 } ∧
      t.plat = s.plat ∧ t.buf = s.buf ∧ t.bufTrace = s.bufTrace ∧ Elsewhere s t

/-- `recv_bits(n)`: `n` times a clock pulse and a sample after it; the bits sampled are accumulated, the first one as
bit `n-1`; the data-out line is not changed (R138). -/
def Obligations.RecvBits : Prop :=
  ∀ (n : Nat) (s : State), 1 ≤ n → n ≤ 16 → s.seq.hung = false →
    let t := runItems (always (recvBits n)) s
    ∃ bits : List Bool, bits.length = n ∧ t.trace = (bits.flatMap sampleTrace).reverse ++ s.trace ∧
      (∀ j, j < n → t.seq.rxAcc.getLsbD (n - 1 - j) = bits.getD j false) ∧
      (∀ j, n ≤ j → t.seq.rxAcc.getLsbD j = false) ∧
      t.lines = { s.lines with clk := false } ∧
      t.seq = { s.seq with rxAcc := t.seq.rxAcc, bitCnt := 0 } ∧
      t.plat = s.plat ∧ t.buf = s.buf ∧ t.bufTrace = s.bufTrace ∧ Elsewhere s t

/-- The completion poll with a finite limit: at least one sample and at most `POLL_LIMIT`, one delay between two of
them, no clock pulse and no line touched; it answers `false` only after `POLL_LIMIT` samples (R143), whatever the
device does. -/
def Obligations.PollIsBounded : Prop :=
  ∀ (s : State) (L : Nat), s.seq.hung = false → s.params.pollLimit = some L → 0 < L →
    let t := runItems (always [.pollStart, .poll]) s
    t.seq.hung = false ∧ t.seq.ok ≠ none ∧ 1 ≤ t.seq.pollCnt ∧ t.seq.pollCnt ≤ L ∧
      (t.seq.ok = some false → t.seq.pollCnt = L) ∧
      t.delays = s.delays + (t.seq.pollCnt - 1) ∧ t.pulses = s.pulses ∧ t.lines = s.lines

/-- The wire invariants of R145 over every completed frame and operation of the EEPROM master, on a device with no
write under way (enabled, for a write frame of its own): chip-select and data-out change only while the clock is 0, and
between two changes of any line there is a delay, but for the data-out line or the first sample of a poll right after
chip-select was asserted. That this exception also covers the fall of chip-select after a poll that ends at its first
sample is the model's reading (log 33). Left out are a device that is busy before and a bare write frame on a device that
is not enabled. -/
def Obligations.WireInvariants : Prop :=
  ∀ (i : Instr) (s t : State),
    ((∃ o l b, i = .seepromRead o l b) ∨ (∃ o l b, i = .seepromWrite o l b) ∨ (∃ a, i = .eepRead a) ∨
      (∃ x, i = .eepEwen x) ∨ (∃ x, i = .eepEwds x) ∨ ∃ a d, i = .eepWrite a d ∧ s.eep.wel = true) →
    Inv s → Free s → s.params.wellFormed = true → s.eep.busy = false → exec i s = .next t → t.seq.hung = false →
      ∃ ev, t.trace = ev.reverse ++ s.trace ∧ stableUnderClock s.lines ev = true ∧ spacedChanges s.lines none ev = true

/-- The counts of delays and clock pulses of R232: the sends and receives, the frames, a SEEPROM read of `N` blocks. -/
def Obligations.DelayCounts : Prop :=
  (∀ v n, (sendTrace v n).count .delay = 3 * n ∧ (sendTrace v n).count (.line .clk true) = n) ∧
  (∀ v n, (recvTrace v n).count .delay = 2 * n ∧ (recvTrace v n).count (.line .clk true) = n) ∧
  (preambleTrace.count .delay = 1 ∧ preambleTrace.count (.line .clk true) = 0) ∧
  (∀ c w, (readTrace c w).count .delay = 66 ∧ (readTrace c w).count (.line .clk true) = 27) ∧
  (∀ c, (controlTrace c 11).count .delay = 34 ∧ (controlTrace c 11).count (.line .clk true) = 11) ∧
  (∀ c d b k, (writeTrace c d (pollTrace b k)).count .delay = 82 + (k + 1) ∧
    (writeTrace c d (pollTrace b k)).count (.line .clk true) = 27) ∧
  ∀ (o l : Nat) (b : Bool) (s : State), Inv s → Free s → s.params.wellFormed = true → s.eep.busy = false →
    InRange s.params 256 o l b → ∃ t, exec (.seepromRead o l b) s = .next t ∧
      t.delays = s.delays + 1 + 66 * (blockRange 2 o l).length ∧
      t.pulses = s.pulses + 27 * (blockRange 2 o l).length

/-- The counts of R232 for a SEEPROM write of `N` blocks with `P` pre-reads whose polls find `k` samples busy before the
ready one. That the moment `k` the environment chooses is the number of busy samples is the model's choice (log 8). -/
def Obligations.WriteDelayCounts : Prop :=
  ∀ (o l : Nat) (b : Bool) (s : State) (ks : List Nat) (ts : List (Option Nat)), Inv s → Free s →
    s.params.wellFormed = true → InRange s.params 256 o l b → s.eep.busy = false →
    ks.length = (blockRange 2 o l).length → s.eep.times = ks.map some ++ ts →
    (∀ k ∈ ks, LimitAllows s.params 0 k) →
    let N := ks.length
    let P := ((blockRange 2 o l).filter fun i =>
      !decide (o ≤ 2 * i ∧ 2 * i + 2 ≤ o + l)).length
    ∃ t, exec (.seepromWrite o l b) s = .next t ∧ P ≤ 2 ∧
      t.delays = s.delays + 1 + 34 + 66 * P + (ks.map fun k => 82 + (k + 1)).sum + 34 ∧
      t.pulses = s.pulses + 22 + 27 * N + 27 * P

/-! ### The command frames and the OTP command word -/

/-- `EEP.READ`: the read frame of block `a` receives the word `eep_mem[a mod 128]` into the low half of `blk`; its
events are those of R140; the device keeps its array, `eep_wel` and what it holds; the lines end with chip-select and
clock 0 and the data-out line at the last command bit (R58, R64, R140). `u` is the state at the end of the frame; the
return to `IDLE` keeps count and status and leaves the other working registers without a value (R21). That a frame is an
instruction of its own is log 13. -/
def Obligations.EepRead : Prop :=
  ∀ (a : Byte) (s : State), Inv s → Free s → s.params.wellFormed = true → s.eep.busy = false →
    let c := addressCommand s.params.opRead a
    let w := s.eep.mem.half (a.toNat % 128)
    let u := runItems (always (.setPhase .xfer :: readFrameOf c)) s
    exec (.eepRead a) s = .next u.finish ∧ Returned u.finish s.seq.count s.seq.status ∧
      u.seq = { s.seq with
        phase := .xfer, txVal := c.setWidth 16, bitCnt := 0, rxAcc := w, blk := s.seq.blk.extractLsb' 16 16 ++ w } ∧
      u.lines = { s.lines with cs := false, clk := false, dOut := c.getLsbD 0 } ∧
      WireOnly s u ∧ FrameKept s.eep u.eep ∧ u.eep.wel = s.eep.wel ∧
      u.trace = (readTrace c w).reverse ++ s.trace

/-- `EEP.EWEN` and `EEP.EWDS`: the enable-writes frame sets `eep_wel`, the disable-writes frame clears it; their events
are those of R141 and R144, 11 bits each; nothing else of the device changes; the ignored bits are whatever they are
(R65, R84, R87, R141, R144). That a frame is an instruction of its own is log 13. -/
def Obligations.EnableAndDisable : Prop :=
  ∀ (pad : BitVec 6) (s : State), Inv s → Free s → s.params.wellFormed = true → s.eep.busy = false →
    (let c := controlCommand s.params.opEwen pad
      ∃ t, exec (.eepEwen pad) s = .next t ∧ t.eep.wel = true ∧ FrameKept s.eep t.eep ∧ WireOnly s t ∧
        Returned t s.seq.count s.seq.status ∧
        t.lines = { s.lines with cs := false, clk := false, dOut := c.getLsbD 0 } ∧
        t.trace = (controlTrace c 11).reverse ++ s.trace) ∧
    (let c := controlCommand s.params.opEwds pad
      ∃ t, exec (.eepEwds pad) s = .next t ∧ t.eep.wel = false ∧ FrameKept s.eep t.eep ∧ WireOnly s t ∧
        Returned t s.seq.count s.seq.status ∧
        t.lines = { s.lines with cs := false, clk := false, dOut := c.getLsbD 0 } ∧
        t.trace = (controlTrace c 11).reverse ++ s.trace)

/-- `EEP.WRITE` on an enabled device that is ready after `k` busy samples, within the limit: the word `a mod 128` of the
array becomes `d` and no other byte changes, the poll answers `true` after `k + 1` samples, the events are those of
R142 and R143 (R66, R67, R72, R142, R143, R160). `u` is the state before the return to `IDLE` (R21). The moment is the
environment's choice (log 8). -/
def Obligations.EepWrite : Prop :=
  ∀ (a : Byte) (d : Half) (s : State) (k : Nat) (ts : List (Option Nat)), Inv s → Free s →
    s.params.wellFormed = true → s.eep.busy = false → s.eep.wel = true → s.eep.times = some k :: ts →
    LimitAllows s.params 0 k →
    let c := addressCommand s.params.opWrite a
    let u := runItems (always (.setPhase .xfer :: .loadBlk d :: writeFrameOf c)) s
    exec (.eepWrite a d) s = .next u.finish ∧ Returned u.finish s.seq.count s.seq.status ∧
      u.eep.mem.half (a.toNat % 128) = d ∧
      (∀ x, x / 2 ≠ a.toNat % 128 → u.eep.mem.read x = s.eep.mem.read x) ∧
      u.eep.busy = false ∧ u.eep.wel = true ∧ u.eep.times = ts ∧ WireOnly s u ∧
      u.seq = { s.seq with
        phase := .xfer, blk := s.seq.blk.extractLsb' 16 16 ++ d, txVal := d, bitCnt := 0, pollCnt := k + 1
        ok := some true } ∧
      u.lines = { s.lines with cs := false, clk := false, dOut := d.getLsbD 0 } ∧
      u.trace = (writeTrace c d (pollTrace s.params.readyLevel k)).reverse ++ s.trace

/-- `EEP.WRITE` on an enabled device that is still busy at the last of `L + 1` allowed samples: the poll answers `false`
after exactly those samples, and only the word written is open (R66, R142, R143). The moment is the environment's choice
(log 8). -/
def Obligations.EepWriteTimesOut : Prop :=
  ∀ (a : Byte) (d : Half) (s : State) (L : Nat) (x : Option Nat) (ts : List (Option Nat)), Inv s → Free s →
    s.params.wellFormed = true → s.eep.busy = false → s.eep.wel = true → s.eep.times = x :: ts →
    s.params.pollLimit = some (L + 1) → (∀ k, x = some k → L < k) →
    let c := addressCommand s.params.opWrite a
    let u := runItems (always (.setPhase .xfer :: .loadBlk d :: writeFrameOf c)) s
    exec (.eepWrite a d) s = .next u.finish ∧ Returned u.finish s.seq.count s.seq.status ∧
      (∀ y, y / 2 ≠ a.toNat % 128 → u.eep.mem.read y = s.eep.mem.read y) ∧ u.eep.times = ts ∧ WireOnly s u ∧
      u.seq = { s.seq with
        phase := .xfer, blk := s.seq.blk.extractLsb' 16 16 ++ d, txVal := d, bitCnt := 0, pollCnt := L + 1
        ok := some false } ∧
      u.lines = { s.lines with cs := false, clk := false, dOut := d.getLsbD 0 } ∧
      u.trace = (writeTrace c d (lateTrace s.params.readyLevel L)).reverse ++ s.trace

/-- A write frame on a device that is not enabled changes nothing of the array (R66): every byte of it reads as before,
the device is not busy and stays disabled, whatever the poll that follows sees. -/
def Obligations.WriteNeedsEnable : Prop :=
  ∀ (a : Byte) (d : Half) (s t : State), Inv s → Free s → s.params.wellFormed = true → s.eep.busy = false →
    s.eep.wel = false → exec (.eepWrite a d) s = .next t →
    t.eep.mem = s.eep.mem ∧ t.eep.busy = false ∧ t.eep.wel = false ∧ WireOnly s t

/-- `OTP.CMD.READ`: the command word `OTP_RD_FLAG | w` is written to `OTP_CMD`, and the read of `OTP_DATA` brings the
fuse word `w` into `blk`: two register accesses, the write first, and nothing else changes (R32, R61, R88, R120). `u` is
the state before the return to `IDLE`, which keeps count and status (R21). That the word is an instruction of its own is
log 13. -/
def Obligations.OtpCmdRead : Prop :=
  ∀ (w : BitVec 5) (s : State), Free s → s.params.wellFormed = true →
    let v := otpCommand s.params w
    let u := runItems (always [.setPhase .xfer, .otpWriteCmd v, .otpReadData]) s
    exec (.otpCmdRead w) s = .next u.finish ∧ Returned u.finish s.seq.count s.seq.status ∧
      v = s.params.otpRdFlag ||| w.setWidth 32 ∧ u.seq = { s.seq with phase := .xfer, blk := s.fuse.word w.toNat } ∧
      u.plat = { s.plat with otpCmd := v, otpData := s.fuse.word w.toNat } ∧
      u.trace = [.regRead .otpData (s.fuse.word w.toNat), .regWrite .otpCmd v] ++ s.trace ∧
      u.lines = s.lines ∧ u.eep = s.eep ∧ u.buf = s.buf ∧ u.bufTrace = s.bufTrace ∧ Elsewhere s u

/-! ### The reads -/

/-- `OTP.READ` of a range inside the region: count is `length`, status OK, `dst[j]` is region byte `offset + j`, no other
byte of the buffer is touched; one command write and one data read for each block, ascending; `OTP_CMD` keeps the
command of the last block; the lines, the EEPROM and the other platform registers are untouched
(R58, R105, R106, R110, R120, R121). -/
def Obligations.OtpRead : Prop :=
  ∀ (o l : Nat) (b : Bool) (s : State), Inv s → Free s → s.params.wellFormed = true → InRange s.params 128 o l b →
    let last := (o + l - 1) / 4
    ∃ t, exec (.otpRead o l b) s = .next t ∧ Returned t l .ok ∧ Delivered s t .otp o l ∧
      t.plat = { s.plat with
        otpCmd := otpCommand s.params (BitVec.ofNat 5 last), otpData := s.fuse.word last } ∧
      t.trace = ((blockRange 4 o l).flatMap (otpEvents s)).reverse ++ s.trace ∧
      t.lines = s.lines ∧ t.eep = s.eep ∧ Elsewhere s t

/-- `SEEPROM.READ` of a range inside the region, the device free: count is `length`, status OK, `dst[j]` is region byte
`offset + j`; the preamble and one read frame for each block, ascending; the array and `eep_wel` do not change; the
lines end with chip-select and clock 0, the data-out line at the last command bit; interrupts are not touched
(R58, R105, R106, R110, R139, R140, R151). -/
def Obligations.SeepromRead : Prop :=
  ∀ (o l : Nat) (b : Bool) (s : State), Inv s → Free s → s.params.wellFormed = true → InRange s.params 256 o l b →
    s.eep.busy = false →
    let last := (o + l - 1) / 2
    ∃ t, exec (.seepromRead o l b) s = .next t ∧ Returned t l .ok ∧ Delivered s t .seeprom o l ∧
      t.eep.mem = s.eep.mem ∧ t.eep.wel = s.eep.wel ∧ t.eep.busy = false ∧ t.eep.times = s.eep.times ∧
      t.lines = { s.lines with cs := false, clk := false, dOut := (readCommand s.params last).getLsbD 0 } ∧
      t.plat = s.plat ∧
      t.trace = (preambleTrace ++ (blockRange 2 o l).flatMap fun i =>
        readTrace (readCommand s.params i) (s.eep.mem.half i)).reverse ++ s.trace ∧
      Elsewhere s t

/-- `BOOT0.READ` and `SOTP.READ` of a range inside the region: count is `length`, status OK, `dst[j]` is region byte
`offset + j`, one load for each block, ascending; the protection register is read, the bit is set if it was clear and
then cleared again, so that `PROT` ends as it was in every bit; nothing else changes
(R58, R60, R105, R106, R110, R170 to R178, R180). -/
def Obligations.MirrorReads : Prop :=
  ∀ (o l : Nat) (b : Bool) (s : State), Inv s → Free s → s.params.wellFormed = true →
    (InRange s.params s.params.boot0Size o l b →
      ∃ t, exec (.boot0Read o l b) s = .next t ∧ Returned t l .ok ∧ Delivered s t .boot0 o l ∧
        t.trace = (openTrace s ++ (blockRange 4 o l).flatMap (mirrorEvents s .boot0) ++
          closeTrace s).reverse ++ s.trace ∧
        t.plat = s.plat ∧ t.lines = s.lines ∧ t.eep = s.eep ∧ Elsewhere s t) ∧
    (InRange s.params 128 o l b →
      ∃ t, exec (.sotpRead o l b) s = .next t ∧ Returned t l .ok ∧ Delivered s t .sotp o l ∧
        t.trace = (openTrace s ++ (blockRange 4 o l).flatMap (mirrorEvents s .sotp) ++
          closeTrace s).reverse ++ s.trace ∧
        t.plat = s.plat ∧ t.lines = s.lines ∧ t.eep = s.eep ∧ Elsewhere s t)

/-- "For all four media, issuing a single `read(offset=0, length=total_size)` byte-for-byte equals the concatenation of
N single-block reads covering the same range": block `i` of the whole-region read is what the read of that block alone
delivers; and a successful read of any range leaves `dst[j] = REGION[offset + j]` (R110), the EEPROM device free. -/
def Obligations.WholeRegionReads : Prop :=
  (∀ (r : Region) (s : State), Inv s → Free s → s.params.wellFormed = true → s.eep.busy = false →
    let N := r.totalSize s.params
    let B := r.blockSize
    s.params.encodes 0 N →
    ∃ t, exec (request r false 0 N true) s = .next t ∧ Returned t N .ok ∧
      ∀ i, i < N / B →
        ∃ u, exec (request r false (B * i) B true) s = .next u ∧ Returned u B .ok ∧
          ∀ j, j < B → t.buf.read (B * i + j) = u.buf.read j) ∧
  ∀ (r : Region) (o l : Nat) (b : Bool) (s : State), Inv s → Free s → s.params.wellFormed = true →
    s.eep.busy = false → InRange s.params (r.totalSize s.params) o l b →
    ∃ t, exec (request r false o l b) s = .next t ∧ Returned t l .ok ∧
      ∀ j, j < l → t.buf.read j = s.regionByte r (o + j)

/-- `OTP.read(dst, 0, 128)` returns 128 and `dst` is the concatenation of the 32 fuse words, each as 4 bytes, most
significant first (R55, R124). -/
def Obligations.OtpImage : Prop :=
  ∀ s : State, Inv s → Free s → s.params.wellFormed = true →
    ∃ t, exec (.otpRead 0 128 true) s = .next t ∧ Returned t 128 .ok ∧
      ∀ w, w < 32 →
        t.buf.read (4 * w) = (s.fuse.word w).extractLsb' 24 8 ∧
        t.buf.read (4 * w + 1) = (s.fuse.word w).extractLsb' 16 8 ∧
        t.buf.read (4 * w + 2) = (s.fuse.word w).extractLsb' 8 8 ∧
        t.buf.read (4 * w + 3) = (s.fuse.word w).extractLsb' 0 8

/-- Buffer bytes outside `buf[0 .. count-1]` are not written by a read, and a read never reads the buffer (R106), for
every read request, accepted or not, the EEPROM device free. -/
def Obligations.ReadsOnlyFillTheBuffer : Prop :=
  ∀ (r : Region) (o l : Nat) (b : Bool) (s t : State), Inv s → Free s → s.params.wellFormed = true →
    s.eep.busy = false → s.params.encodes o l → exec (request r false o l b) s = .next t →
    (∀ j, t.seq.count ≤ j → t.buf.read j = s.buf.read j) ∧
      t.bufTrace = ((List.range t.seq.count).map BufEvent.write).reverse ++ s.bufTrace

/-! ### The write -/

/-- `SEEPROM.WRITE` of a range inside the region, the device free and ready within the limit for every block: count is
`length`, status OK; the caller's bytes stand in the array and no other byte of it changes; the events are exactly
those of R164 in that order, with one pre-read of each partially covered block; each of `buf[0 .. length-1]` is read
once, ascending, and the buffer is not written; `eep_wel` is 0, the lock released, `irq_enable` as it was
(R107, R108, R112, R155 to R160, R162 to R164). The moments are the environment's choice (log 8). -/
def Obligations.SeepromWrite : Prop :=
  ∀ (o l : Nat) (b : Bool) (s : State) (ks : List Nat) (ts : List (Option Nat)), Inv s → Free s →
    s.params.wellFormed = true → InRange s.params 256 o l b → s.eep.busy = false →
    ks.length = (blockRange 2 o l).length → s.eep.times = ks.map some ++ ts →
    (∀ k ∈ ks, LimitAllows s.params 0 k) →
    ∃ t, exec (.seepromWrite o l b) s = .next t ∧ Returned t l .ok ∧
      (∀ k, t.eep.mem.read k = storedByte s o l k) ∧
      t.eep.busy = false ∧ t.eep.wel = false ∧ t.eep.times = ts ∧ t.lines = Lines.reset ∧ t.plat = s.plat ∧
      t.buf = s.buf ∧ t.bufTrace = ((List.range l).map BufEvent.read).reverse ++ s.bufTrace ∧
      t.trace = (writeOpTrace s.params (blocksTrace s o l (o / 2) ks)).reverse ++ s.trace ∧
      Elsewhere s t

/-- `SEEPROM.WRITE` when the poll of one block gives up: the block loop stops, the disable-writes frame is sent and the
lock released; count is the sum over the blocks before, status TIMEOUT; their bytes stay written; the word of the block
that timed out is unspecified (R59, R107, R161 to R163, R186). That the rest of the array stays is R59, R161 and the
vectors V-E11 and P4 read against R68 (log 14); which poll gives up, and after how many samples, is read off the moments
the environment chooses (log 8). -/
def Obligations.SeepromWriteTimesOut : Prop :=
  ∀ (o l : Nat) (b : Bool) (s : State) (L : Nat) (ks : List Nat) (x : Option Nat) (ts : List (Option Nat)),
    Inv s → Free s → s.params.wellFormed = true → InRange s.params 256 o l b → s.eep.busy = false →
    s.params.pollLimit = some (L + 1) → ks.length < (blockRange 2 o l).length →
    s.eep.times = ks.map some ++ x :: ts → (∀ k ∈ ks, LimitAllows s.params 0 k) → (∀ k, x = some k → L < k) →
    let e := o / 2 + ks.length
    let n := done 2 o l e
    ∃ t, exec (.seepromWrite o l b) s = .next t ∧ Returned t n .timeout ∧ n < l ∧
      (∀ k, k / 2 ≠ e → t.eep.mem.read k = storedByte s o n k) ∧
      t.lines = Lines.reset ∧ t.plat = s.plat ∧ t.buf = s.buf ∧
      t.bufTrace = ((List.range (done 2 o l (e + 1))).map BufEvent.read).reverse ++ s.bufTrace ∧
      t.trace = (writeOpTrace s.params (blocksTrace s o l (o / 2) ks ++
        blockLateTrace s o l e L)).reverse ++ s.trace ∧
      Elsewhere s t

/-- `SEEPROM.WRITE` with `POLL_LIMIT = inf` when the device never completes a block: the operation does not return, the
sequencer stands in that poll, in `XFER`, under the lock with interrupts disabled, with the rest of the operation still
to do (R227, U17, log 11). That it is that block is the moment the environment chooses (log 8). -/
def Obligations.SeepromWriteHangs : Prop :=
  ∀ (o l : Nat) (b : Bool) (s : State) (ks : List Nat) (ts : List (Option Nat)),
    Inv s → Free s → s.params.wellFormed = true → InRange s.params 256 o l b → s.eep.busy = false →
    s.params.pollLimit = none → ks.length < (blockRange 2 o l).length →
    s.eep.times = ks.map some ++ none :: ts →
    let e := o / 2 + ks.length
    ∃ t, exec (.seepromWrite o l b) s = .next t ∧ Stuck t ∧ t.seq.phase = .xfer ∧ t.lines.lock = true ∧
      t.plat = { s.plat with irqEnable := false } ∧ t.buf = s.buf ∧
      t.seq.ahead = writeAhead s.params (s.started .seeprom true o l b).seq ((blockRange 2 o l).drop (ks.length + 1)) ∧
      (∀ k, k / 2 ≠ e → t.eep.mem.read k = storedByte s o (done 2 o l e) k) ∧ Elsewhere s t

/-- The hang is an infinite run (R227): with no input, every further step of a sequencer in an endless poll takes one
more sample, finds the device busy, waits one quantum, and stands in the poll as before. -/
def Obligations.HangGoesOn : Prop :=
  ∀ s : State, Stuck s → s.inbox = [] →
    ∃ t, step s = .next t ∧ Stuck t ∧ t.seq = { s.seq with pollCnt := s.seq.pollCnt + 1 } ∧ t.lines = s.lines ∧
      t.plat = s.plat ∧ t.eep = s.eep ∧ t.trace = .delay :: .sample (!s.params.readyLevel) :: s.trace ∧ t.inbox = []

/-- "with a finite `POLL_LIMIT` every operation ends" (R185, R227), and without a limit every operation that polls nothing
does: from every free state, device busy or not, every instruction answers a next state in which the block is free, the
lines and the lock are at rest. -/
def Obligations.EveryOperationEnds : Prop :=
  ∀ (i : Instr) (s : State), Inv s → Free s → s.params.wellFormed = true →
    (s.params.pollLimit ≠ none ∨ (∀ o l b, i ≠ .seepromWrite o l b) ∧ ∀ a d, i ≠ .eepWrite a d) →
    ∃ t, exec i s = .next t ∧ t.busy = false ∧ t.lines.cs = false ∧ t.lines.clk = false ∧ t.lines.lock = false

/-- The write is the only operation that changes `irq_enable` or the lock, and it restores both before it returns
(R34, R151, R156, R161 to R163): after every instruction that has returned, with whatever status, the device busy or not,
both are as before. -/
def Obligations.InterruptEnableRestored : Prop :=
  ∀ (i : Instr) (s t : State), Inv s → Free s → s.params.wellFormed = true → exec i s = .next t →
    t.seq.hung = false → t.plat.irqEnable = s.plat.irqEnable ∧ t.lines.lock = false

/-- Round trip (R166): if `SEEPROM.write(src, offset, length)` returns `(length, OK)`, a following
`SEEPROM.read(dst, offset, length)` returns `length` with `dst = src`, and every byte of the region outside the range
is unchanged. `m` is whatever the host puts into the buffer in between; the device has no write under way before. -/
def Obligations.RoundTrip : Prop :=
  ∀ (o l : Nat) (s t : State) (m : Memory), Inv s → Free s → s.params.wellFormed = true → s.eep.busy = false →
    s.params.encodes o l → exec (.seepromWrite o l true) s = .next t → Returned t l .ok → m.wf = true → 0 < l →
    ∃ u, exec (.seepromRead o l true) (t.setBuf m) = .next u ∧ Returned u l .ok ∧
      (∀ j, j < l → u.buf.read j = s.buf.read j) ∧
      ∀ k, ¬ (o ≤ k ∧ k < o + l) → u.eep.mem.read k = s.eep.mem.read k

/-- The status codes and what they say of the count (R187), for every host request of at least one byte that has
returned, the device free: OK exactly if the count is `length`; PRECOND and ILLEGAL only with count 0; TIMEOUT only
with a smaller count. -/
def Obligations.StatusAndCount : Prop :=
  (Status.code .ok = 0 ∧ Status.code .precond = 1 ∧ Status.code .illegal = 2 ∧ Status.code .timeout = 3) ∧
  ∀ (r : Region) (w : Bool) (o l : Nat) (b : Bool) (s t : State), Inv s → Free s → s.params.wellFormed = true →
    s.eep.busy = false → s.params.encodes o l → 0 < l → exec (request r w o l b) s = .next t → t.seq.hung = false →
    (t.seq.status = .ok ↔ t.seq.count = l) ∧ (t.seq.status = .precond → t.seq.count = 0) ∧
      (t.seq.status = .illegal → t.seq.count = 0) ∧ (t.seq.status = .timeout → t.seq.count < l)

/-! ### The device and the processor -/

/-- The device's own step completes the write under way: the pending word stands in the array and the device is no
longer busy; no other byte changes (R66). -/
def Obligations.DeviceCompletes : Prop :=
  ∀ (s : State) (rest : List Input) (n : Nat), Inv s → s.inbox = .deviceStep :: rest → s.eep.busy = true →
    s.eep.left = some n →
    ∃ t, step s = .next t ∧ t.eep.busy = false ∧ t.eep.mem.half s.eep.pendAddr.toNat = s.eep.pendData ∧
      (∀ k, k / 2 ≠ s.eep.pendAddr.toNat → t.eep.mem.read k = s.eep.mem.read k) ∧ t.eep.wel = s.eep.wel ∧
      t.lines = s.lines ∧ t.seq = s.seq ∧ t.plat = s.plat ∧ t.trace = s.trace

/-- Misuse (R68): once a clock edge of a frame has met a busy device, whatever further edges and delays follow in that
frame (`none` stands for a delay), when the frame ends every byte of the array, `eep_wel` and `eep_busy` are drawn anew.
So are they at the end of every read, enable-writes and disable-writes frame on a device that is busy longer than the one
delay before the first edge. (Not meant is the disable-writes frame that closes a write after a time-out, where R161 says
what is open: log 14.) -/
def Obligations.BusyDeviceMisused : Prop :=
  (∀ (p : Params) (bit : Bool) (n : Nat) (acts : List (Option Bool)) (d : Eeprom), d.busy = true →
    let act (x : Eeprom) (a : Option Bool) : Eeprom := match a with
      | some b => x.clockEdge p b
      | none => x.tick
    let e := (acts.foldl act (d.clockEdge p bit)).frameEnd p n false
    (∀ k, k < 256 → e.mem.read k = Config.freeVec 8 n (k + 16)) ∧ e.wel = Config.freeBit n 0 ∧
      e.busy = Config.freeBit n 1) ∧
  ∀ (s : State), Inv s → Free s → s.params.wellFormed = true → s.eep.busy = true → s.eep.left ≠ some 0 →
    (∀ a, ∃ t d, exec (.eepRead a) s = .next t ∧ t.eep = (Eeprom.havoc (s.draws + 16) d).tick) ∧
    (∀ x, ∃ t d, exec (.eepEwen x) s = .next t ∧ t.eep = (Eeprom.havoc s.draws d).tick) ∧
    ∀ x, ∃ t d, exec (.eepEwds x) s = .next t ∧ t.eep = (Eeprom.havoc s.draws d).tick

/-- An interrupt that arrives under the lock waits, and is taken after the unlock if `irq_enable` is restored to 1
(R192): its handler then runs with the lock released. -/
def Obligations.InterruptWaitsForUnlock : Prop :=
  ∀ s : State, s.plat.irqEnable = false → s.lines.lock = true →
    (s.interruptArrives).plat = { s.plat with irqPending := true } ∧
    (s.seq.irqSaved = true → (s.interruptArrives.unlockIrq).plat =
      { s.plat with irqEnable := true, irqPending := false, handlers := false :: s.plat.handlers }) ∧
    (s.seq.irqSaved = false → (s.interruptArrives.unlockIrq).plat = { s.plat with irqPending := true })

/-- Interrupts that preempt an operation between any two events, any number of them, only lengthen gaps (R146, R192):
whatever the moments, the operation ends with the same result, the same buffer, device, lines, registers and trace as
without them; only the processor's own record of interrupts differs. (The handler uses neither the block nor its lines,
R195; log 21.) -/
def Obligations.InterruptsAreHarmless : Prop :=
  ∀ (i : Instr) (s t u : State) (ds : List Disturbance), (∀ d ∈ ds, d.kind = .interrupt) →
    exec i (s.setDisturb ds) = .next t → exec i (s.setDisturb []) = .next u →
    t.seq.hung = false → u.seq.hung = false →
    t.seq = u.seq ∧ t.lines = u.lines ∧ t.eep = u.eep ∧ t.buf = u.buf ∧ t.trace = u.trace ∧
      t.bufTrace = u.bufTrace ∧ t.draws = u.draws ∧ t.plat.otpCmd = u.plat.otpCmd ∧
      t.plat.otpData = u.plat.otpData ∧ t.plat.prot = u.plat.prot ∧ t.plat.irqEnable = u.plat.irqEnable ∧
      Elsewhere (u.setDisturb t.disturb) t

/-- An event `irq_enable` cannot mask: inside the write transaction it leaves the EEPROM device state unspecified,
drawn anew (R193, R68). That outside it nothing changes is the model's choice (log 35): R193 speaks of the transaction
alone. -/
def Obligations.NonMaskableEvent : Prop :=
  ∀ s : State,
    (s.lines.lock = true → s.nonMaskable.eep = s.eep.havoc s.draws ∧ s.nonMaskable.lines = s.lines ∧
      s.nonMaskable.seq = s.seq ∧ s.nonMaskable.plat = s.plat ∧ s.nonMaskable.buf = s.buf ∧
      s.nonMaskable.trace = s.trace) ∧
    (s.lines.lock = false → s.nonMaskable = s)

/-- A handler that meets an operation at any moment before its return and uses the block, its lines or `PROT` gives the
run no meaning: the operation is refused by name (R195, D29; the moments are those of log 20). -/
def Obligations.IntruderRefused : Prop :=
  ∀ (r : Region) (w : Bool) (o l : Nat) (b : Bool) (s : State) (n k : Nat) (ds : List Disturbance), Legal r w →
    s.busy = false → InRange s.params (r.totalSize s.params) o l b → n < (s.itemsOf r w o l b).length →
    s.disturb = ⟨n, k, .intruder⟩ :: ds → exec (request r w o l b) s = .refused .concurrentUse

/-- Chip-select asserted is the level `CS_ACTIVE_LEVEL`, deasserted its complement (R29, R131); setting a latch is an
event of the trace even where the level does not change (R131). -/
def Obligations.LineLevels : Prop :=
  ∀ (l : Line) (b : Bool) (s : State),
    (s.line l b).trace = .line l b :: s.trace ∧
    (s.line l b).lines = { s.lines with
      cs := if l = .cs then b else s.lines.cs
      clk := if l = .clk then b else s.lines.clk
      dOut := if l = .dOut then b else s.lines.dOut } ∧
    (s.line .cs true).csElectrical = s.params.csActiveLevel ∧
    (s.line .cs false).csElectrical = !s.params.csActiveLevel

/-! ### A poll that goes on -/

/-- "if b = READY_LEVEL then return true" (R143), for a sequencer that has stood in a poll too: if the device drives
`READY_LEVEL` in the status frame (R67), the next step takes that sample and no other of this poll, the poll answers
`true`, and all that was still to do of the operation runs. That the rest waits in the state is log 11. -/
def Obligations.PollReturns : Prop :=
  ∀ s : State, s.seq.hung = true → s.seq.ok = none → s.lines.cs = true → s.eep.edges = 0 → s.eep.afterWrite = true →
    s.eep.busy = false → s.eep.unready = false → s.inbox = [] → s.disturb = [] →
    ∃ u, step s = .next (runItems s.seq.ahead u) ∧ u.trace = .sample s.params.readyLevel :: s.trace ∧
      u.seq = { s.seq with pollCnt := s.seq.pollCnt + 1, ok := some true, hung := false, ahead := [] } ∧
      u.lines = s.lines ∧ u.plat = s.plat ∧ u.eep = s.eep ∧ u.buf = s.buf ∧ u.bufTrace = s.bufTrace ∧ Elsewhere s u

/-- `SEEPROM.WRITE` that stood in the poll of its last block, on a device that becomes ready after all, as one whose state
a non-maskable event drew anew may (R193): the next sample ends the poll, the block counts, the closing steps run, and
the operation returns count `length` and status OK with the lock released and `irq_enable` as it was
(R107, R143, R160, R162, R163). `d` is whatever device the poll then meets; the closing frame keeps its array. Which
poll stands is the moment the environment chooses (log 8), and that a step takes one round is log 11. -/
def Obligations.SeepromWriteGoesOn : Prop :=
  ∀ (o l : Nat) (b : Bool) (s : State) (ks : List Nat) (ts : List (Option Nat)),
    Inv s → Free s → s.params.wellFormed = true → InRange s.params 256 o l b → s.eep.busy = false →
    s.params.pollLimit = none → ks.length + 1 = (blockRange 2 o l).length → s.eep.times = ks.map some ++ none :: ts →
    s.inbox = [] →
    ∃ t, exec (.seepromWrite o l b) s = .next t ∧ Stuck t ∧
      ∀ d : Eeprom, d.edges = 0 → d.afterWrite = true → d.busy = false → d.unready = false →
        ∃ u, step (t.setEep d) = .next u ∧ Returned u l .ok ∧ u.lines = Lines.reset ∧ u.plat = s.plat ∧
          u.buf = s.buf ∧ u.eep.mem = d.mem ∧ u.eep.wel = false ∧ Elsewhere s u
end

