-- ==== Sys2Proof/Laws/Commands.lean ====
section
/-! SUPPORT. The fields of a command word that was assembled from a base and an operand (R84, R85). -/

namespace Sys2Proof

theorem Params.wf_fields {p : Params} (h : p.wellFormed = true) :
    p.opRead.extractLsb' 0 8 = 0 ∧ p.opWrite.extractLsb' 0 8 = 0 ∧ p.opEwen.extractLsb' 0 6 = 0 ∧
      p.opEwds.extractLsb' 0 6 = 0 ∧ p.opRead.extractLsb' 8 3 ≠ p.opWrite.extractLsb' 8 3 ∧
      p.opRead.extractLsb' 8 3 ≠ p.opEwen.extractLsb' 8 3 ∧ p.opRead.extractLsb' 8 3 ≠ p.opEwds.extractLsb' 8 3 ∧
      p.opWrite.extractLsb' 8 3 ≠ p.opEwen.extractLsb' 8 3 ∧ p.opWrite.extractLsb' 8 3 ≠ p.opEwds.extractLsb' 8 3 ∧
      p.opEwen.extractLsb' 6 5 ≠ p.opEwds.extractLsb' 6 5 ∧ p.ewdsBits = 11 ∧ 16 ≤ p.wOff ∧
      p.otpRdFlag.extractLsb' 0 5 = 0 ∧ isOneBit p.protBit = true ∧ p.boot0Base % 4 = 0 ∧ p.sotpBase % 4 = 0 ∧
      p.boot0Size % 4 = 0 ∧ 0 < p.boot0Size ∧ p.pollLimit ≠ some 0 := by
  simpa [Params.wellFormed, and_assoc] using h

theorem addressCommand_opField (base : Command) (a : Byte) :
    opField (addressCommand base a) = opField base := by
  apply BitVec.eq_of_getLsbD_eq
  intro i hi
  simp [opField, addressCommand, BitVec.getLsbD_extractLsb', BitVec.getLsbD_or, BitVec.getLsbD_setWidth]

theorem addressCommand_addressField {base : Command} (h : base.extractLsb' 0 8 = 0) (a : Byte) :
    addressField (addressCommand base a) = a := by
  apply BitVec.eq_of_getLsbD_eq
  intro i hi
  have hb : base.getLsbD i = false := by
    have := congrArg (fun v : BitVec 8 => v.getLsbD i) h
    simpa [BitVec.getLsbD_extractLsb', hi] using this
  simp only [addressField, addressCommand, BitVec.getLsbD_extractLsb', BitVec.getLsbD_or, BitVec.getLsbD_setWidth,
    Nat.zero_add, hi, hb, show i < 11 by omega, decide_true, Bool.true_and, Bool.false_or]

theorem controlCommand_opField (base : Command) (x : BitVec 6) :
    opField (controlCommand base x) = opField base := by
  apply BitVec.eq_of_getLsbD_eq
  intro i hi
  simp [opField, controlCommand, BitVec.getLsbD_extractLsb', BitVec.getLsbD_or, BitVec.getLsbD_setWidth,
    BitVec.getLsbD_of_ge x (8 + i) (by omega)]

theorem controlCommand_controlField (base : Command) (x : BitVec 6) :
    controlField (controlCommand base x) = controlField base := by
  apply BitVec.eq_of_getLsbD_eq
  intro i hi
  simp [controlField, controlCommand, BitVec.getLsbD_extractLsb', BitVec.getLsbD_or, BitVec.getLsbD_setWidth]

theorem controlCommand_padField {base : Command} (h : base.extractLsb' 0 6 = 0) (x : BitVec 6) :
    padField (controlCommand base x) = x := by
  apply BitVec.eq_of_getLsbD_eq
  intro i hi
  have hb : base.getLsbD i = false := by
    have := congrArg (fun v : BitVec 6 => v.getLsbD i) h
    simpa [BitVec.getLsbD_extractLsb', hi] using this
  simp only [padField, controlCommand, BitVec.getLsbD_extractLsb', BitVec.getLsbD_or, BitVec.getLsbD_setWidth,
    Nat.zero_add, hi, hb, show i < 11 by omega, decide_true, Bool.true_and, Bool.false_or]

/-- The device reads a read command word as a read of its address (R63, R84). -/
theorem decodeCommand_read {p : Params} (h : p.wellFormed = true) (a : Byte) :
    decodeCommand p (addressCommand p.opRead a) = .read a := by
  have w := Params.wf_fields h
  simp [decodeCommand, addressCommand_opField, addressCommand_addressField w.1]

/-- The device reads a write command word as a write of its address (R63, R84). -/
theorem decodeCommand_write {p : Params} (h : p.wellFormed = true) (a : Byte) :
    decodeCommand p (addressCommand p.opWrite a) = .write a := by
  have w := Params.wf_fields h
  have : ¬ opField p.opWrite = opField p.opRead := fun e => w.2.2.2.2.1 e.symm
  simp [decodeCommand, addressCommand_opField, addressCommand_addressField w.2.1, this]

/-- The device reads the enable-writes word, whatever the ignored bits are (R63, R84). -/
theorem decodeCommand_ewen {p : Params} (h : p.wellFormed = true) (x : BitVec 6) :
    decodeCommand p (controlCommand p.opEwen x) = .ewen x := by
  have w := Params.wf_fields h
  have h1 : ¬ opField p.opEwen = opField p.opRead := fun e => w.2.2.2.2.2.1 e.symm
  have h2 : ¬ opField p.opEwen = opField p.opWrite := fun e => w.2.2.2.2.2.2.2.1 e.symm
  simp [decodeCommand, controlCommand_opField, controlCommand_controlField, controlCommand_padField w.2.2.1, h1, h2]

/-- The device reads the disable-writes word, whatever the ignored bits are (R63, R84). -/
theorem decodeCommand_ewds {p : Params} (h : p.wellFormed = true) (x : BitVec 6) :
    decodeCommand p (controlCommand p.opEwds x) = .ewds x := by
  have w := Params.wf_fields h
  have h1 : ¬ opField p.opEwds = opField p.opRead := fun e => w.2.2.2.2.2.2.1 e.symm
  have h2 : ¬ opField p.opEwds = opField p.opWrite := fun e => w.2.2.2.2.2.2.2.2.1 e.symm
  have h3 : ¬ controlField p.opEwds = controlField p.opEwen := fun e => w.2.2.2.2.2.2.2.2.2.1 e.symm
  simp [decodeCommand, controlCommand_opField, controlCommand_controlField, controlCommand_padField w.2.2.2.1, h1, h2,
    h3]

/-- The fuse array reads an OTP command word as the word it selects (R61, R88). -/
theorem decodeOtpCommand_read {p : Params} (h : p.wellFormed = true) (w : BitVec 5) :
    decodeOtpCommand p (otpCommand p w) = some w := by
  have hz := (Params.wf_fields h).2.2.2.2.2.2.2.2.2.2.2.2.1
  have h1 : (otpCommand p w).extractLsb' 5 27 = p.otpRdFlag.extractLsb' 5 27 := by
    apply BitVec.eq_of_getLsbD_eq
    intro i hi
    simp [otpCommand, BitVec.getLsbD_extractLsb', BitVec.getLsbD_or, BitVec.getLsbD_setWidth]
  have h2 : (otpCommand p w).extractLsb' 0 5 = w := by
    apply BitVec.eq_of_getLsbD_eq
    intro i hi
    have hb : p.otpRdFlag.getLsbD i = false := by
      have := congrArg (fun v : BitVec 5 => v.getLsbD i) hz
      simpa [BitVec.getLsbD_extractLsb', hi] using this
    simp only [otpCommand, BitVec.getLsbD_extractLsb', BitVec.getLsbD_or, BitVec.getLsbD_setWidth,
      Nat.zero_add, hi, hb, show i < 32 by omega, decide_true, Bool.true_and, Bool.false_or]
  simp [decodeOtpCommand, h1, h2]

/-- The control commands as they stand, with the ignored bits 0. -/
theorem controlCommand_zero (base : Command) : controlCommand base 0 = base := by simp [controlCommand]

end Sys2Proof
end

