-- ==== Sys2Proof/Laws/State.lean ====
section
/-! SUPPORT. What each field of the state reads after each named update. -/

namespace Sys2Proof.Machine

/-! ### setSeq -/

@[simp] theorem State.setSeq_params (s : State) (q : Sequencer) : (s.setSeq q).params = s.params := rfl
@[simp] theorem State.setSeq_seq (s : State) (q : Sequencer) : (s.setSeq q).seq = q := rfl
@[simp] theorem State.setSeq_lines (s : State) (q : Sequencer) : (s.setSeq q).lines = s.lines := rfl
@[simp] theorem State.setSeq_plat (s : State) (q : Sequencer) : (s.setSeq q).plat = s.plat := rfl
@[simp] theorem State.setSeq_eep (s : State) (q : Sequencer) : (s.setSeq q).eep = s.eep := rfl
@[simp] theorem State.setSeq_fuse (s : State) (q : Sequencer) : (s.setSeq q).fuse = s.fuse := rfl
@[simp] theorem State.setSeq_boot0 (s : State) (q : Sequencer) : (s.setSeq q).boot0 = s.boot0 := rfl
@[simp] theorem State.setSeq_sotp (s : State) (q : Sequencer) : (s.setSeq q).sotp = s.sotp := rfl
@[simp] theorem State.setSeq_buf (s : State) (q : Sequencer) : (s.setSeq q).buf = s.buf := rfl
@[simp] theorem State.setSeq_trace (s : State) (q : Sequencer) : (s.setSeq q).trace = s.trace := rfl
@[simp] theorem State.setSeq_bufTrace (s : State) (q : Sequencer) : (s.setSeq q).bufTrace = s.bufTrace := rfl
@[simp] theorem State.setSeq_draws (s : State) (q : Sequencer) : (s.setSeq q).draws = s.draws := rfl
@[simp] theorem State.setSeq_inbox (s : State) (q : Sequencer) : (s.setSeq q).inbox = s.inbox := rfl
@[simp] theorem State.setSeq_disturb (s : State) (q : Sequencer) : (s.setSeq q).disturb = s.disturb := rfl

/-! ### setLines -/

@[simp] theorem State.setLines_params (s : State) (l : Lines) : (s.setLines l).params = s.params := rfl
@[simp] theorem State.setLines_seq (s : State) (l : Lines) : (s.setLines l).seq = s.seq := rfl
@[simp] theorem State.setLines_lines (s : State) (l : Lines) : (s.setLines l).lines = l := rfl
@[simp] theorem State.setLines_plat (s : State) (l : Lines) : (s.setLines l).plat = s.plat := rfl
@[simp] theorem State.setLines_eep (s : State) (l : Lines) : (s.setLines l).eep = s.eep := rfl
@[simp] theorem State.setLines_fuse (s : State) (l : Lines) : (s.setLines l).fuse = s.fuse := rfl
@[simp] theorem State.setLines_boot0 (s : State) (l : Lines) : (s.setLines l).boot0 = s.boot0 := rfl
@[simp] theorem State.setLines_sotp (s : State) (l : Lines) : (s.setLines l).sotp = s.sotp := rfl
@[simp] theorem State.setLines_buf (s : State) (l : Lines) : (s.setLines l).buf = s.buf := rfl
@[simp] theorem State.setLines_trace (s : State) (l : Lines) : (s.setLines l).trace = s.trace := rfl
@[simp] theorem State.setLines_bufTrace (s : State) (l : Lines) : (s.setLines l).bufTrace = s.bufTrace := rfl
@[simp] theorem State.setLines_draws (s : State) (l : Lines) : (s.setLines l).draws = s.draws := rfl
@[simp] theorem State.setLines_inbox (s : State) (l : Lines) : (s.setLines l).inbox = s.inbox := rfl
@[simp] theorem State.setLines_disturb (s : State) (l : Lines) : (s.setLines l).disturb = s.disturb := rfl

/-! ### setPlat -/

@[simp] theorem State.setPlat_params (s : State) (p : Platform) : (s.setPlat p).params = s.params := rfl
@[simp] theorem State.setPlat_seq (s : State) (p : Platform) : (s.setPlat p).seq = s.seq := rfl
@[simp] theorem State.setPlat_lines (s : State) (p : Platform) : (s.setPlat p).lines = s.lines := rfl
@[simp] theorem State.setPlat_plat (s : State) (p : Platform) : (s.setPlat p).plat = p := rfl
@[simp] theorem State.setPlat_eep (s : State) (p : Platform) : (s.setPlat p).eep = s.eep := rfl
@[simp] theorem State.setPlat_fuse (s : State) (p : Platform) : (s.setPlat p).fuse = s.fuse := rfl
@[simp] theorem State.setPlat_boot0 (s : State) (p : Platform) : (s.setPlat p).boot0 = s.boot0 := rfl
@[simp] theorem State.setPlat_sotp (s : State) (p : Platform) : (s.setPlat p).sotp = s.sotp := rfl
@[simp] theorem State.setPlat_buf (s : State) (p : Platform) : (s.setPlat p).buf = s.buf := rfl
@[simp] theorem State.setPlat_trace (s : State) (p : Platform) : (s.setPlat p).trace = s.trace := rfl
@[simp] theorem State.setPlat_bufTrace (s : State) (p : Platform) : (s.setPlat p).bufTrace = s.bufTrace := rfl
@[simp] theorem State.setPlat_draws (s : State) (p : Platform) : (s.setPlat p).draws = s.draws := rfl
@[simp] theorem State.setPlat_inbox (s : State) (p : Platform) : (s.setPlat p).inbox = s.inbox := rfl
@[simp] theorem State.setPlat_disturb (s : State) (p : Platform) : (s.setPlat p).disturb = s.disturb := rfl

/-! ### setEep -/

@[simp] theorem State.setEep_params (s : State) (d : Eeprom) : (s.setEep d).params = s.params := rfl
@[simp] theorem State.setEep_seq (s : State) (d : Eeprom) : (s.setEep d).seq = s.seq := rfl
@[simp] theorem State.setEep_lines (s : State) (d : Eeprom) : (s.setEep d).lines = s.lines := rfl
@[simp] theorem State.setEep_plat (s : State) (d : Eeprom) : (s.setEep d).plat = s.plat := rfl
@[simp] theorem State.setEep_eep (s : State) (d : Eeprom) : (s.setEep d).eep = d := rfl
@[simp] theorem State.setEep_fuse (s : State) (d : Eeprom) : (s.setEep d).fuse = s.fuse := rfl
@[simp] theorem State.setEep_boot0 (s : State) (d : Eeprom) : (s.setEep d).boot0 = s.boot0 := rfl
@[simp] theorem State.setEep_sotp (s : State) (d : Eeprom) : (s.setEep d).sotp = s.sotp := rfl
@[simp] theorem State.setEep_buf (s : State) (d : Eeprom) : (s.setEep d).buf = s.buf := rfl
@[simp] theorem State.setEep_trace (s : State) (d : Eeprom) : (s.setEep d).trace = s.trace := rfl
@[simp] theorem State.setEep_bufTrace (s : State) (d : Eeprom) : (s.setEep d).bufTrace = s.bufTrace := rfl
@[simp] theorem State.setEep_draws (s : State) (d : Eeprom) : (s.setEep d).draws = s.draws := rfl
@[simp] theorem State.setEep_inbox (s : State) (d : Eeprom) : (s.setEep d).inbox = s.inbox := rfl
@[simp] theorem State.setEep_disturb (s : State) (d : Eeprom) : (s.setEep d).disturb = s.disturb := rfl

/-! ### setBuf -/

@[simp] theorem State.setBuf_params (s : State) (m : Memory) : (s.setBuf m).params = s.params := rfl
@[simp] theorem State.setBuf_seq (s : State) (m : Memory) : (s.setBuf m).seq = s.seq := rfl
@[simp] theorem State.setBuf_lines (s : State) (m : Memory) : (s.setBuf m).lines = s.lines := rfl
@[simp] theorem State.setBuf_plat (s : State) (m : Memory) : (s.setBuf m).plat = s.plat := rfl
@[simp] theorem State.setBuf_eep (s : State) (m : Memory) : (s.setBuf m).eep = s.eep := rfl
@[simp] theorem State.setBuf_fuse (s : State) (m : Memory) : (s.setBuf m).fuse = s.fuse := rfl
@[simp] theorem State.setBuf_boot0 (s : State) (m : Memory) : (s.setBuf m).boot0 = s.boot0 := rfl
@[simp] theorem State.setBuf_sotp (s : State) (m : Memory) : (s.setBuf m).sotp = s.sotp := rfl
@[simp] theorem State.setBuf_buf (s : State) (m : Memory) : (s.setBuf m).buf = m := rfl
@[simp] theorem State.setBuf_trace (s : State) (m : Memory) : (s.setBuf m).trace = s.trace := rfl
@[simp] theorem State.setBuf_bufTrace (s : State) (m : Memory) : (s.setBuf m).bufTrace = s.bufTrace := rfl
@[simp] theorem State.setBuf_draws (s : State) (m : Memory) : (s.setBuf m).draws = s.draws := rfl
@[simp] theorem State.setBuf_inbox (s : State) (m : Memory) : (s.setBuf m).inbox = s.inbox := rfl
@[simp] theorem State.setBuf_disturb (s : State) (m : Memory) : (s.setBuf m).disturb = s.disturb := rfl

/-! ### emit -/

@[simp] theorem State.emit_params (s : State) (e : Event) : (s.emit e).params = s.params := rfl
@[simp] theorem State.emit_seq (s : State) (e : Event) : (s.emit e).seq = s.seq := rfl
@[simp] theorem State.emit_lines (s : State) (e : Event) : (s.emit e).lines = s.lines := rfl
@[simp] theorem State.emit_plat (s : State) (e : Event) : (s.emit e).plat = s.plat := rfl
@[simp] theorem State.emit_eep (s : State) (e : Event) : (s.emit e).eep = s.eep := rfl
@[simp] theorem State.emit_fuse (s : State) (e : Event) : (s.emit e).fuse = s.fuse := rfl
@[simp] theorem State.emit_boot0 (s : State) (e : Event) : (s.emit e).boot0 = s.boot0 := rfl
@[simp] theorem State.emit_sotp (s : State) (e : Event) : (s.emit e).sotp = s.sotp := rfl
@[simp] theorem State.emit_buf (s : State) (e : Event) : (s.emit e).buf = s.buf := rfl
@[simp] theorem State.emit_trace (s : State) (e : Event) : (s.emit e).trace = e :: s.trace := rfl
@[simp] theorem State.emit_bufTrace (s : State) (e : Event) : (s.emit e).bufTrace = s.bufTrace := rfl
@[simp] theorem State.emit_draws (s : State) (e : Event) : (s.emit e).draws = s.draws := rfl
@[simp] theorem State.emit_inbox (s : State) (e : Event) : (s.emit e).inbox = s.inbox := rfl
@[simp] theorem State.emit_disturb (s : State) (e : Event) : (s.emit e).disturb = s.disturb := rfl

/-! ### emitBuf -/

@[simp] theorem State.emitBuf_params (s : State) (e : BufEvent) : (s.emitBuf e).params = s.params := rfl
@[simp] theorem State.emitBuf_seq (s : State) (e : BufEvent) : (s.emitBuf e).seq = s.seq := rfl
@[simp] theorem State.emitBuf_lines (s : State) (e : BufEvent) : (s.emitBuf e).lines = s.lines := rfl
@[simp] theorem State.emitBuf_plat (s : State) (e : BufEvent) : (s.emitBuf e).plat = s.plat := rfl
@[simp] theorem State.emitBuf_eep (s : State) (e : BufEvent) : (s.emitBuf e).eep = s.eep := rfl
@[simp] theorem State.emitBuf_fuse (s : State) (e : BufEvent) : (s.emitBuf e).fuse = s.fuse := rfl
@[simp] theorem State.emitBuf_boot0 (s : State) (e : BufEvent) : (s.emitBuf e).boot0 = s.boot0 := rfl
@[simp] theorem State.emitBuf_sotp (s : State) (e : BufEvent) : (s.emitBuf e).sotp = s.sotp := rfl
@[simp] theorem State.emitBuf_buf (s : State) (e : BufEvent) : (s.emitBuf e).buf = s.buf := rfl
@[simp] theorem State.emitBuf_trace (s : State) (e : BufEvent) : (s.emitBuf e).trace = s.trace := rfl
@[simp] theorem State.emitBuf_bufTrace (s : State) (e : BufEvent) : (s.emitBuf e).bufTrace = e :: s.bufTrace := rfl
@[simp] theorem State.emitBuf_draws (s : State) (e : BufEvent) : (s.emitBuf e).draws = s.draws := rfl
@[simp] theorem State.emitBuf_inbox (s : State) (e : BufEvent) : (s.emitBuf e).inbox = s.inbox := rfl
@[simp] theorem State.emitBuf_disturb (s : State) (e : BufEvent) : (s.emitBuf e).disturb = s.disturb := rfl

/-! ### drawn -/

@[simp] theorem State.drawn_params (s : State) : s.drawn.params = s.params := rfl
@[simp] theorem State.drawn_seq (s : State) : s.drawn.seq = s.seq := rfl
@[simp] theorem State.drawn_lines (s : State) : s.drawn.lines = s.lines := rfl
@[simp] theorem State.drawn_plat (s : State) : s.drawn.plat = s.plat := rfl
@[simp] theorem State.drawn_eep (s : State) : s.drawn.eep = s.eep := rfl
@[simp] theorem State.drawn_fuse (s : State) : s.drawn.fuse = s.fuse := rfl
@[simp] theorem State.drawn_boot0 (s : State) : s.drawn.boot0 = s.boot0 := rfl
@[simp] theorem State.drawn_sotp (s : State) : s.drawn.sotp = s.sotp := rfl
@[simp] theorem State.drawn_buf (s : State) : s.drawn.buf = s.buf := rfl
@[simp] theorem State.drawn_trace (s : State) : s.drawn.trace = s.trace := rfl
@[simp] theorem State.drawn_bufTrace (s : State) : s.drawn.bufTrace = s.bufTrace := rfl
@[simp] theorem State.drawn_draws (s : State) : s.drawn.draws = s.draws + 1 := rfl
@[simp] theorem State.drawn_inbox (s : State) : s.drawn.inbox = s.inbox := rfl
@[simp] theorem State.drawn_disturb (s : State) : s.drawn.disturb = s.disturb := rfl

/-! ### setInbox -/

@[simp] theorem State.setInbox_params (s : State) (is : List Input) : (s.setInbox is).params = s.params := rfl
@[simp] theorem State.setInbox_seq (s : State) (is : List Input) : (s.setInbox is).seq = s.seq := rfl
@[simp] theorem State.setInbox_lines (s : State) (is : List Input) : (s.setInbox is).lines = s.lines := rfl
@[simp] theorem State.setInbox_plat (s : State) (is : List Input) : (s.setInbox is).plat = s.plat := rfl
@[simp] theorem State.setInbox_eep (s : State) (is : List Input) : (s.setInbox is).eep = s.eep := rfl
@[simp] theorem State.setInbox_fuse (s : State) (is : List Input) : (s.setInbox is).fuse = s.fuse := rfl
@[simp] theorem State.setInbox_boot0 (s : State) (is : List Input) : (s.setInbox is).boot0 = s.boot0 := rfl
@[simp] theorem State.setInbox_sotp (s : State) (is : List Input) : (s.setInbox is).sotp = s.sotp := rfl
@[simp] theorem State.setInbox_buf (s : State) (is : List Input) : (s.setInbox is).buf = s.buf := rfl
@[simp] theorem State.setInbox_trace (s : State) (is : List Input) : (s.setInbox is).trace = s.trace := rfl
@[simp] theorem State.setInbox_bufTrace (s : State) (is : List Input) : (s.setInbox is).bufTrace = s.bufTrace := rfl
@[simp] theorem State.setInbox_draws (s : State) (is : List Input) : (s.setInbox is).draws = s.draws := rfl
@[simp] theorem State.setInbox_inbox (s : State) (is : List Input) : (s.setInbox is).inbox = is := rfl
@[simp] theorem State.setInbox_disturb (s : State) (is : List Input) : (s.setInbox is).disturb = s.disturb := rfl

/-! ### setDisturb -/

@[simp] theorem State.setDisturb_params (s : State) (d : List Disturbance) : (s.setDisturb d).params = s.params := rfl
@[simp] theorem State.setDisturb_seq (s : State) (d : List Disturbance) : (s.setDisturb d).seq = s.seq := rfl
@[simp] theorem State.setDisturb_lines (s : State) (d : List Disturbance) : (s.setDisturb d).lines = s.lines := rfl
@[simp] theorem State.setDisturb_plat (s : State) (d : List Disturbance) : (s.setDisturb d).plat = s.plat := rfl
@[simp] theorem State.setDisturb_eep (s : State) (d : List Disturbance) : (s.setDisturb d).eep = s.eep := rfl
@[simp] theorem State.setDisturb_fuse (s : State) (d : List Disturbance) : (s.setDisturb d).fuse = s.fuse := rfl
@[simp] theorem State.setDisturb_boot0 (s : State) (d : List Disturbance) : (s.setDisturb d).boot0 = s.boot0 := rfl
@[simp] theorem State.setDisturb_sotp (s : State) (d : List Disturbance) : (s.setDisturb d).sotp = s.sotp := rfl
@[simp] theorem State.setDisturb_buf (s : State) (d : List Disturbance) : (s.setDisturb d).buf = s.buf := rfl
@[simp] theorem State.setDisturb_trace (s : State) (d : List Disturbance) : (s.setDisturb d).trace = s.trace := rfl
@[simp] theorem State.setDisturb_bufTrace (s : State) (d : List Disturbance) : (s.setDisturb d).bufTrace = s.bufTrace := rfl
@[simp] theorem State.setDisturb_draws (s : State) (d : List Disturbance) : (s.setDisturb d).draws = s.draws := rfl
@[simp] theorem State.setDisturb_inbox (s : State) (d : List Disturbance) : (s.setDisturb d).inbox = s.inbox := rfl
@[simp] theorem State.setDisturb_disturb (s : State) (d : List Disturbance) : (s.setDisturb d).disturb = d := rfl

@[simp] theorem State.setSeq_setSeq (s : State) (q q' : Sequencer) : (s.setSeq q).setSeq q' = s.setSeq q' := rfl
@[simp] theorem State.setSeq_self (s : State) : s.setSeq s.seq = s := rfl
@[simp] theorem State.setLines_setLines (s : State) (l l' : Lines) : (s.setLines l).setLines l' = s.setLines l' := rfl
@[simp] theorem State.setLines_self (s : State) : s.setLines s.lines = s := rfl
@[simp] theorem State.setPlat_setPlat (s : State) (p p' : Platform) : (s.setPlat p).setPlat p' = s.setPlat p' := rfl
@[simp] theorem State.setPlat_self (s : State) : s.setPlat s.plat = s := rfl
@[simp] theorem State.setEep_setEep (s : State) (d d' : Eeprom) : (s.setEep d).setEep d' = s.setEep d' := rfl
@[simp] theorem State.setEep_self (s : State) : s.setEep s.eep = s := rfl
@[simp] theorem State.setBuf_setBuf (s : State) (m m' : Memory) : (s.setBuf m).setBuf m' = s.setBuf m' := rfl
@[simp] theorem State.setBuf_self (s : State) : s.setBuf s.buf = s := rfl

/-- Two states with equal fields are equal. -/
theorem State.ext_fields (s t : State) (h : s.params = t.params ∧ s.seq = t.seq ∧ s.lines = t.lines ∧ s.plat = t.plat ∧
    s.eep = t.eep ∧ s.fuse = t.fuse ∧ s.boot0 = t.boot0 ∧ s.sotp = t.sotp ∧ s.buf = t.buf ∧ s.trace = t.trace ∧
    s.bufTrace = t.bufTrace ∧ s.draws = t.draws ∧ s.inbox = t.inbox ∧ s.disturb = t.disturb) : s = t := by
  cases s
  cases t
  simpa using h

/-! ### Registers of `W_OFF` bits -/

theorem narrow_lt (w n : Nat) : narrow w n < 2 ^ w := Nat.mod_lt _ (Nat.two_pow_pos w)

/-- What fits is kept whole (R109). -/
theorem narrow_eq {w n : Nat} (h : n < 2 ^ w) : narrow w n = n := Nat.mod_eq_of_lt h

theorem Sequencer.idle_fits (p : Params) (n : Nat) {q : Sequencer} (h : q.count < 2 ^ p.wOff) : (q.idle p n).fits p :=
  ⟨narrow_lt _ _, narrow_lt _ _, narrow_lt _ _, narrow_lt _ _, narrow_lt _ _, narrow_lt _ _, h, narrow_lt _ _⟩

theorem Sequencer.afterReset_fits (p : Params) (n : Nat) (q : Sequencer) : (q.afterReset p n).fits p :=
  ⟨narrow_lt _ _, narrow_lt _ _, narrow_lt _ _, narrow_lt _ _, narrow_lt _ _, narrow_lt _ _, Nat.two_pow_pos _,
    narrow_lt _ _⟩

theorem Sequencer.slice_fits {p : Params} {q : Sequencer} (h : q.fits p) (B : Nat) : (q.slice p B).fits p :=
  ⟨h.1, h.2.1, h.2.2.1, h.2.2.2.1, h.2.2.2.2.1, narrow_lt _ _, h.2.2.2.2.2.2⟩

theorem Sequencer.counted_fits {p : Params} {q : Sequencer} (h : q.fits p) : (q.counted p).fits p :=
  ⟨h.1, h.2.1, h.2.2.1, h.2.2.2.1, h.2.2.2.2.1, h.2.2.2.2.2.1, narrow_lt _ _, h.2.2.2.2.2.2.2⟩

theorem Sequencer.formEndSum_fits {p : Params} {q : Sequencer} (h : q.fits p) : (q.formEndSum p).fits p :=
  ⟨h.1, h.2.1, h.2.2.1, h.2.2.2.1, h.2.2.2.2.1, h.2.2.2.2.2.1, h.2.2.2.2.2.2.1, narrow_lt _ _⟩

theorem Sequencer.plan_fits {p : Params} {q : Sequencer} (h : q.fits p) (B : Nat) : (q.plan p B).fits p := by
  unfold Sequencer.plan Sequencer.planAdjust
  split
  · exact ⟨h.1, h.2.1, narrow_lt _ _, Nat.lt_of_le_of_lt (Nat.sub_le _ _) (narrow_lt _ _), h.2.2.2.2⟩
  · exact ⟨h.1, h.2.1, narrow_lt _ _, narrow_lt _ _, h.2.2.2.2⟩

end Sys2Proof.Machine
end

