-- ==== Sys2Proof/Laws/Memory.lean ====
section
/-! SUPPORT. The laws of a byte space: read after write, and that every operation keeps the canonical form. -/

namespace Sys2Proof.Machine

theorem Memory.read_put (a : Nat) (b : Byte) (t : Memory) (x : Nat)
    (h : ∀ e ∈ t, a < e.1) : Memory.read (Memory.put a b t) x = if x = a then b else Memory.read t x := by
  have miss : ∀ t : Memory, (∀ e ∈ t, a < e.1) → Memory.read t a = Memory.fill := by
    intro t
    induction t with
    | nil => intro _; rfl
    | cons e t ih =>
      intro h
      have h1 := h e (by simp)
      have h2 := ih fun e he => h e (by simp [he])
      simp only [Memory.read]
      rw [if_neg (by omega), h2]
  unfold Memory.put
  split
  next hb =>
    split
    next hx => subst hx; rw [miss t h, hb]
    next => rfl
  next =>
    simp only [Memory.read]
    by_cases hx : x = a
    · simp [hx]
    · simp [hx, Ne.symm hx]

theorem Memory.wf_cons {x : Nat} {c : Byte} {t : Memory} :
    Memory.wf ((x, c) :: t) = true ↔ c ≠ Memory.fill ∧ (∀ e ∈ t, x < e.1) ∧ Memory.wf t = true := by
  simp [Memory.wf, and_assoc]

theorem Memory.put_wf {a : Nat} {b : Byte} {t : Memory} (ht : Memory.wf t = true) (h : ∀ e ∈ t, a < e.1) :
    Memory.wf (Memory.put a b t) = true := by
  unfold Memory.put
  split
  next => exact ht
  next hb => exact Memory.wf_cons.mpr ⟨hb, h, ht⟩

theorem Memory.mem_put {a : Nat} {b : Byte} {t : Memory} {e : Host.Cell} (h : e ∈ Memory.put a b t) :
    e.1 = a ∨ e ∈ t := by
  unfold Memory.put at h
  split at h
  next => exact .inr h
  next => rcases List.mem_cons.mp h with rfl | h <;> simp_all

theorem Memory.mem_write {m : Memory} {a : Nat} {b : Byte} {e : Host.Cell} (h : e ∈ Memory.write m a b) :
    e.1 = a ∨ e ∈ m := by
  induction m with
  | nil => simpa using Memory.mem_put h
  | cons p t ih =>
    obtain ⟨x, c⟩ := p
    simp only [Memory.write] at h
    split at h
    next => exact Memory.mem_put h
    next =>
      split at h
      next => rcases Memory.mem_put h with h | h <;> simp [h]
      next =>
        rcases List.mem_cons.mp h with rfl | h
        · simp
        · rcases ih h with h | h <;> simp [h]

/-- A store keeps the canonical form. -/
theorem Memory.write_wf {m : Memory} (hm : Memory.wf m = true) (a : Nat) (b : Byte) :
    Memory.wf (Memory.write m a b) = true := by
  induction m with
  | nil => exact Memory.put_wf rfl (by simp)
  | cons p t ih =>
    obtain ⟨x, c⟩ := p
    obtain ⟨hc, hx, ht⟩ := Memory.wf_cons.mp hm
    simp only [Memory.write]
    split
    next hax =>
      refine Memory.put_wf hm fun e he => ?_
      rcases List.mem_cons.mp he with rfl | he
      · exact hax
      · exact Nat.lt_trans hax (hx e he)
    next hax =>
      split
      next hxa => subst hxa; exact Memory.put_wf ht hx
      next hxa =>
        refine Memory.wf_cons.mpr ⟨hc, fun e he => ?_, ih ht⟩
        rcases Memory.mem_write he with he | he
        · omega
        · exact hx e he

/-- What every byte reads after a store. -/
theorem Memory.read_write {m : Memory} (hm : Memory.wf m = true) (a : Nat) (b : Byte) (x : Nat) :
    Memory.read (Memory.write m a b) x = if x = a then b else Memory.read m x := by
  induction m with
  | nil => simpa [Memory.write] using Memory.read_put a b [] x (by simp)
  | cons p t ih =>
    obtain ⟨y, c⟩ := p
    obtain ⟨_, hy, ht⟩ := Memory.wf_cons.mp hm
    simp only [Memory.write]
    split
    next hay =>
      refine Memory.read_put a b _ x fun e he => ?_
      rcases List.mem_cons.mp he with rfl | he
      · exact hay
      · exact Nat.lt_trans hay (hy e he)
    next hay =>
      split
      next h =>
        subst h
        rw [Memory.read_put a b t x hy]
        simp only [Memory.read]
        by_cases hx : x = a
        · simp [hx]
        · simp [hx, Ne.symm hx]
      next h =>
        simp only [Memory.read, ih ht]
        by_cases hx : y = x
        · subst hx; simp [Ne.symm h]
        · simp [hx]

@[simp] theorem Memory.read_write_same {m : Memory} (hm : Memory.wf m = true) (a : Nat) (b : Byte) :
    Memory.read (Memory.write m a b) a = b := by simp [Memory.read_write hm]

theorem Memory.read_write_other {m : Memory} (hm : Memory.wf m = true) {a x : Nat} (b : Byte) (h : x ≠ a) :
    Memory.read (Memory.write m a b) x = Memory.read m x := by simp [Memory.read_write hm, h]

/-- Two memories in canonical form that read alike are equal data. -/
theorem Memory.ext_read {m m' : Memory} (h : Memory.wf m = true) (h' : Memory.wf m' = true)
    (hr : ∀ a, Memory.read m a = Memory.read m' a) : m = m' := by
  have miss : ∀ (t : Memory) (a : Nat), (∀ e ∈ t, a < e.1) → Memory.read t a = Memory.fill := by
    intro t a
    induction t with
    | nil => intro _; rfl
    | cons e t ih =>
      intro h
      have h1 := h e (by simp)
      simp only [Memory.read]
      rw [if_neg (by omega), ih fun e he => h e (by simp [he])]
  induction m generalizing m' with
  | nil =>
    cases m' with
    | nil => rfl
    | cons p t =>
      obtain ⟨x, c⟩ := p
      have := hr x
      simp [Memory.read] at this
      exact absurd this.symm (Memory.wf_cons.mp h').1
  | cons p t ih =>
    obtain ⟨x, c⟩ := p
    obtain ⟨hc, hx, ht⟩ := Memory.wf_cons.mp h
    cases m' with
    | nil =>
      have := hr x
      simp [Memory.read] at this
      exact absurd this hc
    | cons p' t' =>
      obtain ⟨y, d⟩ := p'
      obtain ⟨hd, hy, ht'⟩ := Memory.wf_cons.mp h'
      have hxy : x = y := by
        rcases Nat.lt_trichotomy x y with hlt | heq | hgt
        · have := hr x
          simp only [Memory.read, if_true] at this
          rw [if_neg (by omega), miss t' x fun e he => Nat.lt_trans hlt (hy e he)] at this
          exact absurd this hc
        · exact heq
        · have := hr y
          simp only [Memory.read, if_true] at this
          rw [if_neg (by omega), miss t y fun e he => Nat.lt_trans hgt (hx e he)] at this
          exact absurd this.symm hd
      subst hxy
      have hcd : c = d := by simpa [Memory.read] using hr x
      subst hcd
      congr 1
      refine ih ht ht' fun a => ?_
      have := hr a
      simp only [Memory.read] at this
      by_cases hax : x = a
      · subst hax; rw [miss t x hx, miss t' x hy]
      · simpa [hax] using this

theorem Memory.below_iff {m : Memory} {n : Nat} : Memory.below m n = true ↔ ∀ e ∈ m, e.1 < n := by
  simp [Memory.below]

/-- A store inside a region keeps the addresses inside it. -/
theorem Memory.write_below {m : Memory} {n a : Nat} (hm : Memory.below m n = true) (ha : a < n) (b : Byte) :
    Memory.below (Memory.write m a b) n = true := by
  rw [Memory.below_iff] at *
  intro e he
  rcases Memory.mem_write he with he | he
  · omega
  · exact hm e he

theorem Memory.ofFn_wf (f : Nat → Byte) (n : Nat) : Memory.wf (Memory.ofFn f n) = true := by
  induction n with
  | zero => rfl
  | succ n ih => exact Memory.write_wf ih n (f n)

theorem Memory.ofFn_below (f : Nat → Byte) (n : Nat) : Memory.below (Memory.ofFn f n) n = true := by
  induction n with
  | zero => rfl
  | succ n ih =>
    refine Memory.write_below ?_ (Nat.lt_succ_self n) _
    rw [Memory.below_iff] at *
    exact fun e he => Nat.lt_succ_of_lt (ih e he)

theorem Memory.read_ofFn (f : Nat → Byte) (n k : Nat) :
    Memory.read (Memory.ofFn f n) k = if k < n then f k else Memory.fill := by
  induction n with
  | zero => rfl
  | succ n ih =>
    rw [Memory.ofFn, Memory.read_write (Memory.ofFn_wf f n), ih]
    by_cases h : k = n
    · simp [h]
    · by_cases h' : k < n
      · simp [h, h', Nat.lt_succ_of_lt h']
      · simp [h, h', show ¬ k < n + 1 by omega]

theorem Memory.drawn_wf (n k size : Nat) : Memory.wf (Memory.drawn n k size) = true := by
  unfold Memory.drawn; exact Memory.ofFn_wf _ _

theorem Memory.drawn_below (n k size : Nat) : Memory.below (Memory.drawn n k size) size = true := by
  unfold Memory.drawn; exact Memory.ofFn_below _ _

/-- Every byte of a drawn memory is a free value. -/
theorem Memory.read_drawn (n k size a : Nat) :
    Memory.read (Memory.drawn n k size) a = if a < size then Config.freeVec 8 n (a + k) else Memory.fill := by
  unfold Memory.drawn; exact Memory.read_ofFn _ _ _

theorem Memory.mem_ofBytes {a : Nat} {bs : List Byte} {e : Host.Cell} (h : e ∈ Memory.ofBytes a bs) : a ≤ e.1 := by
  induction bs generalizing a with
  | nil => simp [Memory.ofBytes] at h
  | cons b bs ih =>
    rcases Memory.mem_put h with h | h
    · omega
    · exact Nat.le_of_succ_le (ih h)

theorem Memory.ofBytes_wf (a : Nat) (bs : List Byte) : Memory.wf (Memory.ofBytes a bs) = true := by
  induction bs generalizing a with
  | nil => rfl
  | cons b bs ih => exact Memory.put_wf (ih (a + 1)) fun e he => Memory.mem_ofBytes he

theorem Memory.read_ofBytes (a : Nat) (bs : List Byte) (k : Nat) :
    Memory.read (Memory.ofBytes a bs) (a + k) = bs.getD k Memory.fill := by
  induction bs generalizing a k with
  | nil => simp [Memory.ofBytes, Memory.read]
  | cons b bs ih =>
    rw [Memory.ofBytes, Memory.read_put _ _ _ _ fun e he => Memory.mem_ofBytes he]
    cases k with
    | zero => simp
    | succ k =>
      rw [if_neg (by omega), show a + (k + 1) = a + 1 + k by omega, ih]
      simp

/-! ### Words -/

theorem Memory.writeHalf_wf {m : Memory} (hm : Memory.wf m = true) (i : Nat) (d : Half) :
    Memory.wf (Memory.writeHalf m i d) = true :=
  Memory.write_wf (Memory.write_wf hm _ _) _ _

theorem Memory.writeHalf_below {m : Memory} {n i : Nat} (hm : Memory.below m n = true) (hi : 2 * i + 1 < n) (d : Half) :
    Memory.below (Memory.writeHalf m i d) n = true :=
  Memory.write_below (Memory.write_below hm (by omega) _) hi _

/-- What every byte reads after a word of the EEPROM is stored: position 0 is the most significant byte (R55). -/
theorem Memory.read_writeHalf {m : Memory} (hm : Memory.wf m = true) (i : Nat) (d : Half) (k : Nat) :
    Memory.read (Memory.writeHalf m i d) k =
      if k = 2 * i then d.extractLsb' 8 8 else if k = 2 * i + 1 then d.extractLsb' 0 8 else Memory.read m k := by
  rw [Memory.writeHalf, Memory.read_write (Memory.write_wf hm _ _), Memory.read_write hm]
  by_cases h : k = 2 * i + 1
  · simp [h]
  · simp [h]

theorem Half.append_extract (d : Half) : (d.extractLsb' 8 8 ++ d.extractLsb' 0 8 : Half) = d := by
  ext i hi
  simp only [BitVec.getElem_append, BitVec.getElem_extractLsb']
  split
  · simp [← BitVec.getLsbD_eq_getElem]
  · rw [show 8 + (i - 8) = i by omega, BitVec.getLsbD_eq_getElem]

/-- A word that was stored is read back (R72). -/
theorem Memory.half_writeHalf {m : Memory} (hm : Memory.wf m = true) (i j : Nat) (d : Half) :
    Memory.half (Memory.writeHalf m i d) j = if j = i then d else Memory.half m j := by
  simp only [Memory.half, Memory.read_writeHalf hm]
  by_cases h : j = i
  · subst h
    rw [if_pos rfl, if_neg (by omega), if_pos rfl, if_pos rfl]
    exact Half.append_extract d
  · rw [if_neg (by omega), if_neg (by omega), if_neg (by omega), if_neg (by omega), if_neg h]

/-- A second store of the same word replaces the first. -/
theorem Memory.writeHalf_writeHalf {m : Memory} (hm : Memory.wf m = true) (i : Nat) (d e : Half) :
    Memory.writeHalf (Memory.writeHalf m i d) i e = Memory.writeHalf m i e := by
  refine Memory.ext_read (Memory.writeHalf_wf (Memory.writeHalf_wf hm _ _) _ _) (Memory.writeHalf_wf hm _ _) fun a => ?_
  simp only [Memory.read_writeHalf (Memory.writeHalf_wf hm i d), Memory.read_writeHalf hm]
  by_cases h : a = 2 * i
  · simp [h]
  · by_cases h' : a = 2 * i + 1 <;> simp [h, h']

end Sys2Proof.Machine
end

