-- ==== Sys2Proof/Laws/Words.lean ====
section
/-! SUPPORT. The byte positions of a block (R24, R55). -/

namespace Sys2Proof.Machine

theorem blockByte_getLsbD (B p : Nat) (w : Word) (k : Nat) :
    (blockByte B p w).getLsbD k = (decide (k < 8) && w.getLsbD (8 * (B - 1 - p) + k)) := by
  simp [blockByte]

/-- Byte position `p` of a 4-byte block is region byte `4*i + p` (R51). -/
theorem blockByte_word (m : Memory) (i : Nat) {p : Nat} (hp : p < 4) :
    blockByte 4 p (m.word i) = m.read (4 * i + p) := by
  apply BitVec.eq_of_getLsbD_eq
  intro k hk
  rw [blockByte_getLsbD]
  simp only [Memory.word, BitVec.getLsbD_append]
  rcases (by omega : p = 0 ∨ p = 1 ∨ p = 2 ∨ p = 3) with rfl | rfl | rfl | rfl
  · have h1 : ¬ 8 * (4 - 1 - 0) + k < 8 := by omega
    have h2 : ¬ 8 * (4 - 1 - 0) + k - 8 < 8 := by omega
    have h3 : ¬ 8 * (4 - 1 - 0) + k - 8 - 8 < 8 := by omega
    simp only [h1, h2, h3, hk, if_false, decide_true, Bool.true_and]
    congr 1; omega
  · have h1 : ¬ 8 * (4 - 1 - 1) + k < 8 := by omega
    have h2 : ¬ 8 * (4 - 1 - 1) + k - 8 < 8 := by omega
    have h3 : 8 * (4 - 1 - 1) + k - 8 - 8 < 8 := by omega
    simp only [h1, h2, h3, hk, if_true, if_false, decide_true, Bool.true_and]
    congr 1; omega
  · have h1 : ¬ 8 * (4 - 1 - 2) + k < 8 := by omega
    have h2 : 8 * (4 - 1 - 2) + k - 8 < 8 := by omega
    simp only [h1, h2, hk, if_true, if_false, decide_true, Bool.true_and]
    congr 1; omega
  · have h1 : 8 * (4 - 1 - 3) + k < 8 := by omega
    simp only [h1, hk, if_true, decide_true, Bool.true_and]
    congr 1; omega

/-- Byte position `p` of a 2-byte block held in the low half of `blk` is region byte `2*i + p` (R51, R150). -/
theorem blockByte_half (x : Half) (m : Memory) (i : Nat) {p : Nat} (hp : p < 2) :
    blockByte 2 p (x ++ m.half i : Word) = m.read (2 * i + p) := by
  apply BitVec.eq_of_getLsbD_eq
  intro k hk
  rw [blockByte_getLsbD]
  simp only [Memory.half, BitVec.getLsbD_append]
  rcases (by omega : p = 0 ∨ p = 1) with rfl | rfl
  · have h1 : 8 * (2 - 1 - 0) + k < 16 := by omega
    have h2 : ¬ 8 * (2 - 1 - 0) + k < 8 := by omega
    simp only [h1, h2, hk, if_true, if_false, decide_true, Bool.true_and]
    congr 1; omega
  · have h1 : 8 * (2 - 1 - 1) + k < 16 := by omega
    have h2 : 8 * (2 - 1 - 1) + k < 8 := by omega
    simp only [h1, h2, hk, if_true, decide_true, Bool.true_and]
    congr 1; omega

theorem setBlockByte_getLsbD (B p : Nat) (b : Byte) (w : Word) {k : Nat} (hk : k < 32) :
    (setBlockByte B p b w).getLsbD k =
      if 8 * (B - 1 - p) ≤ k ∧ k < 8 * (B - 1 - p) + 8 then b.getLsbD (k - 8 * (B - 1 - p)) else w.getLsbD k := by
  have hff : ∀ j, (0xFF : Word).getLsbD j = decide (j < 8) := by
    intro j
    by_cases hj : j < 32
    · revert hj; revert j; decide
    · rw [BitVec.getLsbD_of_ge _ _ (by omega)]; simp; omega
  simp only [setBlockByte, BitVec.getLsbD_or, BitVec.getLsbD_and, BitVec.getLsbD_not, BitVec.getLsbD_shiftLeft,
    BitVec.getLsbD_setWidth, hff, hk, decide_true, Bool.true_and]
  by_cases h1 : k < 8 * (B - 1 - p)
  · have : ¬ (8 * (B - 1 - p) ≤ k ∧ k < 8 * (B - 1 - p) + 8) := by omega
    simp [h1, this]
  · by_cases h2 : k < 8 * (B - 1 - p) + 8
    · have h3 : k - 8 * (B - 1 - p) < 8 := by omega
      have h4 : k - 8 * (B - 1 - p) < 32 := by omega
      have : 8 * (B - 1 - p) ≤ k ∧ k < 8 * (B - 1 - p) + 8 := by omega
      simp [h1, h3, h4, this]
    · have h3 : ¬ k - 8 * (B - 1 - p) < 8 := by omega
      have : ¬ (8 * (B - 1 - p) ≤ k ∧ k < 8 * (B - 1 - p) + 8) := by omega
      have h5 : b.getLsbD (k - 8 * (B - 1 - p)) = false := BitVec.getLsbD_of_ge _ _ (by omega)
      simp [h1, h3, this, h5]

/-- A spliced byte is in its place and every other byte position keeps its value (R107, R159). -/
theorem blockByte_setBlockByte {B p p' : Nat} (hB : B ≤ 4) (hp : p < B) (hp' : p' < B) (b : Byte) (w : Word) :
    blockByte B p' (setBlockByte B p b w) = if p' = p then b else blockByte B p' w := by
  apply BitVec.eq_of_getLsbD_eq
  intro k hk
  rw [blockByte_getLsbD, setBlockByte_getLsbD B p b w (by omega)]
  by_cases h : p' = p
  · subst h
    simp [hk]
  · have : ¬ (8 * (B - 1 - p) ≤ 8 * (B - 1 - p') + k ∧ 8 * (B - 1 - p') + k < 8 * (B - 1 - p) + 8) := by omega
    rw [if_neg this, if_neg h, blockByte_getLsbD]

/-- The two byte positions of a 2-byte block are its data word (R86). -/
theorem blockBytes_half (w : Word) : (blockByte 2 0 w ++ blockByte 2 1 w : Half) = w.setWidth 16 := by
  apply BitVec.eq_of_getLsbD_eq
  intro k hk
  rw [BitVec.getLsbD_append, BitVec.getLsbD_setWidth, blockByte_getLsbD, blockByte_getLsbD]
  by_cases h : k < 8
  · simp [h, hk]
  · have h2 : k - 8 < 8 := by omega
    simp [h, h2, hk, show 8 + (k - 8) = k by omega]

end Sys2Proof.Machine
end

