-- ==== Sys2Proof/Laws/Plan.lean ====
section
/-! SUPPORT. The arithmetic of the range adapter (R101 to R104), said once: what the plan registers hold, what the slice
of a block is, and what the two copies do. -/

namespace Sys2Proof.Machine

/-- The two block sizes (R3). -/
def BlockSize (B : Nat) : Prop := B = 2 ∨ B = 4

theorem Region.blockSize_ok (r : Region) : BlockSize r.blockSize := by
  cases r <;> simp [BlockSize, Region.blockSize]

/-- The sum of two operands that have an encoding is kept whole (R82, R109). -/
theorem formEndSum_endSum {p : Params} {q : Sequencer} (h : p.encodes q.reqOffset q.reqLength) :
    (q.formEndSum p).endSum = q.reqOffset + q.reqLength :=
  narrow_eq (by rw [Nat.pow_succ]; have := h.1; have := h.2; omega)

/-- What the plan registers hold for a range of `l` bytes from `o` on (R102, R103). -/
structure Planned (B o l : Nat) (q : Sequencer) : Prop where
  offset : q.reqOffset = o
  startBlock : q.startBlock = o / B
  startOff : q.startOff.toNat = o % B
  endBlock : q.endBlock = (o + l - 1) / B
  endRes : q.endRes.toNat = (o + l - 1) % B + 1

@[simp] theorem plan_hung (p : Params) (B : Nat) (q : Sequencer) : (q.plan p B).hung = q.hung := by
  unfold Sequencer.plan Sequencer.planAdjust; split <;> rfl

@[simp] theorem plan_ahead (p : Params) (B : Nat) (q : Sequencer) : (q.plan p B).ahead = q.ahead := by
  unfold Sequencer.plan Sequencer.planAdjust; split <;> rfl

@[simp] theorem plan_heldOpen (p : Params) (B : Nat) (q : Sequencer) : (q.plan p B).heldOpen = q.heldOpen := by
  unfold Sequencer.plan Sequencer.planAdjust; split <;> rfl

@[simp] theorem plan_phase (p : Params) (B : Nat) (q : Sequencer) : (q.plan p B).phase = q.phase := by
  unfold Sequencer.plan Sequencer.planAdjust; split <;> rfl

@[simp] theorem plan_status (p : Params) (B : Nat) (q : Sequencer) : (q.plan p B).status = q.status := by
  unfold Sequencer.plan Sequencer.planAdjust; split <;> rfl

theorem plan_planned {B : Nat} (hB : BlockSize B) {p : Params} {q : Sequencer} {o l : Nat} (ho : q.reqOffset = o)
    (hs : q.endSum = o + l) (hl : 0 < l) (he : p.encodes o l) : Planned B o l (q.plan p B) := by
  have h1 := he.1
  have h2 := he.2
  have e1 : (q.planFirst p B).startBlock = o / B := by
    simp only [Sequencer.planFirst, ho]
    exact narrow_eq (Nat.lt_of_le_of_lt (Nat.div_le_self _ _) h1)
  have e2 : (q.planFirst p B).startOff.toNat = o % B := by
    simp only [Sequencer.planFirst, BitVec.toNat_ofNat, ho]
    rcases hB with rfl | rfl <;> omega
  have e4 : (q.planFirst p B).endRes = BitVec.ofNat 3 ((o + l) % B) := by
    simp only [Sequencer.planFirst, hs]
  have e5 : (q.planFirst p B).endRes.toNat = (o + l) % B := by
    rw [e4, BitVec.toNat_ofNat]
    rcases hB with rfl | rfl <;> omega
  have hz : (q.planFirst p B).endRes = 0 ↔ (o + l) % B = 0 := by
    rw [← e5]
    constructor
    · intro h; rw [h]; rfl
    · intro h; exact BitVec.eq_of_toNat_eq (by simpa using h)
  have e6 : (q.planFirst p B).endBlock = (o + l) / B := by
    simp only [Sequencer.planFirst, hs]
    exact narrow_eq (by rcases hB with rfl | rfl <;> omega)
  unfold Sequencer.plan Sequencer.planAdjust
  split
  next h =>
    rw [hz] at h
    refine ⟨ho, e1, e2, ?_, ?_⟩
    · simp only [e6]
      rcases hB with rfl | rfl <;> omega
    · simp only [BitVec.toNat_ofNat]
      rcases hB with rfl | rfl <;> omega
  next h =>
    rw [hz] at h
    refine ⟨ho, e1, e2, ?_, ?_⟩
    · rw [e6]
      rcases hB with rfl | rfl <;> omega
    · rw [e5]
      rcases hB with rfl | rfl <;> omega

/-- The loops of R105 and R107 visit the blocks the range meets. -/
theorem blocks_eq {B o l : Nat} {q : Sequencer} (h : Planned B o l q) : q.blocks = blockRange B o l := by
  simp only [Sequencer.blocks, blockRange, h.startBlock, h.endBlock]

theorem mem_blockRange {B o l i : Nat} (hl : 0 < l) :
    i ∈ blockRange B o l ↔ o / B ≤ i ∧ i ≤ (o + l - 1) / B := by
  have : o / B ≤ (o + l - 1) / B := Nat.div_le_div_right (by omega)
  simp only [blockRange, List.mem_range'_1]
  omega

/-- The first and the last byte position of a block of the range (R104). -/
theorem slicePos {B o l i : Nat} (hB : BlockSize B) {q : Sequencer} (h : Planned B o l q) (hl : 0 < l)
    (h1 : o / B ≤ i) (h2 : i ≤ (o + l - 1) / B) :
    (q.sliceLo i).toNat = max o (i * B) - i * B ∧ (q.sliceHi B i).toNat = min (o + l) (i * B + B) - i * B := by
  constructor
  · simp only [Sequencer.sliceLo, h.startBlock]
    split
    next he =>
      rw [h.startOff]
      subst he
      rcases hB with rfl | rfl <;> omega
    next he => rcases hB with rfl | rfl <;> simp <;> omega
  · simp only [Sequencer.sliceHi, h.endBlock]
    split
    next he =>
      rw [h.endRes]
      subst he
      rcases hB with rfl | rfl <;> omega
    next he => rcases hB with rfl | rfl <;> simp <;> omega

/-- The byte positions of a block of the range are as many as the block counts (R104, R105). -/
theorem positions_eq {B o l i : Nat} (hB : BlockSize B) {q : Sequencer} (h : Planned B o l q) (hl : 0 < l)
    (h1 : o / B ≤ i) (h2 : i ≤ (o + l - 1) / B) :
    q.positions B i = List.range' (max o (i * B) - i * B) (done B o l (i + 1) - done B o l i) := by
  obtain ⟨hlo, hhi⟩ := slicePos hB h hl h1 h2
  rw [Sequencer.positions, hlo, hhi, done, done]
  congr 1
  rcases hB with rfl | rfl <;> omega

/-- The slice of a block of the range (R104): its first and last byte position, and its place in the buffer. -/
theorem slice_spec {B o l i : Nat} (hB : BlockSize B) {p : Params} {q : Sequencer} (h : Planned B o l q) (hl : 0 < l)
    (hl' : l < 2 ^ p.wOff) (hi : q.curBlock = i) (h1 : o / B ≤ i) (h2 : i ≤ (o + l - 1) / B) :
    (q.slice p B).lo.toNat = max o (i * B) - i * B ∧
      (q.slice p B).hi.toNat = min (o + l) (i * B + B) - i * B ∧
      (q.slice p B).bufpos = done B o l i ∧
      done B o l (i + 1) = done B o l i + ((q.slice p B).hi.toNat - (q.slice p B).lo.toNat) ∧
      (q.slice p B).lo.toNat < (q.slice p B).hi.toNat ∧ (q.slice p B).hi.toNat ≤ B := by
  obtain ⟨hlo, hhi⟩ := slicePos hB h hl h1 h2
  have elo : (q.slice p B).lo = q.sliceLo i := by simp only [Sequencer.slice, hi]
  have ehi : (q.slice p B).hi = q.sliceHi B i := by simp only [Sequencer.slice, hi]
  have hbp : (q.slice p B).bufpos = done B o l i := by
    have e : (q.slice p B).bufpos = narrow p.wOff (i * B + (q.sliceLo i).toNat - o) := by
      simp only [Sequencer.slice, hi, h.offset]
    have hd : i * B + (q.sliceLo i).toNat - o = done B o l i := by
      rw [hlo, done]
      rcases hB with rfl | rfl <;> omega
    rw [e, hd]
    refine narrow_eq (Nat.lt_of_le_of_lt ?_ hl')
    rw [done]; omega
  rw [elo, ehi]
  refine ⟨hlo, hhi, hbp, ?_, ?_, ?_⟩
  · rw [hlo, hhi, done, done]
    rcases hB with rfl | rfl <;> omega
  · rw [hlo, hhi]
    rcases hB with rfl | rfl <;> omega
  · rw [hhi]
    rcases hB with rfl | rfl <;> omega

/-- A block is partially covered if its slice is shorter than the block (R104, R107). -/
theorem partialBlock_iff {B o l i : Nat} (hB : BlockSize B) {q : Sequencer} (h : Planned B o l q) (hl : 0 < l)
    (h1 : o / B ≤ i) (h2 : i ≤ (o + l - 1) / B) :
    q.partialBlock B i = true ↔ i * B < o ∨ o + l < i * B + B := by
  obtain ⟨hlo, hhi⟩ := slicePos hB h hl h1 h2
  simp only [Sequencer.partialBlock, hlo, hhi, decide_eq_true_eq]
  rcases hB with rfl | rfl <;> omega

/-! ### The copies -/

/-- The copy of byte positions `p .. p+n-1` of the block into the buffer (R105). -/
theorem run_copyOut (B n p : Nat) (s : State) (hp : s.seq.lo.toNat ≤ p) (hm : s.buf.wf = true) :
    let at0 := s.seq.bufpos + (p - s.seq.lo.toNat)
    ∃ m, (List.range' p n).foldl (State.copyOutByte B) s =
        { s with
          buf := m
          bufTrace := ((List.range' at0 n).map BufEvent.write).reverse ++ s.bufTrace } ∧
      m.wf = true ∧
      ∀ j, m.read j = if at0 ≤ j ∧ j < at0 + n then blockByte B (p + (j - at0)) s.seq.blk else s.buf.read j := by
  intro at0
  induction n generalizing p s with
  | zero => exact ⟨s.buf, by simp, hm, fun j => by rw [if_neg (by omega)]⟩
  | succ n ih =>
    have hstep : State.copyOutByte B s p =
        { s with buf := s.buf.write at0 (blockByte B p s.seq.blk), bufTrace := .write at0 :: s.bufTrace } := by
      have : s.seq.bufpos + p - s.seq.lo.toNat = at0 := by omega
      simp [State.copyOutByte, State.setBuf, State.emitBuf, this]
    obtain ⟨m, h1, h2, h3⟩ := ih (p + 1)
      { s with buf := s.buf.write at0 (blockByte B p s.seq.blk), bufTrace := .write at0 :: s.bufTrace } (by simp only; omega)
      (Memory.write_wf hm _ _)
    have hat : s.seq.bufpos + (p + 1 - s.seq.lo.toNat) = at0 + 1 := by omega
    simp only [hat] at h1 h3
    refine ⟨m, ?_, h2, fun j => ?_⟩
    · rw [List.range'_succ, List.foldl_cons, hstep, h1]
      simp [List.range'_succ]
    · rw [h3 j, Memory.read_write hm]
      by_cases h4 : j = at0
      · subst h4; simp
      · by_cases h5 : at0 + 1 ≤ j ∧ j < at0 + 1 + n
        · rw [if_pos h5, if_pos (by omega), show p + 1 + (j - (at0 + 1)) = p + (j - at0) by omega]
        · rw [if_neg h5, if_neg h4, if_neg (by omega)]

/-- The splice of byte positions `p .. p+n-1` of the block from the buffer (R107, R159). -/
theorem run_splice {B : Nat} (hB : BlockSize B) (n p : Nat) (s : State) (hp : s.seq.lo.toNat ≤ p) (hn : p + n ≤ B) :
    let at0 := s.seq.bufpos + (p - s.seq.lo.toNat)
    ∃ w, (List.range' p n).foldl (State.spliceByte B) s =
        { s with
          seq := { s.seq with blk := w }
          bufTrace := ((List.range' at0 n).map BufEvent.read).reverse ++ s.bufTrace } ∧
      ∀ k, k < B → blockByte B k w =
        if p ≤ k ∧ k < p + n then s.buf.read (at0 + (k - p)) else blockByte B k s.seq.blk := by
  intro at0
  induction n generalizing p s with
  | zero => exact ⟨s.seq.blk, by simp, fun k _ => by rw [if_neg (by omega)]⟩
  | succ n ih =>
    have hstep : State.spliceByte B s p =
        { s with seq := { s.seq with blk := setBlockByte B p (s.buf.read at0) s.seq.blk },
                 bufTrace := .read at0 :: s.bufTrace } := by
      have : s.seq.bufpos + p - s.seq.lo.toNat = at0 := by omega
      simp [State.spliceByte, State.setSeq, State.emitBuf, this]
    obtain ⟨w, h1, h3⟩ := ih (p + 1)
      { s with seq := { s.seq with blk := setBlockByte B p (s.buf.read at0) s.seq.blk },
               bufTrace := .read at0 :: s.bufTrace } (by simp only; omega) (by omega)
    have hat : s.seq.bufpos + (p + 1 - s.seq.lo.toNat) = at0 + 1 := by omega
    simp only [hat] at h1 h3
    refine ⟨w, ?_, fun k hk => ?_⟩
    · rw [List.range'_succ, List.foldl_cons, hstep, h1]
      simp [List.range'_succ]
    · have hB4 : B ≤ 4 := by rcases hB with rfl | rfl <;> omega
      rw [h3 k hk, blockByte_setBlockByte hB4 (by omega) hk]
      by_cases h4 : k = p
      · subst h4; simp
      · by_cases h5 : p + 1 ≤ k ∧ k < p + 1 + n
        · rw [if_pos h5, if_pos (by omega), show at0 + 1 + (k - (p + 1)) = at0 + (k - p) by omega]
        · rw [if_neg h5, if_neg h4, if_neg (by omega)]

end Sys2Proof.Machine
end

