-- ==== Sys2Proof/Laws/Device.lean ====
section
/-! SUPPORT. What the EEPROM device does at each event of the lines (R62 to R68). -/

namespace Sys2Proof.Machine

/-! ### A device with no write under way -/

theorem tick_idle {d : Eeprom} (h : d.busy = false) :
    ∃ l u, d.tick = { d with left := l, unready := u } := by
  unfold Eeprom.tick
  split
  · exact ⟨d.left, d.unready, rfl⟩
  · refine ⟨none, false, ?_⟩
    simp [Eeprom.complete, h]
  · next k _ => exact ⟨some k, d.unready, rfl⟩

/-- The fields of a device other than its own time: they stay while no write is under way. -/
def Eeprom.sameCore (d e : Eeprom) : Prop :=
  d = { e with left := d.left, unready := d.unready }

theorem Eeprom.sameCore_refl (d : Eeprom) : d.sameCore d := rfl

theorem tick_sameCore {d : Eeprom} (h : d.busy = false) : d.tick.sameCore d := by
  obtain ⟨l, u, h⟩ := tick_idle h
  rw [h]; rfl

@[simp] theorem takeBit_mem (b : Bool) (d : Eeprom) : (d.takeBit b).mem = d.mem := rfl
@[simp] theorem takeBit_wel (b : Bool) (d : Eeprom) : (d.takeBit b).wel = d.wel := rfl
@[simp] theorem takeBit_busy (b : Bool) (d : Eeprom) : (d.takeBit b).busy = d.busy := rfl
@[simp] theorem takeBit_edges (b : Bool) (d : Eeprom) : (d.takeBit b).edges = d.edges + 1 := rfl
@[simp] theorem takeBit_cmd (b : Bool) (d : Eeprom) : (d.takeBit b).cmd = d.cmd := rfl
@[simp] theorem takeBit_spoiled (b : Bool) (d : Eeprom) : (d.takeBit b).spoiled = d.spoiled := rfl

/-- The bit taken last is in bit 0, the earlier ones above it (R56, R62). -/
theorem takeBit_shift (b : Bool) (d : Eeprom) {k : Nat} (hk : k < 27) :
    (d.takeBit b).shift.getLsbD k = if k = 0 then b else d.shift.getLsbD (k - 1) := by
  simp only [Eeprom.takeBit, BitVec.getLsbD_or, BitVec.getLsbD_shiftLeft, BitVec.getLsbD_setWidth,
    BitVec.getLsbD_ofBool, hk, decide_true, Bool.true_and]
  by_cases h : k = 0
  · simp [h]
  · simp [h, show ¬ k < 1 by omega]

/-- A clock edge that is neither misuse nor the 11th of its frame. -/
theorem clockEdge_bit {p : Params} {b : Bool} {d : Eeprom} (hb : d.busy = false) (hs : d.spoiled = false)
    (he : d.edges + 1 ≠ 11) : d.clockEdge p b = d.takeBit b := by
  simp [Eeprom.clockEdge, hb, hs, he]

/-- The 11th clock edge completes the command word (R63). -/
theorem clockEdge_command {p : Params} {b : Bool} {d : Eeprom} (hb : d.busy = false) (hs : d.spoiled = false)
    (he : d.edges + 1 = 11) : d.clockEdge p b = (d.takeBit b).latchCommand p := by
  simp [Eeprom.clockEdge, hb, hs, he]

/-- `eep_wel` after a command word (R65). -/
def welAfter (p : Params) (c : Command) (wel : Bool) : Bool :=
  match decodeCommand p c with
  | .ewen _ => true
  | .ewds _ => false
  | .read _ => wel
  | .write _ => wel
  | .reserved => wel

/-- The 11th edge latches the command word, sets or clears `eep_wel`, and changes nothing else (R63, R65). -/
theorem latchCommand_eq (p : Params) (d : Eeprom) :
    d.latchCommand p =
      { d with cmd := d.shift.setWidth 11, wel := welAfter p (d.shift.setWidth 11) d.wel } := by
  unfold Eeprom.latchCommand welAfter
  simp only
  split <;> simp_all

/-- A frame without clock edges is a status frame: it changes nothing (R67). -/
theorem frameEnd_status {p : Params} {n : Nat} {c : Bool} {d : Eeprom} (h : d.edges = 0) : d.frameEnd p n c = d := by
  simp [Eeprom.frameEnd, h]

/-- A complete write frame takes effect when it ends (R66). -/
theorem frameEnd_write {p : Params} {n : Nat} {c : Bool} {d : Eeprom} {a : Byte} (hs : d.spoiled = false)
    (he : d.edges = 27) (hc : decodeCommand p d.cmd = .write a) : d.frameEnd p n c = d.beginWrite n a := by
  simp [Eeprom.frameEnd, Eeprom.frameClean, hs, he, hc]

/-- A complete read frame changes no device state (R64). -/
theorem frameEnd_read {p : Params} {n : Nat} {c : Bool} {d : Eeprom} {a : Byte} (hs : d.spoiled = false)
    (he : d.edges = 27) (hc : decodeCommand p d.cmd = .read a) :
    d.frameEnd p n c = { d with afterWrite := false } := by
  simp [Eeprom.frameEnd, Eeprom.frameClean, hs, he, hc]

/-- A complete control frame has acted at its 11th edge (R65). -/
theorem frameEnd_ewen {p : Params} {n : Nat} {c : Bool} {d : Eeprom} {x : BitVec 6} (hs : d.spoiled = false)
    (he : d.edges = 11) (hc : decodeCommand p d.cmd = .ewen x) :
    d.frameEnd p n c = { d with afterWrite := false } := by
  simp [Eeprom.frameEnd, Eeprom.frameClean, hs, he, hc]

theorem frameEnd_ewds {p : Params} {n : Nat} {c : Bool} {d : Eeprom} {x : BitVec 6} (hs : d.spoiled = false)
    (he : d.edges = 11) (hc : decodeCommand p d.cmd = .ewds x) :
    d.frameEnd p n c = { d with afterWrite := false } := by
  simp [Eeprom.frameEnd, Eeprom.frameClean, hs, he, hc]

/-- What can become of the device at the end of a frame: nothing but the mark of R67, a write that begins (R66), or
a draw of the whole state (R68). -/
theorem frameEnd_cases (p : Params) (n : Nat) (c : Bool) (d : Eeprom) :
    d.frameEnd p n c = d ∨ d.frameEnd p n c = { d with afterWrite := false } ∨ d.frameEnd p n c = d.havoc n ∨
      ∃ a, d.frameEnd p n c = d.beginWrite n a := by
  unfold Eeprom.frameEnd
  split
  · exact .inl rfl
  · split
    · split
      · exact .inl rfl
      · exact .inr (.inr (.inl rfl))
    · split
      · exact .inr (.inr (.inr ⟨_, rfl⟩))
      all_goals exact .inr (.inl rfl)

/-- The data bits of a read frame on the line: from edge `12 + j` on, bit `15 - j` of the word (R64). -/
theorem drives_read {p : Params} {d : Eeprom} {a : Byte} (hs : d.spoiled = false) (h1 : 12 ≤ d.edges)
    (h2 : d.edges ≤ 27) (hc : decodeCommand p d.cmd = .read a) :
    d.drives p true = some ((d.mem.half (a.toNat % 128)).getLsbD (27 - d.edges)) := by
  have : d.edges ≠ 0 := by omega
  have h11 : ¬ d.edges < 11 := by omega
  have h11' : d.edges ≠ 11 := by omega
  simp [Eeprom.drives, this, h11, h11', hs, hc, h2]

/-- The level of a status frame (R67). -/
theorem drives_status {p : Params} {d : Eeprom} (he : d.edges = 0) (ha : d.afterWrite = true) :
    d.drives p true = some (if d.busy || d.unready then !p.readyLevel else p.readyLevel) := by
  simp [Eeprom.drives, he, ha]

/-! ### The canonical form and the size of the array are kept -/

/-- The array is in canonical form and inside its 256 bytes (R50). -/
def Eeprom.memOk (d : Eeprom) : Prop := Memory.wf d.mem = true ∧ Memory.below d.mem 256 = true

theorem writeHalf_memOk {m : Memory} (h : Memory.wf m = true ∧ Memory.below m 256 = true) {i : Nat} (hi : i < 128)
    (d : Half) : Memory.wf (m.writeHalf i d) = true ∧ Memory.below (m.writeHalf i d) 256 = true :=
  ⟨Memory.writeHalf_wf h.1 i d, Memory.writeHalf_below h.2 (by omega) d⟩

theorem havoc_memOk (n : Nat) (d : Eeprom) : (d.havoc n).memOk :=
  ⟨Memory.drawn_wf _ _ _, Memory.drawn_below _ _ _⟩

theorem complete_memOk {d : Eeprom} (h : d.memOk) : d.complete.memOk := by
  unfold Eeprom.memOk Eeprom.complete
  simp only
  split
  · exact writeHalf_memOk h d.pendAddr.isLt _
  · exact h

theorem tick_memOk {d : Eeprom} (h : d.memOk) : d.tick.memOk := by
  unfold Eeprom.tick
  split
  · exact h
  · exact complete_memOk h
  · exact h

theorem beginWrite_memOk {d : Eeprom} (h : d.memOk) (n : Nat) (a : Byte) : (d.beginWrite n a).memOk := by
  unfold Eeprom.beginWrite
  split
  · exact writeHalf_memOk h (Nat.mod_lt _ (by decide)) _
  · exact h

theorem frameEnd_memOk {d : Eeprom} (h : d.memOk) (p : Params) (n : Nat) (c : Bool) : (d.frameEnd p n c).memOk := by
  rcases frameEnd_cases p n c d with e | e | e | ⟨a, e⟩ <;> rw [e]
  · exact h
  · exact h
  · exact havoc_memOk n d
  · exact beginWrite_memOk h n a

theorem clockEdge_mem (p : Params) (b : Bool) (d : Eeprom) : (d.clockEdge p b).mem = d.mem := by
  unfold Eeprom.clockEdge
  simp only
  split
  · rfl
  · split
    · rw [latchCommand_eq]; rfl
    · rfl

end Sys2Proof.Machine
end

