-- ==== Sys2Proof/Laws/Run.lean ====
section
/-! SUPPORT. Runs of lists of micro-operations. -/

namespace Sys2Proof.Machine

/-- The micro-operations in order, with nothing that passes one over. -/
def runMicros (ms : List Micro) (s : State) : State := ms.foldl (fun s m => m.run s) s

@[simp] theorem runMicros_nil (s : State) : runMicros [] s = s := rfl

@[simp] theorem runMicros_cons (m : Micro) (ms : List Micro) (s : State) :
    runMicros (m :: ms) s = runMicros ms (m.run s) := rfl

theorem runMicros_append (ms ns : List Micro) (s : State) :
    runMicros (ms ++ ns) s = runMicros ns (runMicros ms s) := by
  simp [runMicros, List.foldl_append]

@[simp] theorem runItems_nil (s : State) : runItems [] s = s := rfl

@[simp] theorem runItems_cons (it : Item) (its : List Item) (s : State) :
    runItems (it :: its) s = runItems its (it.run s) := rfl

theorem runItems_append (is js : List Item) (s : State) :
    runItems (is ++ js) s = runItems js (runItems is s) := by
  simp [runItems, List.foldl_append]

/-- An item that waits for the poll the sequencer stands in. -/
def Item.waits (it : Item) : Bool :=
  match it.op with
  | .pollSome _ => false
  | _ => true

theorem putOff_eq (s : State) (it : Item) :
    s.putOff it = s.setSeq { s.seq with ahead := s.seq.ahead ++ [it].filter Item.waits } := by
  unfold State.putOff Item.waits
  split
  next n h => simp [h]; rfl
  next h => simp

/-- What comes after a poll the sequencer stands in waits for it (R143). -/
theorem runItems_hung {s : State} (h : s.seq.hung = true) (is : List Item) :
    runItems is s = s.setSeq { s.seq with ahead := s.seq.ahead ++ is.filter Item.waits } := by
  induction is generalizing s with
  | nil => simp; rfl
  | cons it is ih =>
    have hr : it.run s = s.putOff it := by simp [Item.run, h]
    rw [runItems_cons, hr, putOff_eq, ih (by exact h)]
    simp [State.setSeq, List.filter_cons]
    split <;> simp

/-- After a time-out the rest of the block loop is passed over (R161). -/
theorem runItems_inLoop_timeout {s : State} (hh : s.seq.hung = false) (h : s.seq.status = .timeout) (ms : List Micro) :
    runItems (inLoop ms) s = s := by
  induction ms with
  | nil => rfl
  | cons m ms ih =>
    have : Item.run s ⟨true, m⟩ = s := by simp [Item.run, hh, h]
    simpa [inLoop, this] using ih

/-- A property that every micro-operation keeps, a run of items keeps. -/
theorem runItems_keeps {P : State → Prop} (h : ∀ m s, P s → P (Micro.run m s)) (hw : ∀ s it, P s → P (State.putOff s it))
    (is : List Item) (s : State) (hs : P s) : P (runItems is s) := by
  induction is generalizing s with
  | nil => exact hs
  | cons it is ih =>
    refine ih _ ?_
    unfold Item.run
    split
    · exact hw _ _ hs
    · split
      · exact hs
      · exact h _ _ hs

/-- The micro-operations that neither poll nor change the status. -/
def Micro.plain : Micro → Bool
  | .poll => false
  | .startLoop => false
  | .blockDone => false
  | .finish => false
  | .pollSome _ => false
  | _ => true

theorem waits_plain {il : Bool} {m : Micro} (h : m.plain = true) : (Item.mk il m).waits = true := by
  cases m <;> first | rfl | cases h

theorem pollRound_hung (s : State) : s.pollRound.seq.hung = s.seq.hung := by
  unfold State.pollRound
  split
  · rfl
  · simp only
    split
    · rfl
    · split <;> rfl

theorem pollRound_status (s : State) : s.pollRound.seq.status = s.seq.status := by
  unfold State.pollRound
  split
  · rfl
  · simp only
    split
    · rfl
    · split <;> rfl

theorem line_seq (l : Line) (b : Bool) (s : State) : (s.line l b).seq = s.seq := by
  unfold State.line
  cases l <;> simp only
  · split
    · rfl
    · split <;> rfl
  · split <;> rfl
  · rfl

theorem takePending_seq (s : State) : s.takePending.seq = s.seq := by
  unfold State.takePending; split <;> rfl

theorem plain_ctl {m : Micro} (h : m.plain = true) (s : State) :
    (m.run s).seq.hung = s.seq.hung ∧ (m.run s).seq.status = s.seq.status := by
  cases m with
  | poll => simp [Micro.plain] at h
  | startLoop => simp [Micro.plain] at h
  | blockDone => simp [Micro.plain] at h
  | finish => simp [Micro.plain] at h
  | pollSome n => simp [Micro.plain] at h
  | setPhase p => exact ⟨rfl, rfl⟩
  | line l b => simp [Micro.run, line_seq]
  | delay => exact ⟨rfl, rfl⟩
  | loadTx v n => exact ⟨rfl, rfl⟩
  | loadTxBlk n => exact ⟨rfl, rfl⟩
  | txBit i => exact ⟨rfl, rfl⟩
  | clearRx n => exact ⟨rfl, rfl⟩
  | rxBit i => exact ⟨rfl, rfl⟩
  | storeRx => exact ⟨rfl, rfl⟩
  | loadBlk d => exact ⟨rfl, rfl⟩
  | pollStart => exact ⟨rfl, rfl⟩
  | otpWriteCmd v => exact ⟨rfl, rfl⟩
  | otpReadData => exact ⟨rfl, rfl⟩
  | mirrorLoad m i => exact ⟨rfl, rfl⟩
  | protCheck => exact ⟨rfl, rfl⟩
  | protExpose => simp only [Micro.run, State.protExpose]; split <;> exact ⟨rfl, rfl⟩
  | protReread => simp only [Micro.run, State.protReread]; split <;> exact ⟨rfl, rfl⟩
  | protRestore => simp only [Micro.run, State.protRestore]; split <;> exact ⟨rfl, rfl⟩
  | lockIrq => exact ⟨rfl, rfl⟩
  | unlockIrq => simp [Micro.run, State.unlockIrq, takePending_seq]
  | setBlock i => exact ⟨rfl, rfl⟩
  | slice B => exact ⟨rfl, rfl⟩
  | copyByte B p => exact ⟨rfl, rfl⟩
  | spliceByte B p => exact ⟨rfl, rfl⟩
  | addCount => exact ⟨rfl, rfl⟩
  | afterTimeout => simp only [Micro.run]; split <;> exact ⟨rfl, rfl⟩

theorem sendLoop_plain (n : Nat) : (sendLoop n).all Micro.plain = true := by
  induction n with
  | zero => rfl
  | succ n ih => simpa [sendLoop, Micro.plain] using ih

theorem recvLoop_plain (n : Nat) : (recvLoop n).all Micro.plain = true := by
  induction n with
  | zero => rfl
  | succ n ih => simpa [recvLoop, Micro.plain] using ih

theorem readFrameOf_plain (c : Command) : (readFrameOf c).all Micro.plain = true := by
  simp only [readFrameOf, sendBits, recvBits, List.all_append, List.all_cons, sendLoop_plain, recvLoop_plain]
  rfl

theorem controlFrame_plain (c : Command) (n : Nat) : (controlFrame c n).all Micro.plain = true := by
  simp only [controlFrame, sendBits, List.all_append, List.all_cons, sendLoop_plain]
  rfl

/-- Plain micro-operations outside the loop run one after the other. -/
theorem runItems_always {ms : List Micro} (h : ms.all Micro.plain = true) {s : State} (hs : s.seq.hung = false) :
    runItems (always ms) s = runMicros ms s := by
  induction ms generalizing s with
  | nil => rfl
  | cons m ms ih =>
    simp only [List.all_cons, Bool.and_eq_true] at h
    have hm : Item.run s ⟨false, m⟩ = m.run s := by simp [Item.run, hs]
    have := ih h.2 (s := m.run s) (by rw [(plain_ctl h.1 s).1, hs])
    simpa [always, hm] using this

/-- Plain micro-operations of the loop run one after the other unless the loop has stopped. -/
theorem runItems_inLoop {ms : List Micro} (h : ms.all Micro.plain = true) {s : State} (hs : s.seq.hung = false)
    (ht : s.seq.status ≠ .timeout) : runItems (inLoop ms) s = runMicros ms s := by
  induction ms generalizing s with
  | nil => rfl
  | cons m ms ih =>
    simp only [List.all_cons, Bool.and_eq_true] at h
    have hm : Item.run s ⟨true, m⟩ = m.run s := by simp [Item.run, hs, ht]
    have := ih h.2 (s := m.run s) (by rw [(plain_ctl h.1 s).1, hs]) (by rw [(plain_ctl h.1 s).2]; exact ht)
    simpa [inLoop, hm] using this

/-- The micro-operations of one kind, one for each member of a list, run one after the other. -/
theorem runMicros_map {α : Type} (f : α → Micro) (g : State → α → State) (h : ∀ s a, (f a).run s = g s a)
    (as : List α) (s : State) : runMicros (as.map f) s = as.foldl g s := by
  induction as generalizing s with
  | nil => rfl
  | cons a as ih => rw [List.map_cons, runMicros_cons, h, List.foldl_cons, ih]

theorem all_plain_map {α : Type} (f : α → Micro) (h : ∀ a, (f a).plain = true) (as : List α) :
    (as.map f).all Micro.plain = true := by simp [h]

/-- An undisturbed operation runs all its items before the step returns (R16). -/
theorem operate_undisturbed {s : State} (h : s.disturb = []) (items : List Item) :
    operate items s = .next (runItems items s) := by
  have : s.setDisturb [] = s := by rw [← h]; rfl
  simp [operate, h, meet, this]

/-- What an operation can answer, as a rule of induction over what meets it: the items still to come are run to their
end, or a reset or a loss of power abandons them (R193, R211); after an event that does neither the rest follows. -/
theorem meet_rule {P : List Item → State → Prop} {Q : State → Prop}
    (run : ∀ is s, P is s → Q (runItems is s))
    (reset : ∀ n k is s, P is s → Q (runItems (itemsBefore n k is) s).blockReset)
    (power : ∀ n k is s, P is s → Q (runItems (itemsBefore n k is) s).powerCycle)
    (event : ∀ n k is s, P is s → P (is.drop n) (runItems (itemsBefore n k is) s).nonMaskable ∧
      P (is.drop n) (runItems (itemsBefore n k is) s).interruptArrives ∧
      P (is.drop n) (runItems (itemsBefore n k is) s))
    {ds : List Disturbance} {is : List Item} {s t : State} (hp : P is s) (h : meet ds is s = .next t) : Q t := by
  induction ds generalizing is s with
  | nil => cases h; exact run is s hp
  | cons d ds ih =>
    have he := event d.after d.samples is s hp
    unfold meet at h
    simp only at h
    split at h
    · cases h; exact reset _ _ _ _ hp
    · cases h; exact power _ _ _ _ hp
    · exact ih he.1 h
    · exact ih he.2.1 h
    · split at h
      · exact ih he.2.2 h
      · cases h

/-- What a legal host request can answer: a failed check with no hardware access (R101), or the operation's items
read off the plan (R102, R103). -/
theorem hostRequest_cases {r : Region} {write : Bool} {items : Params → Sequencer → List Item} {o l : Nat} {b : Bool}
    {s t : State} (h : hostRequest r write items o l b s = .next t) :
    s.busy = false ∧
      let s2 := s.checked r write o l b
      let s3 := s2.planned r
      (rangeAccepted (r.totalSize s.params) s2.seq = false ∧ t = s2.giveUp .precond) ∨
        (rangeAccepted (r.totalSize s.params) s2.seq = true ∧ operate (items s3.params s3.seq) s3 = .next t) := by
  unfold hostRequest at h
  split at h
  next => simp at h
  next hb =>
    refine ⟨by simpa using hb, ?_⟩
    simp only at h ⊢
    split at h
    next hr => exact .inr ⟨hr, h⟩
    next hr => exact .inl ⟨by simpa using hr, by simpa using h.symm⟩

/-- What an illegal request answers (R89). -/
theorem illegalRequest_cases {r : Region} {o l : Nat} {b : Bool} {s t : State}
    (h : illegalRequest r o l b s = .next t) :
    s.busy = false ∧ t = (s.accept (r.opsel true) o l b).giveUp .illegal := by
  unfold illegalRequest at h
  split at h
  next => simp at h
  next hb => exact ⟨by simpa using hb, by simpa using h.symm⟩

/-- A sub-step taken as an operation: its own micro-operations in phase `XFER`, then the return to `IDLE` (R21). -/
theorem runItems_subItems (ms : List Micro) {s : State}
    (h : (runItems (always (.setPhase .xfer :: ms)) s).seq.hung = false) :
    runItems (subItems ms) s = (runItems (always (.setPhase .xfer :: ms)) s).finish := by
  have : subItems ms = always (.setPhase .xfer :: ms) ++ always [.finish] := by simp [subItems, always]
  rw [this, runItems_append]
  simp [always, Item.run] at h ⊢
  rw [h]
  rfl

/-- The first of them, and what is left. -/
theorem runItems_xfer (ms : List Micro) {s : State} (h : s.seq.hung = false) :
    runItems (always (.setPhase .xfer :: ms)) s = runItems (always ms) (s.setSeq { s.seq with phase := .xfer }) := by
  simp [always, Item.run, h, Micro.run]

/-- An undisturbed sub-step of a free block that does not hang runs its items and returns (R21, log 13). -/
theorem subStep_returns {ms : List Micro} {s : State} (hb : s.busy = false) (hd : s.disturb = [])
    (h : (runItems (always (.setPhase .xfer :: ms)) s).seq.hung = false) :
    subStep ms s = .next (runItems (always (.setPhase .xfer :: ms)) s).finish := by
  rw [subStep, hb]
  simp only [Bool.false_eq_true, if_false]
  rw [operate_undisturbed hd, runItems_subItems _ h]

/-- What a command frame or an OTP command word taken as an instruction answers. -/
theorem subStep_cases {ms : List Micro} {s t : State} (h : subStep ms s = .next t) :
    s.busy = false ∧ operate (subItems ms) s = .next t := by
  unfold subStep at h
  split at h
  next => simp at h
  next hb => exact ⟨by simpa using hb, h⟩

end Sys2Proof.Machine
end

