-- ==== Sys2Proof/Laws/Sound.lean ====
section
/-! SUPPORT. The part of the invariant that every micro-operation keeps: the byte spaces, the mask under the lock, the
waiting interrupt, the handlers, the widths of the registers. -/

namespace Sys2Proof.Machine

/-- What every micro-operation keeps. -/
structure Sound (s : State) : Prop where
  fuse : s.fuse.wf = true ∧ s.fuse.below 128 = true
  eepMem : s.eep.memOk
  boot0 : s.boot0.wf = true ∧ s.boot0.below s.params.boot0Size = true
  sotp : s.sotp.wf = true ∧ s.sotp.below 128 = true
  buf : s.buf.wf = true
  masked : s.lines.lock = true → s.plat.irqEnable = false
  pending : s.plat.irqPending = true → s.plat.irqEnable = false
  handlers : ∀ h ∈ s.plat.handlers, h = false
  widths : s.seq.fits s.params

theorem Inv.sound {s : State} (h : Inv s) : Sound s :=
  ⟨h.fuse, h.eepMem, h.boot0, h.sotp, h.buf, h.masked, h.pending, h.handlers, h.widths⟩

theorem Sound.setSeq {s : State} (h : Sound s) {q : Sequencer} (hq : q.fits s.params) : Sound (s.setSeq q) :=
  ⟨h.fuse, h.eepMem, h.boot0, h.sotp, h.buf, h.masked, h.pending, h.handlers, hq⟩

theorem Sound.emit {s : State} (h : Sound s) (e : Event) : Sound (s.emit e) :=
  ⟨h.fuse, h.eepMem, h.boot0, h.sotp, h.buf, h.masked, h.pending, h.handlers, h.widths⟩

theorem Sound.emitBuf {s : State} (h : Sound s) (e : BufEvent) : Sound (s.emitBuf e) :=
  ⟨h.fuse, h.eepMem, h.boot0, h.sotp, h.buf, h.masked, h.pending, h.handlers, h.widths⟩

theorem Sound.drawn {s : State} (h : Sound s) : Sound s.drawn :=
  ⟨h.fuse, h.eepMem, h.boot0, h.sotp, h.buf, h.masked, h.pending, h.handlers, h.widths⟩

theorem Sound.setInbox {s : State} (h : Sound s) (i : List Input) : Sound (s.setInbox i) :=
  ⟨h.fuse, h.eepMem, h.boot0, h.sotp, h.buf, h.masked, h.pending, h.handlers, h.widths⟩

theorem Sound.setDisturb {s : State} (h : Sound s) (d : List Disturbance) : Sound (s.setDisturb d) :=
  ⟨h.fuse, h.eepMem, h.boot0, h.sotp, h.buf, h.masked, h.pending, h.handlers, h.widths⟩

theorem Sound.setEep {s : State} (h : Sound s) {d : Eeprom} (hd : d.memOk) : Sound (s.setEep d) :=
  ⟨h.fuse, hd, h.boot0, h.sotp, h.buf, h.masked, h.pending, h.handlers, h.widths⟩

theorem Sound.setBuf {s : State} (h : Sound s) {m : Memory} (hm : m.wf = true) : Sound (s.setBuf m) :=
  ⟨h.fuse, h.eepMem, h.boot0, h.sotp, hm, h.masked, h.pending, h.handlers, h.widths⟩

/-- A change of the lines that leaves the lock alone or releases it. -/
theorem Sound.setLines {s : State} (h : Sound s) {l : Lines} (hl : l.lock = true → s.lines.lock = true) :
    Sound (s.setLines l) :=
  ⟨h.fuse, h.eepMem, h.boot0, h.sotp, h.buf, fun k => h.masked (hl k), h.pending, h.handlers, h.widths⟩

/-- A change of the platform registers that leaves the interrupt side alone. -/
theorem Sound.setPlat {s : State} (h : Sound s) {p : Platform} (h1 : p.irqEnable = s.plat.irqEnable)
    (h2 : p.irqPending = s.plat.irqPending) (h3 : p.handlers = s.plat.handlers) : Sound (s.setPlat p) :=
  ⟨h.fuse, h.eepMem, h.boot0, h.sotp, h.buf, fun k => by rw [State.setPlat_plat, h1]; exact h.masked k,
    fun k => by rw [State.setPlat_plat, h1]; exact h.pending (by rw [← h2]; exact k), by
      rw [State.setPlat_plat, h3]; exact h.handlers, h.widths⟩

theorem memOk_of_mem {d e : Eeprom} (h : e.mem = d.mem) (hd : d.memOk) : e.memOk := by
  unfold Eeprom.memOk; rw [h]; exact hd

theorem line_params (l : Line) (b : Bool) (s : State) : (s.line l b).params = s.params := by
  unfold State.line
  cases l <;> simp only
  · split
    · rfl
    · split <;> rfl
  · split <;> rfl
  · rfl

theorem Sound.delay {s : State} (h : Sound s) : Sound s.delay := (h.setEep (tick_memOk h.eepMem)).emit _

theorem Sound.line {s : State} (h : Sound s) (l : Line) (b : Bool) : Sound (s.line l b) := by
  unfold State.line
  cases l with
  | dOut => refine Sound.emit ?_ _; exact h.setLines (fun k => k)
  | clk =>
    have h1 : Sound ((s.setLines { s.lines with clk := b }).emit (.line .clk b)) := by
      refine Sound.emit ?_ _; exact h.setLines (fun k => k)
    simp only
    split
    · exact h1.setEep (memOk_of_mem (clockEdge_mem _ _ _) h.eepMem)
    · exact h1
  | cs =>
    have h1 : Sound ((s.setLines { s.lines with cs := b }).emit (.line .cs b)) := by
      refine Sound.emit ?_ _; exact h.setLines (fun k => k)
    simp only
    split
    · exact h1.setEep (memOk_of_mem rfl h.eepMem)
    · split
      · exact (h1.setEep (frameEnd_memOk h.eepMem _ _ _)).drawn
      · exact h1

theorem Sound.sample {s : State} (h : Sound s) : Sound s.sample := (h.emit _).drawn

theorem Sound.pollRound {s : State} (h : Sound s) : Sound s.pollRound := by
  unfold State.pollRound
  split
  · exact h
  · simp only
    split
    · exact h.sample.setSeq (by exact h.widths)
    · split
      · exact h.sample.setSeq (by exact h.widths)
      · exact (h.sample.setSeq (by exact h.widths)).delay

theorem Sound.pollRounds {s : State} (h : Sound s) (n : Nat) : Sound (s.pollRounds n) := by
  induction n generalizing s with
  | zero => exact h
  | succ n ih =>
    rw [State.pollRounds]
    split
    · exact h
    · exact ih h.pollRound

theorem Sound.poll {s : State} (h : Sound s) : Sound s.poll := by
  unfold State.poll
  simp only
  split
  · exact h.pollRounds _
  · exact (h.pollRounds _).setSeq (h.pollRounds _).widths

theorem Sound.takePending {s : State} (h1 : s.fuse.wf = true ∧ s.fuse.below 128 = true) (h2 : s.eep.memOk)
    (h3 : s.boot0.wf = true ∧ s.boot0.below s.params.boot0Size = true)
    (h4 : s.sotp.wf = true ∧ s.sotp.below 128 = true) (h5 : s.buf.wf = true) (h6 : s.lines.lock = false)
    (h7 : ∀ h ∈ s.plat.handlers, h = false) (h8 : s.seq.fits s.params) : Sound s.takePending := by
  unfold State.takePending
  split
  next hp =>
    refine ⟨h1, h2, h3, h4, h5, by simp [h6], by simp, ?_, h8⟩
    intro h hh
    simp only [State.setPlat_plat, List.mem_cons] at hh
    rcases hh with rfl | hh
    · exact h6
    · exact h7 h hh
  next hp =>
    refine ⟨h1, h2, h3, h4, h5, by simp [h6], ?_, h7, h8⟩
    intro hpend
    cases he : s.plat.irqEnable with
    | false => rfl
    | true => simp [he, hpend] at hp

theorem Sound.lockIrq {s : State} (h : Sound s) : Sound s.lockIrq :=
  ⟨h.fuse, h.eepMem, h.boot0, h.sotp, h.buf, fun _ => rfl, fun _ => rfl, h.handlers, h.widths⟩

theorem Sound.unlockIrq {s : State} (h : Sound s) : Sound s.unlockIrq :=
  Sound.takePending h.fuse h.eepMem h.boot0 h.sotp h.buf rfl h.handlers h.widths

theorem Sound.interruptArrives {s : State} (h : Sound s) : Sound s.interruptArrives := by
  unfold State.interruptArrives
  split
  next he =>
    refine ⟨h.fuse, h.eepMem, h.boot0, h.sotp, h.buf, h.masked, h.pending, ?_, h.widths⟩
    intro x hx
    simp only [State.setPlat_plat, List.mem_cons] at hx
    rcases hx with rfl | hx
    · cases hl : s.lines.lock with
      | false => rfl
      | true => rw [h.masked hl] at he; simp at he
    · exact h.handlers x hx
  next he =>
    exact ⟨h.fuse, h.eepMem, h.boot0, h.sotp, h.buf, h.masked, fun _ => by simpa using he, h.handlers, h.widths⟩

theorem Sound.havocEep {s : State} (h : Sound s) : Sound s.havocEep := (h.setEep (havoc_memOk _ _)).drawn

theorem Sound.nonMaskable {s : State} (h : Sound s) : Sound s.nonMaskable := by
  unfold State.nonMaskable
  split
  · exact h.havocEep
  · exact h

theorem Sound.deviceStep {s : State} (h : Sound s) : Sound s.deviceStep := by
  unfold State.deviceStep
  split
  · exact h
  · exact h.setEep (complete_memOk h.eepMem)

theorem Sound.blockReset {s : State} (h : Sound s) : Sound s.blockReset := by
  unfold State.blockReset
  simp only
  split
  · exact Sound.takePending h.fuse (havoc_memOk _ _) h.boot0 h.sotp h.buf rfl h.handlers (Sequencer.afterReset_fits _ _ _)
  · exact Sound.takePending h.fuse h.eepMem h.boot0 h.sotp h.buf rfl h.handlers (Sequencer.afterReset_fits _ _ _)

theorem powerOn_memOk {d : Eeprom} (h : d.memOk) (n : Nat) : (d.powerOn n).memOk := by
  unfold Eeprom.memOk Eeprom.powerOn
  simp only
  split
  · exact writeHalf_memOk h d.pendAddr.isLt _
  · exact h

theorem Sound.powerCycle {s : State} (h : Sound s) : Sound s.powerCycle := by
  have hw := Memory.drawn_wf
  unfold State.powerCycle
  simp only
  split
  · exact ⟨h.fuse, powerOn_memOk (havoc_memOk _ _) _, h.boot0, h.sotp, hw _ _ _, by simp [Lines.reset, State.setBuf,
      State.setLines, State.drawn], by simp [State.setBuf, State.setLines, State.drawn, State.setSeq, State.setPlat],
      h.handlers, Sequencer.afterReset_fits _ _ _⟩
  · exact ⟨h.fuse, powerOn_memOk h.eepMem _, h.boot0, h.sotp, hw _ _ _, by simp [Lines.reset, State.setBuf,
      State.setLines, State.drawn], by simp [State.setBuf, State.setLines, State.drawn, State.setSeq, State.setPlat],
      h.handlers, Sequencer.afterReset_fits _ _ _⟩

/-- Every micro-operation keeps it. -/
theorem Sound.micro (m : Micro) (s : State) (h : Sound s) : Sound (m.run s) := by
  cases m with
  | line l b => exact h.line l b
  | delay => exact h.delay
  | txBit i => exact (h.line _ _).setSeq (by rw [line_params]; exact h.widths)
  | rxBit i => exact h.sample.setSeq (by exact h.widths)
  | poll => exact h.poll
  | pollSome n => exact h.pollRounds n
  | otpWriteCmd v => refine Sound.drawn (Sound.emit ?_ _); exact h.setPlat rfl rfl rfl
  | otpReadData => exact (h.setSeq (by exact h.widths)).emit _
  | mirrorLoad m i => exact ((h.setSeq (by exact h.widths)).emit _).drawn
  | protCheck => exact (h.setSeq (by exact h.widths)).emit _
  | protExpose =>
    simp only [Micro.run, State.protExpose]
    split
    · refine Sound.emit (Sound.setSeq ?_ (by exact h.widths)) _; exact h.setPlat rfl rfl rfl
    · exact h
  | protReread =>
    simp only [Micro.run, State.protReread]
    split
    · exact (h.setSeq (by exact h.widths)).emit _
    · exact h
  | protRestore =>
    simp only [Micro.run, State.protRestore]
    split
    · refine Sound.emit (Sound.setSeq ?_ (by exact h.widths)) _; exact h.setPlat rfl rfl rfl
    · exact h
  | lockIrq => exact h.lockIrq
  | unlockIrq => exact h.unlockIrq
  | copyByte B p => exact (h.setBuf (Memory.write_wf h.buf _ _)).emitBuf _
  | spliceByte B p => exact (h.setSeq (by exact h.widths)).emitBuf _
  | blockDone =>
    simp only [Micro.run]
    split
    · exact h.setSeq (Sequencer.counted_fits h.widths)
    · exact h.setSeq (by exact h.widths)
  | afterTimeout =>
    simp only [Micro.run]
    split
    · refine Sound.drawn ?_
      exact h.setEep (writeHalf_memOk h.eepMem (Nat.mod_lt _ (by decide)) _)
    · exact h
  | finish => exact (h.setSeq (Sequencer.idle_fits _ _ h.widths.2.2.2.2.2.2.1)).drawn
  | setPhase p => exact h.setSeq (by exact h.widths)
  | loadTx v n => exact h.setSeq (by exact h.widths)
  | loadTxBlk n => exact h.setSeq (by exact h.widths)
  | clearRx n => exact h.setSeq (by exact h.widths)
  | storeRx => exact h.setSeq (by exact h.widths)
  | loadBlk d => exact h.setSeq (by exact h.widths)
  | pollStart => exact h.setSeq (by exact h.widths)
  | startLoop =>
    have w := h.widths
    exact h.setSeq ⟨w.1, w.2.1, w.2.2.1, w.2.2.2.1, w.2.2.2.2.1, w.2.2.2.2.2.1, Nat.two_pow_pos _, w.2.2.2.2.2.2.2⟩
  | setBlock i =>
    have w := h.widths
    exact h.setSeq ⟨w.1, w.2.1, w.2.2.1, w.2.2.2.1, narrow_lt _ _, w.2.2.2.2.2⟩
  | slice B => exact h.setSeq (Sequencer.slice_fits h.widths B)
  | addCount => exact h.setSeq (Sequencer.counted_fits h.widths)

theorem Sound.items {s : State} (h : Sound s) (is : List Item) : Sound (runItems is s) :=
  runItems_keeps Sound.micro (fun s it h => by rw [putOff_eq]; exact h.setSeq h.widths) is s h

end Sys2Proof.Machine
end

