-- ==== Sys2Proof/Laws/Control.lean ====
section
/-! SUPPORT. The control side of an operation: its items lead from a free block to a free block, or to a poll from
where they do, whatever the device answers and whatever meets it. -/

namespace Sys2Proof.Machine

/-! ### What a list of items leads to -/

theorem leads_nil (Q : Ctl → Prop) (c : Ctl) : Leads [] Q c ↔ Q c := Iff.rfl

theorem leads_append (is js : List Item) (Q : Ctl → Prop) : Leads (is ++ js) Q = Leads is (Leads js Q) := by
  induction is with
  | nil => rfl
  | cons it is ih => funext c; simp only [List.cons_append, Leads, ih]

/-- Micro-operations that touch nothing of the control side. -/
def Micro.neutral (m : Micro) : Prop := ∀ Q c, m.Leads Q c = Q c

theorem leads_neutral_cons (il : Bool) {m : Micro} (h : m.neutral) (is : List Item) (Q : Ctl → Prop) :
    Leads (⟨il, m⟩ :: is) Q = Leads is Q := by
  funext c
  rw [Leads, h, ite_self]

theorem leads_neutral (il : Bool) {ms : List Micro} (h : ∀ m ∈ ms, m.neutral) (Q : Ctl → Prop) :
    Leads (ms.map (Item.mk il)) Q = Q := by
  induction ms with
  | nil => rfl
  | cons m ms ih => rw [List.map_cons, leads_neutral_cons il (h m (.head _)), ih fun n hn => h n (.tail _ hn)]

/-- The bytes of a block touch nothing of the control side. -/
theorem leads_copies (il : Bool) (m : Nat → Micro) (h : ∀ p, (m p).neutral) (ps : List Nat) (Q : Ctl → Prop) :
    Leads ((ps.map m).map (Item.mk il)) Q = Q :=
  leads_neutral il (fun x hx => by obtain ⟨p, _, rfl⟩ := List.mem_map.mp hx; exact h p) Q

theorem leads_stopped {c : Ctl} (h : c.stopped = true) (ms : List Micro) (Q : Ctl → Prop) :
    Leads (inLoop ms) Q c ↔ Q c := by
  induction ms with
  | nil => rfl
  | cons m ms ih =>
    show Leads (⟨true, m⟩ :: inLoop ms) Q c ↔ _
    rw [Leads, h]
    exact ih

/-! ### The run follows it -/

/-- A state from which items lead to `Q`: the sequencer goes on, or it stands in a poll with items that wait for it. -/
def OnWay (is : List Item) (Q : Ctl → Prop) (s : State) : Prop :=
  (s.seq.hung = false ∧ s.seq.ahead = [] ∧ Leads is Q s.ctl) ∨
    (s.seq.hung = true ∧ s.ctl.polling ∧ Leads (s.seq.ahead ++ is) Q s.ctl)

theorem OnWay.same {is : List Item} {Q : Ctl → Prop} {s t : State} (h : OnWay is Q s) (hc : t.ctl = s.ctl)
    (hh : t.seq.hung = s.seq.hung) (ha : t.seq.ahead = s.seq.ahead) : OnWay is Q t := by
  unfold OnWay
  rwa [hc, hh, ha]

/-- Two states whose control side, poll and waiting items agree. -/
abbrev SameWay (s t : State) : Prop := t.ctl = s.ctl ∧ t.seq.hung = s.seq.hung ∧ t.seq.ahead = s.seq.ahead

theorem OnWay.to {is : List Item} {Q : Ctl → Prop} {s t : State} (h : OnWay is Q s) (k : SameWay s t) : OnWay is Q t :=
  h.same k.1 k.2.1 k.2.2

theorem SameWay.trans {s t u : State} (h : SameWay s t) (k : SameWay t u) : SameWay s u :=
  ⟨k.1.trans h.1, k.2.1.trans h.2.1, k.2.2.trans h.2.2⟩

theorem pollRound_way (s : State) : SameWay s s.pollRound := by
  unfold State.pollRound
  split
  · exact ⟨rfl, rfl, rfl⟩
  · simp only
    split
    · exact ⟨rfl, rfl, rfl⟩
    · split <;> exact ⟨rfl, rfl, rfl⟩

theorem pollRounds_way (n : Nat) (s : State) : SameWay s (s.pollRounds n) := by
  induction n generalizing s with
  | zero => exact ⟨rfl, rfl, rfl⟩
  | succ n ih =>
    rw [State.pollRounds]
    split
    · exact ⟨rfl, rfl, rfl⟩
    · exact (pollRound_way s).trans (ih _)

theorem line_lines (l : Line) (b : Bool) (s : State) :
    (s.line l b).lines = match l with
      | .cs => { s.lines with cs := b }
      | .clk => { s.lines with clk := b }
      | .dOut => { s.lines with dOut := b } := by
  unfold State.line
  cases l <;> simp only
  · split
    · rfl
    · split <;> rfl
  · split <;> rfl
  · rfl

theorem takePending_way (s : State) : SameWay s s.takePending := by
  unfold State.takePending; split <;> exact ⟨rfl, rfl, rfl⟩

/-- A micro-operation of a sequencer that goes on. -/
theorem micro_onWay (m : Micro) {is : List Item} {Q : Ctl → Prop} {s : State} (hh : s.seq.hung = false)
    (ha : s.seq.ahead = []) (h : m.Leads (Leads is Q) s.ctl) : OnWay is Q (m.run s) := by
  have same : ∀ t, SameWay s t → Leads is Q s.ctl → OnWay is Q t := fun t k h => .to (.inl ⟨hh, ha, h⟩) k
  cases m with
  | line l b =>
    have h1 := line_lines l b s
    have h2 := line_seq l b s
    refine .inl ⟨by simp only [Micro.run]; rw [h2, hh], by simp only [Micro.run]; rw [h2, ha], ?_⟩
    cases l <;> simp only [Micro.Leads] at h <;> simp only [Micro.run, State.ctl, h1, h2] <;> exact h
  | txBit i =>
    have h1 := line_lines .dOut (s.seq.txVal.getLsbD i) s
    refine same _ ⟨?_, rfl, rfl⟩ h
    simp [Micro.run, State.ctl, h1]
    rfl
  | poll =>
    have k := pollRounds_way s.pollFuel s
    simp only [Micro.run, State.poll]
    split
    · exact same _ k h.2
    · refine .inr ⟨rfl, ?_, ?_⟩
      · exact k.1 ▸ h.1
      · have : (s.pollRounds s.pollFuel).seq.ahead = [] := k.2.2.trans ha
        simp only [State.setSeq_seq, this, List.nil_append]
        exact k.1 ▸ h.2
  | pollSome n => exact same _ (pollRounds_way n s) h
  | copyByte B p => exact same _ ⟨rfl, rfl, rfl⟩ h
  | spliceByte B p => exact same _ ⟨rfl, rfl, rfl⟩ h
  | unlockIrq => refine .to ?_ (takePending_way _); exact .inl ⟨hh, ha, h⟩
  | protExpose =>
    simp only [Micro.run, State.protExpose]
    split
    · exact .inl ⟨hh, ha, h.2⟩
    · exact same _ ⟨rfl, rfl, rfl⟩ h.1
  | protReread => simp only [Micro.run, State.protReread]; split <;> exact same _ ⟨rfl, rfl, rfl⟩ h
  | protRestore =>
    simp only [Micro.run, State.protRestore]
    split
    · exact .inl ⟨hh, ha, h.2⟩
    · exact same _ ⟨rfl, rfl, rfl⟩ h.1
  | blockDone =>
    simp only [Micro.run]
    split
    · exact same _ ⟨rfl, rfl, rfl⟩ h.1
    · exact .inl ⟨hh, ha, h.2⟩
  | afterTimeout => simp only [Micro.run]; split <;> exact same _ ⟨rfl, rfl, rfl⟩ h
  | finish => exact .inl ⟨rfl, rfl, h⟩
  | setPhase p => exact .inl ⟨hh, ha, h⟩
  | lockIrq => exact .inl ⟨hh, ha, h⟩
  | startLoop => exact .inl ⟨hh, ha, h⟩
  | delay => exact same _ ⟨rfl, rfl, rfl⟩ h
  | loadTx v n => exact same _ ⟨rfl, rfl, rfl⟩ h
  | loadTxBlk n => exact same _ ⟨rfl, rfl, rfl⟩ h
  | clearRx n => exact same _ ⟨rfl, rfl, rfl⟩ h
  | rxBit i => exact same _ ⟨rfl, rfl, rfl⟩ h
  | storeRx => exact same _ ⟨rfl, rfl, rfl⟩ h
  | loadBlk d => exact same _ ⟨rfl, rfl, rfl⟩ h
  | pollStart => exact same _ ⟨rfl, rfl, rfl⟩ h
  | otpWriteCmd v => exact same _ ⟨rfl, rfl, rfl⟩ h
  | otpReadData => exact same _ ⟨rfl, rfl, rfl⟩ h
  | mirrorLoad m i => exact same _ ⟨rfl, rfl, rfl⟩ h
  | protCheck => exact same _ ⟨rfl, rfl, rfl⟩ h
  | setBlock i => exact same _ ⟨rfl, rfl, rfl⟩ h
  | slice B => exact same _ ⟨rfl, rfl, rfl⟩ h
  | addCount => exact same _ ⟨rfl, rfl, rfl⟩ h

theorem pollSome_neutral (n : Nat) : (Micro.pollSome n).neutral := fun _ _ => rfl

theorem item_onWay {it : Item} {is : List Item} {Q : Ctl → Prop} {s : State} (h : OnWay (it :: is) Q s) :
    OnWay is Q (it.run s) := by
  rcases h with ⟨hh, ha, h⟩ | ⟨hh, hp, h⟩
  · have hs : s.ctl.stopped = decide (s.seq.status = .timeout) := rfl
    rw [Leads, hs] at h
    unfold Item.run
    rw [hh]
    simp only [Bool.false_eq_true, if_false]
    split
    next k => rw [if_pos k] at h; exact .inl ⟨hh, ha, h⟩
    next k => rw [if_neg k] at h; exact micro_onWay _ hh ha h
  · obtain ⟨il, m⟩ := it
    unfold Item.run
    rw [if_pos hh, putOff_eq]
    refine .inr ⟨hh, hp, ?_⟩
    simp only [State.setSeq_seq, List.append_assoc]
    by_cases hw : (Item.mk il m).waits = true
    · rw [List.filter_cons_of_pos hw]; exact h
    · obtain ⟨n, rfl⟩ : ∃ n, m = .pollSome n := by
        cases m <;> simp [Item.waits] at hw ⊢
      rw [leads_append, leads_neutral_cons il (pollSome_neutral n), ← leads_append] at h
      exact h

theorem runItems_onWay (is js : List Item) {Q : Ctl → Prop} {s : State} (h : OnWay (is ++ js) Q s) :
    OnWay js Q (runItems is s) := by
  induction is generalizing s with
  | nil => exact h
  | cons it is ih => exact ih (item_onWay h)

theorem itemsBefore_onWay (n k : Nat) {is : List Item} {Q : Ctl → Prop} {s : State} (h : OnWay is Q s) :
    OnWay (is.drop n) Q (runItems (itemsBefore n k is) s) := by
  have ht : OnWay (is.drop n) Q (runItems (is.take n) s) :=
    runItems_onWay _ _ (by rw [List.take_append_drop]; exact h)
  unfold itemsBefore
  split
  · next l _ =>
    rw [runItems_append]
    refine item_onWay ?_
    unfold OnWay at ht ⊢
    rwa [leads_neutral_cons l (pollSome_neutral k), leads_append, leads_neutral_cons l (pollSome_neutral k),
      ← leads_append]
  · exact ht

theorem nonMaskable_way (s : State) : SameWay s s.nonMaskable := by
  unfold State.nonMaskable; split <;> exact ⟨rfl, rfl, rfl⟩

theorem interruptArrives_way (s : State) : SameWay s s.interruptArrives := by
  unfold State.interruptArrives; split <;> exact ⟨rfl, rfl, rfl⟩

/-- A state the invariant may have: at rest, or in a poll from where the rest of the operation ends at rest. -/
abbrev Settled (s : State) : Prop := OnWay [] Ctl.atRest s

theorem blockReset_settled (s : State) : Settled s.blockReset :=
  .to (.inl ⟨rfl, rfl, rfl, rfl, rfl, rfl, rfl⟩) (takePending_way _)

theorem powerCycle_settled (s : State) : Settled s.powerCycle := .inl ⟨rfl, rfl, rfl, rfl, rfl, rfl, rfl⟩

/-- Whatever meets an operation that leads to a free block, the block is free in the end or stands in a poll. -/
theorem operate_settled {is : List Item} {s t : State} (hw : OnWay is Ctl.atRest s) (h : operate is s = .next t) :
    Settled t := by
  have hd : OnWay is Ctl.atRest (s.setDisturb []) := hw.same rfl rfl rfl
  refine meet_rule (P := fun js u => OnWay js Ctl.atRest u) (Q := Settled)
    (fun js u hp => runItems_onWay js [] (by simpa using hp)) (fun n k js u _ => blockReset_settled _)
    (fun n k js u _ => powerCycle_settled _) ?_ hd h
  intro n k js u hp
  have := itemsBefore_onWay n k hp
  exact ⟨this.to (nonMaskable_way _), this.to (interruptArrives_way _), this⟩

theorem operate_sound {is : List Item} {s t : State} (hs : Sound s) (h : operate is s = .next t) : Sound t :=
  meet_rule (P := fun _ u => Sound u) (Q := Sound) (fun js _ hp => hp.items js)
    (fun _ _ _ _ hp => (hp.items _).blockReset) (fun _ _ _ _ hp => (hp.items _).powerCycle)
    (fun _ _ _ _ hp => ⟨(hp.items _).nonMaskable, (hp.items _).interruptArrives, hp.items _⟩) (hs.setDisturb []) h

theorem Inv.settled {s : State} (h : Inv s) : Settled s := by
  cases hh : s.seq.hung with
  | false =>
    obtain ⟨h1, h2, h3, h4, h5⟩ := h.rest hh
    exact .inl ⟨hh, h4, h2, h.clock, h3, h1, h5⟩
  | true =>
    obtain ⟨h1, h2, h3, h4⟩ := h.polling hh
    exact .inr ⟨hh, ⟨h1, h.clock, h2, h3⟩, by rw [List.append_nil]; exact h4⟩

theorem Inv.of {s : State} (h : Sound s) (k : Settled s) : Inv s := by
  rcases k with ⟨hh, ha, h1, h2, h3, h4, h5⟩ | ⟨hh, ⟨h1, h2, h3, h5⟩, h4⟩
  · exact ⟨h.fuse, h.eepMem, h.boot0, h.sotp, h.buf, h2, fun _ => ⟨h4, h1, h3, ha, h5⟩, fun k => by simp [hh] at k, h.masked,
      h.pending, h.handlers, h.widths⟩
  · exact ⟨h.fuse, h.eepMem, h.boot0, h.sotp, h.buf, h2, fun k => by simp [hh] at k,
      fun _ => ⟨h1, h3, h5, by rw [List.append_nil] at h4; exact h4⟩, h.masked, h.pending, h.handlers, h.widths⟩

/-! ### The frames and the loops -/

theorem inLoop_append (ms ns : List Micro) : inLoop (ms ++ ns) = inLoop ms ++ inLoop ns := List.map_append

theorem always_append (ms ns : List Micro) : always (ms ++ ns) = always ms ++ always ns := List.map_append

/-- The control side inside an operation between its frames: chip-select and clock low. -/
def Ctl.base (lk : Bool) (ph : Phase) (st : Bool) (e : Bool := false) : Ctl := ⟨false, false, lk, ph, st, e⟩

/-- A frame's lines are back as they were after its bits. -/
theorem leads_sendLoop (il : Bool) (n : Nat) (cs lk : Bool) (ph : Phase) (st e : Bool) (h : il = true → st = false)
    (Q : Ctl → Prop) :
    Leads ((sendLoop n).map (Item.mk il)) Q ⟨cs, false, lk, ph, st, e⟩ ↔ Q ⟨cs, false, lk, ph, st, e⟩ := by
  induction n with
  | zero => rfl
  | succ n ih =>
    cases il with
    | false => simpa [sendLoop, Leads, Micro.Leads] using ih
    | true => simpa [sendLoop, Leads, Micro.Leads, h rfl] using ih

theorem leads_recvLoop (il : Bool) (n : Nat) (cs lk : Bool) (ph : Phase) (st e : Bool) (h : il = true → st = false)
    (Q : Ctl → Prop) :
    Leads ((recvLoop n).map (Item.mk il)) Q ⟨cs, false, lk, ph, st, e⟩ ↔ Q ⟨cs, false, lk, ph, st, e⟩ := by
  induction n with
  | zero => rfl
  | succ n ih =>
    cases il with
    | false => simpa [recvLoop, Leads, Micro.Leads] using ih
    | true => simpa [recvLoop, Leads, Micro.Leads, h rfl] using ih

/-- A frame of the read kind leaves the control side as it was. -/
theorem leads_readFrame (il : Bool) (c : Command) (lk : Bool) (ph : Phase) (st : Bool) (h : il = true → st = false)
    (Q : Ctl → Prop) : Leads ((readFrameOf c).map (Item.mk il)) Q (.base lk ph st) ↔ Q (.base lk ph st) := by
  cases il with
  | false =>
    simp [readFrameOf, sendBits, recvBits, Ctl.base, List.map_append, leads_append, Leads, Micro.Leads, leads_sendLoop,
      leads_recvLoop]
  | true =>
    obtain rfl := h rfl
    simp [readFrameOf, sendBits, recvBits, Ctl.base, List.map_append, leads_append, Leads, Micro.Leads, leads_sendLoop,
      leads_recvLoop]

theorem leads_controlFrame (il : Bool) (c : Command) (n : Nat) (lk : Bool) (ph : Phase) (st : Bool)
    (h : il = true → st = false) (Q : Ctl → Prop) :
    Leads ((controlFrame c n).map (Item.mk il)) Q (.base lk ph st) ↔ Q (.base lk ph st) := by
  cases il with
  | false => simp [controlFrame, sendBits, Ctl.base, List.map_append, leads_append, Leads, Micro.Leads, leads_sendLoop]
  | true =>
    obtain rfl := h rfl
    simp [controlFrame, sendBits, Ctl.base, List.map_append, leads_append, Leads, Micro.Leads, leads_sendLoop]

/-- A write frame in a block transfer leaves the control side as it was, and its poll stands where a poll may stand. -/
theorem leads_writeFrame (il : Bool) (c : Command) (lk : Bool) (st : Bool) (h : il = true → st = false)
    (Q : Ctl → Prop) :
    Leads ((writeFrameOf c).map (Item.mk il)) Q (.base lk .xfer st) ↔ Q (.base lk .xfer st) := by
  cases il with
  | false =>
    simp [writeFrameOf, sendBits, sendBlk, Ctl.base, Ctl.polling, List.map_append, leads_append, Leads, Micro.Leads,
      leads_sendLoop]
  | true =>
    obtain rfl := h rfl
    simp [writeFrameOf, sendBits, sendBlk, Ctl.base, Ctl.polling, List.map_append, leads_append, Leads, Micro.Leads,
      leads_sendLoop]

/-- One round of a read loop leaves the control side as it was. -/
theorem leads_readStep (B : Nat) (br : Nat → List Micro) (q : Sequencer) (i : Nat) (c : Ctl)
    (h : ∀ Q, Leads (inLoop (br i)) Q c ↔ Q c) (Q : Ctl → Prop) : Leads (inLoop (readStep B br q i)) Q c ↔ Q c := by
  have hc : ∀ R, Leads (((q.positions B i).map (.copyByte B)).map (Item.mk true)) R = R :=
    leads_copies true _ (fun _ _ _ => rfl) _
  have : inLoop (readStep B br q i) = inLoop [.setBlock i] ++ (inLoop (br i) ++ (inLoop [.slice B] ++
      (inLoop ((q.positions B i).map (.copyByte B)) ++ inLoop [.addCount]))) := by
    simp [inLoop, readStep]
  rw [this, leads_append, leads_append, leads_append, leads_append, inLoop, leads_neutral true (by simp [Micro.neutral,
    Micro.Leads]), h, inLoop, leads_neutral true (by simp [Micro.neutral, Micro.Leads]), inLoop, hc, inLoop,
    leads_neutral true (by simp [Micro.neutral, Micro.Leads])]

theorem leads_readLoop (B : Nat) (br : Nat → List Micro) (q : Sequencer) (lk : Bool) (ph : Phase) (st e : Bool)
    (h : ∀ i Q, Leads (inLoop (br i)) Q (.base lk .xfer false e) ↔ Q (.base lk .xfer false e)) (Q : Ctl → Prop) :
    Leads (readLoop B br q) Q (.base lk ph st e) ↔ Q (.base lk .xfer false e) := by
  have h1 : ∀ R, Leads (always [.setPhase .xfer, .startLoop]) R (.base lk ph st e) ↔ R (.base lk .xfer false e) := by
    simp [always, Ctl.base, Leads, Micro.Leads]
  rw [readLoop, leads_append, h1]
  induction q.blocks with
  | nil => rfl
  | cons b bs ih => rw [List.flatMap_cons, leads_append, leads_readStep B br q b _ (h b)]; exact ih

theorem leads_otpRead (p : Params) (q : Sequencer) (ph : Phase) (st : Bool) :
    Leads (otpReadItems p q) Ctl.atRest (.base false ph st) := by
  have h := leads_readLoop 4 (otpBlockRead p) q false .opening st false fun i Q => by
    rw [inLoop, leads_neutral true (by simp [otpBlockRead, Micro.neutral, Micro.Leads])]
  have h1 : ∀ R, Leads (always [.setPhase .opening]) R (.base false ph st) ↔ R (.base false .opening st) := by
    simp [always, Ctl.base, Leads, Micro.Leads]
  rw [otpReadItems, leads_append, leads_append, h1, h]
  simp [always, Ctl.base, Ctl.atRest, Leads, Micro.Leads]

theorem leads_mirrorRead (m : Mirror) (p : Params) (q : Sequencer) (ph : Phase) (st : Bool) :
    Leads (mirrorReadItems m p q) Ctl.atRest (.base false ph st) := by
  have h := fun e => leads_readLoop 4 (mirrorBlockRead m) q false .opening st e fun i Q => by
    rw [inLoop, leads_neutral true (by simp [mirrorBlockRead, Micro.neutral, Micro.Leads])]
  have h1 : ∀ R, Leads (always [.setPhase .opening, .protCheck, .protExpose]) R (.base false ph st) ↔
      R (.base false .opening st) ∧ R (.base false .opening st true) := by
    simp [always, Ctl.base, Leads, Micro.Leads]
  rw [mirrorReadItems, leads_append, leads_append, h1, h, h]
  simp [always, Ctl.base, Ctl.atRest, Leads, Micro.Leads]

theorem leads_seepromRead (p : Params) (q : Sequencer) (ph : Phase) (st : Bool) :
    Leads (seepromReadItems p q) Ctl.atRest (.base false ph st) := by
  have h := leads_readLoop 2 (readFrame p) q false .opening st false fun i Q =>
    leads_readFrame true _ false .xfer false (fun _ => rfl) Q
  have h1 : ∀ R, Leads (always (.setPhase .opening :: preamble)) R (.base false ph st) ↔
      R (.base false .opening st) := by
    simp [always, preamble, Ctl.base, Leads, Micro.Leads]
  rw [seepromReadItems, leads_append, leads_append, h1, h]
  simp [always, Ctl.base, Ctl.atRest, Leads, Micro.Leads]

/-- One block of a write: the loop goes on or has stopped. -/
theorem leads_writeStep (p : Params) (q : Sequencer) (i : Nat) {Q : Ctl → Prop} (h : ∀ st, Q (.base true .xfer st)) :
    ∀ st, Leads (inLoop (writeStep p q i)) Q (.base true .xfer st) := by
  intro st
  cases st with
  | true => exact (leads_stopped rfl _ _).mpr (h _)
  | false =>
    have hc : ∀ R, Leads (((q.positions 2 i).map (.spliceByte 2)).map (Item.mk true)) R = R :=
      leads_copies true _ (fun _ _ _ => rfl) _
    have hr : ∀ R, Leads (inLoop (if q.partialBlock 2 i then readFrame p i else [])) R (.base true .xfer false) ↔
        R (.base true .xfer false) := by
      intro R
      split
      · exact leads_readFrame true _ true .xfer false (fun _ => rfl) R
      · rfl
    have he : inLoop (writeStep p q i) = inLoop [.setBlock i, .slice 2] ++
        (inLoop (if q.partialBlock 2 i then readFrame p i else []) ++
          (inLoop ((q.positions 2 i).map (.spliceByte 2)) ++ (inLoop (writeFrame p i) ++ inLoop [.blockDone]))) := by
      simp [inLoop, writeStep]
    rw [he, leads_append, leads_append, leads_append, leads_append, inLoop,
      leads_neutral true (by simp [Micro.neutral, Micro.Leads]), hr, inLoop, hc, inLoop, writeFrame,
      leads_writeFrame true _ true false fun _ => rfl]
    exact ⟨h false, h true⟩

theorem leads_writeLoop (p : Params) (q : Sequencer) (ph : Phase) (st : Bool) {Q : Ctl → Prop}
    (h : ∀ st, Q (.base true .xfer st)) : Leads (writeLoop p q) Q (.base true ph st) := by
  have h1 : ∀ R, Leads (always [.setPhase .xfer, .startLoop]) R (.base true ph st) ↔ R (.base true .xfer false) := by
    simp [always, Ctl.base, Leads, Micro.Leads]
  rw [writeLoop, leads_append, h1]
  generalize q.blocks = bs
  suffices ∀ st, Leads (bs.flatMap fun i => inLoop (writeStep p q i)) Q (.base true .xfer st) from this false
  induction bs with
  | nil => exact h
  | cons b bs ih => rw [List.flatMap_cons, leads_append]; exact leads_writeStep p q b ih

theorem leads_seepromWrite (p : Params) (q : Sequencer) (ph : Phase) (st : Bool) :
    Leads (seepromWriteItems p q) Ctl.atRest (.base false ph st) := by
  have h1 : ∀ R, Leads (always (.setPhase .opening :: .lockIrq :: preamble)) R (.base false ph st) ↔
      R (.base true .opening st) := by
    simp [always, preamble, Ctl.base, Leads, Micro.Leads]
  have h2 : ∀ st R, Leads (always [.setPhase .closing]) R (.base true .xfer st) ↔ R (.base true .closing st) := by
    simp [always, Ctl.base, Leads, Micro.Leads]
  have he : seepromWriteItems p q = always (.setPhase .opening :: .lockIrq :: preamble) ++ (always (enableFrame p) ++
      (writeLoop p q ++ (always [.setPhase .closing] ++ (always (disableFrame p) ++
        always [.afterTimeout, .unlockIrq, .finish])))) := by
    simp [seepromWriteItems, always]
  rw [he, leads_append, h1, leads_append, always, enableFrame, leads_controlFrame false _ _ true .opening st (by simp),
    leads_append]
  refine leads_writeLoop p q _ _ fun st => ?_
  rw [leads_append, h2, leads_append, always, disableFrame, leads_controlFrame false _ _ true .closing st (by simp)]
  simp [always, Ctl.base, Ctl.atRest, Leads, Micro.Leads]

/-! ### The invariant through the shared operations -/

theorem startCtl {s : State} (hi : Inv s) (hb : s.busy = false) :
    s.ctl = .base false .idle (decide (s.seq.status = .timeout)) ∧ s.seq.hung = false ∧ s.seq.ahead = [] := by
  have hh : s.seq.hung = false := by simp [State.busy] at hb; exact hb.1
  obtain ⟨h1, h2, h3, h4, h5⟩ := hi.rest hh
  exact ⟨by simp [State.ctl, Ctl.base, h1, h2, h3, h5, hi.clock], hh, h4⟩

theorem operate_inv {is : List Item} {s t : State} (hs : Sound s) (hw : OnWay is Ctl.atRest s)
    (h : operate is s = .next t) : Inv t := .of (operate_sound hs h) (operate_settled hw h)

/-- One more round of a poll, and what follows it, keep the invariant. -/
theorem pollOn_inv {s t : State} (hi : Inv s) (hh : s.seq.hung = true) (h : s.pollOn = .next t) : Inv t := by
  have hw := hi.settled.to (pollRound_way s)
  unfold State.pollOn at h
  simp only at h
  split at h
  · have hr : Sound s.pollRound.resumed := hi.sound.pollRound.setSeq hi.sound.pollRound.widths
    refine operate_inv hr (.inl ⟨rfl, rfl, ?_⟩) h
    rcases hw with ⟨k, _⟩ | ⟨_, _, k⟩
    · rw [(pollRound_way s).2.1, hh] at k; simp at k
    · rw [List.append_nil] at k; exact k
  · cases h
    exact .of hi.sound.pollRound hw

/-- A sub-step whose micro-operations lead back from a block transfer ends at rest. -/
theorem subStep_inv {ms : List Micro} {s t : State} (hi : Inv s)
    (hw : ∀ st Q, Leads (always ms) Q (.base false .xfer st) ↔ Q (.base false .xfer st))
    (h : subStep ms s = .next t) : Inv t := by
  obtain ⟨hb, h⟩ := subStep_cases h
  obtain ⟨hc, hh, ha⟩ := startCtl hi hb
  refine operate_inv hi.sound (.inl ⟨hh, ha, ?_⟩) h
  have he : subItems ms = always [.setPhase .xfer] ++ (always ms ++ always [.finish]) := by simp [subItems, always]
  have h1 : ∀ st R, Leads (always [.setPhase .xfer]) R (.base false .idle st) ↔ R (.base false .xfer st) := by
    simp [always, Ctl.base, Leads, Micro.Leads]
  rw [he, hc, leads_append, h1, leads_append, hw]
  simp [always, Ctl.base, Ctl.atRest, Leads, Micro.Leads]

theorem Sound.accept {s : State} (h : Sound s) (op : BitVec 3) (o l : Nat) (b : Bool) : Sound (s.accept op o l b) :=
  h.setSeq ⟨narrow_lt _ _, narrow_lt _ _, h.widths.2.2⟩

theorem Sound.checked {s : State} (h : Sound s) (r : Region) (w : Bool) (o l : Nat) (b : Bool) :
    Sound (s.checked r w o l b) :=
  (h.accept _ o l b).setSeq (Sequencer.formEndSum_fits (h.accept _ o l b).widths)

theorem Sound.planned {s : State} (h : Sound s) (r : Region) : Sound (s.planned r) :=
  h.setSeq (Sequencer.plan_fits (q := { s.seq with phase := .plan }) h.widths _)

theorem Sound.giveUp {s : State} (h : Sound s) (st : Status) : Sound (s.giveUp st) := by
  have w := h.widths
  have h' : Sound (s.setSeq { s.seq with count := 0, status := st }) :=
    h.setSeq ⟨w.1, w.2.1, w.2.2.1, w.2.2.2.1, w.2.2.2.2.1, w.2.2.2.2.2.1, Nat.two_pow_pos _, w.2.2.2.2.2.2.2⟩
  exact (h'.setSeq (Sequencer.idle_fits _ _ h'.widths.2.2.2.2.2.2.1)).drawn

/-- A failure return of a free block leaves it at rest. -/
theorem giveUp_settled {s : State} (h : s.lines.cs = false ∧ s.lines.clk = false ∧ s.lines.lock = false) (st : Status) :
    Settled (s.giveUp st) := .inl ⟨rfl, rfl, h.1, h.2.1, h.2.2, rfl, rfl⟩

theorem free_lines {s : State} (hi : Inv s) (hb : s.busy = false) :
    s.lines.cs = false ∧ s.lines.clk = false ∧ s.lines.lock = false := by
  have hh : s.seq.hung = false := by simp [State.busy] at hb; exact hb.1
  exact ⟨(hi.rest hh).2.1, hi.clock, (hi.rest hh).2.2.1⟩

theorem hostRequest_inv {r : Region} {w : Bool} {items : Params → Sequencer → List Item} {o l : Nat} {b : Bool}
    {s t : State} (hi : Inv s) (hw : ∀ p q st, Leads (items p q) Ctl.atRest (.base false .plan st))
    (h : hostRequest r w items o l b s = .next t) : Inv t := by
  obtain ⟨hb, h⟩ := hostRequest_cases h
  obtain ⟨hc, hh, ha⟩ := startCtl hi hb
  rcases h with ⟨_, rfl⟩ | ⟨_, h⟩
  · exact .of ((hi.sound.checked r w o l b).giveUp _) (giveUp_settled (free_lines hi hb) _)
  · refine operate_inv ((hi.sound.checked r w o l b).planned r) (.inl ⟨?_, ?_, ?_⟩) h
    · exact (plan_hung _ _ _).trans hh
    · exact (plan_ahead _ _ _).trans ha
    · refine (congrArg (Leads _ Ctl.atRest) ?_).mpr (hw _ _ (decide (s.seq.status = .timeout)))
      simp [State.ctl, Ctl.base] at hc
      simp [State.ctl, Ctl.base, State.planned, State.checked, State.accept, Sequencer.formEndSum, hc]

theorem illegal_inv {r : Region} {o l : Nat} {b : Bool}
    {s t : State} (hi : Inv s) (h : illegalRequest r o l b s = .next t) : Inv t := by
  obtain ⟨hb, rfl⟩ := illegalRequest_cases h
  exact .of ((hi.sound.accept _ o l b).giveUp _) (giveUp_settled (free_lines hi hb) _)

end Sys2Proof.Machine
end

