-- ==== Sys2Proof/Laws/Wire.lean ====
section
/-! SUPPORT. What the wire primitives and the frames do, each said once (R133 to R144). -/

namespace Sys2Proof.Machine

theorem WireOnly.refl (s : State) : WireOnly s s := ⟨rfl, rfl, rfl, rfl, rfl, rfl, rfl, rfl, rfl⟩

theorem WireOnly.trans {s t u : State} (h : WireOnly s t) (k : WireOnly t u) : WireOnly s u :=
  ⟨k.params.trans h.params, k.plat.trans h.plat, k.fuse.trans h.fuse, k.boot0.trans h.boot0, k.sotp.trans h.sotp,
    k.buf.trans h.buf, k.bufTrace.trans h.bufTrace, k.inbox.trans h.inbox, k.disturb.trans h.disturb⟩

/-- What the device keeps while a frame is sent to it and no write is under way. -/
structure DeviceKept (d e : Eeprom) : Prop where
  mem : e.mem = d.mem
  busy : e.busy = false
  pendAddr : e.pendAddr = d.pendAddr
  pendData : e.pendData = d.pendData
  afterWrite : e.afterWrite = d.afterWrite
  spoiled : e.spoiled = false
  times : e.times = d.times

theorem DeviceKept.trans {d e f : Eeprom} (h : DeviceKept d e) (k : DeviceKept e f) : DeviceKept d f :=
  ⟨k.mem.trans h.mem, k.busy, k.pendAddr.trans h.pendAddr, k.pendData.trans h.pendData,
    k.afterWrite.trans h.afterWrite, k.spoiled, k.times.trans h.times⟩

theorem tick_kept {d : Eeprom} (hb : d.busy = false) (hs : d.spoiled = false) :
    DeviceKept d d.tick ∧ d.tick.edges = d.edges ∧ d.tick.shift = d.shift ∧ d.tick.cmd = d.cmd ∧
      d.tick.wel = d.wel := by
  obtain ⟨l, u, h⟩ := tick_idle hb
  rw [h]
  exact ⟨⟨rfl, hb, rfl, rfl, rfl, hs, rfl⟩, rfl, rfl, rfl, rfl⟩

/-- The device after one clock edge with the delays around it, for an edge that is not misuse. -/
def afterEdge (p : Params) (b : Bool) (d : Eeprom) : Eeprom := ((d.tick.clockEdge p b).tick).tick

theorem afterEdge_bit {p : Params} {b : Bool} {d : Eeprom} (hb : d.busy = false) (hs : d.spoiled = false)
    (he : d.edges + 1 ≠ 11) :
    DeviceKept d (afterEdge p b d) ∧ (afterEdge p b d).edges = d.edges + 1 ∧ (afterEdge p b d).cmd = d.cmd ∧
      (afterEdge p b d).wel = d.wel ∧ (afterEdge p b d).shift = (d.takeBit b).shift := by
  obtain ⟨k1, e1, s1, c1, w1⟩ := tick_kept hb hs
  have hce : (d.tick.clockEdge p b) = d.tick.takeBit b := clockEdge_bit k1.busy k1.spoiled (by rw [e1]; exact he)
  have k2 : DeviceKept d (d.tick.takeBit b) :=
    ⟨k1.mem, k1.busy, k1.pendAddr, k1.pendData, k1.afterWrite, k1.spoiled, k1.times⟩
  obtain ⟨k3, e3, s3, c3, w3⟩ := tick_kept k2.busy k2.spoiled
  obtain ⟨k4, e4, s4, c4, w4⟩ := tick_kept k3.busy k3.spoiled
  unfold afterEdge
  rw [hce]
  refine ⟨(k2.trans k3).trans k4, ?_, ?_, ?_, ?_⟩
  · rw [e4, e3, takeBit_edges, e1]
  · rw [c4, c3, takeBit_cmd, c1]
  · rw [w4, w3, takeBit_wel, w1]
  · rw [s4, s3]; simp only [Eeprom.takeBit]; rw [s1]

theorem afterEdge_command {p : Params} {b : Bool} {d : Eeprom} (hb : d.busy = false) (hs : d.spoiled = false)
    (he : d.edges + 1 = 11) :
    DeviceKept d (afterEdge p b d) ∧ (afterEdge p b d).edges = 11 ∧
      (afterEdge p b d).cmd = (d.takeBit b).shift.setWidth 11 ∧
      (afterEdge p b d).wel = welAfter p ((d.takeBit b).shift.setWidth 11) d.wel ∧
      (afterEdge p b d).shift = (d.takeBit b).shift := by
  obtain ⟨k1, e1, s1, c1, w1⟩ := tick_kept hb hs
  have hce : (d.tick.clockEdge p b) = (d.tick.takeBit b).latchCommand p :=
    clockEdge_command k1.busy k1.spoiled (by rw [e1]; exact he)
  have hsh : (d.tick.takeBit b).shift = (d.takeBit b).shift := by simp only [Eeprom.takeBit]; rw [s1]
  rw [latchCommand_eq, hsh] at hce
  have k2 : DeviceKept d (d.tick.clockEdge p b) := by
    rw [hce]; exact ⟨k1.mem, k1.busy, k1.pendAddr, k1.pendData, k1.afterWrite, k1.spoiled, k1.times⟩
  obtain ⟨k3, e3, s3, c3, w3⟩ := tick_kept k2.busy k2.spoiled
  obtain ⟨k4, e4, s4, c4, w4⟩ := tick_kept k3.busy k3.spoiled
  unfold afterEdge
  refine ⟨(k2.trans k3).trans k4, ?_, ?_, ?_, ?_⟩
  · rw [e4, e3, hce]; simp [e1, he]
  · rw [c4, c3, hce]
  · rw [w4, w3, hce]; simp [w1]
  · rw [s4, s3, hce]

/-! ### One bit sent -/

/-- The six micro-operations of one bit, inside a frame with the clock low (R133). -/
theorem run_bit (i : Nat) (s : State) (hcs : s.lines.cs = true) :
    runMicros [.txBit i, .delay, .line .clk true, .delay, .line .clk false, .delay] s =
      { s with
        seq := { s.seq with bitCnt := BitVec.ofNat 5 i }
        lines := { s.lines with dOut := s.seq.txVal.getLsbD i, clk := false }
        eep := if s.lines.clk then ((s.eep.tick).tick).tick else afterEdge s.params (s.seq.txVal.getLsbD i) s.eep
        trace := (bitTrace (s.seq.txVal.getLsbD i)).reverse ++ s.trace } := by
  cases hk : s.lines.clk <;>
    simp [runMicros, Micro.run, State.line, State.delay, State.setLines, State.setEep, State.setSeq, State.emit, hcs, hk,
      bitTrace, afterEdge]

/-- `send_bits` inside a frame, with no 11th edge among its edges (R133, R134). -/
theorem run_sendLoop {n : Nat} {s : State} (hcs : s.lines.cs = true) (hclk : s.lines.clk = false)
    (hb : s.eep.busy = false) (hs : s.eep.spoiled = false) (he : s.eep.edges + n < 11 ∨ 11 ≤ s.eep.edges) :
    let t := runMicros (sendLoop n) s
    WireOnly s t ∧ DeviceKept s.eep t.eep ∧ t.eep.edges = s.eep.edges + n ∧ t.eep.cmd = s.eep.cmd ∧
      t.eep.wel = s.eep.wel ∧
      (∀ k, k < 27 → t.eep.shift.getLsbD k =
        if k < n then s.seq.txVal.getLsbD k else s.eep.shift.getLsbD (k - n)) ∧
      t.lines = { s.lines with dOut := if n = 0 then s.lines.dOut else s.seq.txVal.getLsbD 0, clk := false } ∧
      t.seq = { s.seq with bitCnt := if n = 0 then s.seq.bitCnt else 0 } ∧
      t.trace = (sendTrace s.seq.txVal n).reverse ++ s.trace ∧ t.draws = s.draws := by
  induction n generalizing s with
  | zero =>
    refine ⟨WireOnly.refl s, ⟨rfl, hb, rfl, rfl, rfl, hs, rfl⟩, rfl, rfl, rfl, ?_, ?_, ?_, ?_, rfl⟩
    · intro k _; simp [sendLoop]
    · simp [sendLoop, ← hclk]
    · simp [sendLoop]
    · simp [sendLoop, sendTrace]
  | succ n ih =>
    simp only
    rw [sendLoop, runMicros_append, run_bit n s hcs]
    rw [hclk]
    obtain ⟨k1, e1, c1, w1, s1⟩ := afterEdge_bit (p := s.params) (b := s.seq.txVal.getLsbD n) hb hs (by omega)
    generalize hu : State.mk _ _ _ _ _ _ _ _ _ _ _ _ _ _ = u
    have hueep : u.eep = afterEdge s.params (s.seq.txVal.getLsbD n) s.eep := by rw [← hu]; simp
    have := ih (s := u) (by rw [← hu]; exact hcs) (by rw [← hu]) (by rw [hueep]; exact k1.busy)
      (by rw [hueep]; exact k1.spoiled) (by rw [hueep, e1]; omega)
    obtain ⟨a1, a2, a3, a4, a5, a6, a7, a8, a9, a10⟩ := this
    have hutx : u.seq.txVal = s.seq.txVal := by rw [← hu]
    refine ⟨WireOnly.trans (by rw [← hu]; exact ⟨rfl, rfl, rfl, rfl, rfl, rfl, rfl, rfl, rfl⟩) a1, ?_, ?_, ?_, ?_, ?_,
      ?_, ?_, ?_, ?_⟩
    · rw [hueep] at a2; exact k1.trans a2
    · rw [a3, hueep, e1]; omega
    · rw [a4, hueep, c1]
    · rw [a5, hueep, w1]
    · intro k hk
      rw [a6 k hk, hutx, hueep, s1]
      by_cases h1 : k < n
      · simp [h1, Nat.lt_succ_of_lt h1]
      · rw [if_neg h1, takeBit_shift _ _ (by omega)]
        by_cases h2 : k = n
        · subst h2; simp
        · rw [if_neg (by omega), if_neg (by omega)]
          congr 1
    · rw [a7, hutx, ← hu]
      by_cases h : n = 0
      · subst h; simp
      · simp [h]
    · rw [a8, ← hu]
      by_cases h : n = 0
      · subst h; simp
      · simp [h]
    · rw [a9, hutx, ← hu]
      simp [sendTrace]
    · rw [a10, ← hu]

/-- The last bits of a command word: the 11th edge of the frame is the last of them (R63, R133). -/
theorem run_sendLoop_command {n : Nat} {s : State} (hcs : s.lines.cs = true) (hclk : s.lines.clk = false)
    (hb : s.eep.busy = false) (hs : s.eep.spoiled = false) (he : s.eep.edges + (n + 1) = 11) :
    let t := runMicros (sendLoop (n + 1)) s
    WireOnly s t ∧ DeviceKept s.eep t.eep ∧ t.eep.edges = 11 ∧ t.eep.cmd = t.eep.shift.setWidth 11 ∧
      t.eep.wel = welAfter s.params t.eep.cmd s.eep.wel ∧
      (∀ k, k < 27 → t.eep.shift.getLsbD k =
        if k < n + 1 then s.seq.txVal.getLsbD k else s.eep.shift.getLsbD (k - (n + 1))) ∧
      t.lines = { s.lines with dOut := s.seq.txVal.getLsbD 0, clk := false } ∧
      t.seq = { s.seq with bitCnt := 0 } ∧
      t.trace = (sendTrace s.seq.txVal (n + 1)).reverse ++ s.trace ∧ t.draws = s.draws := by
  induction n generalizing s with
  | zero =>
    simp only
    rw [show sendLoop (0 + 1) = [.txBit 0, .delay, .line .clk true, .delay, .line .clk false, .delay] from rfl,
      run_bit 0 s hcs]
    obtain ⟨k1, e1, c1, w1, s1⟩ := afterEdge_command (p := s.params) (b := s.seq.txVal.getLsbD 0) hb hs (by omega)
    rw [hclk]
    refine ⟨⟨rfl, rfl, rfl, rfl, rfl, rfl, rfl, rfl, rfl⟩, k1, e1, ?_, ?_, ?_, rfl, rfl, ?_, rfl⟩
    · exact c1.trans (congrArg (BitVec.setWidth 11) s1.symm)
    · exact w1.trans (by rw [← c1]; rfl)
    · intro k hk
      refine (congrArg (fun x : BitVec 27 => x.getLsbD k) s1).trans ?_
      rw [takeBit_shift _ _ hk]
      by_cases h : k = 0
      · subst h; simp
      · rw [if_neg h, if_neg (by omega)]
    · simp [sendTrace]
  | succ n ih =>
    simp only
    rw [sendLoop, runMicros_append, run_bit (n + 1) s hcs]
    rw [hclk]
    obtain ⟨k1, e1, c1, w1, s1⟩ := afterEdge_bit (p := s.params) (b := s.seq.txVal.getLsbD (n + 1)) hb hs (by omega)
    generalize hu : State.mk _ _ _ _ _ _ _ _ _ _ _ _ _ _ = u
    have hueep : u.eep = afterEdge s.params (s.seq.txVal.getLsbD (n + 1)) s.eep := by rw [← hu]; simp
    have := ih (s := u) (by rw [← hu]; exact hcs) (by rw [← hu]) (by rw [hueep]; exact k1.busy)
      (by rw [hueep]; exact k1.spoiled) (by rw [hueep, e1]; omega)
    obtain ⟨a1, a2, a3, a4, a5, a6, a7, a8, a9, a10⟩ := this
    have hutx : u.seq.txVal = s.seq.txVal := by rw [← hu]
    refine ⟨WireOnly.trans (by rw [← hu]; exact ⟨rfl, rfl, rfl, rfl, rfl, rfl, rfl, rfl, rfl⟩) a1, ?_, a3, a4, ?_, ?_,
      ?_, ?_, ?_, ?_⟩
    · rw [hueep] at a2; exact k1.trans a2
    · rw [a5, hueep, w1, ← hu]
    · intro k hk
      rw [a6 k hk, hutx, hueep, s1]
      by_cases h1 : k < n + 1
      · simp [h1, Nat.lt_succ_of_lt h1]
      · rw [if_neg h1, takeBit_shift _ _ (by omega)]
        by_cases h2 : k = n + 1
        · subst h2; simp
        · rw [if_neg (by omega), if_neg (by omega)]
          congr 1
    · rw [a7, hutx, ← hu]
    · rw [a8, ← hu]
    · rw [a9, hutx, ← hu]
      simp [sendTrace]
    · rw [a10, ← hu]

/-! ### One bit received -/

/-- The five micro-operations of one bit, inside a frame with the clock low (R138). -/
theorem run_in (i : Nat) (s : State) (hcs : s.lines.cs = true) (hclk : s.lines.clk = false) :
    let d := ((s.eep.clockEdge s.params s.lines.dOut).tick).tick
    let b := (d.drives s.params true).getD (Config.freeBit s.draws 0)
    runMicros [.line .clk true, .delay, .line .clk false, .delay, .rxBit i] s =
      { s with
        seq := { s.seq with
          rxAcc := (s.seq.rxAcc <<< 1) ||| (BitVec.ofBool b).setWidth 16, bitCnt := BitVec.ofNat 5 i }
        eep := d
        trace := (sampleTrace b).reverse ++ s.trace
        draws := s.draws + 1 } := by
  obtain ⟨⟨cs, clk, dOut, lock⟩⟩ : ∃ l, l = s.lines := ⟨_, rfl⟩
  simp [runMicros, Micro.run, State.line, State.delay, State.sample, State.diLevel, State.setLines, State.setEep,
    State.setSeq, State.emit, State.drawn, hcs, hclk, sampleTrace]
  cases hl : s.lines
  simp_all

/-- The accumulator after one more bit (R138). -/
theorem rxAcc_getLsbD (x : Half) (b : Bool) {k : Nat} (hk : k < 16) :
    ((x <<< 1) ||| (BitVec.ofBool b).setWidth 16 : Half).getLsbD k = if k = 0 then b else x.getLsbD (k - 1) := by
  simp only [BitVec.getLsbD_or, BitVec.getLsbD_shiftLeft, BitVec.getLsbD_setWidth, BitVec.getLsbD_ofBool, hk,
    decide_true, Bool.true_and]
  by_cases h : k = 0
  · simp [h]
  · simp [h, show ¬ k < 1 by omega]

/-- `recv_bits` after the command word of a read frame: the word of the array arrives (R64, R138). -/
theorem run_recvLoop {n : Nat} {a : Byte} {s : State} (hcs : s.lines.cs = true) (hclk : s.lines.clk = false)
    (hb : s.eep.busy = false) (hs : s.eep.spoiled = false) (h11 : 11 ≤ s.eep.edges) (he : s.eep.edges + n = 27)
    (hc : decodeCommand s.params s.eep.cmd = .read a) :
    let t := runMicros (recvLoop n) s
    let w := s.eep.mem.half (a.toNat % 128)
    WireOnly s t ∧ DeviceKept s.eep t.eep ∧ t.eep.edges = 27 ∧ t.eep.cmd = s.eep.cmd ∧ t.eep.wel = s.eep.wel ∧
      t.lines = s.lines ∧
      (∃ r, t.seq = { s.seq with rxAcc := r, bitCnt := if n = 0 then s.seq.bitCnt else 0 } ∧
        ∀ k, k < 16 → r.getLsbD k = if k < n then w.getLsbD k else s.seq.rxAcc.getLsbD (k - n)) ∧
      t.trace = (recvTrace w n).reverse ++ s.trace ∧ t.draws = s.draws + n := by
  induction n generalizing s with
  | zero =>
    refine ⟨WireOnly.refl s, ⟨rfl, hb, rfl, rfl, rfl, hs, rfl⟩, he, rfl, rfl, rfl,
      ⟨s.seq.rxAcc, rfl, by simp⟩, by simp [recvLoop, recvTrace], rfl⟩
  | succ n ih =>
    simp only
    have hce : s.eep.clockEdge s.params s.lines.dOut = s.eep.takeBit s.lines.dOut :=
      clockEdge_bit hb hs (by omega)
    rw [recvLoop, runMicros_append, run_in n s hcs hclk, hce]
    obtain ⟨k1, e1, s1, c1, w1⟩ := tick_kept (d := s.eep.takeBit s.lines.dOut) hb hs
    obtain ⟨k2, e2, s2, c2, w2⟩ := tick_kept k1.busy k1.spoiled
    have hd : ((s.eep.takeBit s.lines.dOut).tick.tick).drives s.params true =
        some ((s.eep.mem.half (a.toNat % 128)).getLsbD n) := by
      have e3 : ((s.eep.takeBit s.lines.dOut).tick.tick).edges = 27 - n := by rw [e2, e1, takeBit_edges]; omega
      rw [drives_read k2.spoiled (by omega) (by omega) (by rw [c2, c1]; exact hc), e3, k2.mem, k1.mem,
        show 27 - (27 - n) = n by omega, takeBit_mem]
    rw [hd, Option.getD_some]
    generalize hu : State.mk _ _ _ _ _ _ _ _ _ _ _ _ _ _ = u
    have hueep : u.eep = (s.eep.takeBit s.lines.dOut).tick.tick := by rw [← hu]
    have hk : DeviceKept s.eep u.eep := by
      rw [hueep]
      have k0 : DeviceKept s.eep (s.eep.takeBit s.lines.dOut) := ⟨rfl, hb, rfl, rfl, rfl, hs, rfl⟩
      exact (k0.trans k1).trans k2
    have hcmd : u.eep.cmd = s.eep.cmd := by rw [hueep, c2, c1]; rfl
    have hedges : u.eep.edges = s.eep.edges + 1 := by rw [hueep, e2, e1]; rfl
    have hparams : u.params = s.params := by rw [← hu]
    obtain ⟨b1, b2, b3, b4, b5, b6, ⟨r, b7, b8⟩, b9, b10⟩ :=
      ih (s := u) (by rw [← hu]; exact hcs) (by rw [← hu]; exact hclk) hk.busy hk.spoiled (by omega) (by omega)
        (by rw [hparams, hcmd]; exact hc)
    rw [hk.mem] at b8 b9
    refine ⟨WireOnly.trans (by rw [← hu]; exact ⟨rfl, rfl, rfl, rfl, rfl, rfl, rfl, rfl, rfl⟩) b1, hk.trans b2, b3,
      b4.trans hcmd, ?_, ?_, ⟨r, ?_, ?_⟩, ?_, ?_⟩
    · rw [b5, hueep, w2, w1]; rfl
    · rw [b6, ← hu]
    · rw [b7, ← hu]
      by_cases h : n = 0
      · subst h; simp
      · simp [h]
    · intro k hk16
      rw [b8 k hk16, ← hu]
      by_cases h1 : k < n
      · simp [h1, Nat.lt_succ_of_lt h1]
      · rw [if_neg h1, rxAcc_getLsbD _ _ (by omega)]
        by_cases h2 : k = n
        · subst h2; simp
        · rw [if_neg (by omega), if_neg (by omega)]
          congr 1
    · rw [b9, ← hu]; simp [recvTrace]
    · rw [b10, ← hu]; simp only; omega

end Sys2Proof.Machine
end

