-- ==== Sys2Proof/Laws/Frames.lean ====
section
/-! SUPPORT. What each frame does, said once: read (R140, R64), control (R141, R144, R65), write with its status frame
(R142, R143, R66, R67). -/

namespace Sys2Proof.Machine

/-- Chip-select is asserted: a frame begins. -/
theorem run_assert {s : State} (hcs : s.lines.cs = false) :
    Micro.run (.line .cs true) s =
      { s with lines := { s.lines with cs := true }, eep := s.eep.frameStart, trace := .line .cs true :: s.trace } := by
  simp [Micro.run, State.line, State.setLines, State.emit, State.setEep, hcs]

/-- Chip-select is deasserted: the frame ends. -/
theorem run_deassert {s : State} (hcs : s.lines.cs = true) :
    Micro.run (.line .cs false) s =
      { s with lines := { s.lines with cs := false }, eep := s.eep.frameEnd s.params s.draws s.closingTimeout,
               trace := .line .cs false :: s.trace, draws := s.draws + 1 } := by
  simp [Micro.run, State.line, State.setLines, State.emit, State.setEep, State.drawn, hcs]

/-- The command word of a frame, from chip-select asserted on: the device has latched it and acted on it (R63, R65). -/
theorem run_command {c : Command} {s : State} (hcs : s.lines.cs = false) (hclk : s.lines.clk = false)
    (hb : s.eep.busy = false) :
    let t := runMicros (.line .cs true :: sendBits (c.setWidth 16) 11) s
    WireOnly s t ∧ DeviceKept { s.eep with spoiled := false } t.eep ∧ t.eep.edges = 11 ∧ t.eep.cmd = c ∧
      t.eep.wel = welAfter s.params c s.eep.wel ∧
      (∀ k, k < 27 → t.eep.shift.getLsbD k = c.getLsbD k) ∧
      t.lines = { s.lines with cs := true, dOut := c.getLsbD 0, clk := false } ∧
      t.seq = { s.seq with txVal := c.setWidth 16, bitCnt := 0 } ∧
      t.trace = (.line .cs true :: sendTrace (c.setWidth 16) 11).reverse ++ s.trace ∧ t.draws = s.draws := by
  simp only [sendBits, runMicros_cons]
  rw [run_assert hcs]
  generalize hu : Micro.run (.loadTx (c.setWidth 16) 11) _ = u
  have hu' : u = { s with
      seq := { s.seq with txVal := c.setWidth 16, bitCnt := BitVec.ofNat 5 11 }
      lines := { s.lines with cs := true }, eep := s.eep.frameStart, trace := .line .cs true :: s.trace } := by
    rw [← hu]; rfl
  have H := run_sendLoop_command (n := 10) (s := u) (by rw [hu']) (by rw [hu']; exact hclk) (by rw [hu']; exact hb)
    (by rw [hu']; rfl) (by rw [hu']; rfl)
  simp only [Nat.reduceAdd] at H
  generalize runMicros (sendLoop 11) u = t at *
  obtain ⟨a1, a2, a3, a4, a5, a6, a7, a8, a9, a10⟩ := H
  clear hu
  have htx : u.seq.txVal = c.setWidth 16 := by rw [hu']
  have hsh : ∀ k, k < 27 → t.eep.shift.getLsbD k = c.getLsbD k := by
    intro k hk
    rw [a6 k hk, htx]
    by_cases h : k < 11
    · rw [if_pos h, BitVec.getLsbD_setWidth, decide_eq_true (show k < 16 by omega), Bool.true_and]
    · rw [if_neg h, hu', BitVec.getLsbD_of_ge c k (by omega)]
      simp [Eeprom.frameStart]
  have hcmd : t.eep.cmd = c := by
    rw [a4]
    apply BitVec.eq_of_getLsbD_eq
    intro k hk
    rw [BitVec.getLsbD_setWidth, decide_eq_true hk, Bool.true_and, hsh k (by omega)]
  rw [hu'] at a1 a2 a5 a7 a8 a9 a10
  refine ⟨⟨a1.params, a1.plat, a1.fuse, a1.boot0, a1.sotp, a1.buf, a1.bufTrace, a1.inbox, a1.disturb⟩,
    ⟨a2.mem, a2.busy, a2.pendAddr, a2.pendData, a2.afterWrite, a2.spoiled, a2.times⟩, a3, hcmd, ?_, hsh, ?_, ?_, ?_, a10⟩
  · rw [a5, hcmd]; rfl
  · rw [a7]
    simp
  · rw [a8]
  · rw [a9]
    simp

theorem closingTimeout_idle {s : State} (h : s.seq.status ≠ .timeout) : s.closingTimeout = false := by
  simp [State.closingTimeout, h]

/-- A read frame returns the word and changes no device state (R64, R140). -/
theorem run_readFrame {a : Byte} {s : State} (hp : s.params.wellFormed = true) (hcs : s.lines.cs = false)
    (hclk : s.lines.clk = false) (hb : s.eep.busy = false) :
    let c := addressCommand s.params.opRead a
    let w := s.eep.mem.half (a.toNat % 128)
    let t := runMicros (readFrameOf c) s
    WireOnly s t ∧ FrameKept s.eep t.eep ∧ t.eep.wel = s.eep.wel ∧
      t.lines = { s.lines with cs := false, clk := false, dOut := c.getLsbD 0 } ∧
      t.seq = { s.seq with
        txVal := c.setWidth 16, bitCnt := 0, rxAcc := w, blk := s.seq.blk.extractLsb' 16 16 ++ w } ∧
      t.trace = (readTrace c w).reverse ++ s.trace ∧ t.draws = s.draws + 17 := by
  intro c w t
  have hdec : decodeCommand s.params c = .read a := decodeCommand_read hp a
  have ht : t = runMicros [.storeRx, .line .cs false, .delay]
      (runMicros (recvLoop 16) (Micro.run (.clearRx 16) (runMicros (.line .cs true :: sendBits (c.setWidth 16) 11) s))) := by
    simp only [t, readFrameOf, List.cons_append, List.append_assoc, recvBits]
    simp only [runMicros_cons, runMicros_append]
  obtain ⟨a1, a2, a3, a4, a5, a6, a7, a8, a9, a10⟩ := run_command (c := c) hcs hclk hb
  generalize runMicros (.line .cs true :: sendBits (c.setWidth 16) 11) s = u at *
  have hv : Micro.run (.clearRx 16) u = { u with seq := { u.seq with rxAcc := 0, bitCnt := BitVec.ofNat 5 16 } } := rfl
  rw [hv] at ht
  generalize hw : State.mk _ _ _ _ _ _ _ _ _ _ _ _ _ _ = v at ht
  have v1 : v.eep = u.eep := by rw [← hw]
  have v2 : v.lines = u.lines := by rw [← hw]
  have v3 : v.params = u.params := by rw [← hw]
  obtain ⟨b1, b2, b3, b4, b5, b6, ⟨r, b7, b8⟩, b9, b10⟩ :=
    run_recvLoop (n := 16) (a := a) (s := v) (by rw [v2, a7]) (by rw [v2, a7]) (by rw [v1]; exact a2.busy)
      (by rw [v1]; exact a2.spoiled) (by rw [v1, a3]) (by rw [v1, a3])
      (by rw [v1, v3, a4, a1.params]; exact hdec)
  have hmem : v.eep.mem.half (a.toNat % 128) = w := by rw [v1, a2.mem]
  rw [hmem] at b8 b9
  have hr : r = w := by
    apply BitVec.eq_of_getLsbD_eq
    intro k hk
    rw [b8 k hk, if_pos hk]
  subst hr
  generalize runMicros (recvLoop 16) v = x at *
  have hvs : WireOnly s v := a1.trans (by rw [← hw]; exact ⟨rfl, rfl, rfl, rfl, rfl, rfl, rfl, rfl, rfl⟩)
  have hx : WireOnly s x := hvs.trans b1
  have hend : ∀ n c', x.eep.frameEnd x.params n c' = { x.eep with afterWrite := false } := fun n c' =>
    frameEnd_read b2.spoiled b3 (by rw [hx.params, b4, v1, a4]; exact hdec)
  have ht' : t = { x with
      seq := { x.seq with blk := x.seq.blk.extractLsb' 16 16 ++ x.seq.rxAcc }
      lines := { x.lines with cs := false }
      eep := Eeprom.tick { x.eep with afterWrite := false }
      trace := .delay :: .line .cs false :: x.trace
      draws := x.draws + 1 } := by
    rw [ht, runMicros_cons, runMicros_cons, run_deassert (by simp [Micro.run, b6, v2, a7])]
    simp [Micro.run, State.delay, State.setSeq, State.setEep, State.emit, hend]
  obtain ⟨l, q, htick⟩ := tick_idle (d := { x.eep with afterWrite := false }) b2.busy
  rw [htick] at ht'
  have hseq : x.seq = { s.seq with txVal := c.setWidth 16, bitCnt := 0, rxAcc := w } := by
    rw [b7, ← hw, a8]; simp
  refine ⟨hx.trans (by rw [ht']; exact ⟨rfl, rfl, rfl, rfl, rfl, rfl, rfl, rfl, rfl⟩), ?_, ?_, ?_, ?_, ?_, ?_⟩
  · have k := a2.trans (by rw [v1] at b2; exact b2)
    rw [ht']
    exact ⟨k.mem, k.busy, k.pendAddr, k.pendData, k.times⟩
  · rw [ht']; simp only
    rw [b5, v1, a5]
    simp [welAfter, hdec]
  · rw [ht']; simp only
    rw [b6, v2, a7]
  · rw [ht', hseq]
  · rw [ht']; simp only
    rw [b9, ← hw, a9]
    simp [readTrace]
  · rw [ht']; simp only
    rw [b10, ← hw, a10]

/-- A control frame of 11 bits acts on `eep_wel` and nothing else (R65, R141, R144). -/
theorem run_controlFrame {c : Command} {s : State} (hcs : s.lines.cs = false) (hclk : s.lines.clk = false)
    (hb : s.eep.busy = false)
    (hc : (∃ x, decodeCommand s.params c = .ewen x) ∨ ∃ x, decodeCommand s.params c = .ewds x) :
    let t := runMicros (controlFrame c 11) s
    WireOnly s t ∧ FrameKept s.eep t.eep ∧ t.eep.wel = welAfter s.params c s.eep.wel ∧
      t.lines = { s.lines with cs := false, clk := false, dOut := c.getLsbD 0 } ∧
      t.seq = { s.seq with txVal := c.setWidth 16, bitCnt := 0 } ∧
      t.trace = (controlTrace c 11).reverse ++ s.trace ∧ t.draws = s.draws + 1 := by
  intro t
  have ht : t = runMicros [.line .cs false, .delay] (runMicros (.line .cs true :: sendBits (c.setWidth 16) 11) s) := by
    simp only [t, controlFrame, List.cons_append]
    simp only [runMicros_cons, runMicros_append]
  obtain ⟨a1, a2, a3, a4, a5, a6, a7, a8, a9, a10⟩ := run_command (c := c) hcs hclk hb
  generalize runMicros (.line .cs true :: sendBits (c.setWidth 16) 11) s = x at *
  have hend : ∀ n c', x.eep.frameEnd x.params n c' = { x.eep with afterWrite := false } := by
    intro n c'
    rcases hc with ⟨y, hy⟩ | ⟨y, hy⟩
    · exact frameEnd_ewen a2.spoiled a3 (by rw [a1.params, a4]; exact hy)
    · exact frameEnd_ewds a2.spoiled a3 (by rw [a1.params, a4]; exact hy)
  have ht' : t = { x with
      lines := { x.lines with cs := false }
      eep := Eeprom.tick { x.eep with afterWrite := false }
      trace := .delay :: .line .cs false :: x.trace
      draws := x.draws + 1 } := by
    rw [ht, runMicros_cons, run_deassert (by simp [a7])]
    simp [Micro.run, State.delay, State.setEep, State.emit, hend]
  obtain ⟨l, q, htick⟩ := tick_idle (d := { x.eep with afterWrite := false }) a2.busy
  rw [htick] at ht'
  refine ⟨a1.trans (by rw [ht']; exact ⟨rfl, rfl, rfl, rfl, rfl, rfl, rfl, rfl, rfl⟩), ?_, ?_, ?_, ?_, ?_, ?_⟩
  · rw [ht']
    exact ⟨a2.mem, a2.busy, a2.pendAddr, a2.pendData, a2.times⟩
  · rw [ht']; exact a5
  · rw [ht']; simp only
    rw [a7]
  · rw [ht']; exact a8
  · rw [ht']; simp only
    rw [a9]
    simp [controlTrace]
  · rw [ht']; simp only
    rw [a10]

end Sys2Proof.Machine
end

