-- ==== Sys2Proof/Laws/ReadLoop.lean ====
section
/-! SUPPORT. What the read loop of the range adapter does, said once for every medium (R105, R106, R110, R226). -/

namespace Sys2Proof.Machine

/-- The registers a block transfer leaves as they are. -/
structure PlanKept (q r : Sequencer) : Prop where
  phase : r.phase = q.phase
  reqOffset : r.reqOffset = q.reqOffset
  startBlock : r.startBlock = q.startBlock
  startOff : r.startOff = q.startOff
  endBlock : r.endBlock = q.endBlock
  endRes : r.endRes = q.endRes
  protChanged : r.protChanged = q.protChanged
  irqSaved : r.irqSaved = q.irqSaved
  hung : r.hung = q.hung
  ahead : r.ahead = q.ahead
  status : r.status = q.status

theorem PlanKept.refl (q : Sequencer) : PlanKept q q := ⟨rfl, rfl, rfl, rfl, rfl, rfl, rfl, rfl, rfl, rfl, rfl⟩

theorem PlanKept.trans {a b c : Sequencer} (h : PlanKept a b) (k : PlanKept b c) : PlanKept a c :=
  ⟨k.phase.trans h.phase, k.reqOffset.trans h.reqOffset, k.startBlock.trans h.startBlock, k.startOff.trans h.startOff,
    k.endBlock.trans h.endBlock, k.endRes.trans h.endRes, k.protChanged.trans h.protChanged,
    k.irqSaved.trans h.irqSaved, k.hung.trans h.hung, k.ahead.trans h.ahead,
    k.status.trans h.status⟩

theorem PlanKept.planned {B o l : Nat} {q r : Sequencer} (k : PlanKept q r) (h : Planned B o l q) : Planned B o l r :=
  ⟨by rw [k.reqOffset, h.offset], by rw [k.startBlock, h.startBlock], by rw [k.startOff, h.startOff],
    by rw [k.endBlock, h.endBlock], by rw [k.endRes, h.endRes]⟩

/-- Nothing differs but the working registers, the buffer and its accesses. -/
structure CopyOnly (s t : State) : Prop where
  params : t.params = s.params
  lines : t.lines = s.lines
  plat : t.plat = s.plat
  eep : t.eep = s.eep
  fuse : t.fuse = s.fuse
  boot0 : t.boot0 = s.boot0
  sotp : t.sotp = s.sotp
  trace : t.trace = s.trace
  draws : t.draws = s.draws
  inbox : t.inbox = s.inbox
  disturb : t.disturb = s.disturb

/-- What a medium's block transfer must do for the loop to deliver the bytes `f`: leave the plan, `count`, the current
block and the buffer alone, put the block's word into `blk`, and keep the medium's own relation `R`, which says after
which block it stands. -/
structure Medium (P : Params) (B o l : Nat) (br : Nat → List Micro) (f : Nat → Byte) (ev : Nat → List Event)
    (R : Option Nat → State → Prop) : Prop where
  plain : ∀ i, (br i).all Micro.plain = true
  params : ∀ x u, R x u → u.params = P
  copy : ∀ x u v, R x u → CopyOnly u v → R x v
  block : ∀ x i u, R x u → i ∈ blockRange B o l →
    let v := runMicros (br i) u
    R (some i) v ∧ PlanKept u.seq v.seq ∧ v.seq.count = u.seq.count ∧ v.seq.curBlock = u.seq.curBlock ∧
      v.buf = u.buf ∧ v.bufTrace = u.bufTrace ∧ v.trace = (ev i).reverse ++ u.trace ∧
      ∀ p, p < B → blockByte B p v.seq.blk = f (i * B + p)

theorem readStep_plain {B : Nat} {br : Nat → List Micro} (h : ∀ i, (br i).all Micro.plain = true) (q : Sequencer)
    (i : Nat) : (readStep B br q i).all Micro.plain = true := by
  have h2 := all_plain_map (Micro.copyByte B) (fun _ => rfl) (q.positions B i)
  simp only [readStep, List.all_append, List.all_cons, h i, h2]
  rfl

/-- A plan of the range, with an encoding for it (R82, R102). -/
structure Loop (P : Params) (B o l : Nat) (q : Sequencer) : Prop where
  size : BlockSize B
  planned : Planned B o l q
  pos : 0 < l
  fits : P.encodes o l

theorem Loop.block_lt {P : Params} {B o l i : Nat} {q : Sequencer} (h : Loop P B o l q) (hi : i ∈ blockRange B o l) :
    i < 2 ^ P.wOff := by
  have h1 := ((mem_blockRange h.pos).mp hi).2
  have h2 := h.fits.1
  have h3 := h.fits.2
  have := h.pos
  rcases h.size with rfl | rfl <;> omega

theorem done_lt {P : Params} {o l : Nat} (h : P.encodes o l) (B i : Nat) : done B o l i < 2 ^ P.wOff := by
  have := h.2
  rw [done]; omega

/-- One round of the read loop (R105). -/
theorem run_readStep {P : Params} {B o l i : Nat} {br : Nat → List Micro} {f : Nat → Byte} {ev : Nat → List Event}
    {R : Option Nat → State → Prop} {q : Sequencer} (L : Loop P B o l q) (M : Medium P B o l br f ev R) {x : Option Nat}
    {u : State} (hR : R x u) (hp : Planned B o l u.seq) (hc : u.seq.count = done B o l i) (hi : i ∈ blockRange B o l)
    (hm : u.buf.wf = true) :
    let t := runMicros (readStep B br q i) u
    R (some i) t ∧ PlanKept u.seq t.seq ∧ t.seq.count = done B o l (i + 1) ∧ t.buf.wf = true ∧
      (∀ j, t.buf.read j = if done B o l i ≤ j ∧ j < done B o l (i + 1) then f (o + j) else u.buf.read j) ∧
      t.bufTrace = ((List.range' (done B o l i) (done B o l (i + 1) - done B o l i)).map BufEvent.write).reverse ++
        u.bufTrace ∧
      t.trace = (ev i).reverse ++ u.trace := by
  intro t
  have hB := L.size
  have hl := L.pos
  have hi2 := (mem_blockRange hl).mp hi
  have hpos := positions_eq hB L.planned hl hi2.1 hi2.2
  have ht : t = Micro.run .addCount ((q.positions B i).foldl (State.copyOutByte B)
      (Micro.run (.slice B) (runMicros (br i) (Micro.run (.setBlock i) u)))) := by
    simp only [t, readStep, List.cons_append]
    rw [runMicros_cons, runMicros_append, runMicros_cons, runMicros_append,
      runMicros_map (Micro.copyByte B) (State.copyOutByte B) (fun _ _ => rfl)]
    rfl
  clear_value t
  generalize hw : Micro.run (.setBlock i) u = w at ht
  have hw' : w = { u with seq := { u.seq with curBlock := i } } := by
    have : narrow u.params.wOff i = i := by rw [M.params x u hR]; exact narrow_eq (L.block_lt hi)
    rw [← hw, Micro.run, this]
    rfl
  clear hw
  have hRw : R x w := M.copy x u w hR (by rw [hw']; exact ⟨rfl, rfl, rfl, rfl, rfl, rfl, rfl, rfl, rfl, rfl, rfl⟩)
  obtain ⟨b1, b2, b3, b4, b5, b6, b7, b8⟩ := M.block x i w hRw hi
  have hvp := M.params _ _ b1
  generalize runMicros (br i) w = v at *
  have k1 : PlanKept u.seq w.seq := by rw [hw']; exact ⟨rfl, rfl, rfl, rfl, rfl, rfl, rfl, rfl, rfl, rfl, rfl⟩
  have k2 := k1.trans b2
  have hcur : v.seq.curBlock = i := by rw [b4, hw']
  obtain ⟨s1, s2, s3, s4, s5, s6⟩ := slice_spec (p := v.params) hB (k2.planned hp) hl (by rw [hvp]; exact L.fits.2) hcur
    hi2.1 hi2.2
  have hbw : v.buf = u.buf := by rw [b5, hw']
  obtain ⟨m, c1, c2, c3⟩ := run_copyOut B (done B o l (i + 1) - done B o l i) (max o (i * B) - i * B)
    { v with seq := v.seq.slice v.params B } (by simp only; omega) (by rw [hbw]; exact hm)
  simp only [s1, s3, Nat.sub_self, Nat.add_zero] at c1 c3
  have ht' : t = { v with
      seq := { v.seq.slice v.params B with count := done B o l (i + 1) }
      buf := m
      bufTrace := ((List.range' (done B o l i) (done B o l (i + 1) - done B o l i)).map BufEvent.write).reverse ++
        v.bufTrace } := by
    rw [ht, hpos, show Micro.run (.slice B) v = { v with seq := v.seq.slice v.params B } from rfl, c1]
    have : v.seq.count + ((v.seq.slice v.params B).hi.toNat - (v.seq.slice v.params B).lo.toNat) = done B o l (i + 1) := by
      rw [b3, hw']; simp only; rw [hc]; exact s4.symm
    have hn := narrow_eq (by rw [hvp]; exact done_lt L.fits B (i + 1) : done B o l (i + 1) < 2 ^ v.params.wOff)
    simp only [Micro.run, State.setSeq, Sequencer.counted]
    rw [show (v.seq.slice v.params B).count = v.seq.count from rfl, this, hn]
  clear ht c1
  refine ⟨?_, ?_, ?_, ?_, ?_, ?_, ?_⟩
  · exact M.copy _ v t b1 (by rw [ht']; exact ⟨rfl, rfl, rfl, rfl, rfl, rfl, rfl, rfl, rfl, rfl, rfl⟩)
  · exact k2.trans (by rw [ht']; exact ⟨rfl, rfl, rfl, rfl, rfl, rfl, rfl, rfl, rfl, rfl, rfl⟩)
  · rw [ht']
  · rw [ht']; exact c2
  · intro j
    rw [ht']; simp only; rw [c3 j]
    have hd : done B o l i + (done B o l (i + 1) - done B o l i) = done B o l (i + 1) := by omega
    rw [hd]
    by_cases h : done B o l i ≤ j ∧ j < done B o l (i + 1)
    · rw [if_pos h, if_pos h]
      have e : (v.seq.slice v.params B).blk = v.seq.blk := rfl
      rw [e, b8 _ (by omega)]
      congr 1
      have h1 := h.1
      have h2 := h.2
      rw [done] at h1 h2
      rw [done]
      have := hi2.1
      rcases hB with rfl | rfl <;> omega
    · rw [if_neg h, if_neg h, hbw]
  · rw [ht']; simp only; rw [b6, hw']
  · rw [ht']; simp only; rw [b7, hw']

/-- The rounds of the read loop from block `i` on. -/
theorem run_readSteps {P : Params} {B o l : Nat} {br : Nat → List Micro} {f : Nat → Byte} {ev : Nat → List Event}
    {R : Option Nat → State → Prop} {q : Sequencer} (L : Loop P B o l q) (M : Medium P B o l br f ev R) (n i : Nat)
    {x : Option Nat} {u : State} (hR : R x u) (hp : Planned B o l u.seq) (hc : u.seq.count = done B o l i)
    (h1 : o / B ≤ i) (h2 : i + n = (o + l - 1) / B + 1) (hm : u.buf.wf = true) (hh : u.seq.hung = false)
    (hs : u.seq.status = .ok) :
    let t := runItems ((List.range' i n).flatMap fun i => inLoop (readStep B br q i)) u
    R (if n = 0 then x else some ((o + l - 1) / B)) t ∧ PlanKept u.seq t.seq ∧
      t.seq.count = done B o l (i + n) ∧ t.buf.wf = true ∧
      (∀ j, t.buf.read j = if done B o l i ≤ j ∧ j < done B o l (i + n) then f (o + j) else u.buf.read j) ∧
      t.bufTrace = ((List.range' (done B o l i) (done B o l (i + n) - done B o l i)).map BufEvent.write).reverse ++
        u.bufTrace ∧
      t.trace = ((List.range' i n).flatMap ev).reverse ++ u.trace := by
  induction n generalizing i x u with
  | zero =>
    simp only [List.range'_zero, List.flatMap_nil, runItems_nil, if_true, Nat.add_zero, Nat.sub_self]
    exact ⟨hR, PlanKept.refl _, hc, hm, fun j => by rw [if_neg (by omega)], by simp, by simp⟩
  | succ n ih =>
    intro t
    have hi : i ∈ blockRange B o l := (mem_blockRange L.pos).mpr ⟨h1, by omega⟩
    have ht : t = runItems ((List.range' (i + 1) n).flatMap fun i => inLoop (readStep B br q i))
        (runMicros (readStep B br q i) u) := by
      simp only [t, List.range'_succ, List.flatMap_cons]
      rw [runItems_append, runItems_inLoop (readStep_plain M.plain q i) hh (by rw [hs]; decide)]
    clear_value t
    obtain ⟨a1, a2, a3, a4, a5, a6, a7⟩ := run_readStep L M hR hp hc hi hm
    generalize runMicros (readStep B br q i) u = v at *
    obtain ⟨b1, b2, b3, b4, b5, b6, b7⟩ := ih (i + 1) a1 (a2.planned hp) a3 (by omega) (by omega) a4
      (by rw [a2.hung, hh]) (by rw [a2.status, hs])
    rw [← ht] at b1 b2 b3 b4 b5 b6 b7
    rw [show i + 1 + n = i + (n + 1) by omega] at b3 b5 b6
    have m1 : done B o l i ≤ done B o l (i + 1) := by
      unfold done; rcases L.size with rfl | rfl <;> omega
    have m2 : done B o l (i + 1) ≤ done B o l (i + (n + 1)) := by
      unfold done
      have : (i + 1) * B ≤ (i + (n + 1)) * B := Nat.mul_le_mul_right _ (by omega)
      omega
    refine ⟨?_, a2.trans b2, b3, b4, fun j => ?_, ?_, ?_⟩
    · rw [if_neg (by omega)]
      by_cases hn : n = 0
      · rw [if_pos hn] at b1
        rw [show (o + l - 1) / B = i by omega]
        exact b1
      · rw [if_neg hn] at b1
        exact b1
    · rw [b5 j, a5 j]
      by_cases c1 : done B o l (i + 1) ≤ j ∧ j < done B o l (i + (n + 1))
      · rw [if_pos c1, if_pos (by omega)]
      · rw [if_neg c1]
        by_cases c2 : done B o l i ≤ j ∧ j < done B o l (i + 1)
        · rw [if_pos c2, if_pos (by omega)]
        · rw [if_neg c2, if_neg (by omega)]
    · rw [b6, a6, ← List.append_assoc, ← List.reverse_append, ← List.map_append]
      congr 3
      have e : done B o l (i + 1) = done B o l i + (done B o l (i + 1) - done B o l i) := by omega
      rw [show List.range' (done B o l (i + 1)) (done B o l (i + (n + 1)) - done B o l (i + 1)) =
        List.range' (done B o l i + (done B o l (i + 1) - done B o l i))
          (done B o l (i + (n + 1)) - done B o l (i + 1)) by rw [← e]]
      rw [List.range'_append_1]
      congr 1
      omega
    · rw [b7, a7, List.range'_succ, List.flatMap_cons]
      simp

/-- The read loop (R105): the bytes arrive, nothing else of the buffer is written, `count = length`. -/
theorem run_readLoop {P : Params} {B o l : Nat} {br : Nat → List Micro} {f : Nat → Byte} {ev : Nat → List Event}
    {R : Option Nat → State → Prop} {q : Sequencer} (L : Loop P B o l q) (M : Medium P B o l br f ev R) {x : Option Nat}
    {u : State} (hR : R x u) (hp : Planned B o l u.seq) (hm : u.buf.wf = true) (hh : u.seq.hung = false) :
    let t := runItems (readLoop B br q) u
    R (some ((o + l - 1) / B)) t ∧ t.seq.count = l ∧ t.seq.status = .ok ∧ t.seq.hung = false ∧
      t.seq.protChanged = u.seq.protChanged ∧ t.buf.wf = true ∧
      (∀ j, t.buf.read j = if j < l then f (o + j) else u.buf.read j) ∧
      t.bufTrace = ((List.range l).map BufEvent.write).reverse ++ u.bufTrace ∧
      t.trace = ((blockRange B o l).flatMap ev).reverse ++ u.trace := by
  intro t
  have hB := L.size
  have hl := L.pos
  have ht : t = runItems ((blockRange B o l).flatMap fun i => inLoop (readStep B br q i))
      (runMicros [.setPhase .xfer, .startLoop] u) := by
    simp only [t, readLoop]
    rw [runItems_append, blocks_eq L.planned]
    congr 1
    simp [always, runItems, Item.run, hh, Micro.run, runMicros]
  clear_value t
  generalize hw : runMicros [.setPhase .xfer, .startLoop] u = w at ht
  have hw' : w = { u with seq := { u.seq with phase := .xfer, count := 0, status := .ok } } := by rw [← hw]; rfl
  clear hw
  have hRw : R x w := M.copy x u w hR (by rw [hw']; exact ⟨rfl, rfl, rfl, rfl, rfl, rfl, rfl, rfl, rfl, rfl, rfl⟩)
  have hpw : Planned B o l w.seq := by
    rw [hw']; exact ⟨hp.offset, hp.startBlock, hp.startOff, hp.endBlock, hp.endRes⟩
  have hle : o / B ≤ (o + l - 1) / B := Nat.div_le_div_right (by omega)
  have d0 : done B o l (o / B) = 0 := by unfold done; rcases hB with rfl | rfl <;> omega
  have d1 : done B o l (o / B + ((o + l - 1) / B + 1 - o / B)) = l := by
    rw [show o / B + ((o + l - 1) / B + 1 - o / B) = (o + l - 1) / B + 1 by omega]
    unfold done; rcases hB with rfl | rfl <;> omega
  obtain ⟨b1, b2, b3, b4, b5, b6, b7⟩ := run_readSteps L M ((o + l - 1) / B + 1 - o / B) (o / B) hRw hpw
    (by rw [hw', d0]) (Nat.le_refl _) (by omega) (by rw [hw']; exact hm) (by rw [hw']; exact hh) (by rw [hw'])
  rw [blockRange] at ht
  rw [← ht] at b1 b2 b3 b4 b5 b6 b7
  rw [d1] at b3
  rw [d0, d1] at b5 b6
  refine ⟨?_, b3, ?_, ?_, ?_, b4, fun j => ?_, ?_, ?_⟩
  · rw [if_neg (by omega)] at b1
    exact b1
  · rw [b2.status, hw']
  · rw [b2.hung, hw']; exact hh
  · rw [b2.protChanged, hw']
  · rw [b5 j, hw']
    simp
  · rw [b6, hw']
    simp [List.range_eq_range']
  · rw [b7, hw']; rfl

end Sys2Proof.Machine
end

