-- ==== Sys2Proof/Laws/Media.lean ====
section
/-! SUPPORT. The four media a range is read from, each as what its block transfer does (R120, R140, R170), and with it
what the items of each read operation do. -/

namespace Sys2Proof.Machine

theorem mem_blockRange_lt {B o l i total : Nat} (hB : BlockSize B) (hl : 0 < l) (h : o + l ≤ total)
    (hi : i ∈ blockRange B o l) : i * B < total := by
  have := ((mem_blockRange hl).mp hi).2
  rcases hB with rfl | rfl <;> omega

/-! ### The fuse array -/

/-- The platform registers after block `x` of the fuse array was read (R58, R120). -/
def otpPlat (s : State) : Option Nat → Platform
  | none => s.plat
  | some i => { s.plat with otpCmd := otpCommand s.params (BitVec.ofNat 5 i), otpData := s.fuse.word i }

/-- Everything the reading of the fuse array leaves as it was. -/
structure OtpKept (s : State) (x : Option Nat) (u : State) : Prop where
  params : u.params = s.params
  lines : u.lines = s.lines
  plat : u.plat = otpPlat s x
  eep : u.eep = s.eep
  fuse : u.fuse = s.fuse
  boot0 : u.boot0 = s.boot0
  sotp : u.sotp = s.sotp
  inbox : u.inbox = s.inbox
  disturb : u.disturb = s.disturb

/-- `BlockRead(OTP, i)` (R120, R61). -/
theorem run_otpBlockRead {s : State} (hp : s.params.wellFormed = true) {i : Nat} (hi : i < 32) :
    runMicros (otpBlockRead s.params i) s =
      { s with
        plat := otpPlat s (some i)
        seq := { s.seq with blk := s.fuse.word i }
        trace := (otpEvents s i).reverse ++ s.trace
        draws := s.draws + 1 } := by
  have hsel : s.otpSelect (otpCommand s.params (BitVec.ofNat 5 i)) = s.fuse.word i := by
    rw [State.otpSelect, decodeOtpCommand_read hp]
    simp [Nat.mod_eq_of_lt hi]
  simp [otpBlockRead, Micro.run, State.otpWriteCmd, State.otpReadData, State.setPlat, State.setSeq, State.emit,
    State.drawn, hsel, otpPlat, otpEvents]

theorem otp_medium {s : State} (hp : s.params.wellFormed = true) {o l : Nat} (hl : 0 < l) (h : o + l ≤ 128) :
    Medium s.params 4 o l (otpBlockRead s.params) s.fuse.read (otpEvents s) (OtpKept s) where
  plain _ := rfl
  params _ _ hR := hR.params
  copy _ _ _ hR hc :=
    ⟨hc.params.trans hR.params, hc.lines.trans hR.lines, hc.plat.trans hR.plat, hc.eep.trans hR.eep,
      hc.fuse.trans hR.fuse, hc.boot0.trans hR.boot0, hc.sotp.trans hR.sotp, hc.inbox.trans hR.inbox,
      hc.disturb.trans hR.disturb⟩
  block x i u hR hi := by
    have hi' : i < 32 := by have := mem_blockRange_lt (.inr rfl) hl h hi; omega
    have e : runMicros (otpBlockRead s.params i) u = runMicros (otpBlockRead u.params i) u := by rw [hR.params]
    simp only [e]
    rw [run_otpBlockRead (by rw [hR.params]; exact hp) hi']
    refine ⟨⟨hR.params, hR.lines, ?_, hR.eep, hR.fuse, hR.boot0, hR.sotp, hR.inbox, hR.disturb⟩,
      ⟨rfl, rfl, rfl, rfl, rfl, rfl, rfl, rfl, rfl, rfl, rfl⟩, rfl, rfl, rfl, rfl, ?_, ?_⟩
    · simp only [otpPlat, hR.params, hR.fuse, hR.plat]
      cases x <;> rfl
    · simp only [otpEvents, hR.params, hR.fuse]
    · intro p hp4
      simp only [hR.fuse]
      rw [blockByte_word _ _ hp4, Nat.mul_comm]

/-! ### The mirrors -/

/-- Everything the block loop of a mirror read leaves as it was. -/
structure MirrorKept (s : State) (u : State) : Prop where
  params : u.params = s.params
  lines : u.lines = s.lines
  plat : u.plat = s.plat
  eep : u.eep = s.eep
  fuse : u.fuse = s.fuse
  boot0 : u.boot0 = s.boot0
  sotp : u.sotp = s.sotp
  inbox : u.inbox = s.inbox
  disturb : u.disturb = s.disturb

theorem mirror_medium {s : State} (m : Mirror) (he : s.mirrorEnabled = true) {o l : Nat} :
    Medium s.params 4 o l (mirrorBlockRead m) (s.mirrored m).read (mirrorEvents s m) (fun _ => MirrorKept s) where
  plain _ := rfl
  params _ _ hR := hR.params
  copy _ _ _ hR hc :=
    ⟨hc.params.trans hR.params, hc.lines.trans hR.lines, hc.plat.trans hR.plat, hc.eep.trans hR.eep,
      hc.fuse.trans hR.fuse, hc.boot0.trans hR.boot0, hc.sotp.trans hR.sotp, hc.inbox.trans hR.inbox,
      hc.disturb.trans hR.disturb⟩
  block x i u hR hi := by
    have hen : u.mirrorEnabled = true := by
      rw [State.mirrorEnabled, hR.plat, hR.params]; exact he
    have hmem : u.mirrored m = s.mirrored m := by
      cases m <;> simp [State.mirrored, hR.boot0, hR.sotp]
    have hw : u.mirrorWord m i = (s.mirrored m).word i := by rw [State.mirrorWord, if_pos hen, hmem]
    intro v
    have e : v =
        { u with
          seq := { u.seq with blk := (s.mirrored m).word i }
          trace := .memRead (mirrorAddress u.params m i) ((s.mirrored m).word i) :: u.trace
          draws := u.draws + 1 } := by
      simp [v, mirrorBlockRead, Micro.run, State.mirrorLoad, State.setSeq, State.emit, State.drawn, hw]
    clear_value v
    subst e
    refine ⟨⟨hR.params, hR.lines, hR.plat, hR.eep, hR.fuse, hR.boot0, hR.sotp, hR.inbox, hR.disturb⟩,
      ⟨rfl, rfl, rfl, rfl, rfl, rfl, rfl, rfl, rfl, rfl, rfl⟩, rfl, rfl, rfl, rfl, ?_, ?_⟩
    · simp only [mirrorEvents, hR.params, List.reverse_singleton, List.singleton_append]
    · intro p hp4
      simp only
      rw [blockByte_word _ _ hp4, Nat.mul_comm]

/-! ### The EEPROM -/

/-- The line latches after the frame of block `x` (R58): chip-select and clock low, data-out at the last command bit. -/
def seepromLines (s : State) : Option Nat → Lines
  | none => { s.lines with cs := false, clk := false }
  | some i => { s.lines with cs := false, clk := false, dOut := (readCommand s.params i).getLsbD 0 }

/-- Everything the reading of the EEPROM leaves as it was. -/
structure SeepromKept (s : State) (x : Option Nat) (u : State) : Prop where
  params : u.params = s.params
  lines : u.lines = seepromLines s x
  plat : u.plat = s.plat
  device : FrameKept s.eep u.eep
  wel : u.eep.wel = s.eep.wel
  fuse : u.fuse = s.fuse
  boot0 : u.boot0 = s.boot0
  sotp : u.sotp = s.sotp
  inbox : u.inbox = s.inbox
  disturb : u.disturb = s.disturb

theorem readCommand_eq (p : Params) (i : Nat) : readCommand p i = addressCommand p.opRead (BitVec.ofNat 8 i) := rfl

/-- The word index a block index is sent as (R85). -/
theorem blockAddress {i : Nat} (h : i < 128) : (BitVec.ofNat 8 i).toNat % 128 = i := by
  simp only [BitVec.toNat_ofNat]; omega

theorem seeprom_medium {s : State} (hp : s.params.wellFormed = true) {o l : Nat} (hl : 0 < l) (h : o + l ≤ 256) :
    Medium s.params 2 o l (readFrame s.params) s.eep.mem.read
      (fun i => readTrace (readCommand s.params i) (s.eep.mem.half i)) (SeepromKept s) where
  plain i := readFrameOf_plain _
  params _ _ hR := hR.params
  copy x u v hR hc :=
    ⟨hc.params.trans hR.params, hc.lines.trans hR.lines, hc.plat.trans hR.plat, by rw [hc.eep]; exact hR.device,
      by rw [hc.eep]; exact hR.wel, hc.fuse.trans hR.fuse, hc.boot0.trans hR.boot0, hc.sotp.trans hR.sotp,
      hc.inbox.trans hR.inbox, hc.disturb.trans hR.disturb⟩
  block x i u hR hi := by
    have hi' : i < 128 := by have := mem_blockRange_lt (.inl rfl) hl h hi; omega
    have hlow : u.lines.cs = false ∧ u.lines.clk = false ∧ u.lines.lock = s.lines.lock := by
      rw [hR.lines]; cases x <;> exact ⟨rfl, rfl, rfl⟩
    intro v
    have hc : addressCommand u.params.opRead (BitVec.ofNat 8 i) = readCommand s.params i := by
      rw [hR.params, readCommand_eq]
    have e : v = runMicros (readFrameOf (readCommand s.params i)) u := rfl
    clear_value v
    have H := run_readFrame (a := BitVec.ofNat 8 i) (s := u)
      (by rw [hR.params]; exact hp) hlow.1 hlow.2.1 hR.device.busy
    simp only [hc, ← e, blockAddress hi', hR.device.mem] at H
    obtain ⟨a1, a2, a3, a4, a5, a6, a7⟩ := H
    clear e
    refine ⟨⟨a1.params.trans hR.params, ?_, a1.plat.trans hR.plat, ?_, a3.trans hR.wel, a1.fuse.trans hR.fuse,
      a1.boot0.trans hR.boot0, a1.sotp.trans hR.sotp, a1.inbox.trans hR.inbox, a1.disturb.trans hR.disturb⟩, ?_, ?_, ?_,
      a1.buf, a1.bufTrace, a6, ?_⟩
    · rw [a4]; simp only [seepromLines, ← hlow.2.2]
    · exact ⟨a2.mem.trans hR.device.mem, a2.busy, a2.pendAddr.trans hR.device.pendAddr,
        a2.pendData.trans hR.device.pendData, a2.times.trans hR.device.times⟩
    · rw [a5]; exact ⟨rfl, rfl, rfl, rfl, rfl, rfl, rfl, rfl, rfl, rfl, rfl⟩
    · rw [a5]
    · rw [a5]
    · intro p hp2
      rw [a5]
      simp only
      rw [blockByte_half _ _ _ hp2, Nat.mul_comm]

end Sys2Proof.Machine
end

