-- ==== Sys2Proof/Laws/PerInstr.lean ====
section
/-! SUPPORT. One statement per instruction: the word the encoder writes for it carries the fixed bits of its row of
spec/opcode_table.json, whatever its operands are. -/

namespace Sys2Proof.Laws.OpcodeBits

/-- A word of a format carries the fixed bits of a table row: under the row's mask it is the row's match. -/
def rowMatches (kind mask pattern : Nat) : Raw → Prop
  | .hostreq w => kind = 36 ∧ w < 2 ^ 36 ∧ w &&& mask = pattern
  | .eep11 w => kind = 11 ∧ w &&& BitVec.ofNat 11 mask = BitVec.ofNat 11 pattern
  | .eep27 w => kind = 27 ∧ w &&& BitVec.ofNat 27 mask = BitVec.ofNat 27 pattern
  | .otpcmd32 w => kind = 32 ∧ w &&& BitVec.ofNat 32 mask = BitVec.ofNat 32 pattern

/-- Format width, mask and match of an instruction's row of the opcode table. -/
def row : Instr → Nat × Nat × Nat
  | .otpRead _ _ _ => (36, 0x7, 0x0)
  | .otpWrite _ _ _ => (36, 0x7, 0x1)
  | .seepromRead _ _ _ => (36, 0x7, 0x2)
  | .seepromWrite _ _ _ => (36, 0x7, 0x3)
  | .boot0Read _ _ _ => (36, 0x7, 0x4)
  | .boot0Write _ _ _ => (36, 0x7, 0x5)
  | .sotpRead _ _ _ => (36, 0x7, 0x6)
  | .sotpWrite _ _ _ => (36, 0x7, 0x7)
  | .eepRead _ => (11, 0x700, 0x600)
  | .eepWrite _ _ => (27, 0x7000000, 0x5000000)
  | .eepEwen _ => (11, 0x7C0, 0x4C0)
  | .eepEwds _ => (11, 0x7C0, 0x400)
  | .otpCmdRead _ => (32, 0xFFFFFFE0, 0x80000000)

/-- The encoded word of an instruction carries the fixed bits of its row (R80), with the command words and the OTP
read flag at the defaults of R8. -/
def Statement (i : Instr) : Prop :=
  rowMatches (row i).1 (row i).2.1 (row i).2.2 (encode Machine.platformParams i)

/-- With `W_OFF = 16` a `HOSTREQ` word has 36 bits, and its low three are its `opsel` (R81). -/
theorem packHostreq_opsel (k : BitVec 3) (o l : Nat) (b : Bool) :
    packHostreq Machine.platformParams k o l b < 2 ^ 36 ∧
      packHostreq Machine.platformParams k o l b &&& 7 = k.toNat := by
  have hw : Machine.platformParams.wOff = 16 := rfl
  have h1 : narrow 16 o < 2 ^ 16 := Nat.mod_lt _ (by decide)
  have h2 : narrow 16 l < 2 ^ 16 := Nat.mod_lt _ (by decide)
  have h3 := k.isLt
  have h4 : b.toNat ≤ 1 := Bool.toNat_le b
  have h7 := Nat.and_two_pow_sub_one_eq_mod (packHostreq Machine.platformParams k o l b) 3
  rw [show 2 ^ 3 - 1 = 7 from rfl] at h7
  rw [h7]
  simp only [packHostreq, hw]
  omega

theorem otpRead (o l : Nat) (b : Bool) : Statement (.otpRead o l b) := ⟨rfl, packHostreq_opsel 0 o l b⟩

theorem otpWrite (o l : Nat) (b : Bool) : Statement (.otpWrite o l b) := ⟨rfl, packHostreq_opsel 1 o l b⟩

theorem seepromRead (o l : Nat) (b : Bool) : Statement (.seepromRead o l b) := ⟨rfl, packHostreq_opsel 2 o l b⟩

theorem seepromWrite (o l : Nat) (b : Bool) : Statement (.seepromWrite o l b) := ⟨rfl, packHostreq_opsel 3 o l b⟩

theorem boot0Read (o l : Nat) (b : Bool) : Statement (.boot0Read o l b) := ⟨rfl, packHostreq_opsel 4 o l b⟩

theorem boot0Write (o l : Nat) (b : Bool) : Statement (.boot0Write o l b) := ⟨rfl, packHostreq_opsel 5 o l b⟩

theorem sotpRead (o l : Nat) (b : Bool) : Statement (.sotpRead o l b) := ⟨rfl, packHostreq_opsel 6 o l b⟩

theorem sotpWrite (o l : Nat) (b : Bool) : Statement (.sotpWrite o l b) := ⟨rfl, packHostreq_opsel 7 o l b⟩

theorem eepRead (a : Byte) : Statement (.eepRead a) := by
  refine ⟨rfl, ?_⟩
  revert a
  decide

/-- The bits of a write frame above its data are those of its command word. -/
theorem eepWrite (a : Byte) (d : Half) : Statement (.eepWrite a d) := by
  refine ⟨rfl, ?_⟩
  have hm : (BitVec.ofNat 27 0x7000000) = (0x700 : BitVec 11) ++ (0 : BitVec 16) := by decide
  have hp : (BitVec.ofNat 27 0x5000000) = (0x500 : BitVec 11) ++ (0 : BitVec 16) := by decide
  have ha : ∀ x : Byte, addressCommand 0x500 x &&& 0x700 = 0x500 := by decide
  show (addressCommand 0x500 a ++ d : BitVec 27) &&& BitVec.ofNat 27 0x7000000 = BitVec.ofNat 27 0x5000000
  rw [hm, hp, BitVec.and_append, ha, show d &&& (0 : BitVec 16) = 0 from BitVec.and_zero]

theorem eepEwen (pad : BitVec 6) : Statement (.eepEwen pad) := by
  refine ⟨rfl, ?_⟩
  revert pad
  decide

theorem eepEwds (pad : BitVec 6) : Statement (.eepEwds pad) := by
  refine ⟨rfl, ?_⟩
  revert pad
  decide

theorem otpCmdRead (w : BitVec 5) : Statement (.otpCmdRead w) := by
  refine ⟨rfl, ?_⟩
  revert w
  decide

end Sys2Proof.Laws.OpcodeBits
end

