-- ==== Sys2Proof/Laws/Poll.lean ====
section
/-! SUPPORT. What the completion poll does (R143), and the write frame that ends in it (R142). -/

namespace Sys2Proof.Machine

/-- A status frame whose device is ready after `k` more busy samples (R66, R67). -/
def ReadyAfter (d : Eeprom) (k : Nat) : Prop :=
  d.edges = 0 ∧ d.afterWrite = true ∧
    (if k = 0 then (d.busy || d.unready) = false else (d.busy || d.unready) = true ∧ d.left = some (k - 1))

theorem pollRounds_done {s : State} (h : s.seq.ok.isSome = true) (n : Nat) : s.pollRounds n = s := by
  cases n with
  | zero => rfl
  | succ n => simp [State.pollRounds, h]

/-- A round that finds the device ready (R143). -/
theorem pollRound_ready {s : State} (hcs : s.lines.cs = true) (hok : s.seq.ok = none) (hd : ReadyAfter s.eep 0) :
    s.pollRound =
      { s with
        seq := { s.seq with pollCnt := s.seq.pollCnt + 1, ok := some true }
        trace := .sample s.params.readyLevel :: s.trace
        draws := s.draws + 1 } := by
  obtain ⟨h1, h2, h3⟩ := hd
  have hl : s.diLevel = s.params.readyLevel := by
    rw [State.diLevel, hcs, drives_status h1 h2]
    simp at h3
    simp [h3.1, h3.2]
  simp [State.pollRound, hok, hl, State.sample, State.setSeq, State.emit, State.drawn]

/-- A round that finds the device busy and may go on (R143). -/
theorem pollRound_busy {s : State} (hcs : s.lines.cs = true) (hok : s.seq.ok = none) (h1 : s.eep.edges = 0)
    (h2 : s.eep.afterWrite = true) (h3 : (s.eep.busy || s.eep.unready) = true)
    (hl : s.params.pollLimit ≠ some (s.seq.pollCnt + 1)) :
    s.pollRound =
      { s with
        seq := { s.seq with pollCnt := s.seq.pollCnt + 1 }
        eep := s.eep.tick
        trace := .delay :: .sample (!s.params.readyLevel) :: s.trace
        draws := s.draws + 1 } := by
  have hd : s.diLevel = !s.params.readyLevel := by
    rw [State.diLevel, hcs, drives_status h1 h2, h3]
    rfl
  have : ¬ (!s.params.readyLevel) = s.params.readyLevel := by cases s.params.readyLevel <;> decide
  simp [State.pollRound, hok, hd, hl, State.sample, State.setSeq, State.emit, State.drawn, State.delay, State.setEep]

/-- A round that finds the device busy on the last allowed sample (R143). -/
theorem pollRound_last {s : State} (hcs : s.lines.cs = true) (hok : s.seq.ok = none) (h1 : s.eep.edges = 0)
    (h2 : s.eep.afterWrite = true) (h3 : (s.eep.busy || s.eep.unready) = true)
    (hl : s.params.pollLimit = some (s.seq.pollCnt + 1)) :
    s.pollRound =
      { s with
        seq := { s.seq with pollCnt := s.seq.pollCnt + 1, ok := some false }
        trace := .sample (!s.params.readyLevel) :: s.trace
        draws := s.draws + 1 } := by
  have hd : s.diLevel = !s.params.readyLevel := by
    rw [State.diLevel, hcs, drives_status h1 h2, h3]
    rfl
  simp [State.pollRound, hok, hd, hl, State.sample, State.setSeq, State.emit, State.drawn]

theorem tick_complete {d : Eeprom} (h : d.left = some 0) : d.tick = d.complete := by simp [Eeprom.tick, h]

theorem tick_step {d : Eeprom} {k : Nat} (h : d.left = some (k + 1)) : d.tick = { d with left := some k } := by
  simp [Eeprom.tick, h]

theorem pollRounds_ready {k : Nat} {s : State} (hcs : s.lines.cs = true) (hok : s.seq.ok = none)
    (hd : ReadyAfter s.eep k) (hl : LimitAllows s.params s.seq.pollCnt k) {n : Nat} (hn : k < n) :
    s.pollRounds n =
      { s with
        seq := { s.seq with pollCnt := s.seq.pollCnt + k + 1, ok := some true }
        eep := if k = 0 then s.eep else s.eep.complete
        trace := (pollTrace s.params.readyLevel k).reverse ++ s.trace
        draws := s.draws + (k + 1) } := by
  induction k generalizing s n with
  | zero =>
    obtain ⟨m, rfl⟩ : ∃ m, n = m + 1 := ⟨n - 1, by omega⟩
    have : s.seq.ok.isSome = false := by simp [hok]
    rw [State.pollRounds, if_neg (by simp [hok]), pollRound_ready hcs hok hd, pollRounds_done (by rfl)]
    simp [pollTrace]
  | succ k ih =>
    obtain ⟨m, rfl⟩ : ∃ m, n = m + 1 := ⟨n - 1, by omega⟩
    obtain ⟨h1, h2, h3, h4⟩ : s.eep.edges = 0 ∧ s.eep.afterWrite = true ∧ (s.eep.busy || s.eep.unready) = true ∧
        s.eep.left = some k := by
      obtain ⟨h1, h2, h3⟩ := hd
      rw [if_neg (by omega)] at h3
      exact ⟨h1, h2, h3.1, h3.2⟩
    have hlim : s.params.pollLimit ≠ some (s.seq.pollCnt + 1) := by
      intro h
      have := hl _ h
      omega
    rw [State.pollRounds, if_neg (by simp [hok]), pollRound_busy hcs hok h1 h2 h3 hlim]
    have hready : ReadyAfter s.eep.tick k := by
      cases k with
      | zero =>
        rw [tick_complete h4]
        exact ⟨h1, h2, by simp [Eeprom.complete]⟩
      | succ k =>
        rw [tick_step h4]
        refine ⟨h1, h2, ?_⟩
        rw [if_neg (by omega)]
        exact ⟨h3, by simp⟩
    rw [ih (s := { s with
        seq := { s.seq with pollCnt := s.seq.pollCnt + 1 }
        eep := s.eep.tick
        trace := .delay :: .sample (!s.params.readyLevel) :: s.trace
        draws := s.draws + 1 }) hcs hok hready (by intro L hL; have := hl L hL; simp only; omega) (by omega)]
    have hc : (if k = 0 then s.eep.tick else s.eep.tick.complete) = s.eep.complete := by
      cases k with
      | zero => rw [if_pos rfl, tick_complete h4]
      | succ k => rw [if_neg (by omega), tick_step h4]; rfl
    simp only [hc]
    simp [pollTrace, Nat.add_assoc, Nat.add_comm 1]

/-- `PollReady()` on a device that becomes ready in time (R143, R160). -/
theorem poll_ready {k : Nat} {s : State} (hcs : s.lines.cs = true) (hok : s.seq.ok = none)
    (hd : ReadyAfter s.eep k) (hl : LimitAllows s.params s.seq.pollCnt k) :
    s.poll =
      { s with
        seq := { s.seq with pollCnt := s.seq.pollCnt + k + 1, ok := some true }
        eep := if k = 0 then s.eep else s.eep.complete
        trace := (pollTrace s.params.readyLevel k).reverse ++ s.trace
        draws := s.draws + (k + 1) } := by
  have hfuel : k < s.pollFuel := by
    unfold State.pollFuel
    cases k with
    | zero => omega
    | succ k =>
      have := hd.2.2
      rw [if_neg (by omega)] at this
      rw [this.2]
      simp only [Option.getD_some]
      omega
  unfold State.poll
  rw [pollRounds_ready hcs hok hd hl hfuel]
  rfl

/-! ### A device that is not ready in time -/

theorem pollRounds_add (n m : Nat) (s : State) : s.pollRounds (n + m) = (s.pollRounds n).pollRounds m := by
  induction n generalizing s with
  | zero => simp [State.pollRounds]
  | succ n ih =>
    rw [show n + 1 + m = (n + m) + 1 by omega]
    simp only [State.pollRounds]
    split
    next h => rw [pollRounds_done h]
    next => exact ih _

/-- `n` rounds that find the device busy and may go on (R143). -/
theorem pollRounds_busy {n : Nat} {s : State} (hcs : s.lines.cs = true) (hok : s.seq.ok = none)
    (h1 : s.eep.edges = 0) (h2 : s.eep.afterWrite = true) (h3 : (s.eep.busy || s.eep.unready) = true)
    (hleft : ∀ j, s.eep.left = some j → n ≤ j) (hl : ∀ L, s.params.pollLimit = some L → s.seq.pollCnt + n < L) :
    s.pollRounds n =
      { s with
        seq := { s.seq with pollCnt := s.seq.pollCnt + n }
        eep := { s.eep with left := s.eep.left.map (· - n) }
        trace := ((List.replicate n [Event.delay, .sample (!s.params.readyLevel)]).flatten) ++ s.trace
        draws := s.draws + n } := by
  induction n generalizing s with
  | zero =>
    simp [State.pollRounds]
  | succ n ih =>
    have hlim : s.params.pollLimit ≠ some (s.seq.pollCnt + 1) := by
      intro h
      have := hl _ h
      omega
    rw [State.pollRounds, if_neg (by simp [hok]), pollRound_busy hcs hok h1 h2 h3 hlim]
    have ht : s.eep.tick = { s.eep with left := s.eep.left.map (· - 1) } := by
      unfold Eeprom.tick
      split
      next h =>
        cases he : s.eep
        simp_all
      next h => have := hleft 0 h; omega
      next k h => rw [h]; simp
    rw [ht, ih (s := { s with
        seq := { s.seq with pollCnt := s.seq.pollCnt + 1 }
        eep := { s.eep with left := s.eep.left.map (· - 1) }
        trace := .delay :: .sample (!s.params.readyLevel) :: s.trace
        draws := s.draws + 1 }) hcs hok h1 h2 h3
      (by
        intro j hj
        simp only [Option.map_eq_some_iff] at hj
        obtain ⟨i, hi, rfl⟩ := hj
        have := hleft i hi
        omega)
      (by
        intro L hL
        have := hl L hL
        simp only
        omega)]
    have hmap : (s.eep.left.map (· - 1)).map (· - n) = s.eep.left.map (· - (n + 1)) := by
      cases s.eep.left with
      | none => rfl
      | some j => simp [Nat.sub_sub, Nat.add_comm]
    have hrep : (List.replicate n [Event.delay, .sample (!s.params.readyLevel)]).flatten ++
        (.delay :: .sample (!s.params.readyLevel) :: s.trace) =
        (List.replicate (n + 1) [Event.delay, .sample (!s.params.readyLevel)]).flatten ++ s.trace := by
      rw [List.replicate_succ', List.flatten_append]
      simp
    simp only [hmap, hrep]
    simp [Nat.add_assoc, Nat.add_comm 1]

theorem lateTrace_reverse (r : Bool) (k : Nat) :
    (lateTrace r k).reverse = .sample (!r) :: (List.replicate k [Event.delay, .sample (!r)]).flatten := by
  induction k with
  | zero => rfl
  | succ k ih =>
    rw [lateTrace, List.reverse_cons, List.reverse_cons, ih, List.replicate_succ', List.flatten_append]
    simp

/-- `PollReady()` on a device that is still busy at the last allowed sample (R143). -/
theorem poll_late {L : Nat} {s : State} (hcs : s.lines.cs = true) (hok : s.seq.ok = none)
    (h1 : s.eep.edges = 0) (h2 : s.eep.afterWrite = true) (h3 : (s.eep.busy || s.eep.unready) = true)
    (hL : s.params.pollLimit = some (L + 1)) (hc : s.seq.pollCnt = 0) (hleft : ∀ j, s.eep.left = some j → L ≤ j) :
    s.poll =
      { s with
        seq := { s.seq with pollCnt := L + 1, ok := some false }
        eep := { s.eep with left := s.eep.left.map (· - L) }
        trace := (lateTrace s.params.readyLevel L).reverse ++ s.trace
        draws := s.draws + (L + 1) } := by
  have hfuel : s.pollFuel = L + (1 + (s.eep.left.getD 0 + 2)) := by
    simp [State.pollFuel, hL]; omega
  have hlim : ∀ M, s.params.pollLimit = some M → s.seq.pollCnt + L < M := by
    intro M hM
    rw [hL] at hM
    injection hM with hM
    omega
  have hu := pollRounds_busy hcs hok h1 h2 h3 hleft hlim
  generalize hv : s.pollRounds L = u at hu
  have hround : u.pollRounds 1 =
      { u with
        seq := { u.seq with pollCnt := u.seq.pollCnt + 1, ok := some false }
        trace := .sample (!u.params.readyLevel) :: u.trace
        draws := u.draws + 1 } := by
    have huok : u.seq.ok = none := by rw [hu]; exact hok
    rw [State.pollRounds, if_neg (by simp [huok]), State.pollRounds]
    exact pollRound_last (by rw [hu]; exact hcs) huok (by rw [hu]; exact h1) (by rw [hu]; exact h2)
      (by rw [hu]; exact h3) (by rw [hu]; simp [hL, hc])
  unfold State.poll
  rw [hfuel, pollRounds_add, pollRounds_add, hv, hround, pollRounds_done (by rfl)]
  simp only [Option.isSome_some, if_true]
  rw [hu]
  simp [lateTrace_reverse, hc, Nat.add_assoc]

/-- `PollReady()` without a limit on a device that never completes: the sequencer stands in it (R143, R227). -/
theorem poll_hang {s : State} (hcs : s.lines.cs = true) (hok : s.seq.ok = none)
    (h1 : s.eep.edges = 0) (h2 : s.eep.afterWrite = true) (h3 : (s.eep.busy || s.eep.unready) = true)
    (hL : s.params.pollLimit = none) (hleft : s.eep.left = none) :
    s.poll =
      { s with
        seq := { s.seq with pollCnt := s.seq.pollCnt + 2, hung := true }
        trace := (List.replicate 2 [Event.delay, .sample (!s.params.readyLevel)]).flatten ++ s.trace
        draws := s.draws + 2 } := by
  have hfuel : s.pollFuel = 2 := by simp [State.pollFuel, hL, hleft]
  unfold State.poll
  rw [hfuel, pollRounds_busy hcs hok h1 h2 h3 (by simp [hleft]) (by simp [hL])]
  simp [hok, hleft, State.setSeq]
  cases h : s.eep
  simp_all

end Sys2Proof.Machine
end

