-- ==== Sys2Proof/Laws/Reads.lean ====
section
/-! SUPPORT. What the items of each read operation do from a planned request on (R121, R151, R177, R178). -/

namespace Sys2Proof.Machine

/-- What a read has done to the buffer and the result registers. -/
structure ReadDone (f : Nat → Byte) (o l : Nat) (s t : State) : Prop where
  returned : Returned t l .ok
  wf : t.buf.wf = true
  bytes : ∀ j, t.buf.read j = if j < l then f (o + j) else s.buf.read j
  accesses : t.bufTrace = ((List.range l).map BufEvent.write).reverse ++ s.bufTrace

/-- A planned request: what R101 to R103 leave behind. -/
structure Ready (B o l : Nat) (s : State) : Prop where
  size : BlockSize B
  planned : Planned B o l s.seq
  pos : 0 < l
  fits : s.params.encodes o l
  buf : s.buf.wf = true
  hung : s.seq.hung = false

theorem Ready.loop {B o l : Nat} {s : State} (h : Ready B o l s) : Loop s.params B o l s.seq :=
  ⟨h.size, h.planned, h.pos, h.fits⟩

theorem run_always_plain {ms : List Micro} (h : ms.all Micro.plain = true) {s : State} (hs : s.seq.hung = false)
    (its : List Item) : runItems (always ms ++ its) s = runItems its (runMicros ms s) := by
  rw [runItems_append, runItems_always h hs]

/-- The last item of an operation (R195). -/
theorem run_finish {s : State} (hs : s.seq.hung = false) :
    runItems (always [.finish]) s = { s with seq := s.seq.idle s.params s.draws, draws := s.draws + 1 } := by
  simp [always, Item.run, hs, Micro.run, State.finish, State.setSeq, State.drawn]

theorem run_closing {ms : List Micro} (h : ms.all Micro.plain = true) {s : State} (hs : s.seq.hung = false) :
    runItems (always (ms ++ [.finish])) s =
      { runMicros ms s with
        seq := (runMicros ms s).seq.idle (runMicros ms s).params (runMicros ms s).draws, draws := (runMicros ms s).draws + 1 } := by
  have hh : (runMicros ms s).seq.hung = false := by
    induction ms generalizing s with
    | nil => exact hs
    | cons m ms ih =>
      simp only [List.all_cons, Bool.and_eq_true] at h
      exact ih h.2 (by rw [(plain_ctl h.1 s).1, hs])
  rw [show always (ms ++ [.finish]) = always ms ++ always [.finish] by simp [always], run_always_plain h hs,
    run_finish hh]

/-- `OTP.READ` (R121): the bytes arrive, `OTP_CMD` holds the command of the last block, nothing else changes. -/
theorem run_otpReadItems {o l : Nat} {s : State} (hp : s.params.wellFormed = true) (h : Ready 4 o l s)
    (hr : o + l ≤ 128) :
    let t := runItems (otpReadItems s.params s.seq) s
    ReadDone s.fuse.read o l s t ∧ OtpKept s (some ((o + l - 1) / 4)) t ∧
      t.trace = ((blockRange 4 o l).flatMap (otpEvents s)).reverse ++ s.trace := by
  intro t
  have ht : t = runItems (always ([.setPhase .closing] ++ [.finish]))
      (runItems (readLoop 4 (otpBlockRead s.params) s.seq) { s with seq := { s.seq with phase := .opening } }) := by
    simp only [t, otpReadItems]
    rw [List.append_assoc, run_always_plain rfl h.hung, runItems_append]
    rfl
  clear_value t
  have M := otp_medium (s := s) hp h.pos hr
  have hloop := run_readLoop h.loop M (x := none)
    (u := { s with seq := { s.seq with phase := .opening } })
    ⟨rfl, rfl, rfl, rfl, rfl, rfl, rfl, rfl, rfl⟩
    ⟨h.planned.offset, h.planned.startBlock, h.planned.startOff, h.planned.endBlock, h.planned.endRes⟩ h.buf h.hung
  generalize runItems (readLoop 4 (otpBlockRead s.params) s.seq) { s with seq := { s.seq with phase := .opening } } = v
    at *
  obtain ⟨b1, b2, b3, b4, b5, b6, b7, b8, b9⟩ := hloop
  rw [run_closing rfl b4] at ht
  subst ht
  exact ⟨⟨⟨rfl, rfl, b2, b3⟩, b6, b7, b8⟩,
    ⟨b1.params, b1.lines, b1.plat, b1.eep, b1.fuse, b1.boot0, b1.sotp, b1.inbox, b1.disturb⟩, b9⟩

/-! ### The mirrors -/

theorem oneBit_exists {m : Word} (h : isOneBit m = true) : ∃ k, k < 32 ∧ m = BitVec.twoPow 32 k := by
  simp only [isOneBit, List.any_eq_true, List.mem_range, beq_iff_eq] at h
  exact h

theorem oneBit_ne {m : Word} (h : isOneBit m = true) : m ≠ 0 := by
  obtain ⟨k, hk, rfl⟩ := oneBit_exists h
  intro hz
  have := congrArg (fun v : Word => v.getLsbD k) hz
  simp [hk] at this

/-- Setting the bit opens the window (R172). -/
theorem or_and_ne {m v : Word} (h : m ≠ 0) : (v ||| m) &&& m ≠ 0 := by
  have : (v ||| m) &&& m = m := by
    apply BitVec.eq_of_getLsbD_eq
    intro i _
    simp only [BitVec.getLsbD_and, BitVec.getLsbD_or]
    cases v.getLsbD i <;> cases m.getLsbD i <;> rfl
  rwa [this]

/-- Clearing the bit that was set restores the register in every bit (R175). -/
theorem or_and_not {m v : Word} (h : v &&& m = 0) : (v ||| m) &&& ~~~m = v := by
  apply BitVec.eq_of_getLsbD_eq
  intro i hi
  have := congrArg (fun w : Word => w.getLsbD i) h
  simp only [BitVec.getLsbD_and] at this
  simp only [BitVec.getLsbD_and, BitVec.getLsbD_or, BitVec.getLsbD_not, hi, decide_true, Bool.true_and]
  revert this
  cases v.getLsbD i <;> cases m.getLsbD i <;> simp

/-- The opening of a mirror read (R171, R172): the window is open after it. -/
theorem run_mirrorOpen {s : State} (hb : s.params.protBit ≠ 0) :
    let t := runMicros [.setPhase .opening, .protCheck, .protExpose] s
    t.mirrorEnabled = true ∧
      t = { s with
        seq := { s.seq with
          phase := .opening
          v := s.plat.prot
          protChanged := decide (s.plat.prot &&& s.params.protBit = 0)
          heldOpen := decide (s.plat.prot &&& s.params.protBit = 0) || s.seq.heldOpen }
        plat := { s.plat with
          prot := if s.plat.prot &&& s.params.protBit = 0 then exposed s else s.plat.prot }
        trace := (openTrace s).reverse ++ s.trace } := by
  intro t
  by_cases h : s.plat.prot &&& s.params.protBit = 0
  · have e : t = { s with
        seq := { s.seq with phase := .opening, v := s.plat.prot, protChanged := true, heldOpen := true }
        plat := { s.plat with prot := exposed s }
        trace := .regWrite .prot (exposed s) :: .regRead .prot s.plat.prot :: s.trace } := by
      simp [t, Micro.run, State.protCheck, State.protExpose, State.setSeq, State.setPlat, State.emit, h, exposed]
    rw [e]
    refine ⟨?_, ?_⟩
    · simp only [State.mirrorEnabled, exposed]
      simpa using or_and_ne hb
    · simp [h, openTrace]
  · have h' : ¬ s.plat.prot &&& s.params.protBit = 0#32 := h
    have e : t = { s with
        seq := { s.seq with phase := .opening, v := s.plat.prot, protChanged := false }
        trace := .regRead .prot s.plat.prot :: s.trace } := by
      simp [t, Micro.run, State.protCheck, State.protExpose, State.setSeq, State.emit, h']
    rw [e]
    refine ⟨?_, ?_⟩
    · simp only [State.mirrorEnabled]
      simpa using h
    · simp [h', openTrace]

/-- A mirror read (R177, R178): the bytes arrive, `PROT` is as it was in every bit, nothing else changes. -/
theorem run_mirrorReadItems (m : Mirror) {o l : Nat} {s : State} (hp : s.params.wellFormed = true)
    (h : Ready 4 o l s) :
    let t := runItems (mirrorReadItems m s.params s.seq) s
    ReadDone (s.mirrored m).read o l s t ∧ MirrorKept s t ∧
      t.trace = (openTrace s ++ (blockRange 4 o l).flatMap (mirrorEvents s m) ++ closeTrace s).reverse ++ s.trace := by
  intro t
  have hbit := oneBit_ne (Params.wf_fields hp).2.2.2.2.2.2.2.2.2.2.2.2.2.1
  have ht : t = runItems (always ([.setPhase .closing, .protReread, .protRestore] ++ [.finish]))
      (runItems (readLoop 4 (mirrorBlockRead m) s.seq) (runMicros [.setPhase .opening, .protCheck, .protExpose] s)) := by
    simp only [t, mirrorReadItems]
    rw [List.append_assoc, run_always_plain rfl h.hung, runItems_append]
    rfl
  clear_value t
  obtain ⟨he, hw⟩ := run_mirrorOpen (s := s) hbit
  generalize runMicros [.setPhase .opening, .protCheck, .protExpose] s = w at *
  have hmem : w.mirrored m = s.mirrored m := by rw [hw]; cases m <;> rfl
  have M := mirror_medium (s := w) m he (o := o) (l := l)
  have hpw : Planned 4 o l w.seq := by
    rw [hw]
    exact ⟨h.planned.offset, h.planned.startBlock, h.planned.startOff, h.planned.endBlock, h.planned.endRes⟩
  have hwp : w.params = s.params := by rw [hw]
  have hloop := run_readLoop (by rw [hwp]; exact h.loop) M (x := none) (u := w)
    ⟨rfl, rfl, rfl, rfl, rfl, rfl, rfl, rfl, rfl⟩ hpw (by rw [hw]; exact h.buf) (by rw [hw]; exact h.hung)
  generalize runItems (readLoop 4 (mirrorBlockRead m) s.seq) w = v at *
  obtain ⟨b1, b2, b3, b4, b5, b6, b7, b8, b9⟩ := hloop
  have b5' : v.seq.protChanged = decide (s.plat.prot &&& s.params.protBit = 0) := by rw [b5, hw]
  have hev : mirrorEvents w m = mirrorEvents s m := by
    funext i; simp only [mirrorEvents, hmem]; rw [hw]
  rw [hev] at b9
  rw [hmem] at b7
  have hvp : v.plat = { s.plat with
      prot := if s.plat.prot &&& s.params.protBit = 0 then exposed s else s.plat.prot } := by
    rw [b1.plat, hw]
  have hparams : v.params = s.params := by rw [b1.params, hw]
  rw [run_closing rfl b4] at ht
  have hclose : runMicros [.setPhase .closing, .protReread, .protRestore] v =
      { v with
        seq := { v.seq with
          phase := .closing
          v := if s.plat.prot &&& s.params.protBit = 0 then exposed s else v.seq.v
          heldOpen := decide (s.plat.prot &&& s.params.protBit ≠ 0) && v.seq.heldOpen }
        plat := s.plat
        trace := (closeTrace s).reverse ++ v.trace } := by
    by_cases hz : s.plat.prot &&& s.params.protBit = 0
    · simp only [hz, if_true, decide_true] at b5' hvp
      have hr : exposed s &&& ~~~v.params.protBit = s.plat.prot := by rw [hparams]; exact or_and_not hz
      simp [Micro.run, State.protReread, State.protRestore, State.setSeq, State.setPlat, State.emit, b5', hvp, hr,
        closeTrace, hz]
    · simp only [hz, if_false, decide_false] at b5' hvp
      have : s.plat = v.plat := by rw [hvp]
      have hz'' : ¬ v.plat.prot &&& s.params.protBit = 0#32 := by rw [← this]; exact hz
      simp [Micro.run, State.protReread, State.protRestore, State.setSeq, b5', closeTrace, hz'', this]
  rw [hclose] at ht
  subst ht
  refine ⟨⟨⟨rfl, rfl, b2, b3⟩, b6, fun j => ?_, ?_⟩, ⟨hparams, ?_, rfl, ?_, ?_, ?_, ?_, ?_, ?_⟩, ?_⟩
  · rw [b7 j, hw]
  · simp only; rw [b8, hw]
  · simp only; rw [b1.lines, hw]
  · simp only; rw [b1.eep, hw]
  · simp only; rw [b1.fuse, hw]
  · simp only; rw [b1.boot0, hw]
  · simp only; rw [b1.sotp, hw]
  · simp only; rw [b1.inbox, hw]
  · simp only; rw [b1.disturb, hw]
  · simp only; rw [b9, hw]; simp

/-! ### The EEPROM -/

/-- The line preamble, from chip-select deasserted on: the clock is low after it (R139). -/
theorem run_preamble {s : State} (hcs : s.lines.cs = false) :
    runMicros preamble s =
      { s with
        lines := { s.lines with cs := false, clk := false }
        eep := s.eep.tick
        trace := preambleTrace.reverse ++ s.trace } := by
  simp [preamble, preambleTrace, Micro.run, State.line, State.delay, State.setLines, State.setEep, State.emit, hcs]

theorem tick_frameKept {d : Eeprom} (hb : d.busy = false) : FrameKept d d.tick ∧ d.tick.wel = d.wel := by
  obtain ⟨l, u, h⟩ := tick_idle hb
  rw [h]
  exact ⟨⟨rfl, hb, rfl, rfl, rfl⟩, rfl⟩

/-- `SEEPROM.READ` (R151): the bytes arrive, the device keeps its array and `eep_wel`, the lines are as R58 says. -/
theorem run_seepromReadItems {o l : Nat} {s : State} (hp : s.params.wellFormed = true) (h : Ready 2 o l s)
    (hr : o + l ≤ 256) (hcs : s.lines.cs = false) (hb : s.eep.busy = false) :
    let t := runItems (seepromReadItems s.params s.seq) s
    ReadDone s.eep.mem.read o l s t ∧
      (t.params = s.params ∧ t.lines = seepromLines s (some ((o + l - 1) / 2)) ∧ t.plat = s.plat ∧
        t.eep.mem = s.eep.mem ∧ t.eep.busy = false ∧ t.eep.wel = s.eep.wel ∧ t.eep.times = s.eep.times ∧
        t.fuse = s.fuse ∧ t.boot0 = s.boot0 ∧ t.sotp = s.sotp ∧ t.inbox = s.inbox ∧ t.disturb = s.disturb) ∧
      t.trace = (preambleTrace ++ (blockRange 2 o l).flatMap fun i =>
        readTrace (readCommand s.params i) (s.eep.mem.half i)).reverse ++ s.trace := by
  intro t
  have ht : t = runItems (always ([.setPhase .closing] ++ [.finish]))
      (runItems (readLoop 2 (readFrame s.params) s.seq) (runMicros (.setPhase .opening :: preamble) s)) := by
    simp only [t, seepromReadItems]
    rw [List.append_assoc, run_always_plain rfl h.hung, runItems_append]
    rfl
  clear_value t
  have hw : runMicros (.setPhase .opening :: preamble) s =
      { s with
        seq := { s.seq with phase := .opening }
        lines := { s.lines with cs := false, clk := false }
        eep := s.eep.tick
        trace := preambleTrace.reverse ++ s.trace } := by
    rw [runMicros_cons]
    exact run_preamble (s := s.setSeq { s.seq with phase := .opening }) hcs
  generalize runMicros (.setPhase .opening :: preamble) s = w at *
  obtain ⟨hk, hkw⟩ := tick_frameKept hb
  have hwe : w.eep = s.eep.tick := by rw [hw]
  have M := seeprom_medium (s := w) (by rw [hw]; exact hp) h.pos hr
  have hpw : Planned 2 o l w.seq := by
    rw [hw]
    exact ⟨h.planned.offset, h.planned.startBlock, h.planned.startOff, h.planned.endBlock, h.planned.endRes⟩
  have hwp : w.params = s.params := by rw [hw]
  have hloop := run_readLoop (by rw [hwp]; exact h.loop) M (x := none) (u := w)
    ⟨rfl, by rw [hw]; rfl, rfl, ⟨rfl, by rw [hwe]; exact hk.busy, rfl, rfl, rfl⟩, rfl, rfl, rfl, rfl, rfl, rfl⟩ hpw
    (by rw [hw]; exact h.buf) (by rw [hw]; exact h.hung)
  rw [hwp] at hloop
  generalize runItems (readLoop 2 (readFrame s.params) s.seq) w = v at *
  obtain ⟨b1, b2, b3, b4, b5, b6, b7, b8, b9⟩ := hloop
  have hwm : w.eep.mem = s.eep.mem := by rw [hwe]; exact hk.mem
  rw [hwm] at b9
  rw [hwm] at b7
  rw [run_closing rfl b4] at ht
  subst ht
  refine ⟨⟨⟨rfl, rfl, b2, b3⟩, b6, fun j => ?_, ?_⟩, ⟨b1.params.trans hwp, ?_, ?_, b1.device.mem.trans hwm,
    b1.device.busy, ?_, ?_, ?_, ?_, ?_, ?_, ?_⟩, ?_⟩
  · refine (b7 j).trans ?_
    rw [hw]
  · refine b8.trans ?_
    rw [hw]
  · simp only [Micro.run, runMicros_cons, runMicros_nil, State.setSeq]; rw [b1.lines, hw]; rfl
  · simp only [Micro.run, runMicros_cons, runMicros_nil, State.setSeq]; rw [b1.plat, hw]
  · exact b1.wel.trans (by rw [hwe]; exact hkw)
  · exact b1.device.times.trans (by rw [hwe]; exact hk.times)
  · simp only [Micro.run, runMicros_cons, runMicros_nil, State.setSeq]; rw [b1.fuse, hw]
  · simp only [Micro.run, runMicros_cons, runMicros_nil, State.setSeq]; rw [b1.boot0, hw]
  · simp only [Micro.run, runMicros_cons, runMicros_nil, State.setSeq]; rw [b1.sotp, hw]
  · simp only [Micro.run, runMicros_cons, runMicros_nil, State.setSeq]; rw [b1.inbox, hw]
  · simp only [Micro.run, runMicros_cons, runMicros_nil, State.setSeq]; rw [b1.disturb, hw]
  · simp only [Micro.run, runMicros_cons, runMicros_nil, State.setSeq]; rw [b9, hw]; simp

end Sys2Proof.Machine
end

