-- ==== Sys2Proof/Laws/Requests.lean ====
section
/-! SUPPORT. The acceptance of a request: what a request that passes the check leads to, and one that fails it
(R101 to R103, R194). -/

namespace Sys2Proof.Machine

theorem free_idle {s : State} (h : s.busy = false) : s.seq.phase = .idle ∧ s.seq.hung = false := by
  simp [State.busy] at h
  exact ⟨h.2, h.1⟩

/-- The request registers hold operands that have an encoding as they are (R82, U25). -/
theorem checked_seq {r : Region} {w : Bool} {o l : Nat} {b : Bool} {s : State} (h : s.params.encodes o l) :
    (s.checked r w o l b).seq = { s.seq with
      phase := .check, reqOp := r.opsel w, reqOffset := o, reqLength := l, bufValid := b, endSum := o + l } := by
  have h1 : narrow s.params.wOff o = o := narrow_eq h.1
  have h2 : narrow s.params.wOff l = l := narrow_eq h.2
  have h3 : narrow (s.params.wOff + 1) (o + l) = o + l :=
    formEndSum_endSum (q := { s.seq with reqOffset := o, reqLength := l }) h
  simp only [State.checked, State.accept, State.setSeq, Sequencer.formEndSum, h1, h2, h3]

theorem checked_accepted {r : Region} {w : Bool} {o l : Nat} {b : Bool} {s : State} (h : s.params.encodes o l) :
    rangeAccepted (r.totalSize s.params) (s.checked r w o l b).seq = true ↔
      InRange s.params (r.totalSize s.params) o l b := by
  rw [checked_seq h]
  simp only [rangeAccepted, InRange, Bool.and_eq_true, bne_iff_ne, decide_eq_true_eq, ne_eq]
  constructor
  · rintro ⟨⟨⟨hb, hl⟩, ho⟩, hs⟩
    exact ⟨h, hb, by omega, hs⟩
  · rintro ⟨_, hb, hl, hs⟩
    exact ⟨⟨⟨hb, by omega⟩, by omega⟩, hs⟩

/-- A request that passed its check differs in the working registers alone. -/
theorem started_rest (r : Region) (w : Bool) (o l : Nat) (b : Bool) (s : State) :
    s.started r w o l b = { s with seq := (s.started r w o l b).seq } := rfl

theorem started_phase (r : Region) (w : Bool) (o l : Nat) (b : Bool) (s : State) :
    (s.started r w o l b).seq.phase = .plan := plan_phase _ _ _

/-- A request that passed its check is ready for its items, its plan in the plan registers (R101 to R103). -/
theorem started_ready {r : Region} {w : Bool} {o l : Nat} {b : Bool} {s : State} (hf : s.busy = false)
    (hr : InRange s.params (r.totalSize s.params) o l b) (hbuf : s.buf.wf = true) :
    Ready r.blockSize o l (s.started r w o l b) := by
  have hc := checked_seq (r := r) (w := w) (b := b) (s := s) hr.1
  refine ⟨r.blockSize_ok, plan_planned r.blockSize_ok ?_ ?_ hr.2.2.1 hr.1, hr.2.2.1, hr.1, hbuf, ?_⟩
  · simp only [hc]
  · simp only [hc]
  · refine (plan_hung _ _ _).trans ?_
    simp only [hc]
    exact (free_idle hf).2

/-- A request that passes the check of R101 runs the items of its operation on a planned request. -/
theorem hostRequest_accepted {r : Region} {w : Bool} {items : Params → Sequencer → List Item} {o l : Nat} {b : Bool}
    {s : State} (hf : s.busy = false) (hr : InRange s.params (r.totalSize s.params) o l b) :
    hostRequest r w items o l b s =
      operate (items s.params (s.started r w o l b).seq) (s.started r w o l b) := by
  simp only [hostRequest, hf, Bool.false_eq_true, if_false]
  rw [if_pos ((checked_accepted hr.1).mpr hr)]
  rfl

/-- A request that fails the check of R101 returns count 0 and PRECOND; nothing else happens. -/
theorem hostRequest_rejected {r : Region} {w : Bool} {items : Params → Sequencer → List Item} {o l : Nat} {b : Bool}
    {s : State} (hf : s.busy = false) (he : s.params.encodes o l)
    (hr : ¬ InRange s.params (r.totalSize s.params) o l b) :
    ∃ t, hostRequest r w items o l b s = .next t ∧ Returned t 0 .precond ∧ Untouched s t := by
  refine ⟨(s.checked r w o l b).giveUp .precond, ?_, ⟨rfl, rfl, rfl, rfl⟩,
    ⟨rfl, rfl, rfl, rfl, rfl, rfl, rfl, rfl, rfl, rfl, rfl, rfl⟩⟩
  simp only [hostRequest, hf, Bool.false_eq_true, if_false]
  rw [if_neg fun h => hr ((checked_accepted he).mp h)]

/-- A write without a write path returns count 0 and ILLEGAL; nothing else happens (R89). -/
theorem illegalRequest_returns {r : Region} {o l : Nat} {b : Bool} {s : State} (hf : s.busy = false) :
    ∃ t, illegalRequest r o l b s = .next t ∧ Returned t 0 .illegal ∧ Untouched s t := by
  refine ⟨(s.accept (r.opsel true) o l b).giveUp .illegal, ?_, ⟨rfl, rfl, rfl, rfl⟩,
    ⟨rfl, rfl, rfl, rfl, rfl, rfl, rfl, rfl, rfl, rfl, rfl, rfl⟩⟩
  simp only [illegalRequest, hf, Bool.false_eq_true, if_false]

end Sys2Proof.Machine
end

