-- ==== Sys2Proof/Laws/WriteFrame.lean ====
section
/-! SUPPORT. The write frame with its status frame (R142), said once: what is sent, and the three ways its poll can
end (R143, R160, R161, R227). -/

namespace Sys2Proof.Machine

/-- The data bits of a write frame, after its command word (R62, R133, R142). -/
theorem run_data {s : State} (hcs : s.lines.cs = true) (hclk : s.lines.clk = false) (hb : s.eep.busy = false)
    (hs : s.eep.spoiled = false) (he : s.eep.edges = 11) :
    let t := runMicros sendBlk s
    let d := s.seq.blk.setWidth 16
    WireOnly s t ∧ DeviceKept s.eep t.eep ∧ t.eep.edges = 27 ∧ t.eep.cmd = s.eep.cmd ∧ t.eep.wel = s.eep.wel ∧
      t.eep.shift.setWidth 16 = d ∧ t.lines = { s.lines with dOut := d.getLsbD 0, clk := false } ∧
      t.seq = { s.seq with txVal := d, bitCnt := 0 } ∧
      t.trace = (sendTrace d 16).reverse ++ s.trace ∧ t.draws = s.draws := by
  intro t d
  have ht : t = runMicros (sendLoop 16) (Micro.run (.loadTxBlk 16) s) := by
    simp only [t, sendBlk, runMicros_cons]
  clear_value t
  generalize hu : Micro.run (.loadTxBlk 16) s = u at ht
  have hu' : u = { s with seq := { s.seq with txVal := d, bitCnt := BitVec.ofNat 5 16 } } := by rw [← hu]; rfl
  clear hu
  have H := run_sendLoop (n := 16) (s := u) (by rw [hu']; exact hcs) (by rw [hu']; exact hclk) (by rw [hu']; exact hb)
    (by rw [hu']; exact hs) (.inr (by rw [hu', he]))
  simp only at H
  rw [← ht] at H
  clear ht
  rw [hu'] at H
  obtain ⟨a1, a2, a3, a4, a5, a6, a7, a8, a9, a10⟩ := H
  refine ⟨⟨a1.params, a1.plat, a1.fuse, a1.boot0, a1.sotp, a1.buf, a1.bufTrace, a1.inbox, a1.disturb⟩, a2,
    by rw [a3, he], a4, a5, ?_, ?_, ?_, a9, a10⟩
  · apply BitVec.eq_of_getLsbD_eq
    intro k hk
    rw [BitVec.getLsbD_setWidth, decide_eq_true hk, Bool.true_and, a6 k (by omega), if_pos hk]
  · rw [a7]; simp
  · rw [a8]; simp

/-- The write frame up to the first sample of its status frame (R142). -/
def writeSend (c : Command) : List Micro :=
  .line .cs true :: sendBits (c.setWidth 16) 11 ++ sendBlk ++ [.line .cs false, .delay, .line .cs true, .pollStart]

theorem writeFrameOf_eq (c : Command) :
    writeFrameOf c = writeSend c ++ (.poll :: [.line .cs false, .delay]) := by
  simp [writeFrameOf, writeSend]

theorem writeSend_plain (c : Command) : (writeSend c).all Micro.plain = true := by
  simp only [writeSend, sendBits, sendBlk, List.all_append, List.all_cons, sendLoop_plain]
  rfl

/-- The device with a write under way, as the write frame leaves it (R66). -/
structure Writing (d e : Eeprom) (a : Byte) (x : Half) (n : Nat) : Prop where
  mem : e.mem = d.mem.writeHalf (a.toNat % 128) (Config.freeVec 16 n 1)
  wel : e.wel = true
  busy : e.busy = true
  pendAddr : e.pendAddr = a.setWidth 7
  pendData : e.pendData = x
  left : e.left = d.moment n
  times : e.times = d.times.tail
  afterWrite : e.afterWrite = true

/-- The state in which the poll of a write frame begins, the device enabled and free before it. -/
theorem run_writeSend {a : Byte} {s : State} (hp : s.params.wellFormed = true) (hcs : s.lines.cs = false)
    (hclk : s.lines.clk = false) (hb : s.eep.busy = false) (hw : s.eep.wel = true) :
    let c := addressCommand s.params.opWrite a
    let d := s.seq.blk.setWidth 16
    let t := runMicros (writeSend c) s
    WireOnly s t ∧ (∃ e, Writing s.eep e a d s.draws ∧ t.eep = e.tick.frameStart) ∧
      t.lines = { s.lines with cs := true, clk := false, dOut := d.getLsbD 0 } ∧
      t.seq = { s.seq with txVal := d, bitCnt := 0, pollCnt := 0, ok := none } ∧
      t.trace = ([.line .cs true, .delay, .line .cs false] ++ (sendTrace d 16).reverse ++
        (.line .cs true :: sendTrace (c.setWidth 16) 11).reverse) ++ s.trace ∧
      t.draws = s.draws + 1 := by
  intro c d t
  have hdec : decodeCommand s.params c = .write a := decodeCommand_write hp a
  have ht : t = runMicros [.line .cs false, .delay, .line .cs true, .pollStart]
      (runMicros sendBlk (runMicros (.line .cs true :: sendBits (c.setWidth 16) 11) s)) := by
    simp only [t, writeSend]
    rw [List.append_assoc, runMicros_append, runMicros_append]
  clear_value t
  obtain ⟨a1, a2, a3, a4, a5, a6, a7, a8, a9, a10⟩ := run_command (c := c) hcs hclk hb
  generalize runMicros (.line .cs true :: sendBits (c.setWidth 16) 11) s = u at *
  have hud : u.seq.blk.setWidth 16 = d := by rw [a8]
  obtain ⟨b1, b2, b3, b4, b5, b6, b7, b8, b9, b10⟩ :=
    run_data (s := u) (by rw [a7]) (by rw [a7]) a2.busy a2.spoiled a3
  rw [hud] at b6 b7 b8 b9
  generalize runMicros sendBlk u = v at *
  have hsv : WireOnly s v := a1.trans b1
  have hkv := a2.trans b2
  have hwel : v.eep.wel = true := by rw [b5, a5]; simp [welAfter, hdec, hw]
  have hdraws : v.draws = s.draws := by rw [b10, a10]
  have hend := frameEnd_write (n := v.draws) (c := v.closingTimeout) hkv.spoiled b3
    (show decodeCommand v.params v.eep.cmd = .write a by rw [hsv.params, b4, a4]; exact hdec)
  rw [runMicros_cons, run_deassert (by rw [b7, a7])] at ht
  generalize v.eep.frameEnd v.params v.draws v.closingTimeout = e at *
  have he : Writing s.eep e a d s.draws := by
    rw [hend, Eeprom.beginWrite, if_pos hwel, hdraws]
    have hm : v.eep.moment s.draws = s.eep.moment s.draws := by
      unfold Eeprom.moment; rw [hkv.times]
    exact ⟨by rw [hkv.mem], hwel, rfl, rfl, b6, hm, by rw [hkv.times], rfl⟩
  have ht' : t = { v with
      seq := { v.seq with pollCnt := 0, ok := none }
      lines := { v.lines with cs := true }
      eep := e.tick.frameStart
      trace := .line .cs true :: .delay :: .line .cs false :: v.trace
      draws := v.draws + 1 } := by
    rw [ht, runMicros_cons, show Micro.run .delay _ = State.delay _ from rfl, State.delay, State.setEep, State.emit,
      runMicros_cons, run_assert (by rfl)]
    rfl
  clear ht hend
  refine ⟨hsv.trans (by rw [ht']; exact ⟨rfl, rfl, rfl, rfl, rfl, rfl, rfl, rfl, rfl⟩), ⟨e, he, by rw [ht']⟩, ?_, ?_, ?_,
    ?_⟩
  · rw [ht']; simp only; rw [b7, a7]
  · rw [ht']; simp only; rw [b8, a8]
  · rw [ht']; simp only; rw [b9, a9]; simp
  · rw [ht']; simp only; rw [hdraws]

/-- The end of the status frame (R142): the poll is over and chip-select falls. -/
theorem run_statusEnd {s : State} (hcs : s.lines.cs = true) (he : s.eep.edges = 0) :
    runMicros [.line .cs false, .delay] s =
      { s with
        lines := { s.lines with cs := false }
        eep := s.eep.tick
        trace := .delay :: .line .cs false :: s.trace
        draws := s.draws + 1 } := by
  rw [runMicros_cons, run_deassert hcs, frameEnd_status he]
  simp [Micro.run, State.delay, State.setEep, State.emit]

/-- A poll in its place, not passed over. -/
theorem runItems_poll {s : State} (hh : s.seq.hung = false) (il : Bool) (hil : il = true → s.seq.status ≠ .timeout)
    (its : List Item) : runItems (⟨il, .poll⟩ :: its) s = runItems its s.poll := by
  have h2 : (il && decide (s.seq.status = .timeout)) = false := by
    cases il with
    | false => rfl
    | true => simpa using hil rfl
  simp [Item.run, hh, h2, Micro.run]

/-- Plain micro-operations in their place, not passed over. -/
theorem runItems_plain {ms : List Micro} (hms : ms.all Micro.plain = true) {s : State} (hh : s.seq.hung = false)
    (il : Bool) (hil : il = true → s.seq.status ≠ .timeout) : runItems (ms.map (Item.mk il)) s = runMicros ms s := by
  cases il with
  | false => exact runItems_always hms hh
  | true => exact runItems_inLoop hms hh (hil rfl)

/-- The device at the first sample of the status frame. -/
theorem writing_frame {d e : Eeprom} {a : Byte} {x : Half} {n : Nat} (h : Writing d e a x n)
    (hm : Memory.wf d.mem = true) :
    let f := e.tick.frameStart
    f.edges = 0 ∧ f.afterWrite = true ∧ f.wel = true ∧ f.times = d.times.tail ∧
      match d.moment n with
      | some 0 => f.busy = false ∧ f.unready = false ∧ f.left = none ∧ f.mem = d.mem.writeHalf (a.toNat % 128) x
      | some (k + 1) => f.busy = true ∧ f.left = some k ∧ f.mem = e.mem ∧ f.pendAddr = e.pendAddr ∧
          f.pendData = x
      | none => f.busy = true ∧ f.left = none ∧ f.mem = e.mem := by
  intro f
  have hpend : (a.setWidth 7 : BitVec 7).toNat = a.toNat % 128 := by simp [BitVec.toNat_setWidth]
  have hl := h.left
  cases hk : d.moment n with
  | none =>
    rw [hk] at hl
    have : e.tick = e := by simp [Eeprom.tick, hl]
    simp only [f, this]
    exact ⟨rfl, h.afterWrite, h.wel, h.times, h.busy, hl, rfl⟩
  | some k =>
    rw [hk] at hl
    cases k with
    | zero =>
      simp only [f, tick_complete hl]
      refine ⟨rfl, h.afterWrite, h.wel, h.times, rfl, rfl, rfl, ?_⟩
      simp [Eeprom.complete, Eeprom.frameStart, h.busy, h.pendAddr, h.pendData, h.mem, hpend,
        Memory.writeHalf_writeHalf hm]
    | succ k =>
      simp only [f, tick_step hl]
      exact ⟨rfl, h.afterWrite, h.wel, h.times, h.busy, rfl, rfl, rfl, h.pendData⟩

/-- A write frame on an enabled device that becomes ready in time: the word is stored, the poll answers `true` after
`k + 1` samples, and nothing else of the array changes (R66, R142, R143, R160). -/
theorem run_writeFrame {a : Byte} {k : Nat} {s : State} (hp : s.params.wellFormed = true) (hcs : s.lines.cs = false)
    (hclk : s.lines.clk = false) (hb : s.eep.busy = false) (hw : s.eep.wel = true)
    (hm : Memory.wf s.eep.mem = true) (hk : s.eep.moment s.draws = some k)
    (hl : LimitAllows s.params 0 k) (hh : s.seq.hung = false) (il : Bool) (hil : il = true → s.seq.status ≠ .timeout) :
    let c := addressCommand s.params.opWrite a
    let d := s.seq.blk.setWidth 16
    let t := runItems ((writeFrameOf c).map (Item.mk il)) s
    WireOnly s t ∧ t.eep.mem = s.eep.mem.writeHalf (a.toNat % 128) d ∧ t.eep.busy = false ∧ t.eep.wel = true ∧
      t.eep.times = s.eep.times.tail ∧
      t.lines = { s.lines with cs := false, clk := false, dOut := d.getLsbD 0 } ∧
      t.seq = { s.seq with txVal := d, bitCnt := 0, pollCnt := k + 1, ok := some true } ∧
      t.trace = (writeTrace c d (pollTrace s.params.readyLevel k)).reverse ++ s.trace ∧ t.draws = s.draws + (k + 3) := by
  intro c d t
  have ht : t = runItems ((writeFrameOf c).map (Item.mk il)) s := rfl
  clear_value t
  rw [writeFrameOf_eq, List.map_append, runItems_append, runItems_plain (writeSend_plain c) hh il hil, List.map_cons]
    at ht
  obtain ⟨a1, ⟨e, ha, a2⟩, a3, a4, a5, a6⟩ := run_writeSend (a := a) hp hcs hclk hb hw
  generalize runMicros (writeSend c) s = x at *
  have hxs : x.seq.hung = false := by rw [a4]; exact hh
  have hxi : il = true → x.seq.status ≠ .timeout := by rw [a4]; exact hil
  rw [runItems_poll hxs il hxi] at ht
  obtain ⟨f1, f2, f3, f4, f5⟩ := writing_frame ha hm
  rw [← a2] at f1 f2 f3 f4 f5
  rw [hk] at f5
  have hready : ReadyAfter x.eep k ∧ (if k = 0 then x.eep else x.eep.complete).mem = s.eep.mem.writeHalf (a.toNat % 128) d ∧
      (if k = 0 then x.eep else x.eep.complete).busy = false ∧ (if k = 0 then x.eep else x.eep.complete).left = none := by
    cases k with
    | zero =>
      simp only at f5
      exact ⟨⟨f1, f2, by simp [f5.1, f5.2.1]⟩, f5.2.2.2, f5.1, f5.2.2.1⟩
    | succ k =>
      simp only at f5
      refine ⟨⟨f1, f2, by simp [f5.1, f5.2.1]⟩, ?_, rfl, rfl⟩
      have hpend : (a.setWidth 7 : BitVec 7).toNat = a.toNat % 128 := by simp [BitVec.toNat_setWidth]
      simp [Eeprom.complete, f5, ha.mem, ha.pendAddr, hpend, Memory.writeHalf_writeHalf hm, d]
  obtain ⟨r1, r2, r3, r4⟩ := hready
  have hpoll := poll_ready (s := x) (by rw [a3]) (by rw [a4]) r1 (by rw [a1.params, a4]; exact hl)
  rw [hpoll, runItems_plain rfl (by exact hxs) il (by exact hxi), run_statusEnd (by rw [a3])
    (by simp only; split <;> exact f1)] at ht
  have hwt : (if k = 0 then x.eep else x.eep.complete).wel = true ∧
      (if k = 0 then x.eep else x.eep.complete).times = s.eep.times.tail := by
    split <;> exact ⟨f3, f4⟩
  clear hpoll
  generalize (if k = 0 then x.eep else x.eep.complete) = g at *
  have htick : g.tick = g := by simp [Eeprom.tick, r4]
  simp only [htick] at ht
  subst ht
  refine ⟨a1.trans ⟨rfl, rfl, rfl, rfl, rfl, rfl, rfl, rfl, rfl⟩, r2, r3, hwt.1, hwt.2, ?_, ?_, ?_, ?_⟩
  · simp only; rw [a3]
  · simp only; rw [a4]; simp [d]
  · simp only; rw [a5, a1.params]; simp [writeTrace, c, d]
  · simp only; rw [a6]; omega

/-- A write frame on an enabled device that is still busy at the last of `L + 1` allowed samples: the poll answers
`false`, and no other word of the array changes (R66, R143, R161). -/
theorem run_writeFrame_late {a : Byte} {L : Nat} {s : State} (hp : s.params.wellFormed = true) (hcs : s.lines.cs = false)
    (hclk : s.lines.clk = false) (hb : s.eep.busy = false) (hw : s.eep.wel = true)
    (hm : Memory.wf s.eep.mem = true) (hL : s.params.pollLimit = some (L + 1))
    (hk : ∀ k, s.eep.moment s.draws = some k → L < k) (hh : s.seq.hung = false) (il : Bool)
    (hil : il = true → s.seq.status ≠ .timeout) :
    let c := addressCommand s.params.opWrite a
    let d := s.seq.blk.setWidth 16
    let t := runItems ((writeFrameOf c).map (Item.mk il)) s
    WireOnly s t ∧ (∃ x, t.eep.mem = s.eep.mem.writeHalf (a.toNat % 128) x) ∧
      (t.eep.busy = true → t.eep.pendAddr = a.setWidth 7) ∧ t.eep.times = s.eep.times.tail ∧
      t.lines = { s.lines with cs := false, clk := false, dOut := d.getLsbD 0 } ∧
      t.seq = { s.seq with txVal := d, bitCnt := 0, pollCnt := L + 1, ok := some false } ∧
      t.trace = (writeTrace c d (lateTrace s.params.readyLevel L)).reverse ++ s.trace := by
  intro c d t
  have ht : t = runItems ((writeFrameOf c).map (Item.mk il)) s := rfl
  clear_value t
  rw [writeFrameOf_eq, List.map_append, runItems_append, runItems_plain (writeSend_plain c) hh il hil, List.map_cons]
    at ht
  obtain ⟨a1, ⟨e, ha, a2⟩, a3, a4, a5, a6⟩ := run_writeSend (a := a) hp hcs hclk hb hw
  generalize runMicros (writeSend c) s = x at *
  have hxs : x.seq.hung = false := by rw [a4]; exact hh
  have hxi : il = true → x.seq.status ≠ .timeout := by rw [a4]; exact hil
  rw [runItems_poll hxs il hxi] at ht
  obtain ⟨f1, f2, f3, f4, f5⟩ := writing_frame ha hm
  rw [← a2] at f1 f2 f3 f4 f5
  have hstill : x.eep.busy = true ∧ (∀ j, x.eep.left = some j → L ≤ j) ∧ x.eep.mem = e.mem := by
    cases hmom : s.eep.moment s.draws with
    | none =>
      rw [hmom] at f5
      exact ⟨f5.1, by simp [f5.2.1], f5.2.2⟩
    | some k =>
      have := hk k hmom
      rw [hmom] at f5
      cases k with
      | zero => omega
      | succ k => exact ⟨f5.1, by rw [f5.2.1]; intro j hj; injection hj with hj; omega, f5.2.2.1⟩
  obtain ⟨r1, r2, r3⟩ := hstill
  have hpend0 : x.eep.pendAddr = a.setWidth 7 := by
    rw [a2, ← ha.pendAddr]
    unfold Eeprom.tick
    split <;> rfl
  have hpoll := poll_late (s := x) (by rw [a3]) (by rw [a4]) f1 f2 (by rw [r1]; rfl) (by rw [a1.params]; exact hL)
    (by rw [a4]) r2
  rw [hpoll, runItems_plain rfl (by exact hxs) il (by exact hxi), run_statusEnd (by rw [a3]) (by exact f1)] at ht
  clear hpoll
  simp only at ht
  have hg : ∀ g : Eeprom, g.mem = e.mem → g.pendAddr = a.setWidth 7 → g.times = s.eep.times.tail →
      (∃ y, g.tick.mem = s.eep.mem.writeHalf (a.toNat % 128) y) ∧ g.tick.pendAddr = a.setWidth 7 ∧
        g.tick.times = s.eep.times.tail := by
    intro g h1 h2 h3
    have hpend : (a.setWidth 7 : BitVec 7).toNat = a.toNat % 128 := by simp [BitVec.toNat_setWidth]
    unfold Eeprom.tick
    split
    · exact ⟨⟨_, by rw [h1, ha.mem]⟩, h2, h3⟩
    · refine ⟨?_, h2, h3⟩
      simp only [Eeprom.complete]
      split
      · exact ⟨g.pendData, by rw [h1, ha.mem, h2, hpend, Memory.writeHalf_writeHalf hm]⟩
      · exact ⟨_, by rw [h1, ha.mem]⟩
    · exact ⟨⟨_, by rw [h1, ha.mem]⟩, h2, h3⟩
  obtain ⟨g1, g2, g3⟩ := hg { x.eep with left := x.eep.left.map (· - L) } r3 hpend0 f4
  generalize Eeprom.tick { x.eep with left := x.eep.left.map (· - L) } = g at *
  subst ht
  refine ⟨a1.trans ⟨rfl, rfl, rfl, rfl, rfl, rfl, rfl, rfl, rfl⟩, g1, fun _ => g2, g3, ?_, ?_, ?_⟩
  · simp only; rw [a3]
  · simp only; rw [a4]
  · simp only; rw [a5, a1.params]; simp [writeTrace, c, d]

/-- A write frame on an enabled device that never completes, without a limit: the sequencer stands in the poll, and no
other word of the array changes (R143, R227). -/
theorem run_writeFrame_hang {a : Byte} {s : State} (hp : s.params.wellFormed = true) (hcs : s.lines.cs = false)
    (hclk : s.lines.clk = false) (hb : s.eep.busy = false) (hw : s.eep.wel = true)
    (hm : Memory.wf s.eep.mem = true) (hL : s.params.pollLimit = none)
    (hk : s.eep.moment s.draws = none) (hh : s.seq.hung = false) (il : Bool)
    (hil : il = true → s.seq.status ≠ .timeout) :
    let c := addressCommand s.params.opWrite a
    let d := s.seq.blk.setWidth 16
    let t := runItems ((writeFrameOf c).map (Item.mk il)) s
    WireOnly s t ∧ (∃ x, t.eep.mem = s.eep.mem.writeHalf (a.toNat % 128) x) ∧ t.eep.busy = true ∧
      t.eep.left = none ∧ t.eep.edges = 0 ∧ t.eep.afterWrite = true ∧
      t.lines = { s.lines with cs := true, clk := false, dOut := d.getLsbD 0 } ∧
      t.seq = { s.seq with
        txVal := d, bitCnt := 0, pollCnt := 2, ok := none, hung := true
        ahead := s.seq.ahead ++ [⟨il, .line .cs false⟩, ⟨il, .delay⟩] } := by
  intro c d t
  have ht : t = runItems ((writeFrameOf c).map (Item.mk il)) s := rfl
  clear_value t
  rw [writeFrameOf_eq, List.map_append, runItems_append, runItems_plain (writeSend_plain c) hh il hil, List.map_cons]
    at ht
  obtain ⟨a1, ⟨e, ha, a2⟩, a3, a4, a5, a6⟩ := run_writeSend (a := a) hp hcs hclk hb hw
  generalize runMicros (writeSend c) s = x at *
  have hxs : x.seq.hung = false := by rw [a4]; exact hh
  have hxi : il = true → x.seq.status ≠ .timeout := by rw [a4]; exact hil
  rw [runItems_poll hxs il hxi] at ht
  obtain ⟨f1, f2, f3, f4, f5⟩ := writing_frame ha hm
  rw [← a2] at f1 f2 f3 f4 f5
  rw [hk] at f5
  simp only at f5
  have hpoll := poll_hang (s := x) (by rw [a3]) (by rw [a4]) f1 f2 (by rw [f5.1]; rfl) (by rw [a1.params]; exact hL)
    f5.2.1
  rw [hpoll, runItems_hung (by rfl)] at ht
  clear hpoll
  subst ht
  refine ⟨a1.trans ⟨rfl, rfl, rfl, rfl, rfl, rfl, rfl, rfl, rfl⟩, ⟨_, by rw [← ha.mem]; exact f5.2.2⟩, f5.1, f5.2.1, f1,
    f2, ?_, ?_⟩
  · simp only [State.setSeq_lines]; rw [a3]
  · simp only [State.setSeq_seq]; rw [a4]; rfl

end Sys2Proof.Machine
end

