-- ==== Sys2Proof/Laws/WriteLoop.lean ====
section
/-! SUPPORT. What the write loop of the range adapter does, said once: the blocks written one after the other, the
block whose poll gives up, and the block whose poll does not end (R107, R158 to R161, R227). -/

namespace Sys2Proof.Machine

/-- Everything outside the device and the sequencer that the write loop leaves as it was. -/
structure WireSame (s u : State) : Prop where
  params : u.params = s.params
  plat : u.plat = s.plat
  fuse : u.fuse = s.fuse
  boot0 : u.boot0 = s.boot0
  sotp : u.sotp = s.sotp
  buf : u.buf = s.buf
  inbox : u.inbox = s.inbox
  disturb : u.disturb = s.disturb

theorem WireSame.wire {s u v : State} (h : WireSame s u) (k : WireOnly u v) : WireSame s v :=
  ⟨k.params.trans h.params, k.plat.trans h.plat, k.fuse.trans h.fuse, k.boot0.trans h.boot0, k.sotp.trans h.sotp,
    k.buf.trans h.buf, k.inbox.trans h.inbox, k.disturb.trans h.disturb⟩

/-- Where the write loop that began in `s` stands before block `i`: the blocks below `i` are stored. -/
structure Stored (s : State) (o l i : Nat) (u : State) : Prop where
  same : WireSame s u
  cs : u.lines.cs = false
  clk : u.lines.clk = false
  lock : u.lines.lock = s.lines.lock
  busy : u.eep.busy = false
  wel : u.eep.wel = true
  wf : u.eep.mem.wf = true
  below : u.eep.mem.below 256 = true
  bytes : ∀ k, u.eep.mem.read k = storedByte s o (done 2 o l i) k
  plan : PlanKept s.seq u.seq
  hung : u.seq.hung = false
  status : u.seq.status = .ok
  count : u.seq.count = done 2 o l i
  accesses : u.bufTrace = ((List.range (done 2 o l i)).map BufEvent.read).reverse ++ s.bufTrace

/-- The loop has stopped at block `e` with a time-out (R161). -/
structure Late (s : State) (o l e : Nat) (u : State) : Prop where
  same : WireSame s u
  cs : u.lines.cs = false
  clk : u.lines.clk = false
  lock : u.lines.lock = s.lines.lock
  wf : u.eep.mem.wf = true
  below : u.eep.mem.below 256 = true
  bytes : ∀ k, k / 2 ≠ e → u.eep.mem.read k = storedByte s o (done 2 o l e) k
  pending : u.eep.busy = true → u.eep.pendAddr.toNat = e
  phase : u.seq.phase = s.seq.phase
  irqSaved : u.seq.irqSaved = s.seq.irqSaved
  hung : u.seq.hung = false
  status : u.seq.status = .timeout
  count : u.seq.count = done 2 o l e
  block : u.seq.curBlock = e
  accesses : u.bufTrace = ((List.range (done 2 o l (e + 1))).map BufEvent.read).reverse ++ s.bufTrace

/-- The rest of the block loop once the poll of a block returns: the end of its status frame, its bytes count, and the
blocks `bs` follow (R107, R142). -/
def loopAhead (p : Params) (q : Sequencer) (bs : List Nat) : List Item :=
  inLoop [.line .cs false, .delay, .blockDone] ++ bs.flatMap fun i => inLoop (writeStep p q i)

/-- The sequencer stands in the poll of block `e`; the blocks `bs` are still to come (R227). -/
structure Hanging (s : State) (o l e : Nat) (bs : List Nat) (u : State) : Prop where
  same : WireSame s u
  cs : u.lines.cs = true
  clk : u.lines.clk = false
  lock : u.lines.lock = s.lines.lock
  bytes : ∀ k, k / 2 ≠ e → u.eep.mem.read k = storedByte s o (done 2 o l e) k
  busy : u.eep.busy = true
  left : u.eep.left = none
  frame : u.eep.edges = 0 ∧ u.eep.afterWrite = true
  phase : u.seq.phase = s.seq.phase
  hung : u.seq.hung = true
  ok : u.seq.ok = none
  irqSaved : u.seq.irqSaved = s.seq.irqSaved
  status : u.seq.status = .ok
  count : u.seq.count = done 2 o l e
  bytesOfBlock : u.seq.hi.toNat - u.seq.lo.toNat = done 2 o l (e + 1) - done 2 o l e
  ahead : u.seq.ahead = s.seq.ahead ++ loopAhead s.params s.seq bs

theorem Half.extract_high (a b : Byte) : (a ++ b : Half).extractLsb' 8 8 = a := by
  apply BitVec.eq_of_getLsbD_eq
  intro i hi
  rw [BitVec.getLsbD_extractLsb', BitVec.getLsbD_append, if_neg (by omega), Nat.add_sub_cancel_left]
  simp only [hi, decide_true, Bool.true_and]

theorem Half.extract_low (a b : Byte) : (a ++ b : Half).extractLsb' 0 8 = b := by
  apply BitVec.eq_of_getLsbD_eq
  intro i hi
  rw [BitVec.getLsbD_extractLsb', BitVec.getLsbD_append, if_pos (by omega), Nat.zero_add]
  simp only [hi, decide_true, Bool.true_and]

/-- `W_OFF` is at least 16 (D4). -/
theorem small_lt {p : Params} (hp : p.wellFormed = true) {n : Nat} (h : n < 65536) : n < 2 ^ p.wOff :=
  Nat.lt_of_lt_of_le h
    (Nat.pow_le_pow_right (n := 2) (by decide) (Params.wf_fields hp).2.2.2.2.2.2.2.2.2.2.2.1 : 2 ^ 16 ≤ 2 ^ p.wOff)

/-- The part of a round before its write frame. -/
def beforeWrite (p : Params) (q : Sequencer) (i : Nat) : List Micro :=
  .setBlock i :: .slice 2 :: (if q.partialBlock 2 i then readFrame p i else []) ++
    (q.positions 2 i).map (.spliceByte 2)

theorem writeStep_eq (p : Params) (q : Sequencer) (i : Nat) :
    writeStep p q i = beforeWrite p q i ++ (writeFrame p i ++ [.blockDone]) := by
  simp [writeStep, beforeWrite]

theorem beforeWrite_plain (p : Params) (q : Sequencer) (i : Nat) : (beforeWrite p q i).all Micro.plain = true := by
  have h2 := all_plain_map (Micro.spliceByte 2) (fun _ => rfl) (q.positions 2 i)
  simp only [beforeWrite, List.all_append, List.all_cons, h2]
  split
  · rw [readFrame, readFrameOf_plain]; rfl
  · rfl

/-- The pre-read and the splice (R158, R159): the data word of the block stands in `blk[15:0]`. -/
theorem run_beforeWrite {s u : State} {o l i : Nat} (hp : s.params.wellFormed = true) (hpl : Planned 2 o l s.seq)
    (hl : 0 < l) (ho : o + l ≤ 256) (h : Stored s o l i u) (hi : i ∈ blockRange 2 o l) :
    let v := runMicros (beforeWrite s.params s.seq i) u
    WireSame s v ∧ v.lines.cs = false ∧ v.lines.clk = false ∧ v.lines.lock = s.lines.lock ∧
      v.eep.mem = u.eep.mem ∧ v.eep.busy = false ∧ v.eep.wel = true ∧ v.eep.times = u.eep.times ∧
      PlanKept s.seq v.seq ∧ v.seq.hung = false ∧ v.seq.status = .ok ∧
      v.seq.count = u.seq.count ∧ v.seq.curBlock = i ∧
      v.seq.blk.setWidth 16 = storedWord s o l i ∧
      v.seq.hi.toNat - v.seq.lo.toNat = done 2 o l (i + 1) - done 2 o l i ∧
      v.bufTrace = ((List.range (done 2 o l (i + 1))).map BufEvent.read).reverse ++ s.bufTrace ∧
      v.trace = (preReadTrace s o l i).reverse ++ u.trace := by
  intro v
  have hi2 := (mem_blockRange hl).mp hi
  have hi' : i < 128 := by have := mem_blockRange_lt (.inl rfl) hl ho hi; omega
  have hv : v = (s.seq.positions 2 i).foldl (State.spliceByte 2)
      (runMicros (if s.seq.partialBlock 2 i then readFrame s.params i else [])
        (Micro.run (.slice 2) (Micro.run (.setBlock i) u))) := by
    simp only [v, beforeWrite, List.cons_append]
    rw [runMicros_cons, runMicros_cons, runMicros_append,
      runMicros_map (Micro.spliceByte 2) (State.spliceByte 2) (fun _ _ => rfl)]
  clear_value v
  -- the slice
  generalize hw : Micro.run (.slice 2) (Micro.run (.setBlock i) u) = w at hv
  have hnar : narrow u.params.wOff i = i := by
    rw [h.same.params]; exact narrow_eq (small_lt hp (by omega))
  have hw' : w = { u with seq := ({ u.seq with curBlock := i } : Sequencer).slice u.params 2 } := by
    rw [← hw, Micro.run, Micro.run, hnar]; rfl
  clear hw
  have hplu : Planned 2 o l ({ u.seq with curBlock := i } : Sequencer) := by
    have := h.plan.planned hpl
    exact ⟨this.offset, this.startBlock, this.startOff, this.endBlock, this.endRes⟩
  obtain ⟨s1, s2, s3, s4, s5, s6⟩ := slice_spec (p := u.params) (.inl rfl) hplu hl
    (by rw [h.same.params]; exact small_lt hp (by omega)) (i := i) rfl hi2.1 hi2.2
  have hwq : w.seq = ({ u.seq with curBlock := i } : Sequencer).slice u.params 2 := by rw [hw']
  rw [← hwq] at s1 s2 s3 s4 s5 s6
  have hws : WireSame s w := by rw [hw']; exact ⟨h.same.1, h.same.2, h.same.3, h.same.4, h.same.5, h.same.6, h.same.7, h.same.8⟩
  have hwk : PlanKept s.seq w.seq := by
    rw [hwq]
    exact ⟨h.plan.phase, h.plan.reqOffset, h.plan.startBlock, h.plan.startOff, h.plan.endBlock, h.plan.endRes,
      h.plan.protChanged, h.plan.irqSaved, h.plan.hung, h.plan.ahead, h.plan.status⟩
  -- the pre-read
  have hx : ∃ x, x = runMicros (if s.seq.partialBlock 2 i then readFrame s.params i else []) w ∧
      WireOnly w x ∧ x.lines.cs = false ∧ x.lines.clk = false ∧ x.lines.lock = s.lines.lock ∧
      x.eep.mem = u.eep.mem ∧ x.eep.busy = false ∧ x.eep.wel = true ∧ x.eep.times = u.eep.times ∧
      PlanKept w.seq x.seq ∧ x.seq.count = w.seq.count ∧ x.seq.curBlock = w.seq.curBlock ∧ x.seq.lo = w.seq.lo ∧
      x.seq.hi = w.seq.hi ∧ x.seq.bufpos = w.seq.bufpos ∧
      (∀ p, p < 2 → ¬ (w.seq.lo.toNat ≤ p ∧ p < w.seq.hi.toNat) → blockByte 2 p x.seq.blk = u.eep.mem.read (2 * i + p)) ∧
      x.trace = (preReadTrace s o l i).reverse ++ u.trace := by
    refine ⟨_, rfl, ?_⟩
    have hpart := partialBlock_iff (.inl rfl) hpl hl hi2.1 hi2.2
    by_cases hpb : s.seq.partialBlock 2 i = true
    · rw [if_pos hpb]
      have hnot : ¬ (o ≤ 2 * i ∧ 2 * i + 2 ≤ o + l) := by
        have := hpart.mp hpb
        omega
      have hrf : readFrame s.params i = readFrameOf (addressCommand w.params.opRead (BitVec.ofNat 8 i)) := by
        rw [hws.params, readFrame, readCommand_eq]
      have hwe : w.eep = u.eep := by rw [hw']
      have H := run_readFrame (a := BitVec.ofNat 8 i) (s := w) (by rw [hws.params]; exact hp)
        (by rw [hw']; exact h.cs) (by rw [hw']; exact h.clk) (by rw [hwe]; exact h.busy)
      have hcmd : addressCommand w.params.opRead (BitVec.ofNat 8 i) = readCommand s.params i := by
        rw [hws.params, readCommand_eq]
      rw [hcmd] at hrf
      simp only [hcmd, ← hrf, blockAddress hi', hwe] at H
      clear hrf
      generalize runMicros (readFrame s.params i) w = x at *
      obtain ⟨a1, a2, a3, a4, a5, a6, a7⟩ := H
      refine ⟨a1, by rw [a4], by rw [a4], by rw [a4, hw']; exact h.lock, a2.mem, a2.busy, by rw [a3]; exact h.wel,
        a2.times, ?_, by rw [a5], by rw [a5], by rw [a5], by rw [a5], by rw [a5], ?_, ?_⟩
      · rw [a5]; exact ⟨rfl, rfl, rfl, rfl, rfl, rfl, rfl, rfl, rfl, rfl, rfl⟩
      · intro p hp2 _
        rw [a5]
        exact blockByte_half _ _ _ hp2
      · rw [a6, preReadTrace, if_neg hnot]
        have hhalf : u.eep.mem.half i = s.eep.mem.half i := by
          have hd : o + done 2 o l i = max o (2 * i) := by unfold done; omega
          simp only [Memory.half, h.bytes, storedByte, hd]
          rw [if_neg (by omega), if_neg (by omega)]
        rw [hhalf, hw']
    · rw [if_neg hpb]
      have hyes : o ≤ 2 * i ∧ 2 * i + 2 ≤ o + l := by
        rw [hpart] at hpb
        omega
      refine ⟨WireOnly.refl w, by rw [runMicros_nil, hw']; exact h.cs, by rw [runMicros_nil, hw']; exact h.clk,
        by rw [runMicros_nil, hw']; exact h.lock, by rw [runMicros_nil, hw'], by rw [runMicros_nil, hw']; exact h.busy,
        by rw [runMicros_nil, hw']; exact h.wel, by rw [runMicros_nil, hw'], PlanKept.refl _, rfl, rfl, rfl, rfl, rfl, ?_,
        ?_⟩
      · intro p hp2 hn
        exfalso
        apply hn
        rw [s1, s2]
        omega
      · rw [runMicros_nil, preReadTrace, if_pos hyes, hw']; rfl
  obtain ⟨x, hxe, c1, c2, c3, c4, c5, c6, c7, c8, c9, c10, c11, c12, c13, c14, c15, c16⟩ := hx
  rw [← hxe] at hv
  clear hxe
  -- the splice
  have hn0 : w.seq.hi.toNat - w.seq.lo.toNat = done 2 o l (i + 1) - done 2 o l i := by omega
  obtain ⟨z, d1, d2⟩ := run_splice (.inl rfl) (x.seq.hi.toNat - x.seq.lo.toNat) x.seq.lo.toNat x (Nat.le_refl _)
    (by rw [c12, c13]; omega)
  have hvx : v = { x with
      seq := { x.seq with blk := z }
      bufTrace := ((List.range' x.seq.bufpos (x.seq.hi.toNat - x.seq.lo.toNat)).map BufEvent.read).reverse ++
        x.bufTrace } := by
    rw [hv, positions_eq (.inl rfl) hpl hl hi2.1 hi2.2, ← s1, ← hn0, ← c12, ← c13]
    refine d1.trans ?_
    simp
  clear hv d1
  have hxs := hws.wire c1
  have hn : x.seq.hi.toNat - x.seq.lo.toNat = done 2 o l (i + 1) - done 2 o l i := by rw [c12, c13]; omega
  have hb0 : x.seq.bufpos = done 2 o l i := by rw [c14]; exact s3
  have hword : z.setWidth 16 = storedWord s o l i := by
    rw [← blockBytes_half, storedWord]
    have hbyte : ∀ p, p < 2 → blockByte 2 p z = storedByte s o l (2 * i + p) := by
      intro p hp2
      rw [d2 p hp2]
      have hlo : x.seq.lo.toNat = max o (i * 2) - i * 2 := by rw [c12]; exact s1
      have hhi : x.seq.lo.toNat + (x.seq.hi.toNat - x.seq.lo.toNat) = min (o + l) (i * 2 + 2) - i * 2 := by
        rw [c12, c13]; omega
      rw [hhi, hb0, Nat.sub_self, Nat.add_zero]
      split
      next hin =>
        rw [storedByte, if_pos (by omega), hxs.buf]
        congr 1
        unfold done
        omega
      next hout =>
        rw [c15 p hp2 (by rw [← c12, ← c13]; omega), h.bytes, storedByte, storedByte]
        have hd : o + done 2 o l i = max o (2 * i) := by unfold done; omega
        rw [hd, if_neg (by omega), if_neg (by omega)]
    rw [hbyte 0 (by omega), hbyte 1 (by omega)]
    rfl
  subst hvx
  refine ⟨⟨hxs.1, hxs.2, hxs.3, hxs.4, hxs.5, hxs.6, hxs.7, hxs.8⟩, c2, c3, c4, c5, c6, c7, c8, ?_, ?_, ?_, ?_, ?_, hword,
    ?_, ?_, c16⟩
  · have := hwk.trans c9
    exact ⟨this.1, this.2, this.3, this.4, this.5, this.6, this.7, this.8, this.9, this.10, this.11⟩
  · exact (hwk.trans c9).hung.trans (by rw [← h.plan.hung]; exact h.hung)
  · exact (hwk.trans c9).status.trans (by rw [← h.plan.status]; exact h.status)
  · exact c10.trans (by rw [hwq]; rfl)
  · exact c11.trans (by rw [hwq]; rfl)
  · exact hn
  · simp only
    rw [hn, hb0, c1.bufTrace, hw']
    simp only
    rw [h.accesses, ← List.append_assoc, ← List.reverse_append, ← List.map_append]
    congr 3
    have e : done 2 o l (i + 1) = done 2 o l i + (done 2 o l (i + 1) - done 2 o l i) := by omega
    have e2 : List.range' (done 2 o l i) (done 2 o l (i + 1) - done 2 o l i) =
        List.range' (0 + done 2 o l i) (done 2 o l (i + 1) - done 2 o l i) := by rw [Nat.zero_add]
    rw [List.range_eq_range', List.range_eq_range', e2, List.range'_append_1, ← e]

/-- What a word store does to the bytes stored so far. -/
theorem stored_bytes {s : State} {o l i : Nat} {m : Memory} (hl : 0 < l) (hi : i ∈ blockRange 2 o l)
    (hm : m.wf = true) (h : ∀ k, m.read k = storedByte s o (done 2 o l i) k) :
    ∀ k, (m.writeHalf i (storedWord s o l i)).read k = storedByte s o (done 2 o l (i + 1)) k := by
  intro k
  have hi2 := (mem_blockRange hl).mp hi
  rw [Memory.read_writeHalf hm, storedWord, Half.extract_high, Half.extract_low, h]
  have hd : o + done 2 o l i = max o (2 * i) := by unfold done; omega
  have hd' : o + done 2 o l (i + 1) = min (o + l) (2 * i + 2) := by unfold done; omega
  simp only [storedByte, hd, hd']
  by_cases h0 : k = 2 * i
  · rw [if_pos h0]
    subst h0
    by_cases hin : o ≤ 2 * i ∧ 2 * i < o + l
    · rw [if_pos hin, if_pos (by omega)]
    · rw [if_neg hin, if_neg (by omega)]
  · rw [if_neg h0]
    by_cases h1 : k = 2 * i + 1
    · rw [if_pos h1]
      subst h1
      by_cases hin : o ≤ 2 * i + 1 ∧ 2 * i + 1 < o + l
      · rw [if_pos hin, if_pos (by omega)]
      · rw [if_neg hin, if_neg (by omega)]
    · rw [if_neg h1]
      by_cases hin : o ≤ k ∧ k < max o (2 * i)
      · rw [if_pos hin, if_pos (by omega)]
      · rw [if_neg hin, if_neg (by omega)]

/-- The end of a block (R107, R160, R161). -/
theorem runItems_blockDone {s : State} (hh : s.seq.hung = false) (hs : s.seq.status = .ok) :
    runItems (inLoop [.blockDone]) s =
      if s.seq.ok = some true then
        { s with seq := { s.seq with count := narrow s.params.wOff (s.seq.count + (s.seq.hi.toNat - s.seq.lo.toNat)) } }
      else { s with seq := { s.seq with status := .timeout } } := by
  simp only [inLoop, List.map_cons, List.map_nil, runItems_cons, runItems_nil, Item.run, hh, hs, Micro.run]
  rw [Bool.true_and, if_neg (by decide), if_neg (by decide)]
  simp only [State.setSeq, Sequencer.counted, hh, hs]

/-- The environment's choice for the writes agrees with the samples the polls took. -/
def Agree (times : List (Option Nat)) (ks : List Nat) : Prop :=
  ∀ (j : Nat) x k, times[j]? = some x → ks[j]? = some k → x = some k

/-- The environment's choice for write number `j` is a moment beyond the last of `L + 1` samples. -/
def Beyond (times : List (Option Nat)) (j L : Nat) : Prop := ∀ k, times[j]? = some (some k) → L < k

/-- The environment's choice for write number `j`, if it made one, is never. -/
def Never (times : List (Option Nat)) (j : Nat) : Prop := ∀ x, times[j]? = some x → x = none

theorem agree_nil (times : List (Option Nat)) : Agree times [] := by
  intro j x k _ hk
  simp at hk

theorem agree_cons {times : List (Option Nat)} {k : Nat} {ks : List Nat} (h0 : ∀ x, times[0]? = some x → x = some k)
    (h : Agree times.tail ks) : Agree times (k :: ks) := by
  intro j x k' hx hk
  cases j with
  | zero =>
    simp only [List.getElem?_cons_zero, Option.some.injEq] at hk
    rw [← hk]
    exact h0 x hx
  | succ j =>
    exact h j x k' (by rw [List.getElem?_tail]; exact hx) (by simpa using hk)

/-- One round of the write loop: the block is stored, or its poll gives up, or its poll does not end. -/
theorem run_writeStep {s u : State} {o l i : Nat} (hp : s.params.wellFormed = true) (hpl : Planned 2 o l s.seq)
    (hl : 0 < l) (ho : o + l ≤ 256) (h : Stored s o l i u) (hi : i ∈ blockRange 2 o l) :
    let t := runItems (inLoop (writeStep s.params s.seq i)) u
    (∃ k, Stored s o l (i + 1) t ∧ t.trace = (blockWriteTrace s o l i k).reverse ++ u.trace ∧
      t.eep.times = u.eep.times.tail ∧ LimitAllows s.params 0 k ∧ ∀ x, u.eep.times[0]? = some x → x = some k) ∨
    (∃ L, s.params.pollLimit = some (L + 1) ∧ Late s o l i t ∧
      t.trace = (blockLateTrace s o l i L).reverse ++ u.trace ∧ Beyond u.eep.times 0 L) ∨
    (Hanging s o l i [] t ∧ s.params.pollLimit = none ∧ Never u.eep.times 0) := by
  intro t
  have hi2 := (mem_blockRange hl).mp hi
  have hi' : i < 128 := by have := mem_blockRange_lt (.inl rfl) hl ho hi; omega
  have ht : t = runItems (inLoop [.blockDone]) (runItems ((writeFrame s.params i).map (Item.mk true))
      (runMicros (beforeWrite s.params s.seq i) u)) := by
    simp only [t, writeStep_eq, inLoop, List.map_append]
    rw [runItems_append, runItems_append]
    rw [show runItems (List.map (Item.mk true) (beforeWrite s.params s.seq i)) u = _ from
      runItems_inLoop (beforeWrite_plain _ _ _) h.hung (by rw [h.status]; decide)]
  clear_value t
  obtain ⟨a1, a2, a3, a4, a5, a6, a7, a8, a9, a10, a11, a12, a13, a14, a15, a16, a17⟩ :=
    run_beforeWrite hp hpl hl ho h hi
  generalize runMicros (beforeWrite s.params s.seq i) u = v at *
  have hvp : v.params.wellFormed = true := by rw [a1.params]; exact hp
  have hfr : writeFrame s.params i = writeFrameOf (addressCommand v.params.opWrite (BitVec.ofNat 8 i)) := by
    rw [a1.params]; rfl
  have hcmd : addressCommand v.params.opWrite (BitVec.ofNat 8 i) = writeCommand s.params i := by
    rw [a1.params]; rfl
  have hmv : v.eep.mem.wf = true := by rw [a5]; exact h.wf
  have hil : true = true → v.seq.status ≠ .timeout := by intro _; rw [a11]; decide
  have htimes : ∀ x, u.eep.times[0]? = some x → v.eep.moment v.draws = x := by
    intro x hx
    cases hu : u.eep.times with
    | nil => simp [hu] at hx
    | cons y ts =>
      simp only [hu, List.getElem?_cons_zero, Option.some.injEq] at hx
      simp [Eeprom.moment, a8, hu, hx]
  have hdone : done 2 o l i ≤ done 2 o l (i + 1) := by unfold done; omega
  have hpend : (BitVec.setWidth 7 (BitVec.ofNat 8 i : Byte)).toNat = i := by
    simp only [BitVec.toNat_setWidth, BitVec.toNat_ofNat]; omega
  have hother : ∀ x k, k / 2 ≠ i → (u.eep.mem.writeHalf i x).read k = storedByte s o (done 2 o l i) k := by
    intro x k hk
    rw [Memory.read_writeHalf h.wf, if_neg (by omega), if_neg (by omega), h.bytes]
  by_cases hready : ∃ k, v.eep.moment v.draws = some k ∧ LimitAllows v.params 0 k
  · -- the device is ready in time
    obtain ⟨k, hk, hlim⟩ := hready
    have H := run_writeFrame (a := BitVec.ofNat 8 i) hvp a2 a3 a6 a7 hmv hk hlim a10 true hil
    simp only [hcmd, a14, blockAddress hi', a5] at H
    rw [hfr, hcmd] at ht
    generalize runItems ((writeFrameOf (writeCommand s.params i)).map (Item.mk true)) v = w at *
    obtain ⟨b1, b2, b3, b4, b5, b6, b7, b8, b9⟩ := H
    rw [runItems_blockDone (by rw [b7]; exact a10) (by rw [b7]; exact a11), if_pos (by rw [b7])] at ht
    have hws := a1.wire b1
    have hcount : narrow w.params.wOff (w.seq.count + (w.seq.hi.toNat - w.seq.lo.toNat)) = done 2 o l (i + 1) := by
      rw [hws.params, b7]
      simp only
      rw [a15, a12, h.count, Nat.add_sub_cancel' hdone]
      refine narrow_eq (small_lt hp ?_)
      rw [done]; omega
    subst ht
    refine .inl ⟨k, ⟨⟨hws.1, hws.2, hws.3, hws.4, hws.5, hws.6, hws.7, hws.8⟩, ?_, ?_, ?_, b3, b4, ?_, ?_, ?_, ?_, ?_, ?_,
      hcount, ?_⟩, ?_, ?_, by rw [← a1.params]; exact hlim, ?_⟩
    · simp only; rw [b6]
    · simp only; rw [b6]
    · simp only; rw [b6]; exact a4
    · simp only; rw [b2]; exact Memory.writeHalf_wf h.wf _ _
    · simp only; rw [b2]; exact Memory.writeHalf_below h.below (by omega) _
    · intro j
      simp only
      rw [b2]
      exact stored_bytes hl hi h.wf h.bytes j
    · simp only
      rw [b7]
      exact ⟨a9.1, a9.2, a9.3, a9.4, a9.5, a9.6, a9.7, a9.8, a9.9, a9.10, a9.11⟩
    · simp only; rw [b7]; exact a10
    · simp only; rw [b7]; exact a11
    · simp only; rw [b1.bufTrace, a16]
    · simp only
      rw [b8, a17, a1.params, blockWriteTrace]
      simp
    · simp only; rw [b5, a8]
    · intro x hx
      rw [← htimes x hx, hk]
  · cases hpl' : s.params.pollLimit with
    | some L' =>
      -- the device is not ready at the last allowed sample
      obtain ⟨L, rfl⟩ : ∃ L, L' = L + 1 := by
        have hz := (Params.wf_fields hp).2.2.2.2.2.2.2.2.2.2.2.2.2.2.2.2.2.2
        rw [hpl'] at hz
        refine ⟨L' - 1, ?_⟩
        have : L' ≠ 0 := fun e => hz (by rw [e])
        omega
      have hlate : ∀ k, v.eep.moment v.draws = some k → L < k := by
        intro k hk
        by_contra hc
        exact hready ⟨k, hk, by intro M hM; rw [a1.params, hpl'] at hM; injection hM with hM; omega⟩
      have H := run_writeFrame_late (a := BitVec.ofNat 8 i) hvp a2 a3 a6 a7 hmv (by rw [a1.params]; exact hpl') hlate a10
        true hil
      simp only [hcmd, a14, blockAddress hi', a5] at H
      rw [hfr, hcmd] at ht
      generalize runItems ((writeFrameOf (writeCommand s.params i)).map (Item.mk true)) v = w at *
      obtain ⟨b1, ⟨x, b2⟩, b3, b4, b5, b6, b7⟩ := H
      rw [runItems_blockDone (by rw [b6]; exact a10) (by rw [b6]; exact a11), if_neg (by rw [b6]; simp)] at ht
      have hws := a1.wire b1
      subst ht
      refine .inr (.inl ⟨L, rfl, ⟨⟨hws.1, hws.2, hws.3, hws.4, hws.5, hws.6, hws.7, hws.8⟩, ?_, ?_, ?_, ?_, ?_, ?_, ?_, ?_,
        ?_, ?_, rfl, ?_, ?_, ?_⟩, ?_, ?_⟩)
      · simp only; rw [b5]
      · simp only; rw [b5]
      · simp only; rw [b5]; exact a4
      · simp only; rw [b2]; exact Memory.writeHalf_wf h.wf _ _
      · simp only; rw [b2]; exact Memory.writeHalf_below h.below (by omega) _
      · intro k hk
        simp only
        rw [b2]
        exact hother x k hk
      · intro hb
        simp only
        rw [b3 hb, hpend]
      · simp only; rw [b6]; exact a9.phase
      · simp only; rw [b6]; exact a9.irqSaved
      · simp only; rw [b6]; exact a10
      · simp only; rw [b6]; simp only; rw [a12, h.count]
      · simp only; rw [b6]; exact a13
      · simp only; rw [b1.bufTrace, a16]
      · simp only
        rw [b7, a17, a1.params, blockLateTrace]
        simp
      · exact fun k hk => hlate k (htimes _ hk)
    | none =>
      -- the device never completes
      have hnone : v.eep.moment v.draws = none := by
        cases hm : v.eep.moment v.draws with
        | none => rfl
        | some k => exact absurd ⟨k, hm, by intro M hM; rw [a1.params, hpl'] at hM; simp at hM⟩ hready
      have H := run_writeFrame_hang (a := BitVec.ofNat 8 i) hvp a2 a3 a6 a7 hmv (by rw [a1.params]; exact hpl') hnone a10
        true hil
      simp only [hcmd, a14, blockAddress hi', a5] at H
      rw [hfr, hcmd] at ht
      generalize runItems ((writeFrameOf (writeCommand s.params i)).map (Item.mk true)) v = w at *
      obtain ⟨b1, ⟨x, b2⟩, b3, b4, b5, b6, b7, b8⟩ := H
      have hws := a1.wire b1
      rw [runItems_hung (by rw [b8])] at ht
      subst ht
      have hls : w.lines.cs = true ∧ w.lines.clk = false ∧ w.lines.lock = s.lines.lock := by rw [b7]; exact ⟨rfl, rfl, a4⟩
      have hqs : w.seq.phase = s.seq.phase ∧ w.seq.hung = true ∧ w.seq.ok = none ∧ w.seq.irqSaved = s.seq.irqSaved ∧
          w.seq.status = .ok ∧ w.seq.count = done 2 o l i ∧
          w.seq.hi.toNat - w.seq.lo.toNat = done 2 o l (i + 1) - done 2 o l i := by
        rw [b8]; exact ⟨a9.phase, rfl, rfl, a9.irqSaved, a11, a12.trans h.count, a15⟩
      refine .inr (.inr ⟨⟨⟨hws.1, hws.2, hws.3, hws.4, hws.5, hws.6, hws.7, hws.8⟩, hls.1, hls.2.1, hls.2.2, ?_, b3, b4,
        ⟨b5, b6⟩, hqs.1, hqs.2.1, hqs.2.2.1, hqs.2.2.2.1, hqs.2.2.2.2.1, hqs.2.2.2.2.2.1, hqs.2.2.2.2.2.2, ?_⟩,
        rfl, ?_⟩)
      · intro k hk
        simp only [State.setSeq_eep]
        rw [b2]
        exact hother x k hk
      · simp only [State.setSeq_seq]
        rw [b8]
        simp only [a9.ahead, List.append_assoc]
        rfl
      · exact fun x hx => by rw [← htimes x hx, hnone]

/-- Every micro-operation of a round waits for a poll the sequencer stands in. -/
theorem filter_waits_steps (p : Params) (q : Sequencer) (bs : List Nat) :
    (bs.flatMap fun i => inLoop (writeStep p q i)).filter Item.waits = bs.flatMap fun i => inLoop (writeStep p q i) := by
  rw [List.filter_eq_self]
  intro it hit
  obtain ⟨i, _, hit⟩ := List.mem_flatMap.mp hit
  obtain ⟨m, hm, rfl⟩ := List.mem_map.mp hit
  rw [writeStep_eq, writeFrame, writeFrameOf_eq] at hm
  simp only [List.mem_append, List.mem_cons, List.not_mem_nil, or_false] at hm
  rcases hm with hm | (hm | rfl | rfl | rfl) | rfl
  · exact waits_plain (List.all_eq_true.mp (beforeWrite_plain p q i) m hm)
  · exact waits_plain (List.all_eq_true.mp (writeSend_plain _) m hm)
  all_goals rfl

/-- Once the loop has stopped, its remaining rounds are passed over (R161). -/
theorem runItems_steps_late {s : State} (hh : s.seq.hung = false) (h : s.seq.status = .timeout) (f : Nat → List Micro) (is : List Nat) :
    runItems (is.flatMap fun i => inLoop (f i)) s = s := by
  induction is with
  | nil => rfl
  | cons i is ih => rw [List.flatMap_cons, runItems_append, runItems_inLoop_timeout hh h, ih]

/-- The rounds of the write loop from block `i` on. -/
theorem run_writeSteps {s : State} {o l : Nat} (hp : s.params.wellFormed = true) (hpl : Planned 2 o l s.seq)
    (hl : 0 < l) (ho : o + l ≤ 256) (n i : Nat) {u : State} (h : Stored s o l i u) (h1 : o / 2 ≤ i)
    (h2 : i + n = (o + l - 1) / 2 + 1) :
    let t := runItems ((List.range' i n).flatMap fun i => inLoop (writeStep s.params s.seq i)) u
    (∃ ks, ks.length = n ∧ Stored s o l (i + n) t ∧ t.trace = (blocksTrace s o l i ks).reverse ++ u.trace ∧
      t.eep.times = u.eep.times.drop n ∧ (∀ k ∈ ks, LimitAllows s.params 0 k) ∧ Agree u.eep.times ks) ∨
    (∃ ks L, ks.length < n ∧ s.params.pollLimit = some (L + 1) ∧ Late s o l (i + ks.length) t ∧
      t.trace = (blocksTrace s o l i ks ++ blockLateTrace s o l (i + ks.length) L).reverse ++ u.trace ∧
      (∀ k ∈ ks, LimitAllows s.params 0 k) ∧ Agree u.eep.times ks ∧ Beyond u.eep.times ks.length L) ∨
    (∃ ks : List Nat, ks.length < n ∧ Hanging s o l (i + ks.length) (List.range' (i + ks.length + 1) (n - 1 - ks.length)) t ∧ s.params.pollLimit = none ∧
      Agree u.eep.times ks ∧ Never u.eep.times ks.length) := by
  induction n generalizing i u with
  | zero =>
    exact .inl ⟨[], rfl, h, rfl, rfl, by simp, agree_nil _⟩
  | succ n ih =>
    intro t
    have hi : i ∈ blockRange 2 o l := (mem_blockRange hl).mpr ⟨h1, by omega⟩
    have ht : t = runItems ((List.range' (i + 1) n).flatMap fun i => inLoop (writeStep s.params s.seq i))
        (runItems (inLoop (writeStep s.params s.seq i)) u) := by
      simp only [t, List.range'_succ, List.flatMap_cons]
      rw [runItems_append]
    clear_value t
    have hstep := run_writeStep hp hpl hl ho h hi
    generalize runItems (inLoop (writeStep s.params s.seq i)) u = v at *
    rcases hstep with ⟨k, b1, b2, b3, b5, b4⟩ | ⟨L, b0, b1, b2, b3⟩ | ⟨b1, b2, b3⟩
    · have hrest := ih (i + 1) b1 (by omega) (by omega)
      rw [← ht] at hrest
      have hnext : ∀ ks : List Nat, i + (ks.length + 1) = i + 1 + ks.length := by intro ks; omega
      have hlim : ∀ ks : List Nat, (∀ j ∈ ks, LimitAllows s.params 0 j) → ∀ j ∈ k :: ks, LimitAllows s.params 0 j := by
        intro ks hks j hj
        rcases List.mem_cons.mp hj with rfl | hj
        · exact b5
        · exact hks j hj
      have hat : ∀ j, v.eep.times[j]? = u.eep.times[j + 1]? := by intro j; rw [b3, List.getElem?_tail]
      rcases hrest with ⟨ks, c1, c2, c3, c4, c6, c5⟩ | ⟨ks, L, c1, c0, c2, c3, c6, c4, c5⟩ | ⟨ks, c1, c2, c3, c4, c5⟩
      · refine .inl ⟨k :: ks, by simp [c1], by rw [show i + (n + 1) = i + 1 + n by omega]; exact c2, ?_, ?_, hlim ks c6,
          agree_cons b4 (by rw [← b3]; exact c5)⟩
        · rw [c3, b2, blocksTrace]; simp
        · rw [c4, b3]; simp
      · refine .inr (.inl ⟨k :: ks, L, by simp; omega, c0, ?_, ?_, hlim ks c6,
          agree_cons b4 (by rw [← b3]; exact c4), fun j hj => c5 j (by rw [hat]; exact hj)⟩)
        · rw [List.length_cons, hnext]; exact c2
        · rw [c3, b2, blocksTrace, List.length_cons, hnext]; simp
      · refine .inr (.inr ⟨k :: ks, by simp; omega, ?_, c3, agree_cons b4 (by rw [← b3]; exact c4),
          fun x hx => c5 x (by rw [hat]; exact hx)⟩)
        rw [List.length_cons, hnext, show n + 1 - 1 - (ks.length + 1) = n - 1 - ks.length by omega]; exact c2
    · rw [runItems_steps_late b1.hung b1.status] at ht
      subst ht
      exact .inr (.inl ⟨[], L, by simp, b0, by simpa using b1, by rw [b2]; simp [blocksTrace], by simp,
        agree_nil _, b3⟩)
    · rw [runItems_hung b1.hung, filter_waits_steps] at ht
      subst ht
      have k := b1.same
      refine .inr (.inr ⟨[], by simp, ⟨⟨k.1, k.2, k.3, k.4, k.5, k.6, k.7, k.8⟩, b1.cs, b1.clk, b1.lock, b1.bytes, b1.busy, b1.left, b1.frame, b1.phase,
        b1.hung, b1.ok, b1.irqSaved, b1.status, b1.count, b1.bytesOfBlock, ?_⟩, b2, agree_nil _, b3⟩)
      simp [b1.ahead, loopAhead]

end Sys2Proof.Machine
end

