-- ==== Sys2Proof/Laws/Writes.lean ====
section
/-! SUPPORT. What the items of `SEEPROM.WRITE` do from a planned request on: the lock, the envelope, the blocks, and the
closing steps, with the three ways the operation can go (R155 to R164, R227). -/

namespace Sys2Proof.Machine

/-! ### The opening -/

/-- The lock, the preamble and the enable-writes frame (R156, R139, R157), the device free. -/
theorem run_writeOpen {s : State} (hp : s.params.wellFormed = true) (hcs : s.lines.cs = false)
    (hb : s.eep.busy = false) :
    let t := runMicros (.setPhase .opening :: .lockIrq :: preamble ++ enableFrame s.params) s
    t.params = s.params ∧ t.fuse = s.fuse ∧ t.boot0 = s.boot0 ∧ t.sotp = s.sotp ∧ t.buf = s.buf ∧
      t.bufTrace = s.bufTrace ∧ t.inbox = s.inbox ∧ t.disturb = s.disturb ∧
      t.plat = { s.plat with irqEnable := false } ∧
      t.lines.cs = false ∧ t.lines.clk = false ∧ t.lines.lock = true ∧
      FrameKept s.eep t.eep ∧ t.eep.wel = true ∧
      t.seq = { s.seq with
        phase := .opening, irqSaved := s.plat.irqEnable, txVal := s.params.opEwen.setWidth 16, bitCnt := 0 } ∧
      t.trace = (preambleTrace ++ controlTrace s.params.opEwen 11).reverse ++ s.trace := by
  intro t
  have ht : t = runMicros (controlFrame s.params.opEwen 11)
      (runMicros preamble (Micro.run .lockIrq (Micro.run (.setPhase .opening) s))) := by
    simp only [t, enableFrame, List.cons_append]
    rw [runMicros_cons, runMicros_cons, runMicros_append]
  clear_value t
  rw [run_preamble (by exact hcs)] at ht
  generalize hw : State.mk _ _ _ _ _ _ _ _ _ _ _ _ _ _ = w at ht
  have hw' : w = { s with
      seq := { s.seq with phase := .opening, irqSaved := s.plat.irqEnable }
      plat := { s.plat with irqEnable := false }
      lines := { s.lines with cs := false, clk := false, lock := true }
      eep := s.eep.tick
      trace := preambleTrace.reverse ++ s.trace } := by rw [← hw]; rfl
  clear hw
  obtain ⟨k, kw⟩ := tick_frameKept hb
  have hdec : decodeCommand w.params s.params.opEwen = .ewen 0 := by
    have := decodeCommand_ewen hp 0
    rw [controlCommand_zero] at this
    rw [hw']
    exact this
  have H := run_controlFrame (c := s.params.opEwen) (s := w) (by rw [hw']) (by rw [hw']) (by rw [hw']; exact k.busy)
    (.inl ⟨0, hdec⟩)
  simp only [← ht] at H
  obtain ⟨a1, a2, a3, a4, a5, a6, a7⟩ := H
  clear ht
  rw [welAfter, hdec] at a3
  rw [hw'] at a1 a2 a4 a5 a6
  exact ⟨a1.params, a1.fuse, a1.boot0, a1.sotp, a1.buf, a1.bufTrace, a1.inbox, a1.disturb, a1.plat, by rw [a4],
    by rw [a4], by rw [a4], ⟨a2.mem.trans k.mem, a2.busy, a2.pendAddr.trans k.pendAddr, a2.pendData.trans k.pendData,
      a2.times.trans k.times⟩, a3, a5, by rw [a6]; simp⟩

/-! ### The closing -/

/-- The platform registers after the unlock (R163, R192): nothing has changed. -/
theorem unlock_plat {s u : State} (hu : u.plat = { s.plat with irqEnable := false })
    (hq : u.seq.irqSaved = s.plat.irqEnable) (hpend : s.plat.irqPending = true → s.plat.irqEnable = false) :
    u.unlockIrq = { u with plat := s.plat, lines := { u.lines with lock := false } } := by
  have hplat : ({ u.plat with irqEnable := u.seq.irqSaved } : Platform) = s.plat := by rw [hu, hq]
  have hno : (s.plat.irqEnable && s.plat.irqPending) = false := by
    cases h : s.plat.irqPending with
    | false => simp
    | true => simp [hpend h]
  simp only [State.unlockIrq, State.setPlat, State.setLines, hplat, State.takePending, hno]
  rfl

/-- The closing steps after a successful loop (R162, R163). -/
theorem run_writeClose {s u : State} (hp : u.params.wellFormed = true) (hcs : u.lines.cs = false)
    (hclk : u.lines.clk = false) (hb : u.eep.busy = false) (hh : u.seq.hung = false) (hs : u.seq.status = .ok)
    (hu : u.plat = { s.plat with irqEnable := false }) (hq : u.seq.irqSaved = s.plat.irqEnable)
    (hpend : s.plat.irqPending = true → s.plat.irqEnable = false) :
    let t := runItems (always (.setPhase .closing :: disableFrame u.params ++ [.afterTimeout, .unlockIrq, .finish])) u
    Returned t u.seq.count .ok ∧
      (t.params = u.params ∧ t.fuse = u.fuse ∧ t.boot0 = u.boot0 ∧ t.sotp = u.sotp ∧ t.buf = u.buf ∧
        t.bufTrace = u.bufTrace ∧ t.inbox = u.inbox ∧ t.disturb = u.disturb) ∧
      t.plat = s.plat ∧ t.lines = Lines.reset ∧ FrameKept u.eep t.eep ∧ t.eep.wel = false ∧
      t.trace = (controlTrace u.params.opEwds 11).reverse ++ u.trace := by
  intro t
  have h11 := (Params.wf_fields hp).2.2.2.2.2.2.2.2.2.2.1
  have hz := (Params.wf_fields hp).2.2.2.1
  have hplain : (Micro.setPhase .closing :: disableFrame u.params ++ [Micro.afterTimeout, Micro.unlockIrq]).all Micro.plain = true := by
    simp only [disableFrame, List.all_append, List.all_cons, controlFrame_plain]
    rfl
  have ht : t = runItems (always ((.setPhase .closing :: disableFrame u.params ++ [.afterTimeout, .unlockIrq]) ++
      [.finish])) u := by
    simp only [t]
    congr 2
    simp
  clear_value t
  rw [run_closing hplain hh] at ht
  have hx : runMicros (.setPhase .closing :: disableFrame u.params ++ [.afterTimeout, .unlockIrq]) u =
      runMicros [.afterTimeout, .unlockIrq]
        (runMicros (controlFrame u.params.opEwds 11) (Micro.run (.setPhase .closing) u)) := by
    rw [List.cons_append, runMicros_cons, runMicros_append, disableFrame, h11]
  generalize hw : Micro.run (.setPhase .closing) u = w at hx
  have hw' : w = { u with seq := { u.seq with phase := .closing } } := by rw [← hw]; rfl
  clear hw
  have hdec : decodeCommand w.params u.params.opEwds = .ewds 0 := by
    have := decodeCommand_ewds hp 0
    rw [controlCommand_zero] at this
    rw [hw']
    exact this
  have H := run_controlFrame (c := u.params.opEwds) (s := w) (by rw [hw']; exact hcs) (by rw [hw']; exact hclk)
    (by rw [hw']; exact hb) (.inr ⟨0, hdec⟩)
  generalize runMicros (controlFrame u.params.opEwds 11) w = x at *
  obtain ⟨a1, a2, a3, a4, a5, a6, a7⟩ := H
  rw [welAfter, hdec] at a3
  rw [hw'] at a1 a2 a4 a5 a6
  have hbit : u.params.opEwds.getLsbD 0 = false := by
    have := congrArg (fun v : BitVec 6 => v.getLsbD 0) hz
    simpa [BitVec.getLsbD_extractLsb'] using this
  have hxst : x.seq.status = .ok := by rw [a5]; exact hs
  have hun := unlock_plat (s := s) (u := x) (by rw [a1.plat]; exact hu) (by rw [a5]; exact hq) hpend
  have hx' : runMicros [.afterTimeout, .unlockIrq] x =
      { x with plat := s.plat, lines := { x.lines with lock := false } } := by
    rw [runMicros_cons, show Micro.run .afterTimeout x = x by simp [Micro.run, hxst], runMicros_cons, runMicros_nil,
      show Micro.run .unlockIrq x = x.unlockIrq from rfl, hun]
  rw [hx, hx'] at ht
  clear hx hx' hun
  subst ht
  refine ⟨⟨rfl, rfl, ?_, ?_⟩, ⟨a1.params, a1.fuse, a1.boot0, a1.sotp, a1.buf, a1.bufTrace, a1.inbox, a1.disturb⟩, rfl, ?_,
    a2, a3, a6⟩
  · simp only [Sequencer.idle]; rw [a5]
  · exact hxst
  · simp only; rw [a4]; simp only [Lines.reset, hbit]

/-! ### The disable-writes frame after a time-out -/

/-- What a device with a write of word `e` under way keeps whatever happens on the lines but a new write. -/
structure OnlyWord (f : Nat → Byte) (e : Nat) (d : Eeprom) : Prop where
  wf : d.mem.wf = true
  below : d.mem.below 256 = true
  bytes : ∀ k, k / 2 ≠ e → d.mem.read k = f k
  pending : d.busy = true → d.pendAddr.toNat = e

theorem onlyWord_write {f : Nat → Byte} {e : Nat} {m : Memory} (hw : m.wf = true) (hb : m.below 256 = true)
    (h : ∀ k, k / 2 ≠ e → m.read k = f k) (he : e < 128) (x : Half) :
    (m.writeHalf e x).wf = true ∧ (m.writeHalf e x).below 256 = true ∧
      ∀ k, k / 2 ≠ e → (m.writeHalf e x).read k = f k := by
  refine ⟨Memory.writeHalf_wf hw _ _, Memory.writeHalf_below hb (by omega) _, fun k hk => ?_⟩
  rw [Memory.read_writeHalf hw, if_neg (by omega), if_neg (by omega), h k hk]

theorem onlyWord_tick {f : Nat → Byte} {e : Nat} (he : e < 128) {d : Eeprom} (h : OnlyWord f e d) :
    OnlyWord f e d.tick := by
  unfold Eeprom.tick
  split
  · exact h
  · by_cases hb : d.busy = true
    · obtain ⟨w1, w2, w3⟩ := onlyWord_write h.wf h.below h.bytes he d.pendData
      rw [← h.pending hb] at w1 w2 w3
      refine ⟨?_, ?_, ?_, by simp [Eeprom.complete]⟩ <;> simp only [Eeprom.complete, hb, if_true]
      · exact w1
      · exact w2
      · rw [← h.pending hb]; exact w3
    · refine ⟨?_, ?_, ?_, by simp [Eeprom.complete]⟩ <;> simp only [Eeprom.complete, hb]
      · exact h.wf
      · exact h.below
      · exact h.bytes
  · exact ⟨h.wf, h.below, h.bytes, h.pending⟩

theorem clockEdge_kept (p : Params) (b : Bool) (d : Eeprom) :
    (d.clockEdge p b).mem = d.mem ∧ (d.clockEdge p b).busy = d.busy ∧ (d.clockEdge p b).pendAddr = d.pendAddr ∧
      (d.clockEdge p b).edges = d.edges + 1 := by
  unfold Eeprom.clockEdge
  simp only
  split
  · exact ⟨rfl, rfl, rfl, rfl⟩
  · split
    · rw [latchCommand_eq]; exact ⟨rfl, rfl, rfl, rfl⟩
    · exact ⟨rfl, rfl, rfl, rfl⟩

theorem onlyWord_clockEdge {f : Nat → Byte} {e : Nat} {d : Eeprom} (h : OnlyWord f e d) (p : Params) (b : Bool) :
    OnlyWord f e (d.clockEdge p b) := by
  obtain ⟨h1, h2, h3, _⟩ := clockEdge_kept p b d
  exact ⟨by rw [h1]; exact h.wf, by rw [h1]; exact h.below, by rw [h1]; exact h.bytes,
    by rw [h2, h3]; exact h.pending⟩

theorem tick_edges (d : Eeprom) : d.tick.edges = d.edges := by
  unfold Eeprom.tick; split <;> rfl

/-- `send_bits` inside a frame, whatever state the device is in (R133). -/
theorem run_sendLoop_any {P : Eeprom → Prop} (hPt : ∀ d, P d → P d.tick) (hPc : ∀ p b d, P d → P (d.clockEdge p b))
    (n : Nat) {s : State} (hcs : s.lines.cs = true) (hclk : s.lines.clk = false) (hP : P s.eep) :
    let t := runMicros (sendLoop n) s
    WireOnly s t ∧ P t.eep ∧ t.eep.edges = s.eep.edges + n ∧
      t.lines = { s.lines with dOut := if n = 0 then s.lines.dOut else s.seq.txVal.getLsbD 0, clk := false } ∧
      t.seq = { s.seq with bitCnt := if n = 0 then s.seq.bitCnt else 0 } ∧
      t.trace = (sendTrace s.seq.txVal n).reverse ++ s.trace ∧ t.draws = s.draws := by
  induction n generalizing s with
  | zero =>
    refine ⟨WireOnly.refl s, hP, rfl, ?_, ?_, ?_, rfl⟩
    · simp [sendLoop, ← hclk]
    · simp [sendLoop]
    · simp [sendLoop, sendTrace]
  | succ n ih =>
    intro t
    have ht : t = runMicros (sendLoop n)
        (runMicros [.txBit n, .delay, .line .clk true, .delay, .line .clk false, .delay] s) := by
      simp only [t, sendLoop]
      rw [runMicros_append]
    clear_value t
    rw [run_bit n s hcs, hclk] at ht
    generalize hu : State.mk _ _ _ _ _ _ _ _ _ _ _ _ _ _ = u at ht
    have hue : u.eep = afterEdge s.params (s.seq.txVal.getLsbD n) s.eep := by rw [← hu]; simp
    have hPu : P u.eep := by rw [hue]; exact hPt _ (hPt _ (hPc _ _ _ (hPt _ hP)))
    have hedge : u.eep.edges = s.eep.edges + 1 := by
      rw [hue, afterEdge, tick_edges, tick_edges, (clockEdge_kept _ _ _).2.2.2, tick_edges]
    obtain ⟨a1, a2, a3, a4, a5, a6, a7⟩ := ih (s := u) (by rw [← hu]; exact hcs) (by rw [← hu]) hPu
    rw [← ht] at a1 a2 a3 a4 a5 a6 a7
    have hutx : u.seq.txVal = s.seq.txVal := by rw [← hu]
    refine ⟨WireOnly.trans (by rw [← hu]; exact ⟨rfl, rfl, rfl, rfl, rfl, rfl, rfl, rfl, rfl⟩) a1, a2, by rw [a3, hedge]; omega,
      ?_, ?_, ?_, ?_⟩
    · rw [a4, hutx, ← hu]
      by_cases h : n = 0
      · subst h; simp
      · simp [h]
    · rw [a5, ← hu]
      by_cases h : n = 0
      · subst h; simp
      · simp [h]
    · rw [a6, hutx, ← hu]
      simp [sendTrace]
    · rw [a7, ← hu]

/-- The disable-writes frame that closes a write after a time-out touches no word but the one under way (R161, log 14). -/
theorem run_controlFrame_closing {f : Nat → Byte} {e : Nat} (he : e < 128) {c : Command} {s : State}
    (hcs : s.lines.cs = false) (hclk : s.lines.clk = false) (hct : s.closingTimeout = true)
    (hP : OnlyWord f e s.eep) :
    let t := runMicros (controlFrame c 11) s
    WireOnly s t ∧ OnlyWord f e t.eep ∧ t.lines = { s.lines with cs := false, clk := false, dOut := c.getLsbD 0 } ∧
      t.seq = { s.seq with txVal := c.setWidth 16, bitCnt := 0 } ∧
      t.trace = (controlTrace c 11).reverse ++ s.trace := by
  intro t
  have ht : t = runMicros [.line .cs false, .delay] (runMicros (sendLoop 11)
      (Micro.run (.loadTx (c.setWidth 16) 11) (Micro.run (.line .cs true) s))) := by
    simp only [t, controlFrame, sendBits, List.cons_append]
    rw [runMicros_cons, runMicros_cons, runMicros_append]
  clear_value t
  rw [run_assert hcs] at ht
  generalize hu : Micro.run (.loadTx (c.setWidth 16) 11) _ = u at ht
  have hu' : u = { s with
      seq := { s.seq with txVal := c.setWidth 16, bitCnt := BitVec.ofNat 5 11 }
      lines := { s.lines with cs := true }, eep := s.eep.frameStart, trace := .line .cs true :: s.trace } := by
    rw [← hu]; rfl
  clear hu
  have hPu : OnlyWord f e u.eep := by rw [hu']; exact ⟨hP.wf, hP.below, hP.bytes, hP.pending⟩
  have H := run_sendLoop_any (P := OnlyWord f e) (fun d h => onlyWord_tick he h)
    (fun p b d h => onlyWord_clockEdge h p b) 11 (s := u) (by rw [hu']) (by rw [hu']; exact hclk) hPu
  generalize runMicros (sendLoop 11) u = x at *
  obtain ⟨a1, a2, a3, a4, a5, a6, a7⟩ := H
  rw [hu'] at a1 a3 a4 a5 a6
  have hxct : x.closingTimeout = true := by
    simp only [State.closingTimeout, a5]
    exact hct
  have hedges : x.eep.edges = 11 := by rw [a3]; rfl
  rw [runMicros_cons, run_deassert (by rw [a4]), hxct] at ht
  have hend : OnlyWord f e (x.eep.frameEnd x.params x.draws true) := by
    unfold Eeprom.frameEnd
    rw [if_neg (by omega)]
    split
    · rw [if_pos rfl]; exact a2
    · next hcl =>
      split
      next a hdec =>
        exfalso
        apply hcl
        simp [Eeprom.frameClean, hdec, hedges]
      all_goals exact ⟨a2.wf, a2.below, a2.bytes, a2.pending⟩
  generalize x.eep.frameEnd x.params x.draws true = g at *
  have ht' : t = { x with
      lines := { x.lines with cs := false }
      eep := g.tick
      trace := .delay :: .line .cs false :: x.trace
      draws := x.draws + 1 } := by
    rw [ht]; rfl
  clear ht
  subst ht'
  refine ⟨⟨a1.params, a1.plat, a1.fuse, a1.boot0, a1.sotp, a1.buf, a1.bufTrace, a1.inbox, a1.disturb⟩,
    onlyWord_tick he hend, ?_, ?_, ?_⟩
  · simp only; rw [a4]; simp
  · rw [a5]; rfl
  · simp only; rw [a6]; simp [controlTrace]

/-- The closing steps after a time-out (R161 to R163). -/
theorem run_writeCloseLate {f : Nat → Byte} {e : Nat} (he : e < 128) {s u : State} (hp : u.params.wellFormed = true)
    (hcs : u.lines.cs = false) (hclk : u.lines.clk = false) (hP : OnlyWord f e u.eep) (hh : u.seq.hung = false)
    (hs : u.seq.status = .timeout) (hblk : u.seq.curBlock = e)
    (hu : u.plat = { s.plat with irqEnable := false }) (hq : u.seq.irqSaved = s.plat.irqEnable)
    (hpend : s.plat.irqPending = true → s.plat.irqEnable = false) :
    let t := runItems (always (.setPhase .closing :: disableFrame u.params ++ [.afterTimeout, .unlockIrq, .finish])) u
    Returned t u.seq.count .timeout ∧
      (t.params = u.params ∧ t.fuse = u.fuse ∧ t.boot0 = u.boot0 ∧ t.sotp = u.sotp ∧ t.buf = u.buf ∧
        t.bufTrace = u.bufTrace ∧ t.inbox = u.inbox ∧ t.disturb = u.disturb) ∧
      t.plat = s.plat ∧ t.lines = Lines.reset ∧
      (t.eep.mem.wf = true ∧ t.eep.mem.below 256 = true ∧ ∀ k, k / 2 ≠ e → t.eep.mem.read k = f k) ∧
      t.trace = (controlTrace u.params.opEwds 11).reverse ++ u.trace := by
  intro t
  have h11 := (Params.wf_fields hp).2.2.2.2.2.2.2.2.2.2.1
  have hz := (Params.wf_fields hp).2.2.2.1
  have hplain : (Micro.setPhase .closing :: disableFrame u.params ++ [Micro.afterTimeout, Micro.unlockIrq]).all Micro.plain = true := by
    simp only [disableFrame, List.all_append, List.all_cons, controlFrame_plain]
    rfl
  have ht : t = runItems (always ((.setPhase .closing :: disableFrame u.params ++ [.afterTimeout, .unlockIrq]) ++
      [.finish])) u := by
    simp only [t]
    congr 2
    simp
  clear_value t
  rw [run_closing hplain hh] at ht
  have hx : runMicros (.setPhase .closing :: disableFrame u.params ++ [.afterTimeout, .unlockIrq]) u =
      runMicros [.afterTimeout, .unlockIrq]
        (runMicros (controlFrame u.params.opEwds 11) (Micro.run (.setPhase .closing) u)) := by
    rw [List.cons_append, runMicros_cons, runMicros_append, disableFrame, h11]
  generalize hw : Micro.run (.setPhase .closing) u = w at hx
  have hw' : w = { u with seq := { u.seq with phase := .closing } } := by rw [← hw]; rfl
  clear hw
  have H := run_controlFrame_closing (f := f) (e := e) he (c := u.params.opEwds) (s := w) (by rw [hw']; exact hcs)
    (by rw [hw']; exact hclk) (by rw [hw']; simp [State.closingTimeout, hs]) (by rw [hw']; exact hP)
  generalize runMicros (controlFrame u.params.opEwds 11) w = x at *
  obtain ⟨a1, a2, a4, a5, a6⟩ := H
  rw [hw'] at a1 a4 a5 a6
  have hbit : u.params.opEwds.getLsbD 0 = false := by
    have := congrArg (fun v : BitVec 6 => v.getLsbD 0) hz
    simpa [BitVec.getLsbD_extractLsb'] using this
  have hxst : x.seq.status = .timeout := by rw [a5]; exact hs
  have hmem := onlyWord_write a2.wf a2.below a2.bytes he (Config.freeVec 16 x.draws 0)
  have hcur : x.seq.curBlock % 128 = e := by
    rw [a5]
    show u.seq.curBlock % 128 = e
    omega
  have hy : (Micro.run .afterTimeout x) = x.timedOut := by simp [Micro.run, hxst]
  have hyp : x.timedOut.plat = { s.plat with irqEnable := false } := by
    show x.plat = _
    rw [a1.plat]; exact hu
  have hyq : x.timedOut.seq.irqSaved = s.plat.irqEnable := by
    show x.seq.irqSaved = _
    rw [a5]; exact hq
  have hym : x.timedOut.eep.mem = x.eep.mem.writeHalf e (Config.freeVec 16 x.draws 0) := by
    show x.eep.mem.writeHalf (x.seq.curBlock % 128) _ = _
    rw [hcur]
  have hun := unlock_plat (s := s) (u := x.timedOut) hyp hyq hpend
  have hx' : runMicros [.afterTimeout, .unlockIrq] x =
      { x.timedOut with plat := s.plat, lines := { x.timedOut.lines with lock := false } } := by
    rw [runMicros_cons, hy, runMicros_cons, runMicros_nil, show Micro.run .unlockIrq x.timedOut = x.timedOut.unlockIrq from
      rfl, hun]
  rw [hx, hx'] at ht
  clear hx hx' hun hy
  subst ht
  refine ⟨⟨rfl, rfl, ?_, hxst⟩, ⟨a1.params, a1.fuse, a1.boot0, a1.sotp, a1.buf, a1.bufTrace, a1.inbox, a1.disturb⟩, rfl, ?_,
    ?_, a6⟩
  · show x.seq.count = _
    rw [a5]
  · show ({ x.lines with lock := false } : Lines) = _
    rw [a4]; simp only [Lines.reset, hbit]
  · rw [hym]; exact hmem

/-! ### The operation -/

/-- What the whole operation leaves as it was, whichever way it goes. -/
structure OutsideSame (s t : State) : Prop where
  params : t.params = s.params
  fuse : t.fuse = s.fuse
  boot0 : t.boot0 = s.boot0
  sotp : t.sotp = s.sotp
  buf : t.buf = s.buf
  inbox : t.inbox = s.inbox
  disturb : t.disturb = s.disturb

/-- `SEEPROM.WRITE` from a planned request on, the device free (R155). -/
theorem run_seepromWriteItems {o l : Nat} {s : State} (hp : s.params.wellFormed = true) (h : Ready 2 o l s)
    (hr : o + l ≤ 256) (hcs : s.lines.cs = false) (hb : s.eep.busy = false) (hmem : s.eep.memOk)
    (hpend : s.plat.irqPending = true → s.plat.irqEnable = false) :
    let t := runItems (seepromWriteItems s.params s.seq) s
    OutsideSame s t ∧
    ((∃ ks, ks.length = (blockRange 2 o l).length ∧ (∀ k ∈ ks, LimitAllows s.params 0 k) ∧ Agree s.eep.times ks ∧
        Returned t l .ok ∧ t.plat = s.plat ∧ t.lines = Lines.reset ∧
        t.eep.busy = false ∧ t.eep.wel = false ∧ t.eep.mem.wf = true ∧ t.eep.times = s.eep.times.drop ks.length ∧
        (∀ k, t.eep.mem.read k = storedByte s o l k) ∧
        t.bufTrace = ((List.range l).map BufEvent.read).reverse ++ s.bufTrace ∧
        t.trace = (writeOpTrace s.params (blocksTrace s o l (o / 2) ks)).reverse ++ s.trace) ∨
      (∃ ks L, ks.length < (blockRange 2 o l).length ∧ s.params.pollLimit = some (L + 1) ∧
        (∀ k ∈ ks, LimitAllows s.params 0 k) ∧ Agree s.eep.times ks ∧ Beyond s.eep.times ks.length L ∧
        let e := o / 2 + ks.length
        Returned t (done 2 o l e) .timeout ∧ t.plat = s.plat ∧ t.lines = Lines.reset ∧
        t.eep.mem.wf = true ∧
        (∀ k, k / 2 ≠ e → t.eep.mem.read k = storedByte s o (done 2 o l e) k) ∧
        t.bufTrace = ((List.range (done 2 o l (e + 1))).map BufEvent.read).reverse ++ s.bufTrace ∧
        t.trace =
          (writeOpTrace s.params (blocksTrace s o l (o / 2) ks ++ blockLateTrace s o l e L)).reverse ++ s.trace) ∨
      (∃ ks : List Nat, ks.length < (blockRange 2 o l).length ∧ s.params.pollLimit = none ∧ Agree s.eep.times ks ∧
        Never s.eep.times ks.length ∧
        let e := o / 2 + ks.length
        t.seq.hung = true ∧ t.seq.phase = .xfer ∧ t.seq.ok = none ∧
        t.seq.irqSaved = s.plat.irqEnable ∧ t.seq.status = .ok ∧ t.seq.count = done 2 o l e ∧
        t.seq.hi.toNat - t.seq.lo.toNat = done 2 o l (e + 1) - done 2 o l e ∧
        t.seq.ahead = s.seq.ahead ++ writeAhead s.params s.seq ((blockRange 2 o l).drop (ks.length + 1)) ∧
        t.plat = { s.plat with irqEnable := false } ∧ t.lines.cs = true ∧ t.lines.clk = false ∧ t.lines.lock = true ∧
        t.eep.busy = true ∧ t.eep.left = none ∧ t.eep.edges = 0 ∧ t.eep.afterWrite = true ∧
        (∀ k, k / 2 ≠ e → t.eep.mem.read k = storedByte s o (done 2 o l e) k))) := by
  intro t
  have hopen : (Micro.setPhase .opening :: .lockIrq :: preamble ++ enableFrame s.params).all Micro.plain = true := by
    simp only [enableFrame, List.all_append, List.all_cons, controlFrame_plain]
    rfl
  have ht : t = runItems (always (.setPhase .closing :: disableFrame s.params ++ [.afterTimeout, .unlockIrq, .finish]))
      (runItems (writeLoop s.params s.seq)
        (runMicros (.setPhase .opening :: .lockIrq :: preamble ++ enableFrame s.params) s)) := by
    simp only [t, seepromWriteItems]
    rw [List.append_assoc, run_always_plain hopen h.hung, runItems_append]
  clear_value t
  obtain ⟨o1, o2, o3, o4, o5, o6, o7, o8, o9, o10, o11, o12, o13, o14, o15, o16⟩ := run_writeOpen hp hcs hb
  generalize runMicros (.setPhase .opening :: .lockIrq :: preamble ++ enableFrame s.params) s = w at *
  have hwh : w.seq.hung = false := by rw [o15]; exact h.hung
  rw [writeLoop, runItems_append, blocks_eq h.planned] at ht
  have hx : runItems (always [.setPhase .xfer, .startLoop]) w =
      { w with seq := { w.seq with phase := .xfer, count := 0, status := .ok } } := by
    simp [always, Item.run, hwh, Micro.run, State.setSeq]
  rw [hx] at ht
  clear hx
  generalize hxs : State.mk _ _ _ _ _ _ _ _ _ _ _ _ _ _ = x at ht
  have hxseq : x.seq = { s.seq with
      phase := .xfer, irqSaved := s.plat.irqEnable, txVal := s.params.opEwen.setWidth 16, bitCnt := 0,
      count := 0, status := .ok } := by rw [← hxs, o15]
  have hxe : x.eep = w.eep := by rw [← hxs]
  have hxp : x.params = s.params := by rw [← hxs]; exact o1
  have hxb : x.buf = s.buf := by rw [← hxs]; exact o5
  have hplx : Planned 2 o l x.seq := by
    rw [hxseq]
    exact ⟨h.planned.offset, h.planned.startBlock, h.planned.startOff, h.planned.endBlock, h.planned.endRes⟩
  have hd0 : done 2 o l (o / 2) = 0 := by unfold done; omega
  have hst : ∀ n k, storedByte x o n k = storedByte s o n k := by
    intro n k
    simp only [storedByte, hxb, hxe, o13.mem]
  have hstart : Stored x o l (o / 2) x := by
    refine ⟨⟨rfl, rfl, rfl, rfl, rfl, rfl, rfl, rfl⟩, ?_, ?_, rfl, ?_, ?_, ?_, ?_, ?_, PlanKept.refl _, ?_, ?_, ?_, ?_⟩
    · rw [← hxs]; exact o10
    · rw [← hxs]; exact o11
    · rw [hxe]; exact o13.busy
    · rw [hxe]; exact o14
    · rw [hxe, o13.mem]; exact hmem.1
    · rw [hxe, o13.mem]; exact hmem.2
    · intro k
      rw [hd0, storedByte, if_neg (by omega)]
    · rw [hxseq]; exact h.hung
    · rw [hxseq]
    · rw [hxseq, hd0]
    · rw [hd0]; simp
  have hle : o / 2 ≤ (o + l - 1) / 2 := Nat.div_le_div_right (by have := h.pos; omega)
  have hlen : (blockRange 2 o l).length = (o + l - 1) / 2 + 1 - o / 2 := by simp [blockRange]
  have hloop := run_writeSteps (s := x) (by rw [hxp]; exact hp) hplx h.pos hr ((o + l - 1) / 2 + 1 - o / 2) (o / 2) hstart
    (Nat.le_refl _) (by omega)
  have hq : ∀ i, writeStep x.params x.seq i = writeStep s.params s.seq i := by
    intro i
    rw [hxp, hxseq]
    rfl
  simp only [hq] at hloop
  rw [← hlen] at hloop
  have hbr : List.range' (o / 2) (blockRange 2 o l).length = blockRange 2 o l := by rw [hlen, blockRange]
  rw [hbr] at hloop
  generalize runItems ((blockRange 2 o l).flatMap fun i => inLoop (writeStep s.params s.seq i)) x = v at *
  have hxplat : x.plat = { s.plat with irqEnable := false } := by rw [← hxs]; exact o9
  have hxirq : x.seq.irqSaved = s.plat.irqEnable := by rw [hxseq]
  have hxtimes : x.eep.times = s.eep.times := by rw [hxe]; exact o13.times
  have hxtrace : x.trace = (preambleTrace ++ controlTrace s.params.opEwen 11).reverse ++ s.trace := by
    rw [← hxs]; exact o16
  have hxbt : x.bufTrace = s.bufTrace := by rw [← hxs]; exact o6
  have hxout : OutsideSame s x := by rw [← hxs]; exact ⟨o1, o2, o3, o4, o5, o7, o8⟩
  have hpre : ∀ i, preReadTrace x o l i = preReadTrace s o l i := by
    intro i; simp only [preReadTrace, hxp, hxe, o13.mem]
  have hwd : ∀ i, storedWord x o l i = storedWord s o l i := by intro i; simp only [storedWord, hst]
  have hbw : ∀ i k, blockWriteTrace x o l i k = blockWriteTrace s o l i k := by
    intro i k; simp only [blockWriteTrace, hpre, hwd, hxp]
  have hbl : ∀ i k, blockLateTrace x o l i k = blockLateTrace s o l i k := by
    intro i k; simp only [blockLateTrace, hpre, hwd, hxp]
  have hbt : ∀ ks i, blocksTrace x o l i ks = blocksTrace s o l i ks := by
    intro ks
    induction ks with
    | nil => intro i; rfl
    | cons k ks ih => intro i; simp only [blocksTrace, hbw, ih]
  rw [hxtimes] at hloop
  rcases hloop with ⟨ks, c1, c2, c3, c4, c6, c5⟩ | ⟨ks, L, c1, c0, c2, c3, c6, c4, c5⟩ | ⟨ks, c1, c3, c4, c5, c6⟩
  · have hdl : done 2 o l (o / 2 + (blockRange 2 o l).length) = l := by rw [hlen]; unfold done; omega
    have hvp : v.params = s.params := c2.same.params.trans hxp
    have H := run_writeClose (s := s) (u := v) (by rw [hvp]; exact hp) c2.cs c2.clk c2.busy c2.hung c2.status
      (by rw [c2.same.plat]; exact hxplat) (by rw [c2.plan.irqSaved]; exact hxirq) hpend
    rw [hvp] at H
    simp only [← ht] at H
    obtain ⟨r1, ⟨r2, r3, r4, r5, r6, r7, r8, r9⟩, r10, r11, r12, r13, r14⟩ := H
    have hcount := c2.count
    have hacc := c2.accesses
    have hbytes := c2.bytes
    rw [hdl] at hcount hacc hbytes
    refine ⟨⟨r2, by rw [r3, c2.same.fuse, hxout.fuse], by rw [r4, c2.same.boot0, hxout.boot0],
      by rw [r5, c2.same.sotp, hxout.sotp], by rw [r6, c2.same.buf, hxout.buf], by rw [r8, c2.same.inbox, hxout.inbox],
      by rw [r9, c2.same.disturb, hxout.disturb]⟩, .inl ⟨ks, c1, by rw [← hxp]; exact c6, c5, by rw [← hcount]; exact r1,
      r10, r11, r12.busy, r13, by rw [r12.mem]; exact c2.wf, by rw [r12.times, c4, c1], ?_, ?_, ?_⟩⟩
    · intro k
      rw [r12.mem, hbytes, hst]
    · rw [r7, hacc, hxbt]
    · rw [r14, c3, hxtrace, hbt, writeOpTrace]
      simp
  · have hi : o / 2 + ks.length ∈ blockRange 2 o l := (mem_blockRange h.pos).mpr ⟨by omega, by omega⟩
    have he : o / 2 + ks.length < 128 := by have := mem_blockRange_lt (.inl rfl) h.pos hr hi; omega
    have hvp : v.params = s.params := c2.same.params.trans hxp
    have H := run_writeCloseLate (f := storedByte x o (done 2 o l (o / 2 + ks.length))) he (s := s) (u := v)
      (by rw [hvp]; exact hp) c2.cs c2.clk ⟨c2.wf, c2.below, c2.bytes, c2.pending⟩ c2.hung c2.status c2.block
      (by rw [c2.same.plat]; exact hxplat) (by rw [c2.irqSaved]; exact hxirq) hpend
    rw [hvp] at H
    simp only [← ht] at H
    obtain ⟨r1, ⟨r2, r3, r4, r5, r6, r7, r8, r9⟩, r10, r11, ⟨r12, _, r13⟩, r14⟩ := H
    refine ⟨⟨r2, by rw [r3, c2.same.fuse, hxout.fuse], by rw [r4, c2.same.boot0, hxout.boot0],
      by rw [r5, c2.same.sotp, hxout.sotp], by rw [r6, c2.same.buf, hxout.buf], by rw [r8, c2.same.inbox, hxout.inbox],
      by rw [r9, c2.same.disturb, hxout.disturb]⟩, .inr (.inl ⟨ks, L, c1, by rw [← hxp]; exact c0,
      by rw [← hxp]; exact c6, c4, c5, by rw [← c2.count]; exact r1, r10, r11, r12, ?_, ?_, ?_⟩)⟩
    · intro k hk
      rw [r13 k hk, hst]
    · rw [r7, c2.accesses, hxbt]
    · rw [r14, c3, hxtrace, hbt, hbl, writeOpTrace]
      simp
  · have hclose : (always (.setPhase .closing :: disableFrame s.params ++ [.afterTimeout, .unlockIrq,
        .finish])).filter Item.waits = always (.setPhase .closing :: disableFrame s.params ++ [.afterTimeout, .unlockIrq,
        .finish]) := by
      rw [List.filter_eq_self]
      intro it hit
      obtain ⟨m, hm, rfl⟩ := List.mem_map.mp hit
      simp only [List.cons_append, List.mem_cons, List.mem_append, List.not_mem_nil, or_false] at hm
      rcases hm with rfl | hm | rfl | rfl | rfl
      · rfl
      · exact waits_plain (List.all_eq_true.mp (controlFrame_plain _ _) m hm)
      all_goals rfl
    rw [runItems_hung c3.hung, hclose] at ht
    subst ht
    refine ⟨⟨c3.same.params.trans hxp, c3.same.fuse.trans hxout.fuse, c3.same.boot0.trans hxout.boot0,
      c3.same.sotp.trans hxout.sotp, c3.same.buf.trans hxout.buf, c3.same.inbox.trans hxout.inbox,
      c3.same.disturb.trans hxout.disturb⟩, .inr (.inr ⟨ks, c1, by rw [← hxp]; exact c4, c5, c6,
      c3.hung, c3.phase.trans (by rw [hxseq]), c3.ok,
      c3.irqSaved.trans hxirq, c3.status, c3.count, c3.bytesOfBlock, ?_, ?_, c3.cs, c3.clk, ?_, c3.busy, c3.left, c3.frame.1, c3.frame.2, ?_⟩)⟩
    · have hdrop : (blockRange 2 o l).drop (ks.length + 1) =
          List.range' (o / 2 + ks.length + 1) ((blockRange 2 o l).length - 1 - ks.length) := by
        conv => lhs; rw [← hbr]
        rw [List.drop_range', Nat.add_assoc]
        congr 1 <;> omega
      simp only [State.setSeq_seq, c3.ahead, loopAhead, writeAhead, hq]
      rw [hdrop, hxseq]
      simp
    · exact c3.same.plat.trans hxplat
    · exact c3.lock.trans (by rw [← hxs]; exact o12)
    · intro k hk
      exact (c3.bytes k hk).trans (hst _ _)

end Sys2Proof.Machine
end

