-- ==== Sys2Proof/Tests/Slice0.lean ====
section
/-! SUPPORT. The model's own tests: ill-formed terms refused, words written out from the spec's encodings, one step of
each instruction on the vectors of 95_test_vectors.md, and for each statement a state and operands that meet its
hypotheses. -/

namespace Sys2Proof.Machine.Tests

/-! ### Helpers -/

/-- The state after an operation, if there is one. -/
def after (o : Host.Outcome State Fault Refusal) : Option State :=
  match o with
  | .next t => some t
  | .fault _ => none
  | .refused _ => none

/-- The operation has returned. -/
def completes (o : Host.Outcome State Fault Refusal) : Bool :=
  match after o with
  | some t => !t.seq.hung
  | none => false

theorem of_completes {o : Host.Outcome State Fault Refusal} (h : completes o = true) :
    ∃ t, o = .next t ∧ t.seq.hung = false := by
  cases o with
  | next t => exact ⟨t, rfl, by simpa [completes, after] using h⟩
  | fault r => simp [completes, after] at h
  | refused r => simp [completes, after] at h

/-- The bits an operation drove on the data-out line, first bit first, read as a number. -/
def sentBits (t : State) : Nat :=
  t.trace.reverse.foldl (fun n e => match e with | .line .dOut b => 2 * n + b.toNat | _ => n) 0

/-- The samples of an operation, first sample first, read as a number. -/
def sampled (t : State) : Nat :=
  t.trace.reverse.foldl (fun n e => match e with | .sample b => 2 * n + b.toNat | _ => n) 0

/-- How many samples an operation took. -/
def samples (t : State) : Nat := (t.trace.filter fun e => match e with | .sample _ => true | _ => false).length

/-- Count, status and the first bytes of the caller buffer. -/
def result (n : Nat) (o : Host.Outcome State Fault Refusal) : Option (Nat × Status × List Byte) :=
  (after o).map fun t => (t.seq.count, t.seq.status, (List.range n).map t.buf.read)

/-- The start state of the vectors: the fuses of section 2.2, the EEPROM of 2.4, the secondary OTP of 2.5. -/
def start : State :=
  { State.reset with
    fuse := Memory.ofBytes 0 [0, 1, 2, 3, 0x11, 0x22, 0x33, 0x44, 0x55, 0x66, 0x77, 0x88]
    sotp := Memory.ofBytes 0 [0, 1, 2, 3, 4, 5, 6, 7, 8, 9, 0xA, 0xB]
    boot0 := Memory.ofBytes 0 [0xDE, 0xAD, 0xBE, 0xEF]
    plat := { Platform.reset with prot := 3, irqEnable := true }
    eep := { Eeprom.reset with
      mem := Memory.ofBytes 0 [0xA1, 0xB2, 0xC3, 0xD4, 0xEE, 0xFF], times := [some 2, some 2, some 2] }
    buf := Memory.ofBytes 0 [0x5A] }

/-- The same with the device enabled. -/
def enabled : State := { start with eep := { start.eep with wel := true } }

/-- A limit of three samples, and a device that needs longer. -/
def slow : State :=
  { enabled with
    params := { start.params with pollLimit := some 3 }
    eep := { enabled.eep with times := [some 5] } }

/-- A device that never completes. -/
def dead : State := { enabled with eep := { enabled.eep with times := [none] } }

/-! ### Well-formedness -/

theorem test_wf_read_block_128 : Instr.wellFormed (.eepRead 128) = false := by decide
theorem test_wf_write_block_128 : Instr.wellFormed (.eepWrite 128 0) = false := by decide
theorem test_wf_ewen_pad : Instr.wellFormed (.eepEwen 1) = false := by decide
theorem test_wf_ewds_pad : Instr.wellFormed (.eepEwds 1) = false := by decide
theorem test_wf_read_block_127 : Instr.wellFormed (.eepRead 127) = true := by decide
theorem test_wf_params : platformParams.wellFormed = true := by decide

/-- One set of parameters for each constraint, which breaks it. -/
theorem test_wf_params_refused :
    [{ platformParams with opRead := 0x601 }, { platformParams with opWrite := 0x580 },
      { platformParams with opEwen := 0x4C1 }, { platformParams with opEwds := 0x420 },
      { platformParams with opRead := 0x500 }, { platformParams with opRead := 0x400 },
      { platformParams with opEwds := 0x600 }, { platformParams with opEwen := 0x540 },
      { platformParams with opEwds := 0x500 }, { platformParams with opEwds := 0x4C0 },
      { platformParams with ewdsBits := 9 }, { platformParams with otpRdFlag := 0x80000001 },
      { platformParams with protBit := 0x30 }, { platformParams with protBit := 0 },
      { platformParams with boot0Base := 2 }, { platformParams with sotpBase := 1 },
      { platformParams with boot0Size := 10 }, { platformParams with boot0Size := 0 },
      { platformParams with pollLimit := some 0 }, { platformParams with wOff := 15 }].all
      (fun p => !p.wellFormed) = true := by decide

/-- An operand above `2^W_OFF - 1` has no encoding (U25); with a wider `W_OFF` it has one (D4). -/
theorem test_encodable :
    [Instr.encodable platformParams (.otpRead 65535 65535 true), Instr.encodable platformParams (.boot0Read 65536 4 true),
      Instr.encodable platformParams (.seepromWrite 0 65536 true),
      Instr.encodable { platformParams with wOff := 20 } (.boot0Read 65536 4 true)] = [true, false, false, true] := by
  decide

/-! ### Words written out bit by bit (R81, R84, R88) -/

theorem test_decode_otp_read :
    decode platformParams (.hostreq 0b1_0000000000000110_0000000000000101_000) = .ok (.otpRead 5 6 true) := by decide
theorem test_decode_otp_write :
    decode platformParams (.hostreq 0b1_0000000000000100_0000000000000000_001) = .ok (.otpWrite 0 4 true) := by decide
theorem test_decode_seeprom_read :
    decode platformParams (.hostreq 0b1_0000000000000011_0000000000000001_010) = .ok (.seepromRead 1 3 true) := by
  decide
theorem test_decode_seeprom_write :
    decode platformParams (.hostreq 0b1_0000000000000001_0000000000000011_011) = .ok (.seepromWrite 3 1 true) := by
  decide
theorem test_decode_boot0_read :
    decode platformParams (.hostreq 0b0_0000000000000100_0000000100000000_100) = .ok (.boot0Read 256 4 false) := by
  decide
theorem test_decode_boot0_write :
    decode platformParams (.hostreq 0b1_1000000000000000_0000000000000000_101) = .ok (.boot0Write 0 32768 true) := by
  decide
theorem test_decode_sotp_read :
    decode platformParams (.hostreq 0b1_0000000000001001_0000000000000010_110) = .ok (.sotpRead 2 9 true) := by decide
theorem test_decode_sotp_write :
    decode platformParams (.hostreq 0b1_0000000000000100_1000000000000000_111) = .ok (.sotpWrite 32768 4 true) := by
  decide
/-- The same request in a `HOSTREQ` of `W_OFF = 20`, and a word of one bit more than `W_OFF = 16` has. -/
theorem test_decode_wide :
    decode { platformParams with wOff := 20 } (.hostreq 0b1_00000000000000000100_00010000000000000000_100) =
        .ok (.boot0Read 65536 4 true) ∧
      decode platformParams (.hostreq 0b1_0_0000000000000100_0000000000000000_100) = .error .requestTooWide := by decide
theorem test_decode_eep_read : decode platformParams (.eep11 0b11001111111) = .ok (.eepRead 127) := by decide
theorem test_decode_eep_write :
    decode platformParams (.eep27 0b101000000011100001101011010) = .ok (.eepWrite 1 0xC35A) := by decide
theorem test_decode_eep_ewen : decode platformParams (.eep11 0b10011000000) = .ok (.eepEwen 0) := by decide
theorem test_decode_eep_ewds : decode platformParams (.eep11 0b10000000000) = .ok (.eepEwds 0) := by decide
theorem test_decode_otp_cmd :
    decode platformParams (.otpcmd32 0b10000000000000000000000000010010) = .ok (.otpCmdRead 18) := by decide

/-- The reserved words of R90 and R91, one of each class, and the frames of the wrong length (R92). -/
theorem test_decode_reserved :
    [decode platformParams (.eep11 0b01100000000), decode platformParams (.eep11 0b11100000000),
      decode platformParams (.eep11 0b10001000000), decode platformParams (.eep11 0b10010000000),
      decode platformParams (.otpcmd32 0x80000020), decode platformParams (.eep11 0b10100000000),
      decode platformParams (.eep27 0b110000000000000000000000000)].all
      (fun d => match d with | .error _ => true | .ok _ => false) = true := by decide

/-- The fixed bits of the rows of the opcode table, as the host gives them. -/
theorem test_table_words :
    [decodeTableWord 8 3, decodeTableWord 16 0x600, decodeTableWord 32 0x5000000, decodeTableWord 32 0x80000000] =
      [some (.seepromWrite 0 0 false), some (.eepRead 0), some (.eepWrite 0 0), some (.otpCmdRead 0)] := by decide

/-! ### One step of each instruction -/

/-- V-O1. -/
theorem test_otp_read :
    result 7 (exec (.otpRead 5 6 true) start) = some (6, .ok, [0x22, 0x33, 0x44, 0x55, 0x66, 0x77, 0]) := by
  decide +kernel

/-- V-O1, the register accesses. -/
theorem test_otp_read_trace : (after (exec (.otpRead 5 6 true) start)).map (·.trace.reverse) =
    some [.regWrite .otpCmd 0x80000001, .regRead .otpData 0x11223344,
      .regWrite .otpCmd 0x80000002, .regRead .otpData 0x55667788] := by decide +kernel

/-- V-O8. -/
theorem test_otp_write : (after (exec (.otpWrite 0 4 true) start)).map (fun t => (t.seq.count, t.seq.status, t.trace)) =
    some (0, .illegal, []) := by decide +kernel

/-- V-E1. -/
theorem test_seeprom_read : (after (exec (.seepromRead 1 3 true) start)).map
    (fun t => (t.seq.count, t.seq.status, (List.range 3).map t.buf.read, t.delays, t.pulses)) =
    some (3, .ok, [0xB2, 0xC3, 0xD4], 133, 54) := by decide +kernel

/-- V-E4. -/
theorem test_seeprom_read_past_end : (after (exec (.seepromRead 255 2 true) start)).map
    (fun t => (t.seq.count, t.seq.status, t.trace)) = some (0, .precond, []) := by decide +kernel

/-- V-E5: the commands `0x4C0`, `0x601`, `0x501` with data `0xC35A`, `0x400`, 220 delays, 76 pulses. -/
theorem test_seeprom_write : (after (exec (.seepromWrite 3 1 true) start)).map
    (fun t => (t.seq.count, t.seq.status, sentBits t, t.delays, t.pulses)) =
    some (1, .ok, 0b10011000000_11000000001_10100000001_1100001101011010_10000000000, 220, 76) := by decide +kernel

/-- As V-E12: a poll of three samples gives up, disable-writes and unlock follow. -/
theorem test_seeprom_write_times_out : (after (exec (.seepromWrite 2 2 true) slow)).map
    (fun t => (t.seq.count, t.seq.status, t.delays, t.plat.irqEnable, t.lines)) =
    some (0, .timeout, 154, true, Lines.reset) := by decide +kernel

/-- V-M6. -/
theorem test_boot0_read : (after (exec (.boot0Read 0 4 true) { start with plat := Platform.reset })).map
    (fun t => ((List.range 4).map t.buf.read, t.trace.reverse, t.plat.prot)) =
    some ([0xDE, 0xAD, 0xBE, 0xEF], [.regRead .prot 0, .regWrite .prot 0x20, .memRead 0 0xDEADBEEF,
      .regRead .prot 0x20, .regWrite .prot 0], 0) := by decide +kernel

/-- V-M8. -/
theorem test_boot0_write : (after (exec (.boot0Write 0 4 true) start)).map (fun t => (t.seq.count, t.seq.status)) =
    some (0, .illegal) := by decide +kernel

/-- V-M1. -/
theorem test_sotp_read : result 9 (exec (.sotpRead 2 9 true) start) =
    some (9, .ok, [2, 3, 4, 5, 6, 7, 8, 9, 0xA]) := by decide +kernel

/-- V-M2: with the bit found set, one register access and the loads. -/
theorem test_sotp_read_open :
    (after (exec (.sotpRead 2 9 true) { start with plat := { start.plat with prot := 0x23 } })).map
      (fun t => (t.trace.length, t.plat.prot)) = some (4, 0x23) := by decide +kernel

/-- V-M5. -/
theorem test_sotp_write : (after (exec (.sotpWrite 0 4 true) start)).map (fun t => (t.seq.count, t.seq.status)) =
    some (0, .illegal) := by decide +kernel

/-- R140: block 1 sends `0x601` and receives `0xC3D4`. -/
theorem test_eep_read : (after (exec (.eepRead 1) start)).map
    (fun t => (sampled t, sentBits t, t.delays, t.pulses)) = some (0xC3D4, 0x601, 66, 27) := by decide +kernel

/-- V-W9: three samples, 85 delays, 27 pulses. -/
theorem test_eep_write : (after (exec (.eepWrite 1 0xC35A) enabled)).map
    (fun t => (samples t, sampled t, sentBits t, t.delays, t.pulses)) =
    some (3, 0b001, 0b10100000001_1100001101011010, 85, 27) := by decide +kernel

/-- V-W10, last row but one of the limits: three busy samples with a limit of three. -/
theorem test_eep_write_times_out : (after (exec (.eepWrite 1 0xC35A) slow)).map
    (fun t => (samples t, sampled t)) = some (3, 0b000) := by decide +kernel

/-- V-W6. -/
theorem test_eep_ewen : (after (exec (.eepEwen 0) start)).map (fun t => (t.eep.wel, sentBits t, t.delays, t.pulses)) =
    some (true, 0x4C0, 34, 11) := by decide +kernel

/-- V-W7. -/
theorem test_eep_ewds : (after (exec (.eepEwds 0) enabled)).map (fun t => (t.eep.wel, sentBits t, t.delays, t.pulses)) =
    some (false, 0x400, 34, 11) := by decide +kernel

/-- R120: word 2. -/
theorem test_otp_cmd_read : (after (exec (.otpCmdRead 2) start)).map (·.trace) =
    some [.regRead .otpData 0x55667788, .regWrite .otpCmd 0x80000002] := by decide +kernel

/-- A word of the table placed as the next instruction runs: `OTP.CMD.READ` of word 0. -/
theorem test_withFetchWord : (after (step (State.reset.withFetchWord 32 0x80000000))).map (·.plat.otpCmd) =
    some 0x80000000 := by decide +kernel

/-! ### Witnesses: for each statement, a state and operands that meet its hypotheses -/

theorem inv_of {s : State} (h : ((s.fuse.wf && s.fuse.below 128 && s.eep.mem.wf && s.eep.mem.below 256 && s.boot0.wf &&
    s.boot0.below s.params.boot0Size && s.sotp.wf && s.sotp.below 128 && s.buf.wf && !s.lines.clk && !s.lines.cs &&
    !s.lines.lock && !s.seq.hung && decide (s.seq.phase = .idle) && !s.plat.irqPending &&
    s.plat.handlers.isEmpty && decide (s.seq = Sequencer.reset)) = true)) : Inv s := by
  simp only [Bool.and_eq_true, Bool.not_eq_true', decide_eq_true_eq, List.isEmpty_iff] at h
  obtain ⟨⟨⟨⟨⟨⟨⟨⟨⟨⟨⟨⟨⟨⟨⟨⟨h1, h2⟩, h3⟩, h4⟩, h5⟩, h6⟩, h7⟩, h8⟩, h9⟩, h10⟩, h11⟩, h12⟩, h13⟩, h14⟩, h15⟩, h16⟩, h17⟩ :=
    h
  have hp : ∀ n, 0 < 2 ^ n := fun n => Nat.two_pow_pos n
  exact ⟨⟨h1, h2⟩, ⟨h3, h4⟩, ⟨h5, h6⟩, ⟨h7, h8⟩, h9, h10, fun _ => ⟨h14, h11, h12, by rw [h17]; rfl, by rw [h17]; rfl⟩,
    fun k => by simp [h13] at k,
    fun k => by simp [h12] at k, fun k => by simp [h15] at k, by simp [h16],
    by rw [h17]; exact ⟨hp _, hp _, hp _, hp _, hp _, hp _, hp _, hp _⟩⟩

/-- What nearly every statement asks of a state. -/
def Ordinary (s : State) : Prop := Inv s ∧ Free s ∧ s.params.wellFormed = true ∧ s.eep.busy = false

theorem ordinary_start : Ordinary start := ⟨inv_of (by decide), by decide, by decide, rfl⟩
theorem ordinary_enabled : Ordinary enabled := ⟨inv_of (by decide), by decide, by decide, rfl⟩
theorem ordinary_slow : Ordinary slow := ⟨inv_of (by decide), by decide, by decide, rfl⟩
theorem ordinary_dead : Ordinary dead := ⟨inv_of (by decide), by decide, by decide, rfl⟩

/-- What will meet an operation is no part of it. -/
theorem inv_disturbed (ds : List Disturbance) : Inv (start.setDisturb ds) :=
  have h := ordinary_start.1
  ⟨h.fuse, h.eepMem, h.boot0, h.sotp, h.buf, h.clock, h.rest, h.polling, h.masked, h.pending, h.handlers, h.widths⟩

/-- A sequencer in an endless poll. -/
def polling : State :=
  { start with
    seq := { Sequencer.reset with phase := .xfer, hung := true }
    lines := { Lines.reset with cs := true, lock := true }
    plat := { start.plat with irqEnable := false }
    eep := { start.eep with busy := true, left := none, edges := 0, afterWrite := true } }

theorem witness_StepKeepsInv : ∃ s t, Inv s ∧ step s = .next t := ⟨State.reset, _, inv_of (by decide), rfl⟩

theorem witness_NoHandlerUnderLock : ∃ s t, Inv s ∧ Reaches s t :=
  ⟨State.reset, _, inv_of (by decide), .tail (.refl _) rfl⟩

/-- Each clause: at rest; inside a frame under the lock; in an operation that set the protection bit. -/
theorem witness_ResetOfTheBlock : (start.lines.lock = false ∧ start.lines.cs = false) ∧ polling.lines.lock = true ∧
    polling.lines.cs = true ∧ polling.seq.heldOpen = false ∧ ∃ s : State, s.seq.phase ≠ .idle ∧
      s.seq.protChanged = true ∧ s.seq.heldOpen = true ∧ s.plat.prot &&& s.params.protBit ≠ 0 :=
  ⟨by decide, rfl, rfl, rfl, { start with
    seq := { Sequencer.reset with phase := .xfer, protChanged := true, heldOpen := true }
    plat := { start.plat with prot := 0x20 } }, by decide, rfl, rfl, by decide⟩

/-- R40, R211: which operations hold the mirror window open, and from which micro-operation to which. -/
theorem test_held_open :
    let held (r : Region) (w : Bool) (n : Nat) : Bool :=
      let s := { start with seq := { start.seq with protChanged := true }, plat := { start.plat with prot := 0 } }
      (runItems ((s.itemsOf r w 127 1 true).take n) (s.started r w 127 1 true)).seq.heldOpen
    let length (r : Region) := (start.itemsOf r false 127 1 true).length
    [2, 3, length .sotp - 2, length .sotp - 1, length .sotp].map (held .sotp false) = [false, true, true, false, false] ∧
      [2, 3, length .otp - 1].map (held .otp false) = [false, false, false] := by decide +kernel

/-- Every legal operation at the first and the last moment of its clauses, with a second event listed behind. -/
theorem witness_ResetAbandonsAnOperation :
    ∀ c ∈ [(Region.otp, false), (.seeprom, false), (.seeprom, true), (.boot0, false), (.sotp, false)],
      let is := start.itemsOf c.1 c.2 127 1 true
      ∀ n ∈ [0, 2, 3, is.length - 2], ∀ ds,
        let s := start.setDisturb (⟨n, 0, .reset⟩ :: ds)
        Legal c.1 c.2 ∧ Inv s ∧ s.busy = false ∧ s.params.wellFormed = true ∧
          InRange s.params (c.1.totalSize s.params) 127 1 true ∧ s.disturb = ⟨n, 0, .reset⟩ :: ds ∧
          5 ≤ is.length ∧ s.plat.prot &&& s.params.protBit = 0 := by
  have h : ∀ c ∈ [(Region.otp, false), (.seeprom, false), (.seeprom, true), (.boot0, false), (.sotp, false)],
      (c.2 = false ∨ c.1 = .seeprom) ∧ InRange start.params (c.1.totalSize start.params) 127 1 true ∧
        5 ≤ (start.itemsOf c.1 c.2 127 1 true).length := by decide +kernel
  intro c hc is n _ ds s
  exact ⟨(h c hc).1, inv_disturbed _, rfl, ordinary_start.2.2.1, (h c hc).2.1, rfl, (h c hc).2.2,
    (by decide : start.plat.prot &&& start.params.protBit = 0)⟩

/-- With a write under way: a byte outside its word, at rest. -/
theorem witness_PowerLoss : ∃ (s : State) (k : Nat), Inv s ∧ s.lines.lock = false ∧ s.lines.cs = false ∧
    s.eep.busy = true ∧ k / 2 ≠ s.eep.pendAddr.toNat :=
  ⟨{ start with eep := { start.eep with busy := true, pendAddr := 1 } }, 4, inv_of (by decide), rfl, rfl, rfl,
    by decide⟩

theorem witness_ImmutableStorage : ∃ s t : State, step s = .next t := ⟨State.reset, _, rfl⟩
theorem witness_DecodeEncode : platformParams.wellFormed = true ∧
    Instr.encodable platformParams (.boot0Read 65535 65535 true) = true := by decide
theorem witness_EncodeDecode : platformParams.wellFormed = true ∧
    decode platformParams (.eep11 0x67F) = .ok (.eepRead 127) := by decide

/-- A word of each reserved class in both frames, words that decode, and a reserved word presented to a free block. -/
theorem witness_ReservedWords :
    ((0b01100000000 : Command).getLsbD 10 = false ∧ (0b11100000000 : Command).extractLsb' 8 2 = 3 ∧
      (0b10001000000 : Command).extractLsb' 6 2 = 1 ∧ (0b10010000000 : Command).extractLsb' 6 2 = 2) ∧
    (frameCommand 0b111_00000000_0000000000000000).extractLsb' 8 2 = 3 ∧
    decode platformParams (.eep11 0x600) = .ok (.eepRead 0) ∧
    decode platformParams (.eep27 0b101_00000001_0000000000000000) = .ok (.eepWrite 1 0) ∧
    platformParams.wellFormed = true ∧ decodeOtpCommand platformParams 0x20 = none ∧
    decodeOtpCommand platformParams 0x8000001F = some 31 ∧
    ∃ (s : State) (r : Raw) (e : DecodeError), s.inbox = [.present r] ∧ decode s.params r = .error e :=
  ⟨by decide, by decide, by decide, by decide, by decide, by decide, by decide,
    start.setInbox [.present (.eep11 0x440)], .eep11 0x440, .reservedControl, rfl, by decide⟩

theorem witness_StepRunsDecoded : ∃ (s : State) (r : Raw) (i : Instr), s.inbox = [.present r] ∧
    decode s.params r = .ok i :=
  ⟨start.setInbox [.present (.eep11 0x4C0)], .eep11 0x4C0, .eepEwen 0, rfl, by decide⟩

theorem witness_FetchedWordRuns : ∃ (r : Raw) (i : Instr), Raw.ofTableWord 16 0x600 = some r ∧
    decode start.params r = .ok i := ⟨.eep11 0x600, .eepRead 0, by decide, by decide⟩

theorem witness_IllegalWrites : start.busy = false ∧ platformParams.encodes 65535 65535 := by decide

/-- Each of the four tests alone, at its boundary, and the largest operands that have an encoding. -/
theorem witness_PreconditionFails : Legal .seeprom true ∧ start.busy = false ∧
    (∀ r ∈ [Region.otp, .seeprom, .boot0, .sotp], Legal r false) ∧ start.params.encodes 65535 65535 ∧
    Region.seeprom.totalSize start.params ≤ 256 ∧ Region.seeprom.totalSize start.params < 255 + 2 := by
  refine ⟨.inr rfl, by decide, fun r _ => .inl rfl, by decide, by decide, by decide⟩

theorem witness_ConcurrentRefused : polling.busy = true := by decide

/-- A range with an exact end and one without. -/
theorem witness_RangePlan : platformParams.wellFormed = true ∧
    ∃ q r : Sequencer, 0 < q.reqLength ∧ (q.reqOffset + q.reqLength) % 4 = 0 ∧
      platformParams.encodes q.reqOffset q.reqLength ∧ 0 < r.reqLength ∧ (r.reqOffset + r.reqLength) % 4 ≠ 0 ∧
      platformParams.encodes r.reqOffset r.reqLength :=
  ⟨by decide, { Sequencer.reset with reqOffset := 127, reqLength := 1 },
    { Sequencer.reset with reqOffset := 5, reqLength := 6 }, by decide⟩

/-- The first and the last block of a range of two, and a range of one block. -/
theorem witness_SliceOfABlock :
    let q : Sequencer := { Sequencer.reset with reqOffset := 5, reqLength := 6 }
    let f := (q.formEndSum platformParams).plan platformParams 4
    let g := (({ Sequencer.reset with reqOffset := 127, reqLength := 1 } : Sequencer).formEndSum platformParams).plan
      platformParams 4
    platformParams.encodes 5 6 ∧ platformParams.encodes 127 1 ∧ f.startBlock = 1 ∧ f.endBlock = 2 ∧
      g.startBlock = 31 ∧ g.endBlock = 31 := by decide

/-- V-A12 reaches the end of its first block; V-A11 does not (C2); V-A14 is one block and reaches its end. -/
theorem witness_PartialFirstBlock :
    let f (o l : Nat) := (({ Sequencer.reset with reqOffset := o, reqLength := l } : Sequencer).formEndSum
      platformParams).plan platformParams 4
    platformParams.encodes 5 6 ∧ (f 5 6).startBlock < (f 5 6).endBlock ∧ (f 1 2).startBlock = (f 1 2).endBlock ∧
      (f 1 2).endRes.toNat ≠ 4 ∧ (f 1 3).startBlock = (f 1 3).endBlock ∧ (f 1 3).endRes.toNat = 4 := by decide

theorem witness_SendBits_RecvBits : start.seq.hung = false ∧ (1 : Nat) ≤ 1 ∧ (16 : Nat) ≤ 16 := by decide

theorem witness_PollIsBounded : ∃ (s : State) (L : Nat), s.seq.hung = false ∧ s.params.pollLimit = some L ∧ 0 < L :=
  ⟨{ slow with params := { slow.params with pollLimit := some 1 } }, 1, by decide⟩

/-- Every form of the statement returns from an ordinary state. -/
theorem witness_WireInvariants : Ordinary start ∧ Ordinary enabled ∧
    ∀ i ∈ [Instr.seepromRead 1 3 true, .seepromWrite 3 1 true, .eepRead 1, .eepEwen 0, .eepEwds 0, .eepWrite 1 5],
      ∃ t, exec i enabled = .next t ∧ t.seq.hung = false := by
  refine ⟨ordinary_start, ordinary_enabled, fun i hi => of_completes ?_⟩
  have h : ([Instr.seepromRead 1 3 true, .seepromWrite 3 1 true, .eepRead 1, .eepEwen 0, .eepEwds 0,
      .eepWrite 1 5].all fun i => completes (exec i enabled)) = true := by decide +kernel
  exact List.all_eq_true.mp h i hi

/-- Ranges at both ends of a region, for the reads, the counts and the write. -/
theorem witness_reads : Ordinary start ∧ InRange start.params 128 0 128 true ∧ InRange start.params 128 127 1 true ∧
    InRange start.params 256 0 256 true ∧ InRange start.params 256 255 1 true ∧
    InRange start.params start.params.boot0Size 4095 1 true ∧
    InRange start.params start.params.boot0Size 0 4096 true :=
  ⟨ordinary_start, by decide, by decide, by decide, by decide, by decide, by decide⟩

theorem witness_DelayCounts : Ordinary start ∧ InRange start.params 256 255 1 true := ⟨witness_reads.1, by decide⟩
theorem witness_OtpRead : Ordinary start ∧ InRange start.params 128 127 1 true := ⟨witness_reads.1, by decide⟩
theorem witness_SeepromRead : Ordinary start ∧ InRange start.params 256 0 256 true := ⟨witness_reads.1, by decide⟩

/-- A boot ROM of more than 65536 bytes with a `W_OFF` of 20, read at its end. -/
theorem witness_WideOffset : ∃ s : State, Ordinary s ∧ InRange s.params s.params.boot0Size 65536 4 true :=
  ⟨{ start with params := { start.params with wOff := 20, boot0Size := 65540 } },
    ⟨inv_of (by decide), by decide, by decide, rfl⟩, by decide⟩

/-- Both regions, with the protection bit found clear and found set. -/
theorem witness_MirrorReads : Ordinary start ∧ start.plat.prot &&& start.params.protBit = 0 ∧
    InRange start.params start.params.boot0Size 4095 1 true ∧ InRange start.params 128 127 1 true ∧
    Ordinary { start with plat := { start.plat with prot := 0x23 } } :=
  ⟨ordinary_start, by decide, by decide, by decide, inv_of (by decide), by decide, by decide, rfl⟩

/-- The total size of each region has an encoding, and a range at its end. -/
theorem witness_WholeRegionReads : Ordinary start ∧
    (∀ r ∈ [Region.otp, .seeprom, .boot0, .sotp], start.params.encodes 0 (r.totalSize start.params)) ∧
    InRange start.params (Region.boot0.totalSize start.params) 4095 1 true :=
  ⟨ordinary_start, by decide, by decide⟩

theorem witness_OtpImage : Ordinary start := ordinary_start

/-- A read that is accepted and one that is not. -/
theorem witness_ReadsOnlyFillTheBuffer : Ordinary start ∧
    start.params.encodes 255 2 ∧ (∃ t, exec (request .seeprom false 1 3 true) start = .next t) ∧
    ∃ t, exec (request .seeprom false 255 2 true) start = .next t := by
  refine ⟨ordinary_start, by decide, ?_, ?_⟩
  · obtain ⟨t, h, _⟩ := of_completes (o := exec (request .seeprom false 1 3 true) start) (by decide +kernel)
    exact ⟨t, h⟩
  · obtain ⟨t, h, _⟩ := of_completes (o := exec (request .seeprom false 255 2 true) start) (by decide +kernel)
    exact ⟨t, h⟩

theorem witness_EepRead : Ordinary start := ordinary_start
theorem witness_EnableAndDisable : Ordinary start := ordinary_start

theorem witness_EepWrite : Ordinary enabled ∧ enabled.eep.wel = true ∧
    enabled.eep.times = some 2 :: [some 2, some 2] ∧ LimitAllows enabled.params 0 2 :=
  ⟨ordinary_enabled, rfl, rfl, fun L h => by simp [enabled, start, State.reset, platformParams] at h⟩

/-- A device that needs longer, and one that never completes. -/
theorem witness_EepWriteTimesOut : Ordinary slow ∧ slow.eep.wel = true ∧ slow.eep.times = some 5 :: [] ∧
    slow.params.pollLimit = some (2 + 1) ∧ (∀ k, some 5 = some k → 2 < k) ∧
    ∃ s, Ordinary s ∧ s.eep.wel = true ∧ s.eep.times = none :: [] ∧ s.params.pollLimit = some (2 + 1) :=
  ⟨ordinary_slow, rfl, rfl, rfl, fun k h => by injection h with h; omega,
    { slow with eep := dead.eep }, ⟨inv_of (by decide), by decide, by decide, rfl⟩, rfl, rfl, rfl⟩

theorem witness_WriteNeedsEnable : Ordinary start ∧ start.eep.wel = false ∧
    ∃ t, exec (.eepWrite 1 5) start = .next t := by
  obtain ⟨t, h, _⟩ := of_completes (o := exec (.eepWrite 1 5) start) (by decide +kernel)
  exact ⟨ordinary_start, rfl, t, h⟩

theorem witness_OtpCmdRead : Free start ∧ start.params.wellFormed = true := ⟨ordinary_start.2.1, by decide⟩

/-- Three blocks, two of them partially covered, each ready after two busy samples. -/
theorem witness_SeepromWrite : Ordinary start ∧ InRange start.params 256 1 4 true ∧
    [2, 2, 2].length = (blockRange 2 1 4).length ∧
    start.eep.times = [2, 2, 2].map some ++ [] ∧ ∀ k ∈ [2, 2, 2], LimitAllows start.params 0 k :=
  ⟨ordinary_start, by decide, by decide, rfl, fun k _ L h => by simp [start, State.reset, platformParams] at h⟩

theorem witness_WriteDelayCounts : Ordinary start ∧ InRange start.params 256 1 4 true ∧
    [2, 2, 2].length = (blockRange 2 1 4).length ∧
    start.eep.times = [2, 2, 2].map some ++ [] ∧ ∀ k ∈ [2, 2, 2], LimitAllows start.params 0 k := witness_SeepromWrite

/-- The first of two blocks is stored, the second gives up. -/
theorem witness_SeepromWriteTimesOut : ∃ s : State, Ordinary s ∧ InRange s.params 256 0 4 true ∧
    s.params.pollLimit = some (2 + 1) ∧ [2].length < (blockRange 2 0 4).length ∧
    s.eep.times = [2].map some ++ some 3 :: [] ∧ (∀ k ∈ [2], LimitAllows s.params 0 k) ∧
    ∀ k, some 3 = some k → 2 < k :=
  ⟨{ slow with eep := { slow.eep with times := [some 2, some 3] } }, ⟨inv_of (by decide), by decide, by decide, rfl⟩,
    by decide, rfl, by decide, rfl, fun k hk L h => by
      simp only [List.mem_singleton] at hk
      have : L = 3 := by injection h with h; exact h.symm
      omega,
    fun k h => by injection h with h; omega⟩

theorem witness_SeepromWriteHangs : Ordinary dead ∧ InRange dead.params 256 2 2 true ∧ dead.params.pollLimit = none ∧
    ([] : List Nat).length < (blockRange 2 2 2).length ∧
    dead.eep.times = ([] : List Nat).map some ++ none :: [] :=
  ⟨ordinary_dead, by decide, rfl, by decide, rfl⟩

theorem witness_HangGoesOn : Stuck polling ∧ polling.inbox = [] :=
  ⟨⟨rfl, rfl, rfl, rfl, rfl, rfl, rfl, rfl⟩, rfl⟩

/-- A sequencer in the poll of the last block of a write whose device has become ready. -/
def pollingReady : State :=
  { polling with
    seq := { polling.seq with ahead := writeAhead platformParams Sequencer.reset [] }
    eep := { polling.eep with busy := false } }

theorem witness_PollReturns : pollingReady.seq.hung = true ∧ pollingReady.seq.ok = none ∧ pollingReady.lines.cs = true ∧
    pollingReady.eep.edges = 0 ∧ pollingReady.eep.afterWrite = true ∧ pollingReady.eep.busy = false ∧
    pollingReady.eep.unready = false ∧ pollingReady.inbox = [] ∧ pollingReady.disturb = [] := by decide

theorem witness_SeepromWriteGoesOn : Ordinary dead ∧ InRange dead.params 256 2 2 true ∧ dead.params.pollLimit = none ∧
    ([] : List Nat).length + 1 = (blockRange 2 2 2).length ∧
    dead.eep.times = ([] : List Nat).map some ++ none :: [] ∧ dead.inbox = [] ∧
    ∃ d : Eeprom, d.edges = 0 ∧ d.afterWrite = true ∧ d.busy = false ∧ d.unready = false :=
  ⟨ordinary_dead, by decide, rfl, by decide, rfl, rfl, pollingReady.eep, by decide⟩

/-- R143 on a poll the sequencer stands in: the ready sample returns, the clock-free status frame ends, the closing frame
and the unlock follow; the answer is that of the block. -/
theorem test_poll_goes_on :
    (after (step pollingReady)).map (fun t => (t.seq.phase, t.seq.hung, t.seq.status, t.lines.lock)) =
      some (.idle, false, .ok, false) := by decide +kernel

/-- While the device is busy the poll goes on, step by step, with what is still to do unchanged (R227). -/
theorem test_poll_waits :
    (after (step { pollingReady with eep := polling.eep, inbox := [.wait] })).map
      (fun t => (t.seq.phase, t.seq.hung, t.seq.ahead == pollingReady.seq.ahead, t.inbox)) =
      some (.xfer, true, true, []) := by decide +kernel

/-- What is left of a write leads to a free block. -/
theorem test_leads : Leads pollingReady.seq.ahead Ctl.atRest pollingReady.ctl := by
  simp [pollingReady, polling, writeAhead, disableFrame, controlFrame, sendBits, sendLoop, platformParams, inLoop, always,
    Leads, Micro.Leads, State.ctl, Ctl.atRest, Lines.reset, Sequencer.reset]

/-- Both clauses: a finite limit, and an instruction that polls nothing without one. -/
theorem witness_EveryOperationEnds : Ordinary slow ∧ slow.params.pollLimit ≠ none ∧ Ordinary start ∧
    start.params.pollLimit = none ∧ (∀ o l b, Instr.eepRead 1 ≠ .seepromWrite o l b) ∧
    ∀ a d, Instr.eepRead 1 ≠ .eepWrite a d :=
  ⟨ordinary_slow, by decide, ordinary_start, rfl, by simp, by simp⟩

/-- A device whose last write is still under way and completes at the first delay, or never. -/
def late (left : Option Nat) : State := { start with eep := { start.eep with busy := true, pendAddr := 1, left := left } }

theorem late_inv (left : Option Nat) : Inv (late left) :=
  have h := ordinary_start.1
  ⟨h.fuse, h.eepMem, h.boot0, h.sotp, h.buf, h.clock, h.rest, h.polling, h.masked, h.pending, h.handlers, h.widths⟩

/-- A free device and a busy one. -/
theorem witness_InterruptEnableRestored : Ordinary start ∧ Inv (late none) ∧ Inv (late (some 0)) ∧ Free (late none) ∧
    (∃ t, exec (.seepromWrite 3 1 true) start = .next t ∧ t.seq.hung = false) ∧
    (∃ t, exec (.seepromWrite 3 1 true) (late (some 0)) = .next t ∧ t.seq.hung = false) ∧
    ∃ t, exec (.seepromRead 3 1 true) (late none) = .next t ∧ t.seq.hung = false :=
  ⟨ordinary_start, late_inv _, late_inv _, by decide, of_completes (by decide +kernel), of_completes (by decide +kernel),
    of_completes (by decide +kernel)⟩

/-- A write of one byte that returns `(1, OK)`. -/
theorem witness_RoundTrip : Ordinary start ∧ start.buf.wf = true ∧ start.params.encodes 3 1 ∧
    ∃ t, exec (.seepromWrite 3 1 true) start = .next t ∧ Returned t 1 .ok := by
  refine ⟨ordinary_start, by decide, by decide, ?_⟩
  have h : (after (exec (.seepromWrite 3 1 true) start)).map
      (fun t => (t.seq.phase, t.seq.hung, t.seq.count, t.seq.status)) = some (.idle, false, 1, .ok) := by
    decide +kernel
  cases he : exec (.seepromWrite 3 1 true) start with
  | next t =>
    rw [he] at h
    simp only [after, Option.map_some, Option.some.injEq, Prod.mk.injEq] at h
    exact ⟨t, rfl, h.1, h.2.1, h.2.2.1, h.2.2.2⟩
  | fault r => rw [he] at h; simp [after] at h
  | refused r => rw [he] at h; simp [after] at h

/-- A request for each status: OK, PRECOND, ILLEGAL and TIMEOUT. -/
theorem witness_StatusAndCount : Ordinary start ∧ Ordinary slow ∧ start.params.encodes 127 2 ∧
    (∃ t, exec (request .otp false 127 1 true) start = .next t ∧ t.seq.hung = false) ∧
    (∃ t, exec (request .otp false 127 2 true) start = .next t ∧ t.seq.hung = false) ∧
    (∃ t, exec (request .otp true 0 1 true) start = .next t ∧ t.seq.hung = false) ∧
    ∃ t, exec (request .seeprom true 2 2 true) slow = .next t ∧ t.seq.hung = false :=
  ⟨ordinary_start, ordinary_slow, by decide, of_completes (by decide +kernel), of_completes (by decide +kernel),
    of_completes (by decide +kernel), of_completes (by decide +kernel)⟩

theorem witness_DeviceCompletes : ∃ s : State, Inv s ∧ s.inbox = [.deviceStep] ∧ s.eep.busy = true ∧
    s.eep.left = some 0 :=
  ⟨{ start with eep := { start.eep with busy := true, left := some 0, pendAddr := 127 }, inbox := [.deviceStep] },
    inv_of (by decide), rfl, rfl, rfl⟩

/-- Both clauses: a busy device at an edge; one busy for longer than a delay, one busy for ever. -/
theorem witness_BusyDeviceMisused : polling.eep.busy = true ∧ ∀ left ∈ [none, some 1], Inv (late left) ∧
    Free (late left) ∧ (late left).params.wellFormed = true ∧ (late left).eep.busy = true ∧
    (late left).eep.left ≠ some 0 := by
  refine ⟨by decide, fun left h => ⟨late_inv left, ⟨rfl, rfl⟩, by decide +revert, rfl, ?_⟩⟩
  revert left
  decide

/-- Under the lock, with `irq_enable` found 1 and found 0. -/
theorem witness_InterruptWaitsForUnlock : polling.plat.irqEnable = false ∧ polling.lines.lock = true ∧
    polling.seq.irqSaved = false ∧
    ({ polling with seq := { polling.seq with irqSaved := true } } : State).seq.irqSaved = true := by decide

/-- Two interrupts. -/
theorem witness_InterruptsAreHarmless :
    (∀ d ∈ [(⟨3, 0, .interrupt⟩ : Disturbance), ⟨1, 0, .interrupt⟩], d.kind = .interrupt) ∧
    (∃ t, exec (.otpRead 127 1 true) (start.setDisturb [⟨3, 0, .interrupt⟩, ⟨1, 0, .interrupt⟩]) = .next t ∧
      t.seq.hung = false) ∧
    ∃ u, exec (.otpRead 127 1 true) (start.setDisturb []) = .next u ∧ u.seq.hung = false :=
  ⟨by decide, of_completes (by decide +kernel), of_completes (by decide +kernel)⟩

theorem witness_NonMaskableEvent : polling.lines.lock = true ∧ start.lines.lock = false := by decide

/-- At the first moment and before the last item. -/
theorem witness_IntruderRefused : ∀ n ∈ [0, (start.itemsOf .seeprom true 255 1 true).length - 1], ∀ ds,
    let s := start.setDisturb (⟨n, 0, .intruder⟩ :: ds)
    Legal .seeprom true ∧ s.busy = false ∧ InRange s.params (Region.seeprom.totalSize s.params) 255 1 true ∧
      n < (s.itemsOf .seeprom true 255 1 true).length ∧ s.disturb = ⟨n, 0, .intruder⟩ :: ds := by
  intro n hn ds s
  have h : ∀ n ∈ [0, (start.itemsOf .seeprom true 255 1 true).length - 1],
      n < (start.itemsOf .seeprom true 255 1 true).length := by decide +kernel
  exact ⟨.inr rfl, rfl, (by decide : InRange start.params 256 255 1 true), h n hn, rfl⟩

end Sys2Proof.Machine.Tests
end

section
/-! PROOF. Reset, power, the immutable storage and what restores the interrupt enable (10_state.md). First what a run of
items keeps, each said once for every micro-operation and packaged once for every run. -/

namespace Sys2Proof.Machine

/-! ### One induction over a run -/

/-- What every micro-operation of a kind does, and what putting an item off does, a run of items of that kind does. -/
theorem runItems_rel {R : State → State → Prop} (refl : ∀ s, R s s) (trans : ∀ {s t u}, R s t → R t u → R s u)
    {kind : Micro → Bool} (micro : ∀ m s, kind m = true → R s (m.run s))
    (off : ∀ s q, R s (s.setSeq { s.seq with ahead := q })) {is : List Item} (h : is.all (fun it => kind it.op) = true) (s : State) : R s (runItems is s) := by
  induction is generalizing s with
  | nil => exact refl s
  | cons it is ih =>
    rw [List.all_cons, Bool.and_eq_true] at h
    refine trans ?_ (ih h.2 _)
    unfold Item.run
    split
    · rw [putOff_eq]; exact off _ _
    · split
      · exact refl s
      · exact micro _ _ h.1

@[simp] theorem all_always (kind : Micro → Bool) (ms : List Micro) :
    (always ms).all (fun it => kind it.op) = ms.all kind := by simp [always, Function.comp_def]

@[simp] theorem all_inLoop (kind : Micro → Bool) (ms : List Micro) :
    (inLoop ms).all (fun it => kind it.op) = ms.all kind := by simp [inLoop, Function.comp_def]

/-! ### What no operation changes -/

theorem Elsewhere.refl (s : State) : Elsewhere s s := ⟨rfl, rfl, rfl, rfl, rfl, rfl⟩

theorem Elsewhere.trans {s t u : State} (h : Elsewhere s t) (k : Elsewhere t u) : Elsewhere s u :=
  ⟨k.params.trans h.params, k.fuse.trans h.fuse, k.boot0.trans h.boot0, k.sotp.trans h.sotp, k.inbox.trans h.inbox,
    k.disturb.trans h.disturb⟩

theorem WireOnly.elsewhere {s t : State} (h : WireOnly s t) : Elsewhere s t :=
  ⟨h.params, h.fuse, h.boot0, h.sotp, h.inbox, h.disturb⟩

/-- A line event touches nothing but the lines, the device, the trace and the draws (R131). -/
theorem line_wireOnly (l : Line) (b : Bool) (s : State) : WireOnly s (s.line l b) := by
  unfold State.line
  cases l with
  | dOut => exact ⟨rfl, rfl, rfl, rfl, rfl, rfl, rfl, rfl, rfl⟩
  | clk => simp only; split <;> exact ⟨rfl, rfl, rfl, rfl, rfl, rfl, rfl, rfl, rfl⟩
  | cs =>
    simp only
    split
    · exact ⟨rfl, rfl, rfl, rfl, rfl, rfl, rfl, rfl, rfl⟩
    · split <;> exact ⟨rfl, rfl, rfl, rfl, rfl, rfl, rfl, rfl, rfl⟩

/-- What a round of the poll can be: none, or a sample that moves the poll's own registers on, with a delay after it if
the poll is still undecided (R143). -/
theorem pollRound_cases (s : State) :
    s.pollRound = s ∨ (∃ n ok, s.pollRound = s.sample.setSeq { s.seq with pollCnt := n, ok := ok }) ∨
      ∃ n, s.pollRound = (s.sample.setSeq { s.seq with pollCnt := n }).delay := by
  unfold State.pollRound
  split
  · exact .inl rfl
  · simp only
    split
    · exact .inr (.inl ⟨_, _, rfl⟩)
    · split
      · exact .inr (.inl ⟨_, _, rfl⟩)
      · exact .inr (.inr ⟨_, rfl⟩)

/-- What one round of the poll does, any number of rounds does. -/
theorem pollRounds_rel {R : State → State → Prop} (refl : ∀ s, R s s) (trans : ∀ {s t u}, R s t → R t u → R s u)
    (round : ∀ s, R s s.pollRound) (n : Nat) (s : State) : R s (s.pollRounds n) := by
  induction n generalizing s with
  | zero => exact refl s
  | succ n ih =>
    rw [State.pollRounds]
    split
    · exact refl s
    · exact trans (round s) (ih _)

theorem pollRound_wireOnly (s : State) : WireOnly s s.pollRound := by
  rcases pollRound_cases s with h | ⟨n, ok, h⟩ | ⟨n, h⟩ <;> rw [h] <;>
    exact ⟨rfl, rfl, rfl, rfl, rfl, rfl, rfl, rfl, rfl⟩

theorem pollRounds_wireOnly (n : Nat) (s : State) : WireOnly s (s.pollRounds n) :=
  pollRounds_rel WireOnly.refl WireOnly.trans pollRound_wireOnly n s

/-- No micro-operation changes the parameters, the immutable storage or what the world does next (R36, R39). -/
theorem micro_elsewhere (m : Micro) (s : State) : Elsewhere s (m.run s) := by
  cases m with
  | line l b => exact (line_wireOnly l b s).elsewhere
  | pollSome n => exact (pollRounds_wireOnly n s).elsewhere
  | poll =>
    have h := (pollRounds_wireOnly s.pollFuel s).elsewhere
    simp only [Micro.run, State.poll]
    split
    · exact h
    · exact h.trans ⟨rfl, rfl, rfl, rfl, rfl, rfl⟩
  | protExpose => simp only [Micro.run, State.protExpose]; split <;> exact ⟨rfl, rfl, rfl, rfl, rfl, rfl⟩
  | protReread => simp only [Micro.run, State.protReread]; split <;> exact ⟨rfl, rfl, rfl, rfl, rfl, rfl⟩
  | protRestore => simp only [Micro.run, State.protRestore]; split <;> exact ⟨rfl, rfl, rfl, rfl, rfl, rfl⟩
  | unlockIrq =>
    simp only [Micro.run, State.unlockIrq, State.takePending]
    split <;> exact ⟨rfl, rfl, rfl, rfl, rfl, rfl⟩
  | blockDone => simp only [Micro.run]; split <;> exact ⟨rfl, rfl, rfl, rfl, rfl, rfl⟩
  | afterTimeout => simp only [Micro.run]; split <;> exact ⟨rfl, rfl, rfl, rfl, rfl, rfl⟩
  | _ => exact ⟨rfl, rfl, rfl, rfl, rfl, rfl⟩

theorem runItems_elsewhere (is : List Item) (s : State) : Elsewhere s (runItems is s) :=
  runItems_rel (kind := fun _ => true) Elsewhere.refl Elsewhere.trans (fun m s _ => micro_elsewhere m s)
    (fun _ _ => ⟨rfl, rfl, rfl, rfl, rfl, rfl⟩) (List.all_eq_true.mpr fun _ _ => rfl) s

/-! ### Reset and power -/

/-- Taking an interrupt that waited touches the interrupt side of the platform and nothing else (R192). -/
theorem takePending_eq (s : State) :
    ∃ p, s.takePending = s.setPlat p ∧ p.irqEnable = s.plat.irqEnable ∧ p.prot = s.plat.prot := by
  unfold State.takePending
  split
  · exact ⟨_, rfl, rfl, rfl⟩
  · exact ⟨s.plat, rfl, rfl, rfl⟩

/-- What a reset of the block leaves (R210 to R212): the working registers, the lines, the platform and, inside a frame
or a write transaction, the device; the draws are `n` before the last one. -/
theorem blockReset_eq (s : State) : ∃ n p,
    s.blockReset = { s with
      seq := s.seq.afterReset s.params n
      lines := Lines.reset
      plat := p
      eep := if s.lines.lock || s.lines.cs then s.eep.havoc s.draws else s.eep
      draws := n + 1 } ∧
    p.prot = (if s.seq.heldOpen then Config.freeVec 32 n 34 ||| s.params.protBit else Config.freeVec 32 n 34) ∧
    (s.lines.lock = true → p.irqEnable = s.plat.irqEnable) := by
  unfold State.blockReset
  simp only
  split
  next h =>
    obtain ⟨p, hp, hi, hb⟩ := takePending_eq
      (((s.havocEep.setPlat s.havocEep.platAfterReset).setSeq
        (s.havocEep.seq.afterReset s.havocEep.params s.havocEep.draws)).setLines Lines.reset).drawn
    exact ⟨_, p, hp, hb, fun hl => hi.trans (if_pos hl)⟩
  next h =>
    obtain ⟨p, hp, hi, hb⟩ := takePending_eq
      (((s.setPlat s.platAfterReset).setSeq (s.seq.afterReset s.params s.draws)).setLines Lines.reset).drawn
    exact ⟨_, p, hp, hb, fun hl => hi.trans (if_pos hl)⟩

theorem blockReset_elsewhere (s : State) : Elsewhere s s.blockReset := by
  obtain ⟨n, p, h, -, -⟩ := blockReset_eq s
  rw [h]; exact ⟨rfl, rfl, rfl, rfl, rfl, rfl⟩

/-- A reset is no event of the trace and no access to the buffer (R211). -/
theorem blockReset_traces (s : State) :
    s.blockReset.trace = s.trace ∧ s.blockReset.bufTrace = s.bufTrace ∧ s.blockReset.buf = s.buf := by
  obtain ⟨n, p, h, -, -⟩ := blockReset_eq s
  rw [h]; exact ⟨rfl, rfl, rfl⟩

/-- A reset returns nothing: `IDLE`, count 0, status OK (R210). -/
theorem blockReset_returned (s : State) : Returned s.blockReset 0 .ok ∧ s.blockReset.lines = Lines.reset := by
  obtain ⟨n, p, h, -, -⟩ := blockReset_eq s
  rw [h]; exact ⟨⟨rfl, rfl, rfl, rfl⟩, rfl⟩

/-- Under the lock a reset leaves `irq_enable` as the write transaction has it (R211, log 18). -/
theorem blockReset_irqEnable {s : State} (hl : s.lines.lock = true) :
    s.blockReset.plat.irqEnable = s.plat.irqEnable := by
  obtain ⟨n, p, h, -, hi⟩ := blockReset_eq s
  rw [h]; exact hi hl

theorem or_and_self (v m : Word) : (v ||| m) &&& m = m := by
  ext i _
  simpa using Or.inr

/-- A protection bit this operation set, and has not cleared again, stays 1 through a reset (R211, log 18). -/
theorem blockReset_held {s : State} (ho : s.seq.heldOpen = true) :
    s.blockReset.plat.prot &&& s.params.protBit = s.params.protBit := by
  obtain ⟨n, p, h, hp, -⟩ := blockReset_eq s
  rw [h]
  show p.prot &&& s.params.protBit = s.params.protBit
  rw [hp, if_pos ho, or_and_self]

/-- Otherwise `PROT` is drawn anew (R40, R212). -/
theorem blockReset_free {s : State} (ho : s.seq.heldOpen = false) :
    ∃ d, s.blockReset.plat.prot = Config.freeVec 32 d 34 := by
  obtain ⟨n, p, h, hp, -⟩ := blockReset_eq s
  refine ⟨n, ?_⟩
  rw [h]
  exact hp.trans (if_neg (by rw [ho]; decide))

/-- What a loss of power leaves (R193, R200; log 19). -/
theorem powerCycle_eq (s : State) : ∃ n d p m,
    s.powerCycle = { s with
      seq := s.seq.afterReset s.params n, lines := Lines.reset, plat := p, eep := d.powerOn n, buf := m
      draws := n + 1 } ∧
    (s.lines.lock = false → s.lines.cs = false → d = s.eep) := by
  unfold State.powerCycle
  simp only
  split
  next h =>
    refine ⟨_, _, _, _, rfl, fun hl hc => ?_⟩
    simp [hl, hc] at h
  next h => exact ⟨_, _, _, _, rfl, fun _ _ => rfl⟩

theorem powerCycle_elsewhere (s : State) : Elsewhere s s.powerCycle := by
  obtain ⟨n, d, p, m, h, -⟩ := powerCycle_eq s
  rw [h]; exact ⟨rfl, rfl, rfl, rfl, rfl, rfl⟩

/-- At power-on the array reads as before but for the word under an unfinished write (R38, R200). -/
theorem powerOn_read {d : Eeprom} (hm : d.memOk) (n k : Nat) (h : d.busy = true → k / 2 ≠ d.pendAddr.toNat) :
    (d.powerOn n).mem.read k = d.mem.read k := by
  unfold Eeprom.powerOn
  simp only
  split
  next hb =>
    have := h hb
    rw [Memory.read_writeHalf hm.1, if_neg (by omega), if_neg (by omega)]
  next => rfl

/-- Settles O1: reset leaves the block at rest, and with no input it waits. -/
theorem resetLeaves : Obligations.ResetLeaves := ⟨rfl, rfl, rfl, rfl, rfl, rfl, rfl, rfl, rfl, rfl, rfl, rfl⟩

/-- Settles O5, from what a reset of the block leaves (`blockReset_eq`). -/
theorem resetOfTheBlock : Obligations.ResetOfTheBlock := by
  intro s
  have h := blockReset_elsewhere s
  obtain ⟨n, p, e, -, -⟩ := blockReset_eq s
  have hseq : s.blockReset.seq = s.seq.afterReset s.params n := by rw [e]
  have heep : s.blockReset.eep = if s.lines.lock || s.lines.cs then s.eep.havoc s.draws else s.eep := by rw [e]
  refine ⟨?_, h.fuse, h.boot0, h.sotp, fun hl hc => ?_, fun hlc => ?_, blockReset_irqEnable, blockReset_held,
    blockReset_free⟩
  · rw [hseq]
    exact ⟨rfl, rfl, rfl, rfl, rfl, rfl, (blockReset_returned s).2⟩
  · rw [heep, hl, hc]; rfl
  · rw [heep, if_pos (by simpa using hlc)]

/-- Settles O7, from what a loss of power leaves (`powerCycle_eq`). -/
theorem powerLoss : Obligations.PowerLoss := by
  intro s hi t
  have h : Elsewhere s t := powerCycle_elsewhere s
  obtain ⟨n, d, p, m, e, hd⟩ := powerCycle_eq s
  have heep : t.eep = d.powerOn n := congrArg State.eep e
  refine ⟨h.fuse, h.boot0, h.sotp, ?_, ?_, congrArg State.lines e, congrArg (·.seq.phase) e, fun hl hc k hk => ?_⟩
  · rw [heep]; rfl
  · rw [heep]; rfl
  · rw [heep, hd hl hc, powerOn_read hi.eepMem n k hk]

end Sys2Proof.Machine
end

section
/-! PROOF. What stands between an operation and the platform: the lock, `irq_enable` and the flags that say what is to be
restored; the items of every operation as an opening, a part that touches none of them, and an ending. -/

namespace Sys2Proof.Machine

/-! ### The guards of an operation -/

/-- The lock, `irq_enable` and the flags are as they were. -/
structure GuardKept (s t : State) : Prop where
  lock : t.lines.lock = s.lines.lock
  irqEnable : t.plat.irqEnable = s.plat.irqEnable
  irqSaved : t.seq.irqSaved = s.seq.irqSaved
  protChanged : t.seq.protChanged = s.seq.protChanged
  heldOpen : t.seq.heldOpen = s.seq.heldOpen

theorem GuardKept.refl (s : State) : GuardKept s s := ⟨rfl, rfl, rfl, rfl, rfl⟩

theorem GuardKept.trans {s t u : State} (h : GuardKept s t) (k : GuardKept t u) : GuardKept s u :=
  ⟨k.lock.trans h.lock, k.irqEnable.trans h.irqEnable, k.irqSaved.trans h.irqSaved, k.protChanged.trans h.protChanged,
    k.heldOpen.trans h.heldOpen⟩

/-- The micro-operations that touch no guard: all but the steps of R156, R163, R171, R172 and R175 and the return. -/
def Micro.quiet : Micro → Bool
  | .protCheck | .protExpose | .protRestore | .lockIrq | .unlockIrq | .finish => false
  | _ => true

theorem line_guardKept (l : Line) (b : Bool) (s : State) : GuardKept s (s.line l b) := by
  have hs := line_seq l b s
  refine ⟨?_, by rw [(line_wireOnly l b s).plat], by rw [hs], by rw [hs], by rw [hs]⟩
  rw [line_lines]
  cases l <;> rfl

theorem pollRounds_guardKept (n : Nat) (s : State) : GuardKept s (s.pollRounds n) := by
  refine pollRounds_rel GuardKept.refl GuardKept.trans (fun s => ?_) n s
  rcases pollRound_cases s with h | ⟨n, ok, h⟩ | ⟨n, h⟩ <;> rw [h] <;> exact ⟨rfl, rfl, rfl, rfl, rfl⟩

theorem micro_guardKept {m : Micro} (h : m.quiet = true) (s : State) : GuardKept s (m.run s) := by
  cases m with
  | protCheck | protExpose | protRestore | lockIrq | unlockIrq | finish => cases h
  | line l b => exact line_guardKept l b s
  | pollSome n => exact pollRounds_guardKept n s
  | poll =>
    have h := pollRounds_guardKept s.pollFuel s
    simp only [Micro.run, State.poll]
    split
    · exact h
    · exact h.trans ⟨rfl, rfl, rfl, rfl, rfl⟩
  | protReread => simp only [Micro.run, State.protReread]; split <;> exact ⟨rfl, rfl, rfl, rfl, rfl⟩
  | blockDone => simp only [Micro.run]; split <;> exact ⟨rfl, rfl, rfl, rfl, rfl⟩
  | afterTimeout => simp only [Micro.run]; split <;> exact ⟨rfl, rfl, rfl, rfl, rfl⟩
  | _ => exact ⟨rfl, rfl, rfl, rfl, rfl⟩

/-- A run of quiet items touches no guard, whether it goes on or is put off. -/
theorem runItems_quiet {is : List Item} (h : is.all (fun it => it.op.quiet) = true) (s : State) :
    GuardKept s (runItems is s) :=
  runItems_rel GuardKept.refl GuardKept.trans (fun _ s h => micro_guardKept h s)
    (fun _ _ => ⟨rfl, rfl, rfl, rfl, rfl⟩) h s

/-- The lock and `irq_enable` are as they were. -/
abbrev LockKept (s t : State) : Prop := t.lines.lock = s.lines.lock ∧ t.plat.irqEnable = s.plat.irqEnable

/-- Only the lock of R156 and the unlock of R163 change the lock or `irq_enable`. -/
def Micro.keepsLock : Micro → Bool
  | .lockIrq | .unlockIrq => false
  | _ => true

theorem micro_lockKept {m : Micro} (h : m.keepsLock = true) (s : State) : LockKept s (m.run s) := by
  cases hq : m.quiet with
  | true => exact ⟨(micro_guardKept hq s).lock, (micro_guardKept hq s).irqEnable⟩
  | false =>
    cases m with
    | protCheck => exact ⟨rfl, rfl⟩
    | protExpose => simp only [Micro.run, State.protExpose]; split <;> exact ⟨rfl, rfl⟩
    | protRestore => simp only [Micro.run, State.protRestore]; split <;> exact ⟨rfl, rfl⟩
    | finish => exact ⟨rfl, rfl⟩
    | lockIrq | unlockIrq => cases h
    | _ => cases hq

theorem runItems_lockKept {is : List Item} (h : is.all (fun it => it.op.keepsLock) = true) (s : State) :
    LockKept s (runItems is s) :=
  runItems_rel (fun _ => ⟨rfl, rfl⟩) (fun h k => ⟨k.1.trans h.1, k.2.trans h.2⟩) (fun _ s h => micro_lockKept h s)
    (fun _ _ => ⟨rfl, rfl⟩) h s

/-- Only the exposure of R172 makes an operation hold a window open. -/
def Micro.keepsShut : Micro → Bool
  | .protExpose => false
  | _ => true

theorem micro_shut {m : Micro} (h : m.keepsShut = true) (s : State) (hs : s.seq.heldOpen = false) :
    (m.run s).seq.heldOpen = false := by
  cases hq : m.quiet with
  | true => rw [(micro_guardKept hq s).heldOpen, hs]
  | false =>
    cases m with
    | protExpose => cases h
    | protRestore =>
      simp only [Micro.run, State.protRestore]
      split
      · rfl
      · exact hs
    | unlockIrq => simp only [Micro.run, State.unlockIrq, takePending_seq]; exact hs
    | protCheck | lockIrq => exact hs
    | finish => rfl
    | _ => cases hq

theorem runItems_shut {is : List Item} (h : is.all (fun it => it.op.keepsShut) = true) (s : State)
    (hs : s.seq.heldOpen = false) : (runItems is s).seq.heldOpen = false :=
  runItems_rel (R := fun s t => s.seq.heldOpen = false → t.seq.heldOpen = false) (fun _ h => h) (fun h k e => k (h e))
    (fun _ s h => micro_shut h s) (fun _ _ h => h) h s hs

/-- Only a poll makes the sequencer stand (R227). -/
def Micro.goesOn : Micro → Bool
  | .poll => false
  | _ => true

theorem micro_goesOn {m : Micro} (h : m.goesOn = true) (s : State) (hs : s.seq.hung = false) :
    (m.run s).seq.hung = false := by
  cases hp : m.plain with
  | true => rw [(plain_ctl hp s).1, hs]
  | false =>
    cases m with
    | poll => cases h
    | pollSome n => rw [Micro.run, (pollRounds_way n s).2.1, hs]
    | blockDone => simp only [Micro.run]; split <;> exact hs
    | startLoop => exact hs
    | finish => rfl
    | _ => cases hp

theorem runItems_goesOn {is : List Item} (h : is.all (fun it => it.op.goesOn) = true) (s : State)
    (hs : s.seq.hung = false) : (runItems is s).seq.hung = false :=
  runItems_rel (R := fun s t => s.seq.hung = false → t.seq.hung = false) (fun _ h => h) (fun h k e => k (h e))
    (fun _ s h => micro_goesOn h s) (fun _ _ h => h) h s hs

/-! ### The items of an operation -/

theorem all_take {p : Item → Bool} {is : List Item} (h : is.all p = true) (n : Nat) : (is.take n).all p = true :=
  List.all_eq_true.mpr fun x hx => List.all_eq_true.mp h x (List.mem_of_mem_take hx)

theorem all_mono {p q : Micro → Bool} (hpq : ∀ m, p m = true → q m = true) {is : List Item}
    (h : is.all (fun it => p it.op) = true) : is.all (fun it => q it.op) = true :=
  List.all_eq_true.mpr fun x hx => hpq _ (List.all_eq_true.mp h x hx)

theorem Micro.quiet_keepsLock (m : Micro) (h : m.quiet = true) : m.keepsLock = true := by
  cases m with
  | lockIrq | unlockIrq => cases h
  | _ => rfl

theorem Micro.quiet_keepsShut (m : Micro) (h : m.quiet = true) : m.keepsShut = true := by
  cases m with
  | protExpose => cases h
  | _ => rfl

theorem sendLoop_quiet (n : Nat) : (sendLoop n).all Micro.quiet = true := by
  induction n with
  | zero => rfl
  | succ n ih => simpa [sendLoop, Micro.quiet] using ih

theorem recvLoop_quiet (n : Nat) : (recvLoop n).all Micro.quiet = true := by
  induction n with
  | zero => rfl
  | succ n ih => simpa [recvLoop, Micro.quiet] using ih

theorem readFrameOf_quiet (c : Command) : (readFrameOf c).all Micro.quiet = true := by
  simp [readFrameOf, sendBits, recvBits, sendLoop_quiet, recvLoop_quiet, Micro.quiet]

theorem controlFrame_quiet (c : Command) (n : Nat) : (controlFrame c n).all Micro.quiet = true := by
  simp [controlFrame, sendBits, sendLoop_quiet, Micro.quiet]

theorem writeFrameOf_quiet (c : Command) : (writeFrameOf c).all Micro.quiet = true := by
  simp [writeFrameOf, sendBits, sendBlk, sendLoop_quiet, Micro.quiet]

/-- A read loop is of a kind if its block transfer and the loop's own steps are. -/
theorem readLoop_all {kind : Micro → Bool} {B : Nat} {br : Nat → List Micro} (h : ∀ i, (br i).all kind = true)
    (h1 : [.setPhase .xfer, .startLoop, .slice B, .addCount].all kind = true) (h2 : ∀ i, kind (.setBlock i) = true)
    (h3 : ∀ p, kind (.copyByte B p) = true) (q : Sequencer) :
    (readLoop B br q).all (fun it => kind it.op) = true := by
  simp only [List.all_cons, List.all_nil, Bool.and_eq_true] at h1
  simp [readLoop, readStep, List.all_flatMap, all_inLoop, h, h1, h2, h3]

theorem writeLoop_quiet (p : Params) (q : Sequencer) : (writeLoop p q).all (fun it => it.op.quiet) = true := by
  have h : ∀ i, (if q.partialBlock 2 i then readFrame p i else []).all Micro.quiet = true := fun i => by
    split
    · exact readFrameOf_quiet _
    · rfl
  have hw : ∀ i, (writeFrame p i).all Micro.quiet = true := fun i => writeFrameOf_quiet _
  simp only [writeLoop, writeStep, List.all_append, List.all_flatMap, all_always Micro.quiet, all_inLoop Micro.quiet,
    List.all_cons, h, hw]
  simp [Micro.quiet]

/-- What an operation does first, up to the guard it takes: the lock of a write (R156), the exposure of a mirror window
(R171, R172). -/
def opening : Region → Bool → List Micro
  | .seeprom, true => [.setPhase .opening, .lockIrq]
  | .boot0, _ | .sotp, _ => [.setPhase .opening, .protCheck, .protExpose]
  | _, _ => []

/-- What an operation does last, from where it gives the guard back: the unlock (R163), the restore (R175). -/
def ending : Region → Bool → List Micro
  | .seeprom, true => [.unlockIrq, .finish]
  | .boot0, _ | .sotp, _ => [.protRestore, .finish]
  | _, _ => [.finish]

theorem mirrorReadItems_parts (m : Mirror) (p : Params) (q : Sequencer) :
    ∃ mid, mid.all (fun it => it.op.quiet) = true ∧ mid.all (fun it => it.op.goesOn) = true ∧
      mirrorReadItems m p q = always [.setPhase .opening, .protCheck, .protExpose] ++ mid ++
        always [.protRestore, .finish] := by
  refine ⟨readLoop 4 (mirrorBlockRead m) q ++ always [.setPhase .closing, .protReread], ?_, ?_, ?_⟩
  · rw [List.all_append, readLoop_all (fun _ => rfl) rfl (fun _ => rfl) (fun _ => rfl)]; rfl
  · rw [List.all_append, readLoop_all (fun _ => rfl) rfl (fun _ => rfl) (fun _ => rfl)]; rfl
  · simp [mirrorReadItems, always]

/-- The items of every operation: between its opening and its ending it touches no guard. -/
theorem opItems_parts (r : Region) (w : Bool) (p : Params) (q : Sequencer) :
    ∃ mid, mid.all (fun it => it.op.quiet) = true ∧
      opItems r w p q = always (opening r w) ++ mid ++ always (ending r w) := by
  have mirror := fun m => mirrorReadItems_parts m p q
  cases r with
  | otp =>
    refine ⟨always [.setPhase .opening] ++ readLoop 4 (otpBlockRead p) q ++ always [.setPhase .closing], ?_, ?_⟩
    · rw [List.all_append, List.all_append, readLoop_all (fun _ => rfl) rfl (fun _ => rfl) (fun _ => rfl)]; rfl
    · simp [opItems, otpReadItems, opening, ending, always]
  | seeprom =>
    cases w with
    | false =>
      refine ⟨always (.setPhase .opening :: preamble) ++ readLoop 2 (readFrame p) q ++ always [.setPhase .closing],
        ?_, ?_⟩
      · rw [List.all_append, List.all_append,
          readLoop_all (br := readFrame p) (fun _ => readFrameOf_quiet _) rfl (fun _ => rfl) (fun _ => rfl)]
        rfl
      · simp [opItems, seepromReadItems, opening, ending, always]
    | true =>
      refine ⟨always (preamble ++ enableFrame p) ++ writeLoop p q ++
        always (.setPhase .closing :: disableFrame p ++ [.afterTimeout]), ?_, ?_⟩
      · simp only [List.all_append, all_always Micro.quiet, List.all_cons, writeLoop_quiet, enableFrame, disableFrame,
          controlFrame_quiet]
        rfl
      · simp [opItems, seepromWriteItems, opening, ending, always]
  | boot0 => obtain ⟨mid, h, -, e⟩ := mirror .boot0; exact ⟨mid, h, e⟩
  | sotp => obtain ⟨mid, h, -, e⟩ := mirror .sotp; exact ⟨mid, h, e⟩

/-- Only the SEEPROM write takes or releases the lock (R156, R163). -/
theorem opItems_keepsLock {r : Region} {w : Bool} (h : ¬ (r = .seeprom ∧ w = true)) (p : Params) (q : Sequencer) :
    (opItems r w p q).all (fun it => it.op.keepsLock) = true := by
  obtain ⟨mid, hm, e⟩ := opItems_parts r w p q
  have ho : (opening r w).all Micro.keepsLock = true ∧ (ending r w).all Micro.keepsLock = true := by
    cases r with
    | otp | boot0 | sotp => exact ⟨rfl, rfl⟩
    | seeprom =>
      cases w with
      | false => exact ⟨rfl, rfl⟩
      | true => exact absurd ⟨rfl, rfl⟩ h
  rw [e, List.all_append, List.all_append, all_always, all_always, ho.1, ho.2, all_mono Micro.quiet_keepsLock hm]
  rfl

/-- Only a mirror read exposes a window (R172). -/
theorem opItems_keepsShut {r : Region} {w : Bool} (h : ¬ (r = .boot0 ∨ r = .sotp)) (p : Params) (q : Sequencer) :
    (opItems r w p q).all (fun it => it.op.keepsShut) = true := by
  obtain ⟨mid, hm, e⟩ := opItems_parts r w p q
  have ho : (opening r w).all Micro.keepsShut = true ∧ (ending r w).all Micro.keepsShut = true := by
    cases r with
    | otp => exact ⟨rfl, rfl⟩
    | seeprom => cases w <;> exact ⟨rfl, rfl⟩
    | boot0 => exact absurd (.inl rfl) h
    | sotp => exact absurd (.inr rfl) h
  rw [e, List.all_append, List.all_append, all_always, all_always, ho.1, ho.2, all_mono Micro.quiet_keepsShut hm]
  rfl

/-! ### What an instruction is -/

/-- A legal request is the host request with the items of its operation. -/
theorem exec_request {r : Region} {w : Bool} (h : Legal r w) (o l : Nat) (b : Bool) (s : State) :
    exec (request r w o l b) s = hostRequest r w (opItems r w) o l b s := by
  rcases h with rfl | rfl
  · cases r <;> rfl
  · cases w <;> rfl

/-- Every instruction is a legal request, an illegal one, or a sub-step that touches no guard. -/
theorem exec_cases (i : Instr) (s : State) :
    (∃ r w o l b, exec i s = hostRequest r w (opItems r w) o l b s) ∨
      (∃ r o l b, exec i s = illegalRequest r o l b s) ∨
      ∃ ms, ms.all Micro.quiet = true ∧ exec i s = subStep ms s := by
  cases i with
  | otpRead o l b => exact .inl ⟨.otp, false, o, l, b, rfl⟩
  | seepromRead o l b => exact .inl ⟨.seeprom, false, o, l, b, rfl⟩
  | seepromWrite o l b => exact .inl ⟨.seeprom, true, o, l, b, rfl⟩
  | boot0Read o l b => exact .inl ⟨.boot0, false, o, l, b, rfl⟩
  | sotpRead o l b => exact .inl ⟨.sotp, false, o, l, b, rfl⟩
  | otpWrite o l b => exact .inr (.inl ⟨.otp, o, l, b, rfl⟩)
  | boot0Write o l b => exact .inr (.inl ⟨.boot0, o, l, b, rfl⟩)
  | sotpWrite o l b => exact .inr (.inl ⟨.sotp, o, l, b, rfl⟩)
  | eepRead a => exact .inr (.inr ⟨_, readFrameOf_quiet _, rfl⟩)
  | eepWrite a d =>
    have hq := writeFrameOf_quiet (addressCommand s.params.opWrite a)
    exact .inr (.inr ⟨.loadBlk d :: writeFrameOf (addressCommand s.params.opWrite a), hq, rfl⟩)
  | eepEwen pad => exact .inr (.inr ⟨_, controlFrame_quiet _ _, rfl⟩)
  | eepEwds pad => exact .inr (.inr ⟨_, controlFrame_quiet _ _, rfl⟩)
  | otpCmdRead w => exact .inr (.inr ⟨_, rfl, rfl⟩)

end Sys2Proof.Machine
end

section
/-! PROOF. The statements about the state (10_state.md) that speak of whole operations. -/

namespace Sys2Proof.Machine

/-! ### The immutable storage -/

/-- Whatever meets an operation, it changes nothing of what no operation changes. -/
theorem operate_elsewhere {is : List Item} {s t : State} (h : operate is s = .next t) :
    Elsewhere (s.setDisturb []) t := by
  refine meet_rule (P := fun _ u => Elsewhere (s.setDisturb []) u) (Q := Elsewhere (s.setDisturb []))
    (fun js u k => k.trans (runItems_elsewhere js u))
    (fun n k js u e => (e.trans (runItems_elsewhere _ u)).trans (blockReset_elsewhere _))
    (fun n k js u e => (e.trans (runItems_elsewhere _ u)).trans (powerCycle_elsewhere _))
    (fun n k js u e => ?_) (Elsewhere.refl _) h
  have hu := e.trans (runItems_elsewhere (itemsBefore n k js) u)
  refine ⟨hu.trans ?_, hu.trans ?_, hu⟩
  · unfold State.nonMaskable; split <;> exact ⟨rfl, rfl, rfl, rfl, rfl, rfl⟩
  · unfold State.interruptArrives; split <;> exact ⟨rfl, rfl, rfl, rfl, rfl, rfl⟩

/-- The parameters and the immutable storage are as they were (R36, R39). -/
structure StorageKept (s t : State) : Prop where
  params : t.params = s.params
  fuse : t.fuse = s.fuse
  boot0 : t.boot0 = s.boot0
  sotp : t.sotp = s.sotp

theorem StorageKept.refl (s : State) : StorageKept s s := ⟨rfl, rfl, rfl, rfl⟩

theorem Elsewhere.storage {s t : State} (h : Elsewhere s t) : StorageKept s t := ⟨h.params, h.fuse, h.boot0, h.sotp⟩

theorem operate_storage {is : List Item} {s t : State} (h : operate is s = .next t) : StorageKept s t :=
  ⟨(operate_elsewhere h).params, (operate_elsewhere h).fuse, (operate_elsewhere h).boot0, (operate_elsewhere h).sotp⟩

theorem exec_storage {i : Instr} {s t : State} (h : exec i s = .next t) : StorageKept s t := by
  rcases exec_cases i s with ⟨r, w, o, l, b, e⟩ | ⟨r, o, l, b, e⟩ | ⟨ms, -, e⟩ <;> rw [e] at h
  · obtain ⟨-, ⟨-, rfl⟩ | ⟨-, h⟩⟩ := hostRequest_cases h
    · exact ⟨rfl, rfl, rfl, rfl⟩
    · have k := operate_storage h
      exact ⟨k.params, k.fuse, k.boot0, k.sotp⟩
  · obtain ⟨-, rfl⟩ := illegalRequest_cases h
    exact ⟨rfl, rfl, rfl, rfl⟩
  · exact operate_storage (subStep_cases h).2

/-- One more sample of a poll, and the rest of the operation if it returns. -/
theorem waitStep_storage {s t : State} (h : waitStep s = .next t) : StorageKept s t := by
  have hr := (pollRound_wireOnly s).elsewhere
  unfold waitStep State.pollOn at h
  simp only at h
  split at h
  · split at h
    · have k := operate_storage h
      exact ⟨k.params.trans hr.params, k.fuse.trans hr.fuse, k.boot0.trans hr.boot0, k.sotp.trans hr.sotp⟩
    · cases h; exact hr.storage
  · cases h; exact .refl s

theorem handleInput_storage {inp : Input} {s t : State} (h : handleInput inp s = .next t) : StorageKept s t := by
  cases inp with
  | present r =>
    simp only [handleInput, presentWord] at h
    split at h
    · exact exec_storage h
    · cases h
  | setBuf bytes | setProt v =>
    simp only [handleInput] at h
    split at h
    · cases h
    · cases h; exact ⟨rfl, rfl, rfl, rfl⟩
  | setIrq b =>
    simp only [handleInput] at h
    split at h
    · cases h
    · obtain ⟨p, e, -⟩ := takePending_eq (s.setPlat { s.plat with irqEnable := b })
      rw [e] at h
      cases h; exact ⟨rfl, rfl, rfl, rfl⟩
  | interrupt =>
    simp only [handleInput, State.interruptArrives] at h
    split at h <;> cases h <;> exact ⟨rfl, rfl, rfl, rfl⟩
  | nonMaskable =>
    simp only [handleInput, State.nonMaskable] at h
    split at h <;> cases h <;> exact ⟨rfl, rfl, rfl, rfl⟩
  | deviceStep =>
    simp only [handleInput, State.deviceStep] at h
    split at h <;> cases h <;> exact ⟨rfl, rfl, rfl, rfl⟩
  | wait => exact waitStep_storage h
  | disturb ds => cases h; exact ⟨rfl, rfl, rfl, rfl⟩
  | reset => cases h; exact (blockReset_elsewhere s).storage
  | powerCycle => cases h; exact (powerCycle_elsewhere s).storage

/-- Settles O8: whatever the input, from what no micro-operation changes. -/
theorem immutableStorage : Obligations.ImmutableStorage := by
  intro s t h
  have k : StorageKept s t := by
    unfold step at h
    split at h
    · exact waitStep_storage h
    · have k := handleInput_storage h
      exact ⟨k.params, k.fuse, k.boot0, k.sotp⟩
  exact ⟨k.params, k.fuse, k.boot0, k.sotp⟩

/-! ### A command frame and an OTP command word as instructions -/

/-- Where a sub-step taken as an instruction starts (R27, log 13). -/
def State.inXfer (s : State) : State := s.setSeq { s.seq with phase := .xfer }

theorem Micro.plain_goesOn (m : Micro) (h : m.plain = true) : m.goesOn = true := by
  cases m with
  | poll => cases h
  | _ => rfl

/-- An undisturbed sub-step of plain micro-operations runs them in phase `XFER` and returns (R21, log 13). -/
theorem subStep_plain {ms : List Micro} (hp : ms.all Micro.plain = true) {s : State} (hf : Free s) :
    let u := runItems (always (.setPhase .xfer :: ms)) s
    u = runMicros ms s.inXfer ∧ subStep ms s = .next u.finish := by
  intro u
  have hh := (free_idle hf.1).2
  have hu : u = runItems (always ms) s.inXfer := runItems_xfer ms hh
  have hgo : (always ms).all (fun it => it.op.goesOn) = true :=
    all_mono Micro.plain_goesOn ((all_always Micro.plain ms).trans hp)
  have hn : u.seq.hung = false := by rw [hu]; exact runItems_goesOn hgo _ hh
  exact ⟨hu.trans (runItems_always hp hh), subStep_returns hf.1 hf.2 hn⟩

/-- The return keeps count and status as they stand (R195). -/
theorem finish_returned {u : State} {q : Sequencer} (h : u.seq = q) : Returned u.finish q.count q.status := by
  subst h
  exact ⟨rfl, rfl, rfl, rfl⟩

/-- Settles O27, from what a read frame does (`run_readFrame`). -/
theorem eepRead : Obligations.EepRead := by
  intro a s hi hf hp hb c w u
  obtain ⟨hu, hx⟩ : u = runMicros (readFrameOf c) s.inXfer ∧ exec (.eepRead a) s = .next u.finish :=
    subStep_plain (readFrameOf_plain c) hf
  obtain ⟨hcs, hclk, -⟩ := free_lines hi hf.1
  obtain ⟨hwire, hdev, hwel, hlines, hseq, htrace, -⟩ := run_readFrame (a := a) (s := s.inXfer) hp hcs hclk hb
  have hret := finish_returned hseq
  clear_value u
  subst hu
  exact ⟨hx, hret, hseq, hlines,
    ⟨hwire.params, hwire.plat, hwire.fuse, hwire.boot0, hwire.sotp, hwire.buf, hwire.bufTrace, hwire.inbox,
      hwire.disturb⟩, hdev, hwel, htrace⟩

/-- Settles O32, from what the two accesses of a block of the fuse array do (`run_otpBlockRead`). -/
theorem otpCmdRead : Obligations.OtpCmdRead := by
  intro w s hf hp v u
  have hw : BitVec.ofNat 5 w.toNat = w := by simp
  obtain ⟨hu, hx⟩ : u = runMicros [.otpWriteCmd v, .otpReadData] s.inXfer ∧ exec (.otpCmdRead w) s = .next u.finish :=
    subStep_plain rfl hf
  have hrun := run_otpBlockRead (s := s.inXfer) hp w.isLt
  rw [otpBlockRead, otpPlat, otpEvents, hw] at hrun
  clear_value u
  obtain rfl := hu.trans hrun
  exact ⟨hx, ⟨rfl, rfl, rfl, rfl⟩, rfl, rfl, rfl, rfl, rfl, rfl, rfl, rfl, ⟨rfl, rfl, rfl, rfl, rfl, rfl⟩⟩

/-! ### The interrupt enable after an operation -/

/-- The guard a write takes: the lock with `irq_enable` saved and cleared (R156). -/
theorem run_lock {s : State} (hh : s.seq.hung = false) :
    let t := runItems (always [.setPhase .opening, .lockIrq]) s
    t.lines.lock = true ∧ t.plat.irqEnable = false ∧ t.seq.irqSaved = s.plat.irqEnable := by
  rw [runItems_always rfl hh]
  exact ⟨rfl, rfl, rfl⟩

/-- The guard a write gives back, once its polls have returned: the saved `irq_enable`, no lock (R163). -/
theorem run_unlock {s : State} (hh : (runItems (always [.unlockIrq, .finish]) s).seq.hung = false) :
    let t := runItems (always [.unlockIrq, .finish]) s
    t.lines.lock = false ∧ t.plat.irqEnable = s.seq.irqSaved := by
  have hs : s.seq.hung = false := by
    cases h : s.seq.hung with
    | false => rfl
    | true => rw [runItems_hung h] at hh; exact absurd (h.symm.trans hh) (by decide)
  obtain ⟨p, hp, hi, -⟩ := takePending_eq
    ((s.setPlat { s.plat with irqEnable := s.seq.irqSaved }).setLines { s.lines with lock := false })
  have hu : Item.run s ⟨false, .unlockIrq⟩ = s.unlockIrq := by simp [Item.run, hs, Micro.run]
  have hf : Item.run s.unlockIrq ⟨false, .finish⟩ = s.unlockIrq.finish := by
    simp [Item.run, State.unlockIrq, takePending_seq, hs, Micro.run]
  have he : runItems (always [.unlockIrq, .finish]) s = s.unlockIrq.finish := by
    show Item.run (Item.run s ⟨false, .unlockIrq⟩) ⟨false, .finish⟩ = _
    rw [hu, hf]
  rw [he]
  unfold State.unlockIrq
  rw [hp]
  exact ⟨rfl, hi⟩

/-- The items of a write that has returned leave `irq_enable` as they found it, and no lock (R156, R163). -/
theorem runItems_seepromWrite_restores {p : Params} {q : Sequencer} {s : State} (hh : s.seq.hung = false)
    (ht : (runItems (seepromWriteItems p q) s).seq.hung = false) :
    let t := runItems (seepromWriteItems p q) s
    t.lines.lock = false ∧ t.plat.irqEnable = s.plat.irqEnable := by
  intro t
  obtain ⟨mid, hm, e⟩ : ∃ mid, mid.all (fun it => it.op.quiet) = true ∧ seepromWriteItems p q =
      always [.setPhase .opening, .lockIrq] ++ mid ++ always [.unlockIrq, .finish] := opItems_parts .seeprom true p q
  obtain ⟨-, -, hsaved⟩ := run_lock hh
  have hkept := runItems_quiet hm (runItems (always [.setPhase .opening, .lockIrq]) s)
  have he : t = runItems (always [.unlockIrq, .finish])
      (runItems mid (runItems (always [.setPhase .opening, .lockIrq]) s)) := by
    simp only [t, e, runItems_append]
  rw [show runItems (seepromWriteItems p q) s = t from rfl, he] at ht
  obtain ⟨hl, hi⟩ := run_unlock ht
  rw [he]
  exact ⟨hl, by rw [hi, hkept.irqSaved, hsaved]⟩

/-- The items of an operation that has returned leave `irq_enable` as they found it, and no lock. -/
theorem runItems_opItems_restores (r : Region) (w : Bool) {p : Params} {q : Sequencer} {s : State}
    (hh : s.seq.hung = false) (hl : s.lines.lock = false) (ht : (runItems (opItems r w p q) s).seq.hung = false) :
    let t := runItems (opItems r w p q) s
    t.lines.lock = false ∧ t.plat.irqEnable = s.plat.irqEnable := by
  by_cases h : r = .seeprom ∧ w = true
  · obtain ⟨rfl, rfl⟩ := h
    exact runItems_seepromWrite_restores hh ht
  · obtain ⟨kl, ki⟩ := runItems_lockKept (opItems_keepsLock h p q) s
    exact ⟨kl.trans hl, ki⟩

/-- Settles O44: a write restores what it saved, no other instruction touches the lock or `irq_enable`. -/
theorem interruptEnableRestored : Obligations.InterruptEnableRestored := by
  intro i s t hi hf _ h hh
  obtain ⟨-, -, hl⟩ := free_lines hi hf.1
  have hn := (free_idle hf.1).2
  rcases exec_cases i s with ⟨r, w, o, l, b, e⟩ | ⟨r, o, l, b, e⟩ | ⟨ms, hms, e⟩ <;> rw [e] at h
  · obtain ⟨-, ⟨-, rfl⟩ | ⟨-, h⟩⟩ := hostRequest_cases h
    · exact ⟨rfl, hl⟩
    · rw [operate_undisturbed (s := (s.checked r w o l b).planned r) hf.2] at h
      cases h
      have hs : ((s.checked r w o l b).planned r).seq.hung = false := (plan_hung _ _ _).trans hn
      exact (runItems_opItems_restores r w hs hl hh).symm
  · obtain ⟨-, rfl⟩ := illegalRequest_cases h
    exact ⟨rfl, hl⟩
  · have h := (subStep_cases h).2
    rw [operate_undisturbed hf.2] at h
    cases h
    have hk : (subItems ms).all (fun it => it.op.keepsLock) = true := by
      rw [subItems, all_always, List.all_append, List.all_cons]
      rw [List.all_eq_true.mpr fun m hm => Micro.quiet_keepsLock m (List.all_eq_true.mp hms m hm)]
      rfl
    obtain ⟨kl, ki⟩ := runItems_lockKept hk s
    exact ⟨ki, kl.trans hl⟩

end Sys2Proof.Machine
end

section
/-! PROOF. A reset in mid-operation (R211, R212; log 18, log 20): which guard the operation holds at each moment. -/

namespace Sys2Proof.Machine

/-- An operation that a reset meets is abandoned after the items before that moment (R211, log 20). -/
theorem operate_reset {s : State} {n k : Nat} {ds : List Disturbance} (h : s.disturb = ⟨n, k, .reset⟩ :: ds)
    (is : List Item) : operate is s = .next (runItems (itemsBefore n k is) (s.setDisturb [])).blockReset := by
  rw [operate, h]; rfl

/-- The rounds of a poll the moment lies in touch no guard: they are those of the items before it. -/
theorem itemsBefore_guardKept (n k : Nat) (is : List Item) (s : State) :
    GuardKept (runItems (is.take n) s) (runItems (itemsBefore n k is) s) := by
  unfold itemsBefore
  split
  next il _ =>
    rw [runItems_append]
    exact runItems_quiet (is := [⟨il, .pollSome k⟩]) rfl _
  next => exact .refl _

/-- The items before a moment that is neither in the opening nor in the ending. -/
theorem take_middle {hd mid tl : List Item} {n : Nat} (h1 : hd.length ≤ n)
    (h2 : n + tl.length ≤ (hd ++ mid ++ tl).length) : (hd ++ mid ++ tl).take n = hd ++ mid.take (n - hd.length) := by
  rw [List.length_append] at h2
  rw [List.take_append_of_le_length (by omega), List.take_append, List.take_of_length_le h1]

/-! ### The write -/

/-- From its lock to its unlock a write holds the lock, with `irq_enable` 0 (R156, R163). -/
theorem write_locked {p : Params} {q : Sequencer} {s : State} (hh : s.seq.hung = false) {n : Nat} (h2 : 2 ≤ n)
    (hn : n + 2 ≤ (seepromWriteItems p q).length) :
    let u := runItems ((seepromWriteItems p q).take n) s
    u.lines.lock = true ∧ u.plat.irqEnable = false := by
  obtain ⟨mid, hm, e⟩ : ∃ mid, mid.all (fun it => it.op.quiet) = true ∧ seepromWriteItems p q =
      always [.setPhase .opening, .lockIrq] ++ mid ++ always [.unlockIrq, .finish] := opItems_parts .seeprom true p q
  rw [e] at hn
  rw [e, take_middle h2 hn, runItems_append]
  obtain ⟨hl, hi, -⟩ := run_lock hh
  have hk := runItems_quiet (all_take hm (n - 2)) (runItems (always [.setPhase .opening, .lockIrq]) s)
  exact ⟨hk.lock.trans hl, hk.irqEnable.trans hi⟩

/-! ### The mirror read -/

/-- The opening of a mirror read holds the window open exactly if it found it closed (R171, R172). -/
theorem run_expose {s : State} (hb : s.params.protBit ≠ 0) (hh : s.seq.hung = false) (hs : s.seq.heldOpen = false) :
    let t := runItems (always [.setPhase .opening, .protCheck, .protExpose]) s
    t.seq.hung = false ∧ t.seq.heldOpen = decide (s.plat.prot &&& s.params.protBit = 0) ∧
      t.seq.protChanged = t.seq.heldOpen := by
  rw [runItems_always rfl hh, (run_mirrorOpen hb).2]
  simp [hh, hs]

/-- The restore clears what the opening set (R175). -/
theorem run_restore {s : State} (hh : s.seq.hung = false) (hc : s.seq.protChanged = s.seq.heldOpen) :
    (Item.run s ⟨false, .protRestore⟩).seq.heldOpen = false := by
  have e : Item.run s ⟨false, .protRestore⟩ = s.protRestore := by simp [Item.run, hh, Micro.run]
  rw [e, State.protRestore]
  split
  next => rfl
  next h => rw [← hc]; simpa using h

/-- From its exposure to its restore a mirror read that found the window closed holds it open (R172, R175). -/
theorem mirror_held {m : Mirror} {p : Params} {q : Sequencer} {s : State} (hb : s.params.protBit ≠ 0)
    (hh : s.seq.hung = false) (hs : s.seq.heldOpen = false) (hz : s.plat.prot &&& s.params.protBit = 0) {n : Nat}
    (h3 : 3 ≤ n) (hn : n + 2 ≤ (mirrorReadItems m p q).length) :
    (runItems ((mirrorReadItems m p q).take n) s).seq.heldOpen = true := by
  obtain ⟨mid, hm, -, e⟩ := mirrorReadItems_parts m p q
  rw [e] at hn
  rw [e, take_middle h3 hn, runItems_append]
  obtain ⟨-, ho, -⟩ := run_expose hb hh hs
  rw [(runItems_quiet (all_take hm _) _).heldOpen, ho, decide_eq_true hz]

/-- A mirror read that found the window open, and one before its exposure or after its restore, holds none open. -/
theorem mirror_shut {m : Mirror} {p : Params} {q : Sequencer} {s : State} (hb : s.params.protBit ≠ 0)
    (hh : s.seq.hung = false) (hs : s.seq.heldOpen = false) {n : Nat}
    (h : s.plat.prot &&& s.params.protBit ≠ 0 ∨ n ≤ 2 ∨ (mirrorReadItems m p q).length < n + 2) :
    (runItems ((mirrorReadItems m p q).take n) s).seq.heldOpen = false := by
  obtain ⟨mid, hm, hgo, e⟩ := mirrorReadItems_parts m p q
  rw [List.append_assoc] at e
  by_cases h2 : n ≤ 2
  · have hbefore : ((mirrorReadItems m p q).take n).all (fun it => it.op.keepsShut) = true := by
      rw [e]; interval_cases n <;> rfl
    exact runItems_shut hbefore s hs
  obtain ⟨hh', ho, hc⟩ := run_expose hb hh hs
  have htail : (always [.protRestore, .finish]).all (fun it => it.op.keepsShut) = true := rfl
  have hmid := all_mono Micro.quiet_keepsShut hm
  rw [e, List.take_append, List.take_of_length_le (by simp [always]; omega), runItems_append]
  generalize runItems (always [.setPhase .opening, .protCheck, .protExpose]) s = t at *
  rcases h with hz | hz | hz
  · refine runItems_shut (all_take ?_ _) t (by rw [ho, decide_eq_false hz])
    rw [List.all_append, hmid, htail]; rfl
  · exact absurd hz h2
  · obtain ⟨j, hj⟩ : ∃ j, n - 3 = mid.length + (j + 1) := by
      refine ⟨n - 3 - mid.length - 1, ?_⟩
      rw [e] at hz
      simp [always] at hz
      omega
    have hk := runItems_quiet hm t
    have hr := run_restore (s := runItems mid t) (runItems_goesOn hgo t hh') (by rw [hk.protChanged, hk.heldOpen, hc])
    rw [show (always [.setPhase .opening, .protCheck, .protExpose]).length = 3 from rfl, hj, List.take_length_add_append,
      runItems_append]
    exact runItems_shut (is := (always [.finish]).take j) (all_take rfl j) _ hr

theorem opItems_mirror {r : Region} (h : r = .boot0 ∨ r = .sotp) (w : Bool) :
    ∃ m, opItems r w = mirrorReadItems m := by
  rcases h with rfl | rfl
  · exact ⟨.boot0, rfl⟩
  · exact ⟨.sotp, rfl⟩

/-- Settles O6: the reset leaves the guards to what the items before its moment made of them. -/
theorem resetAbandonsAnOperation : Obligations.ResetAbandonsAnOperation := by
  intro r w o l b s n k ds hl hi hb hp hr hd is u
  have hbit : s.params.protBit ≠ 0 := oneBit_ne (Params.wf_fields hp).2.2.2.2.2.2.2.2.2.2.2.2.2.1
  have hx : exec (request r w o l b) s = .next u.blockReset := by
    rw [exec_request hl, hostRequest_accepted hb hr]
    exact operate_reset (s := s.started r w o l b) hd _
  have hh : (s.started r w o l b).seq.hung = false := (started_ready hb hr hi.buf).hung
  have hs : (s.started r w o l b).seq.heldOpen = false := by
    obtain ⟨-, -, -, -, hs⟩ := hi.rest (free_idle hb).2
    exact (plan_heldOpen _ _ _).trans hs
  have hg := itemsBefore_guardKept n k is ((s.started r w o l b).setDisturb [])
  have hu : Elsewhere ((s.started r w o l b).setDisturb []) u := runItems_elsewhere _ _
  have ht := hu.trans (blockReset_elsewhere u)
  obtain ⟨htrace, hbufTrace, hbuf⟩ := blockReset_traces u
  obtain ⟨hret, hlines⟩ := blockReset_returned u
  refine ⟨u.blockReset, hx, hret, hlines, ht.disturb, htrace, hbufTrace, hbuf, ?_, ?_, ?_, ht.fuse, ht.boot0, ht.sotp⟩
  · intro hw h2 hn
    obtain rfl : r = .seeprom := hl.resolve_left (by rw [hw]; decide)
    subst hw
    obtain ⟨hlock, hirq⟩ := write_locked (s := (s.started .seeprom true o l b).setDisturb []) hh h2 hn
    rw [blockReset_irqEnable (hg.lock.trans hlock)]
    exact hg.irqEnable.trans hirq
  · intro hm hz h3 hn
    obtain ⟨m, e⟩ := opItems_mirror hm w
    have hheld : u.seq.heldOpen = true := by
      refine hg.heldOpen.trans ?_
      simp only [is, State.itemsOf, e] at hn ⊢
      exact mirror_held (s := (s.started r w o l b).setDisturb []) hbit hh hs hz h3 hn
    have hp := blockReset_held hheld
    rwa [hu.params] at hp
  · intro hcase
    refine blockReset_free (hg.heldOpen.trans ?_)
    by_cases hm : r = .boot0 ∨ r = .sotp
    · obtain ⟨m, e⟩ := opItems_mirror hm w
      have hcase := hcase.resolve_left (not_not_intro hm)
      simp only [is, State.itemsOf, e] at hcase ⊢
      exact mirror_shut (s := (s.started r w o l b).setDisturb []) hbit hh hs hcase
    · exact runItems_shut (all_take (opItems_keepsShut hm _ _) n) ((s.started r w o l b).setDisturb []) hs

end Sys2Proof.Machine
end

section
/-! PROOF. The invariant (R50, R71, R145, R163, R192): every instruction and every input keeps it, and with it every
run. -/

namespace Sys2Proof.Machine

/-! ### The instructions -/

/-- The items of every legal operation lead from an accepted request back to a free block. -/
theorem leads_opItems (r : Region) (w : Bool) (p : Params) (q : Sequencer) (st : Bool) :
    Leads (opItems r w p q) Ctl.atRest (.base false .plan st) := by
  cases r with
  | otp => exact leads_otpRead p q .plan st
  | boot0 => exact leads_mirrorRead .boot0 p q .plan st
  | sotp => exact leads_mirrorRead .sotp p q .plan st
  | seeprom =>
    cases w with
    | false => exact leads_seepromRead p q .plan st
    | true => exact leads_seepromWrite p q .plan st

/-- The data word of a write frame is loaded before the frame, which leaves the control side as it was (R142). -/
theorem leads_loadedWriteFrame (d : Half) (c : Command) (st : Bool) (Q : Ctl → Prop) :
    Leads (always (.loadBlk d :: writeFrameOf c)) Q (.base false .xfer st) ↔ Q (.base false .xfer st) := by
  rw [always, List.map_cons, leads_neutral_cons false fun _ _ => rfl]
  exact leads_writeFrame false c false st (fun h => nomatch h) Q

/-- Every instruction keeps the invariant, whatever meets it. -/
theorem exec_inv {i : Instr} {s t : State} (hi : Inv s) (h : exec i s = .next t) : Inv t := by
  have legal : ∀ {r w o l b}, hostRequest r w (opItems r w) o l b s = .next t → Inv t :=
    fun h => hostRequest_inv hi (leads_opItems _ _) h
  cases i with
  | otpRead o l b => exact legal (r := .otp) (w := false) h
  | seepromRead o l b => exact legal (r := .seeprom) (w := false) h
  | seepromWrite o l b => exact legal (r := .seeprom) (w := true) h
  | boot0Read o l b => exact legal (r := .boot0) (w := false) h
  | sotpRead o l b => exact legal (r := .sotp) (w := false) h
  | otpWrite o l b | boot0Write o l b | sotpWrite o l b => exact illegal_inv hi h
  | eepRead a => exact subStep_inv hi (fun st Q => leads_readFrame false _ false .xfer st (fun h => nomatch h) Q) h
  | eepWrite a d => exact subStep_inv hi (leads_loadedWriteFrame d _) h
  | eepEwen x | eepEwds x =>
    exact subStep_inv hi (fun st Q => leads_controlFrame false _ _ false .xfer st (fun h => nomatch h) Q) h
  | otpCmdRead w =>
    refine subStep_inv hi (fun st Q => ?_) h
    rw [always, leads_neutral false (by simp [Micro.neutral, Micro.Leads])]

/-! ### The inputs -/

/-- What keeps the byte spaces, the interrupt side and the widths, and touches nothing of the control side, keeps the
invariant. -/
theorem Inv.sameWay {s t : State} (hi : Inv s) (h : Sound t) (k : SameWay s t) : Inv t := .of h (hi.settled.to k)

/-- The host fills the buffer (R14). -/
theorem Inv.setBuf {s : State} (hi : Inv s) {m : Memory} (hm : m.wf = true) : Inv (s.setBuf m) :=
  hi.sameWay (hi.sound.setBuf hm) ⟨rfl, rfl, rfl⟩

/-- Software writes `PROT` (R33). -/
theorem Inv.setProt {s : State} (hi : Inv s) (v : Word) : Inv (s.setPlat { s.plat with prot := v }) :=
  hi.sameWay (hi.sound.setPlat rfl rfl rfl) ⟨rfl, rfl, rfl⟩

/-- The processor changes its interrupt enable while the block is free, so that no lock is held (R34, R192). -/
theorem Inv.setIrq {s : State} (hi : Inv s) (hb : s.busy = false) (b : Bool) :
    Inv (s.setPlat { s.plat with irqEnable := b }).takePending := by
  obtain ⟨-, -, hlock⟩ := free_lines hi hb
  refine hi.sameWay (Sound.takePending hi.fuse hi.eepMem hi.boot0 hi.sotp hi.buf hlock hi.handlers hi.widths) ?_
  exact SameWay.trans (t := s.setPlat { s.plat with irqEnable := b }) ⟨rfl, rfl, rfl⟩ (takePending_way _)

/-- The device's own step touches the device alone (R66). -/
theorem deviceStep_way (s : State) : SameWay s s.deviceStep := by
  unfold State.deviceStep
  split <;> exact ⟨rfl, rfl, rfl⟩

/-- A step in which nothing happens, or one more round of the poll the sequencer stands in (R143, R210). -/
theorem waitStep_inv {s t : State} (hi : Inv s) (h : waitStep s = .next t) : Inv t := by
  unfold waitStep at h
  split at h
  next hh => exact pollOn_inv hi hh h
  next => cases h; exact hi

/-- Every input keeps the invariant. -/
theorem handleInput_inv {inp : Input} {s t : State} (hi : Inv s) (h : handleInput inp s = .next t) : Inv t := by
  cases inp with
  | present r =>
    simp only [handleInput, presentWord] at h
    split at h
    · exact exec_inv hi h
    · cases h
  | setBuf bytes =>
    simp only [handleInput] at h
    split at h
    · cases h
    · cases h; exact hi.setBuf (Memory.ofBytes_wf 0 bytes)
  | setProt v =>
    simp only [handleInput] at h
    split at h
    · cases h
    · cases h; exact hi.setProt v
  | setIrq b =>
    simp only [handleInput] at h
    split at h
    next => cases h
    next hb => cases h; exact hi.setIrq (by simpa using hb) b
  | interrupt => cases h; exact hi.sameWay hi.sound.interruptArrives (interruptArrives_way s)
  | nonMaskable => cases h; exact hi.sameWay hi.sound.nonMaskable (nonMaskable_way s)
  | wait => exact waitStep_inv hi h
  | deviceStep => cases h; exact hi.sameWay hi.sound.deviceStep (deviceStep_way s)
  | disturb ds => cases h; exact hi.sameWay (hi.sound.setDisturb ds) ⟨rfl, rfl, rfl⟩
  | reset => cases h; exact .of hi.sound.blockReset (blockReset_settled s)
  | powerCycle => cases h; exact .of hi.sound.powerCycle (powerCycle_settled s)

/-- Settles O3: with no input left the step waits, else it handles the first one. -/
theorem stepKeepsInv : Obligations.StepKeepsInv := by
  intro s t hi h
  unfold step at h
  split at h
  next => exact waitStep_inv hi h
  next inp rest _ => exact handleInput_inv (hi.sameWay (hi.sound.setInbox rest) ⟨rfl, rfl, rfl⟩) h

/-- Every state of a run has the invariant if the first one has. -/
theorem Reaches.inv {s t : State} (h : Reaches s t) (hi : Inv s) : Inv t := by
  induction h with
  | refl => exact hi
  | tail _ k ih => exact stepKeepsInv _ _ ih k

/-- Settles O4: the two clauses are parts of the invariant. -/
theorem noHandlerUnderLock : Obligations.NoHandlerUnderLock := by
  intro s t hi h
  have ht := h.inv hi
  exact ⟨ht.handlers, ht.masked⟩

end Sys2Proof.Machine
end

section
/-! PROOF. The EEPROM command frames as instructions (R63 to R67), and the device's own step (R66). -/

namespace Sys2Proof.Machine

/-- A store of a word changes no byte of another word (R51). -/
theorem Memory.read_writeHalf_other {m : Memory} (hm : Memory.wf m = true) {i k : Nat} (h : k / 2 ≠ i) (d : Half) :
    Memory.read (Memory.writeHalf m i d) k = Memory.read m k := by
  rw [Memory.read_writeHalf hm, if_neg (by omega), if_neg (by omega)]

/-- A change of the working registers alone. -/
theorem setSeq_wireOnly (s : State) (q : Sequencer) : WireOnly s (s.setSeq q) :=
  ⟨rfl, rfl, rfl, rfl, rfl, rfl, rfl, rfl, rfl⟩

/-- The return touches the working registers and the draws alone (R195). -/
theorem finish_wireOnly (s : State) : WireOnly s s.finish := ⟨rfl, rfl, rfl, rfl, rfl, rfl, rfl, rfl, rfl⟩

/-! ### The control frames -/

/-- A frame of 11 bits as an instruction, on a device with no write under way: it acts on `eep_wel` as its command word
says, and nothing else of the device changes (R65, R141, R144). -/
theorem subStep_controlFrame {c : Command} {s : State} (hi : Inv s) (hf : Free s) (hb : s.eep.busy = false)
    (hc : (∃ x, decodeCommand s.params c = .ewen x) ∨ ∃ x, decodeCommand s.params c = .ewds x) :
    ∃ t, subStep (controlFrame c 11) s = .next t ∧ t.eep.wel = welAfter s.params c s.eep.wel ∧
      FrameKept s.eep t.eep ∧ WireOnly s t ∧ Returned t s.seq.count s.seq.status ∧
      t.lines = { s.lines with cs := false, clk := false, dOut := c.getLsbD 0 } ∧
      t.trace = (controlTrace c 11).reverse ++ s.trace := by
  obtain ⟨hu, hx⟩ := subStep_plain (controlFrame_plain c 11) hf
  obtain ⟨hcs, hclk, -⟩ := free_lines hi hf.1
  obtain ⟨hwire, hdev, hwel, hlines, hseq, htrace, -⟩ := run_controlFrame (s := s.inXfer) hcs hclk hb hc
  generalize runItems (always (.setPhase .xfer :: controlFrame c 11)) s = u at *
  rw [← hu] at hwire hdev hwel hlines hseq htrace
  have hret := finish_returned hseq
  exact ⟨_, hx, hwel, hdev, ((setSeq_wireOnly s _).trans hwire).trans (finish_wireOnly u), hret, hlines, htrace⟩

/-- `EWDS_BITS` is 11 (R87), so that `EEP.EWDS` is a frame of 11 bits (R144). -/
theorem exec_eepEwds {s : State} (hp : s.params.wellFormed = true) (pad : BitVec 6) :
    exec (.eepEwds pad) s = subStep (controlFrame (controlCommand s.params.opEwds pad) 11) s := by
  obtain ⟨-, -, -, -, -, -, -, -, -, -, h11, -⟩ := Params.wf_fields hp
  show subStep (controlFrame (controlCommand s.params.opEwds pad) s.params.ewdsBits) s = _
  rw [h11]

/-- Settles O28: the two command words are read as what they are, whatever their ignored bits are. -/
theorem enableAndDisable : Obligations.EnableAndDisable := by
  intro pad s hi hf hp hb
  have hon := decodeCommand_ewen hp pad
  have hoff := decodeCommand_ewds hp pad
  constructor
  · obtain ⟨t, hx, hwel, hrest⟩ := subStep_controlFrame hi hf hb (.inl ⟨pad, hon⟩)
    exact ⟨t, hx, by rw [hwel, welAfter, hon], hrest⟩
  · obtain ⟨t, hx, hwel, hrest⟩ := subStep_controlFrame hi hf hb (.inr ⟨pad, hoff⟩)
    exact ⟨t, (exec_eepEwds hp pad).trans hx, by rw [hwel, welAfter, hoff], hrest⟩

/-! ### The write frame on an enabled device -/

/-- Where the write frame of an instruction starts: in phase `XFER`, its data word in `blk[15:0]` (R142, log 13). -/
def State.loaded (d : Half) (s : State) : State :=
  s.setSeq { s.seq with phase := .xfer, blk := s.seq.blk.extractLsb' 16 16 ++ d }

@[simp] theorem loaded_params (d : Half) (s : State) : (s.loaded d).params = s.params := rfl

@[simp] theorem loaded_eep (d : Half) (s : State) : (s.loaded d).eep = s.eep := rfl

theorem run_load (d : Half) (s : State) : Micro.run (.loadBlk d) (Micro.run (.setPhase .xfer) s) = s.loaded d := rfl

/-- The data word of a write frame is the low half of `blk` (R142). -/
@[simp] theorem loaded_data (d : Half) (s : State) : (s.loaded d).seq.blk.setWidth 16 = d := by
  apply BitVec.eq_of_getLsbD_eq
  intro k hk
  show ((s.seq.blk.extractLsb' 16 16 ++ d : Word).setWidth 16).getLsbD k = d.getLsbD k
  rw [BitVec.getLsbD_setWidth, BitVec.getLsbD_append, if_pos hk, decide_eq_true hk, Bool.true_and]

/-- The two steps before the write frame. -/
theorem runItems_loaded {s : State} (hh : s.seq.hung = false) (d : Half) (c : Command) :
    runItems (always (.setPhase .xfer :: .loadBlk d :: writeFrameOf c)) s =
      runItems ((writeFrameOf c).map (Item.mk false)) (s.loaded d) := by
  have hload : runItems (always [.setPhase .xfer, .loadBlk d]) s = s.loaded d := runItems_always rfl hh
  rw [← hload, ← runItems_append]
  rfl

/-- `EEP.WRITE` whose poll returns is its write frame and the return (R142, R195). -/
theorem exec_eepWrite {a : Byte} {d : Half} {s : State} (hf : Free s)
    (hh : (runItems ((writeFrameOf (addressCommand s.params.opWrite a)).map (Item.mk false)) (s.loaded d)).seq.hung =
      false) :
    let u := runItems (always (.setPhase .xfer :: .loadBlk d :: writeFrameOf (addressCommand s.params.opWrite a))) s
    u = runItems ((writeFrameOf (addressCommand s.params.opWrite a)).map (Item.mk false)) (s.loaded d) ∧
      exec (.eepWrite a d) s = .next u.finish := by
  have hu := runItems_loaded (free_idle hf.1).2 d (addressCommand s.params.opWrite a)
  exact ⟨hu, subStep_returns hf.1 hf.2 (by rw [hu]; exact hh)⟩

/-- Settles O29, from what a write frame does on a device that is ready in time (`run_writeFrame`). -/
theorem eepWrite : Obligations.EepWrite := by
  intro a d s k ts hi hf hp hb hw ht hl c u
  obtain ⟨hcs, hclk, -⟩ := free_lines hi hf.1
  have hmom : s.eep.moment s.draws = some k := by rw [Eeprom.moment, ht]
  have hrun := run_writeFrame (a := a) (s := s.loaded d) hp hcs hclk hb hw hi.eepMem.1 hmom hl (free_idle hf.1).2 false
    (fun h => nomatch h)
  simp only [loaded_data, loaded_params, loaded_eep] at hrun
  obtain ⟨hwire, hmem, hbusy, hwel, htimes, hlines, hseq, htrace, -⟩ := hrun
  obtain ⟨hu, hx⟩ := exec_eepWrite hf (by rw [hseq]; exact (free_idle hf.1).2)
  change u = _ at hu
  change exec (.eepWrite a d) s = .next u.finish at hx
  clear_value u
  rw [← hu] at hwire hmem hbusy hwel htimes hlines hseq htrace
  have hret := finish_returned hseq
  refine ⟨hx, hret, ?_, fun x hne => ?_, hbusy, hwel, ?_, (setSeq_wireOnly s _).trans hwire, hseq, hlines, htrace⟩
  · rw [hmem, Memory.half_writeHalf hi.eepMem.1, if_pos rfl]
  · rw [hmem, Memory.read_writeHalf_other hi.eepMem.1 hne]
  · rw [htimes, ht, List.tail_cons]

/-- Settles O30, from what a write frame does on a device that is not ready in time (`run_writeFrame_late`). -/
theorem eepWriteTimesOut : Obligations.EepWriteTimesOut := by
  intro a d s L x ts hi hf hp hb hw ht hL hx c u
  obtain ⟨hcs, hclk, -⟩ := free_lines hi hf.1
  have hmom : s.eep.moment s.draws = x := by rw [Eeprom.moment, ht]
  have hrun := run_writeFrame_late (a := a) (s := s.loaded d) hp hcs hclk hb hw hi.eepMem.1 hL
    (fun k hk => hx k (hmom.symm.trans hk)) (free_idle hf.1).2 false (fun h => nomatch h)
  simp only [loaded_data, loaded_params, loaded_eep] at hrun
  obtain ⟨hwire, ⟨y, hmem⟩, -, htimes, hlines, hseq, htrace⟩ := hrun
  obtain ⟨hu, he⟩ := exec_eepWrite hf (by rw [hseq]; exact (free_idle hf.1).2)
  change u = _ at hu
  change exec (.eepWrite a d) s = .next u.finish at he
  clear_value u
  rw [← hu] at hwire hmem htimes hlines hseq htrace
  have hret := finish_returned hseq
  refine ⟨he, hret, fun z hne => ?_, ?_, (setSeq_wireOnly s _).trans hwire, hseq, hlines, htrace⟩
  · rw [hmem, Memory.read_writeHalf_other hi.eepMem.1 hne]
  · rw [htimes, ht, List.tail_cons]

/-! ### The write frame on a device that is not enabled -/

/-- The array is `m`, nothing is under way and writes are disabled. -/
structure Eeprom.Shut (m : Memory) (d : Eeprom) : Prop where
  mem : d.mem = m
  busy : d.busy = false
  wel : d.wel = false

theorem Eeprom.Shut.tick {m : Memory} {d : Eeprom} (h : d.Shut m) : d.tick.Shut m := by
  obtain ⟨l, u, e⟩ := tick_idle h.busy
  rw [e]
  exact ⟨h.mem, h.busy, h.wel⟩

/-- A write frame that was not enabled begins no write: only the level of the data-in line is drawn (R66). -/
theorem Eeprom.Shut.beginWrite {m : Memory} {d : Eeprom} (h : d.Shut m) (n : Nat) (a : Byte) :
    (d.beginWrite n a).Shut m := by
  rw [Eeprom.beginWrite, h.wel, if_neg (by decide)]
  exact ⟨h.mem, h.busy, rfl⟩

/-- Between the fall of chip-select and the next clock edge the device stays shut, whatever the poll sees. -/
def ShutKept (m : Memory) (s t : State) : Prop :=
  WireOnly s t ∧ (s.eep.edges = 0 ∧ s.eep.Shut m → t.eep.edges = 0 ∧ t.eep.Shut m)

theorem ShutKept.refl (m : Memory) (s : State) : ShutKept m s s := ⟨WireOnly.refl s, fun h => h⟩

theorem ShutKept.trans {m : Memory} {s t u : State} (h : ShutKept m s t) (k : ShutKept m t u) : ShutKept m s u :=
  ⟨h.1.trans k.1, fun e => k.2 (h.2 e)⟩

theorem delay_shutKept (m : Memory) (s : State) : ShutKept m s s.delay :=
  ⟨⟨rfl, rfl, rfl, rfl, rfl, rfl, rfl, rfl, rfl⟩, fun h => ⟨(tick_edges s.eep).trans h.1, h.2.tick⟩⟩

theorem pollRound_shutKept (m : Memory) (s : State) : ShutKept m s s.pollRound := by
  rcases pollRound_cases s with h | ⟨n, ok, h⟩ | ⟨n, h⟩ <;> rw [h]
  · exact .refl m s
  · exact ⟨⟨rfl, rfl, rfl, rfl, rfl, rfl, rfl, rfl, rfl⟩, fun h => h⟩
  · exact .trans (t := s.sample.setSeq { s.seq with pollCnt := n })
      ⟨⟨rfl, rfl, rfl, rfl, rfl, rfl, rfl, rfl, rfl⟩, fun h => h⟩ (delay_shutKept m _)

theorem poll_shutKept (m : Memory) (s : State) : ShutKept m s s.poll := by
  have h : ShutKept m s (s.pollRounds s.pollFuel) :=
    pollRounds_rel (ShutKept.refl m) ShutKept.trans (pollRound_shutKept m) _ s
  simp only [State.poll]
  split
  · exact h
  · exact h.trans ⟨setSeq_wireOnly _ _, fun h => h⟩

/-- The end of a frame without clock edges changes nothing (R67). -/
theorem deassert_shutKept (m : Memory) (s : State) : ShutKept m s (s.line .cs false) := by
  refine ⟨line_wireOnly .cs false s, fun h => ?_⟩
  unfold State.line
  simp only [Bool.and_false, Bool.false_eq_true, if_false]
  split
  · exact (frameEnd_status (d := s.eep) h.1).symm ▸ h
  · exact h

/-- What an `EEP.WRITE` has still to do when its status frame has begun (R142, R143, R195). -/
def Micro.statusFrame : Micro → Bool
  | .poll | .line .cs false | .delay | .finish => true
  | _ => false

theorem micro_shutKept (m : Memory) {x : Micro} (h : x.statusFrame = true) (s : State) : ShutKept m s (x.run s) := by
  cases x with
  | poll => exact poll_shutKept m s
  | delay => exact delay_shutKept m s
  | finish => exact ⟨finish_wireOnly s, fun h => h⟩
  | line l b =>
    cases l with
    | cs =>
      cases b with
      | false => exact deassert_shutKept m s
      | true => cases h
    | clk | dOut => cases h
  | _ => cases h

theorem runItems_statusFrame (m : Memory) (s : State) :
    ShutKept m s (runItems (always [.poll, .line .cs false, .delay, .finish]) s) :=
  runItems_rel (kind := Micro.statusFrame) (ShutKept.refl m) ShutKept.trans (fun _ s h => micro_shutKept m h s)
    (fun s _ => ⟨setSeq_wireOnly s _, fun h => h⟩) rfl s

/-- A write frame up to the first sample of its status frame, on a device that is free and not enabled: it begins no
write (R66). -/
theorem run_writeSend_shut {a : Byte} {s : State} (hp : s.params.wellFormed = true) (hcs : s.lines.cs = false)
    (hclk : s.lines.clk = false) (hb : s.eep.busy = false) (hw : s.eep.wel = false) :
    let t := runMicros (writeSend (addressCommand s.params.opWrite a)) s
    WireOnly s t ∧ t.seq.hung = s.seq.hung ∧ t.eep.edges = 0 ∧ t.eep.Shut s.eep.mem := by
  intro t
  have hdec := decodeCommand_write hp a
  have ht : t = runMicros [.line .cs false, .delay, .line .cs true, .pollStart] (runMicros sendBlk
      (runMicros (.line .cs true :: sendBits ((addressCommand s.params.opWrite a).setWidth 16) 11) s)) := by
    simp only [t, writeSend]
    rw [List.append_assoc, runMicros_append, runMicros_append]
  clear_value t
  obtain ⟨cwire, ckept, cedges, ccmd, cwel, -, clines, cseq, -, -⟩ :=
    run_command (c := addressCommand s.params.opWrite a) hcs hclk hb
  generalize runMicros (.line .cs true :: sendBits ((addressCommand s.params.opWrite a).setWidth 16) 11) s = u at *
  obtain ⟨dwire, dkept, dedges, dcmd, dwel, -, dlines, dseq, -, -⟩ :=
    run_data (s := u) (by rw [clines]) (by rw [clines]) ckept.busy ckept.spoiled cedges
  generalize runMicros sendBlk u = v at *
  have hwire : WireOnly s v := cwire.trans dwire
  have hend : v.eep.frameEnd v.params v.draws v.closingTimeout = v.eep.beginWrite v.draws a :=
    frameEnd_write dkept.spoiled dedges (by rw [hwire.params, dcmd, ccmd]; exact hdec)
  have hshut : v.eep.Shut s.eep.mem :=
    ⟨dkept.mem.trans ckept.mem, dkept.busy, by rw [dwel, cwel, welAfter, hdec]; exact hw⟩
  rw [runMicros_cons, run_deassert (by rw [dlines, clines]), hend, runMicros_cons, Micro.run, State.delay, State.setEep,
    State.emit, runMicros_cons, run_assert (by rfl)] at ht
  have hnew := (hshut.beginWrite v.draws a).tick
  subst ht
  refine ⟨hwire.trans ⟨rfl, rfl, rfl, rfl, rfl, rfl, rfl, rfl, rfl⟩, ?_, rfl, ⟨hnew.mem, hnew.busy, hnew.wel⟩⟩
  show v.seq.hung = _
  rw [dseq, cseq]

/-- Settles O31: the frame begins no write, and nothing after it has a clock edge. -/
theorem writeNeedsEnable : Obligations.WriteNeedsEnable := by
  intro a d s t hi hf hp hb hw h
  obtain ⟨hcs, hclk, -⟩ := free_lines hi hf.1
  have hh := (free_idle hf.1).2
  have hx : exec (.eepWrite a d) s = subStep (.loadBlk d :: writeFrameOf (addressCommand s.params.opWrite a)) s := rfl
  have hop := (subStep_cases (hx ▸ h)).2
  rw [operate_undisturbed hf.2] at hop
  have hsplit : subItems (.loadBlk d :: writeFrameOf (addressCommand s.params.opWrite a)) =
      always (.setPhase .xfer :: .loadBlk d :: writeSend (addressCommand s.params.opWrite a)) ++
        always [.poll, .line .cs false, .delay, .finish] := by
    simp [subItems, writeFrameOf_eq, always]
  have hplain : (Micro.setPhase .xfer :: .loadBlk d :: writeSend (addressCommand s.params.opWrite a)).all Micro.plain =
      true := writeSend_plain (addressCommand s.params.opWrite a)
  have hload : runMicros (.setPhase .xfer :: .loadBlk d :: writeSend (addressCommand s.params.opWrite a)) s =
      runMicros (writeSend (addressCommand s.params.opWrite a)) (s.loaded d) := by
    rw [runMicros_cons, runMicros_cons, run_load]
  rw [hsplit, run_always_plain hplain hh, hload] at hop
  have hsend := run_writeSend_shut (a := a) (s := s.loaded d) hp hcs hclk hb hw
  simp only [loaded_params, loaded_eep] at hsend
  obtain ⟨hwire, -, hedges, hshut⟩ := hsend
  generalize runMicros (writeSend (addressCommand s.params.opWrite a)) (s.loaded d) = u at *
  obtain ⟨kwire, kshut⟩ := runItems_statusFrame s.eep.mem u
  generalize runItems (always [.poll, .line .cs false, .delay, .finish]) u = v at *
  cases hop
  obtain ⟨-, hmem, hbusy, hwel⟩ := kshut ⟨hedges, hshut⟩
  exact ⟨hmem, hbusy, hwel, ((setSeq_wireOnly s _).trans hwire).trans kwire⟩

/-! ### The device's own step -/

/-- Settles O47: the device stores the word that is pending, and no other. -/
theorem deviceCompletes : Obligations.DeviceCompletes := by
  intro s rest n hi hin hb hl
  have hstep : step s = .next ((s.setInbox rest).setEep s.eep.complete) := by
    simp only [step, hin, handleInput, State.deviceStep, State.setInbox_eep, hl]
  have hmem : s.eep.complete.mem = s.eep.mem.writeHalf s.eep.pendAddr.toNat s.eep.pendData := if_pos hb
  refine ⟨_, hstep, rfl, ?_, fun k hk => ?_, rfl, rfl, rfl, rfl, rfl⟩
  · rw [State.setEep_eep, hmem, Memory.half_writeHalf hi.eepMem.1, if_pos rfl]
  · rw [State.setEep_eep, hmem, Memory.read_writeHalf_other hi.eepMem.1 hk]

end Sys2Proof.Machine
end

section
/-! PROOF. The reads: result, events and frame (R110, R121, R151, R177, R178). -/

namespace Sys2Proof.Machine

/-- An undisturbed request that passes its check runs its items on a planned request (R16, R101 to R103). -/
theorem exec_accepted {r : Region} {w : Bool} {o l : Nat} {b : Bool} {s : State} (hl : Legal r w) (hi : Inv s)
    (hf : Free s) (hr : InRange s.params (r.totalSize s.params) o l b) :
    Ready r.blockSize o l (s.started r w o l b) ∧
      exec (request r w o l b) s = .next (runItems (s.itemsOf r w o l b) (s.started r w o l b)) := by
  refine ⟨started_ready hf.1 hr hi.buf, ?_⟩
  rw [exec_request hl, hostRequest_accepted hf.1 hr, operate_undisturbed (s := s.started r w o l b) hf.2]
  rfl

/-- What a read has done is what its caller sees (R105, R106, R110); `u` is the accepted request. -/
theorem ReadDone.delivered {r : Region} {o l : Nat} {s u t : State} (h : ReadDone (s.regionByte r) o l u t)
    (hbuf : u.buf = s.buf) (htrace : u.bufTrace = s.bufTrace) : Delivered s t r o l where
  bytes j hj := by rw [h.bytes, if_pos hj]
  rest j hj := by rw [h.bytes, if_neg (by omega), hbuf]
  accesses := by rw [h.accesses, htrace]

/-- Settles O33, from what the items of the operation do (`run_otpReadItems`). -/
theorem otpRead : Obligations.OtpRead := by
  intro o l b s hi hf hp hr last
  obtain ⟨hready, hx⟩ := exec_accepted (r := .otp) (w := false) (.inl rfl) hi hf hr
  obtain ⟨hdone, hkept, htrace⟩ := run_otpReadItems (s := s.started .otp false o l b) hp hready hr.2.2.2
  refine ⟨_, hx, hdone.returned, ReadDone.delivered hdone rfl rfl, hkept.plat, htrace, hkept.lines, hkept.eep, ?_⟩
  exact ⟨hkept.params, hkept.fuse, hkept.boot0, hkept.sotp, hkept.inbox, hkept.disturb⟩

/-- Settles O34, from what the items of the operation do (`run_seepromReadItems`). -/
theorem seepromRead : Obligations.SeepromRead := by
  intro o l b s hi hf hp hr hb last
  obtain ⟨hready, hx⟩ := exec_accepted (r := .seeprom) (w := false) (.inl rfl) hi hf hr
  obtain ⟨hcs, -, -⟩ := free_lines hi hf.1
  obtain ⟨hdone, ⟨hparams, hlines, hplat, hmem, hbusy, hwel, htimes, hfuse, hboot0, hsotp, hinbox, hdisturb⟩, htrace⟩ :=
    run_seepromReadItems (s := s.started .seeprom false o l b) hp hready hr.2.2.2 hcs hb
  exact ⟨_, hx, hdone.returned, ReadDone.delivered hdone rfl rfl, hmem, hwel, hbusy, htimes, hlines, hplat, htrace,
    ⟨hparams, hfuse, hboot0, hsotp, hinbox, hdisturb⟩⟩

/-- The region a variant of the mirror shows (R39, R52). -/
def Mirror.region : Mirror → Region
  | .boot0 => .boot0
  | .sotp => .sotp

theorem mirrored_read (s : State) (m : Mirror) : (s.mirrored m).read = s.regionByte m.region := by
  cases m <;> rfl

/-- A mirror read of either variant (R177, R178). -/
theorem exec_mirrorRead (m : Mirror) {o l : Nat} {b : Bool} {s : State} (hi : Inv s) (hf : Free s)
    (hp : s.params.wellFormed = true) (hr : InRange s.params (m.region.totalSize s.params) o l b) :
    ∃ t, exec (request m.region false o l b) s = .next t ∧ Returned t l .ok ∧ Delivered s t m.region o l ∧
      t.trace = (openTrace s ++ (blockRange 4 o l).flatMap (mirrorEvents s m) ++ closeTrace s).reverse ++ s.trace ∧
      t.plat = s.plat ∧ t.lines = s.lines ∧ t.eep = s.eep ∧ Elsewhere s t := by
  obtain ⟨hready, hx⟩ := exec_accepted (w := false) (.inl rfl) hi hf hr
  have hsize : m.region.blockSize = 4 := by cases m <;> rfl
  have hitems : s.itemsOf m.region false o l b = mirrorReadItems m s.params (s.started m.region false o l b).seq := by
    cases m <;> rfl
  rw [hsize] at hready
  rw [hitems] at hx
  obtain ⟨hdone, hkept, htrace⟩ := run_mirrorReadItems m (s := s.started m.region false o l b) hp hready
  have hbytes : ((s.started m.region false o l b).mirrored m).read = s.regionByte m.region :=
    mirrored_read (s.started m.region false o l b) m
  have hevents : mirrorEvents (s.started m.region false o l b) m = mirrorEvents s m := by cases m <;> rfl
  rw [hbytes] at hdone
  rw [hevents] at htrace
  refine ⟨_, hx, hdone.returned, hdone.delivered rfl rfl, htrace, hkept.plat, hkept.lines, hkept.eep, ?_⟩
  exact ⟨hkept.params, hkept.fuse, hkept.boot0, hkept.sotp, hkept.inbox, hkept.disturb⟩

/-- Settles O35: the two variants are one argument (`exec_mirrorRead`). -/
theorem mirrorReads : Obligations.MirrorReads := fun _ _ _ _ hi hf hp =>
  ⟨exec_mirrorRead .boot0 hi hf hp, exec_mirrorRead .sotp hi hf hp⟩

end Sys2Proof.Machine
end

section
/-! PROOF. The write whose poll gives up (R161 to R163): which way the operation goes is read off the moments the
environment chose (log 8). -/

namespace Sys2Proof.Machine

/-- A write whose samples the limit allowed is none whose moment lies beyond the last allowed sample. -/
theorem not_beyond {p : Params} {L k j : Nat} {times : List (Option Nat)} (hL : p.pollLimit = some (L + 1))
    (hk : LimitAllows p 0 k) (ht : times[j]? = some (some k)) : ¬ Beyond times j L := by
  intro h
  have h1 := h k ht
  have h2 := hk (L + 1) hL
  omega

/-- The moments the environment chose before the one at which a poll gives up. -/
theorem times_before {ks : List Nat} {x : Option Nat} {ts : List (Option Nat)} {j : Nat} (h : j < ks.length) :
    (ks.map some ++ x :: ts)[j]? = some (some ks[j]) := by
  rw [List.getElem?_append_left (by simpa using h)]
  simp [h]

/-- The moment at which a poll gives up. -/
theorem times_at (ks : List Nat) (x : Option Nat) (ts : List (Option Nat)) :
    (ks.map some ++ x :: ts)[ks.length]? = some x := by
  rw [List.getElem?_append_right (by simp)]
  simp

/-- A moment beyond the last allowed sample is none that a poll waited for. -/
theorem stored_before_late {p : Params} {L : Nat} {ks ks' : List Nat} {x : Option Nat} {ts : List (Option Nat)}
    (hL : p.pollLimit = some (L + 1)) (hx : ∀ k, x = some k → L < k)
    (hks' : ∀ k ∈ ks', LimitAllows p 0 k) (ha : Agree (ks.map some ++ x :: ts) ks') : ks'.length ≤ ks.length := by
  by_contra hlt
  have hlt : ks.length < ks'.length := by omega
  have he : x = some ks'[ks.length] := ha _ _ _ (times_at ks x ts) (List.getElem?_eq_getElem hlt)
  have h1 := hx _ he
  have h2 := hks' _ (List.getElem_mem hlt) (L + 1) hL
  omega

/-- The blocks stored before the one that is late are those the environment let complete in time. -/
theorem stored_eq {p : Params} {L : Nat} {ks ks' : List Nat} {x : Option Nat} {ts : List (Option Nat)}
    (hL : p.pollLimit = some (L + 1)) (hks : ∀ k ∈ ks, LimitAllows p 0 k) (hx : ∀ k, x = some k → L < k)
    (hks' : ∀ k ∈ ks', LimitAllows p 0 k) (ha : Agree (ks.map some ++ x :: ts) ks')
    (hb : Beyond (ks.map some ++ x :: ts) ks'.length L) : ks' = ks := by
  have hle := stored_before_late hL hx hks' ha
  have hge : ks.length ≤ ks'.length := by
    by_contra hlt
    have hlt : ks'.length < ks.length := by omega
    exact not_beyond hL (hks _ (List.getElem_mem hlt)) (times_before hlt) hb
  refine List.ext_getElem (by omega) fun j h1 h2 => ?_
  have he := ha j _ _ (times_before h2) (List.getElem?_eq_getElem h1)
  exact (Option.some.inj he).symm

/-- Before the last block of the range fewer than all bytes count (R107). -/
theorem done_lt_length {o l n : Nat} (hl : 0 < l) (hn : n < (blockRange 2 o l).length) :
    done 2 o l (o / 2 + n) < l := by
  simp only [blockRange, List.length_range'] at hn
  unfold done
  omega

/-- The events of the blocks of a write speak of the parameters, the array and the buffer, which its acceptance leaves
alone (R194). -/
theorem blocksTrace_started (s : State) (r : Region) (w : Bool) (o l : Nat) (b : Bool) (ks : List Nat) (i : Nat) :
    blocksTrace (s.started r w o l b) o l i ks = blocksTrace s o l i ks := by
  induction ks generalizing i with
  | nil => rfl
  | cons k ks ih => exact congrArg (blockWriteTrace s o l i k ++ ·) (ih (i + 1))

/-- Settles O40, from the ways a write can go (`run_seepromWriteItems`): the moments leave only this one. -/
theorem seepromWriteTimesOut : Obligations.SeepromWriteTimesOut := by
  intro o l b s L ks x ts hi hf hp hr hb hL hlen ht hks hx e n
  obtain ⟨hready, hexec⟩ := exec_accepted (r := .seeprom) (w := true) (.inr rfl) hi hf hr
  obtain ⟨hcs, -, -⟩ := free_lines hi hf.1
  have hrun := run_seepromWriteItems (s := s.started .seeprom true o l b) hp hready hr.2.2.2 hcs hb hi.eepMem hi.pending
  have htimes : (s.started .seeprom true o l b).eep.times = ks.map some ++ x :: ts := ht
  rw [htimes] at hrun
  obtain ⟨hout, hways⟩ := hrun
  rcases hways with ⟨ks', hall, hallow, hagree, -⟩ | ⟨ks', L', -, hL', hallow, hagree, hbeyond, hlate⟩ |
    ⟨-, -, hnone, -⟩
  · have hle := stored_before_late hL hx hallow hagree
    omega
  · obtain rfl : L' = L := by
      have h := hL'.symm.trans hL
      simpa using h
    obtain rfl : ks' = ks := stored_eq hL hks hx hallow hagree hbeyond
    obtain ⟨hret, hplat, hlines, -, hbytes, hreads, htrace⟩ := hlate
    rw [blocksTrace_started] at htrace
    exact ⟨_, hexec, hret, done_lt_length hr.2.2.1 hlen, hbytes, hlines, hplat, hout.buf, hreads, htrace,
      ⟨hout.params, hout.fuse, hout.boot0, hout.sotp, hout.inbox, hout.disturb⟩⟩
  · exact absurd (hnone.symm.trans hL) (Option.some_ne_none _).symm

end Sys2Proof.Machine
end

section
/-! PROOF. Misuse (R68): a frame that met a busy device, whatever follows in it, and the frames of the master on a
device that is busy. -/

namespace Sys2Proof.Machine

/-! ### The device -/

/-- A clock edge of the present frame has met a busy device (R68). -/
structure Eeprom.Misused (d : Eeprom) : Prop where
  spoiled : d.spoiled = true
  edges : 0 < d.edges

theorem Eeprom.Misused.tick {d : Eeprom} (h : d.Misused) : d.tick.Misused := by
  refine ⟨?_, by rw [tick_edges]; exact h.edges⟩
  unfold Eeprom.tick
  split <;> exact h.spoiled

/-- A clock edge is misuse on a busy device, and in a frame that has met one. -/
theorem clockEdge_misused {d : Eeprom} (h : d.busy = true ∨ d.spoiled = true) (p : Params) (b : Bool) :
    (d.clockEdge p b).Misused := by
  have he : d.clockEdge p b = { d.takeBit b with spoiled := true } := by
    rcases h with h | h <;> simp [Eeprom.clockEdge, h]
  rw [he]
  exact ⟨rfl, Nat.succ_pos _⟩

theorem Eeprom.Misused.clockEdge {d : Eeprom} (h : d.Misused) (p : Params) (b : Bool) : (d.clockEdge p b).Misused :=
  clockEdge_misused (.inr h.spoiled) p b

/-- When a frame that met a busy device ends, the whole device state is drawn anew (R68). -/
theorem frameEnd_misused {d : Eeprom} (h : d.Misused) (p : Params) (n : Nat) : d.frameEnd p n false = d.havoc n := by
  have := h.edges
  simp [Eeprom.frameEnd, h.spoiled, show d.edges ≠ 0 by omega]

/-- A device that is busy longer than one delay is busy after it (R66). -/
theorem tick_busy {d : Eeprom} (hb : d.busy = true) (hl : d.left ≠ some 0) : d.tick.busy = true := by
  unfold Eeprom.tick
  split
  next => exact hb
  next h => exact absurd h hl
  next => exact hb

/-! ### The frames of the master -/

/-- A bit sent to a device that is busy longer than the delay before its edge is misuse, and so is the rest of the word
(R68, R133). -/
theorem run_sendLoop_misused (n : Nat) {s : State} (hcs : s.lines.cs = true) (hclk : s.lines.clk = false)
    (hb : s.eep.busy = true) (hl : s.eep.left ≠ some 0) :
    let t := runMicros (sendLoop (n + 1)) s
    t.eep.Misused ∧ t.lines.cs = true ∧ t.lines.clk = false ∧ t.seq.phase = s.seq.phase ∧ t.draws = s.draws := by
  intro t
  have ht : t = runMicros (sendLoop n)
      (runMicros [.txBit n, .delay, .line .clk true, .delay, .line .clk false, .delay] s) := by
    simp only [t, sendLoop]
    rw [runMicros_append]
  clear_value t
  rw [run_bit n s hcs, hclk] at ht
  generalize hu : State.mk _ _ _ _ _ _ _ _ _ _ _ _ _ _ = u at ht
  have hfirst : u.eep.Misused := by
    rw [← hu]
    exact (clockEdge_misused (.inl (tick_busy hb hl)) _ _).tick.tick
  obtain ⟨-, hmis, -, hlines, hseq, -, hdraws⟩ := run_sendLoop_any (P := Eeprom.Misused) (fun _ h => h.tick)
    (fun p b _ h => h.clockEdge p b) n (s := u) (by rw [← hu]; exact hcs) (by rw [← hu]) hfirst
  rw [← ht] at hmis hlines hseq hdraws
  refine ⟨hmis, ?_, ?_, ?_, ?_⟩
  · rw [hlines, ← hu]; exact hcs
  · rw [hlines]
  · rw [hseq, ← hu]
  · rw [hdraws, ← hu]

/-- The command word of a frame on such a device, from chip-select asserted on. -/
theorem run_command_misused {v : Half} {s : State} (hcs : s.lines.cs = false) (hclk : s.lines.clk = false)
    (hb : s.eep.busy = true) (hl : s.eep.left ≠ some 0) :
    let t := runMicros (.line .cs true :: sendBits v 11) s
    t.eep.Misused ∧ t.lines.cs = true ∧ t.lines.clk = false ∧ t.seq.phase = s.seq.phase ∧ t.draws = s.draws := by
  rw [sendBits, runMicros_cons, runMicros_cons, run_assert hcs]
  exact run_sendLoop_misused 10 (s := Micro.run (.loadTx v 11) { s with
    lines := { s.lines with cs := true }, eep := s.eep.frameStart, trace := .line .cs true :: s.trace }) rfl hclk hb hl

/-- `recv_bits` inside a frame, whatever state the device is in: one draw for each sample (R138). -/
theorem run_recvLoop_any {P : Eeprom → Prop} (hPt : ∀ d, P d → P d.tick) (hPc : ∀ p b d, P d → P (d.clockEdge p b))
    (n : Nat) {s : State} (hcs : s.lines.cs = true) (hclk : s.lines.clk = false) (hP : P s.eep) :
    let t := runMicros (recvLoop n) s
    P t.eep ∧ t.lines = s.lines ∧ t.seq.phase = s.seq.phase ∧ t.draws = s.draws + n := by
  induction n generalizing s with
  | zero => exact ⟨hP, rfl, rfl, rfl⟩
  | succ n ih =>
    intro t
    have ht : t = runMicros (recvLoop n)
        (runMicros [.line .clk true, .delay, .line .clk false, .delay, .rxBit n] s) := by
      simp only [t, recvLoop]
      rw [runMicros_append]
    clear_value t
    rw [run_in n s hcs hclk] at ht
    generalize hu : State.mk _ _ _ _ _ _ _ _ _ _ _ _ _ _ = u at ht
    obtain ⟨hPn, hlines, hphase, hdraws⟩ := ih (s := u) (by rw [← hu]; exact hcs) (by rw [← hu]; exact hclk)
      (by rw [← hu]; exact hPt _ (hPt _ (hPc _ _ _ hP)))
    rw [← ht] at hPn hlines hphase hdraws
    refine ⟨hPn, ?_, ?_, ?_⟩
    · rw [hlines, ← hu]
    · rw [hphase, ← hu]
    · rw [hdraws, ← hu]; simp only; omega

/-- The end of a frame that met a busy device, outside the closing steps of a write (R68, R161). -/
theorem run_deassert_misused {s : State} (hcs : s.lines.cs = true) (hph : s.seq.phase = .xfer)
    (h : s.eep.Misused) : (runMicros [.line .cs false, .delay] s).eep = (s.eep.havoc s.draws).tick := by
  have hct : s.closingTimeout = false := by simp [State.closingTimeout, hph]
  rw [runMicros_cons, run_deassert hcs, hct, frameEnd_misused h]
  rfl

/-- A control frame on a device that is busy longer than the delay before the first edge (R68, R141, R144). -/
theorem run_controlFrame_misused {c : Command} {s : State} (hcs : s.lines.cs = false) (hclk : s.lines.clk = false)
    (hph : s.seq.phase = .xfer) (hb : s.eep.busy = true) (hl : s.eep.left ≠ some 0) :
    ∃ d, (runMicros (controlFrame c 11) s).eep = (Eeprom.havoc s.draws d).tick := by
  obtain ⟨hmis, hcs', -, hphase, hdraws⟩ := run_command_misused (v := c.setWidth 16) hcs hclk hb hl
  rw [controlFrame, runMicros_append, run_deassert_misused hcs' (hphase.trans hph) hmis, hdraws]
  exact ⟨_, rfl⟩

/-- A read frame on such a device: its 16 samples draw a value each (R68, R140). -/
theorem run_readFrame_misused {c : Command} {s : State} (hcs : s.lines.cs = false) (hclk : s.lines.clk = false)
    (hph : s.seq.phase = .xfer) (hb : s.eep.busy = true) (hl : s.eep.left ≠ some 0) :
    ∃ d, (runMicros (readFrameOf c) s).eep = (Eeprom.havoc (s.draws + 16) d).tick := by
  obtain ⟨hmis, hcs', hclk', hphase, hdraws⟩ := run_command_misused (v := c.setWidth 16) hcs hclk hb hl
  have hframe : readFrameOf c = (.line .cs true :: sendBits (c.setWidth 16) 11) ++
      (recvBits 16 ++ (.storeRx :: [.line .cs false, .delay])) := by
    simp [readFrameOf]
  rw [hframe, runMicros_append]
  generalize runMicros (.line .cs true :: sendBits (c.setWidth 16) 11) s = u at *
  obtain ⟨rmis, rlines, rphase, rdraws⟩ := run_recvLoop_any (P := Eeprom.Misused) (fun _ h => h.tick)
    (fun p b _ h => h.clockEdge p b) 16 (s := Micro.run (.clearRx 16) u) hcs' hclk' hmis
  rw [recvBits, runMicros_append, runMicros_cons (.clearRx 16), runMicros_cons .storeRx]
  generalize runMicros (recvLoop 16) (Micro.run (.clearRx 16) u) = v at *
  have hcs'' : v.lines.cs = true := by rw [rlines]; exact hcs'
  have hdraws' : v.draws = s.draws + 16 := by rw [rdraws, ← hdraws]; rfl
  have hend := run_deassert_misused (s := Micro.run .storeRx v) hcs'' (rphase.trans (hphase.trans hph)) rmis
  refine ⟨v.eep, ?_⟩
  rw [hend, ← hdraws']
  rfl

/-- The device after an undisturbed sub-step of plain micro-operations is that at their end: the return leaves it alone
(R195). -/
theorem subStep_eep {ms : List Micro} (hp : ms.all Micro.plain = true) {s : State} (hf : Free s) {e : Eeprom}
    (h : (runMicros ms s.inXfer).eep = e) : ∃ t, subStep ms s = .next t ∧ t.eep = e := by
  obtain ⟨hu, hx⟩ := subStep_plain hp hf
  generalize runItems (always (.setPhase .xfer :: ms)) s = u at *
  rw [← hu] at h
  exact ⟨_, hx, h⟩

/-- Settles O48: the mark of the misuse stays through the frame, and the frame's end draws the device. -/
theorem busyDeviceMisused : Obligations.BusyDeviceMisused := by
  constructor
  · intro p bit n acts d hb act e
    have hkept : (acts.foldl act (d.clockEdge p bit)).Misused := by
      refine List.foldlRecOn acts act (clockEdge_misused (.inl hb) p bit) fun x hx a _ => ?_
      cases a with
      | none => exact hx.tick
      | some b => exact hx.clockEdge p b
    have he : e = (acts.foldl act (d.clockEdge p bit)).havoc n := frameEnd_misused hkept p n
    rw [he]
    refine ⟨fun k hk => ?_, rfl, rfl⟩
    exact (Memory.read_drawn n 16 256 k).trans (if_pos hk)
  · intro s hi hf hp hb hl
    obtain ⟨hcs, hclk, -⟩ := free_lines hi hf.1
    have control : ∀ c : Command, ∃ t d, subStep (controlFrame c 11) s = .next t ∧
        t.eep = (Eeprom.havoc s.draws d).tick := by
      intro c
      obtain ⟨d, hd⟩ := run_controlFrame_misused (c := c) (s := s.inXfer) hcs hclk rfl hb hl
      obtain ⟨t, hx, ht⟩ := subStep_eep (controlFrame_plain c 11) hf hd
      exact ⟨t, d, hx, ht⟩
    refine ⟨fun a => ?_, fun x => control _, fun x => ?_⟩
    · obtain ⟨d, hd⟩ :=
        run_readFrame_misused (c := addressCommand s.params.opRead a) (s := s.inXfer) hcs hclk rfl hb hl
      obtain ⟨t, hx, ht⟩ := subStep_eep (readFrameOf_plain _) hf hd
      exact ⟨t, d, hx, ht⟩
    · rw [exec_eepEwds hp]
      exact control _

end Sys2Proof.Machine
end

section
/-! PROOF. What the words of the four formats decode to, and that they are assembled from it again (30_encoding.md): the
fields of a `HOSTREQ` word (R81), the fields of a command word (R84), the two parts of a frame with data (R83) and the
index of an OTP command word (R88). -/

namespace Sys2Proof.Machine

/-! ### The fields of a HOSTREQ word -/

/-- The bits of `offset` in a `HOSTREQ` word (R81, log 1). -/
def offsetBits (p : Params) (w : Nat) : Nat := narrow p.wOff (w / 8)

/-- The bits of `length` in a `HOSTREQ` word (R81, log 1). -/
def lengthBits (p : Params) (w : Nat) : Nat := narrow p.wOff (w / 8 / 2 ^ p.wOff)

/-- The bit `buf_valid` of a `HOSTREQ` word (R81, log 1). -/
def bufValidBit (p : Params) (w : Nat) : Bool := w / 8 / 2 ^ p.wOff / 2 ^ p.wOff % 2 == 1

/-- `opsel` numbers the requests from 0 to 7 (R81). -/
theorem exists_opsel {k : Nat} (h : k < 8) : ∃ r d, (Region.opsel r d).toNat = k := by
  match k, h with
  | 0, _ => exact ⟨.otp, false, rfl⟩
  | 1, _ => exact ⟨.otp, true, rfl⟩
  | 2, _ => exact ⟨.seeprom, false, rfl⟩
  | 3, _ => exact ⟨.seeprom, true, rfl⟩
  | 4, _ => exact ⟨.boot0, false, rfl⟩
  | 5, _ => exact ⟨.boot0, true, rfl⟩
  | 6, _ => exact ⟨.sotp, false, rfl⟩
  | 7, _ => exact ⟨.sotp, true, rfl⟩

/-- The request of a `HOSTREQ` word: `opsel` gives the operation, the fields above it the operands (R81). -/
theorem hostreqInstr_eq {p : Params} {w : Nat} {r : Region} {d : Bool} (h : w % 8 = (r.opsel d).toNat) :
    hostreqInstr p w = request r d (offsetBits p w) (lengthBits p w) (bufValidBit p w) := by
  unfold hostreqInstr
  rw [h]
  cases r <;> cases d <;> rfl

theorem encode_request (p : Params) (r : Region) (d : Bool) (o l : Nat) (b : Bool) :
    encode p (request r d o l b) = .hostreq (packHostreq p (r.opsel d) o l b) := by
  cases r <;> cases d <;> rfl

theorem encodable_request {p : Params} {r : Region} {d : Bool} {o l : Nat} {b : Bool} :
    (request r d o l b).encodable p = true ↔ p.encodes o l := by
  cases r <;> cases d <;> exact decide_eq_true_iff

section
variable {p : Params} {k : BitVec 3} {o l : Nat} {b : Bool}

theorem packHostreq_mod : packHostreq p k o l b % 8 = k.toNat := by
  have := k.isLt
  unfold packHostreq
  omega

theorem packHostreq_div (h : p.encodes o l) :
    packHostreq p k o l b / 8 = o + 2 ^ p.wOff * (l + 2 ^ p.wOff * b.toNat) := by
  have := k.isLt
  rw [packHostreq, narrow_eq h.1, narrow_eq h.2]
  omega

theorem offsetBits_packHostreq (h : p.encodes o l) : offsetBits p (packHostreq p k o l b) = o := by
  rw [offsetBits, packHostreq_div h, narrow, Nat.add_mul_mod_self_left, Nat.mod_eq_of_lt h.1]

/-- Above the offset stand the length and the bit above it. -/
theorem packHostreq_div_offset (h : p.encodes o l) :
    packHostreq p k o l b / 8 / 2 ^ p.wOff = l + 2 ^ p.wOff * b.toNat := by
  rw [packHostreq_div h, Nat.add_mul_div_left _ _ (Nat.two_pow_pos _), Nat.div_eq_of_lt h.1, Nat.zero_add]

theorem lengthBits_packHostreq (h : p.encodes o l) : lengthBits p (packHostreq p k o l b) = l := by
  rw [lengthBits, packHostreq_div_offset h, narrow, Nat.add_mul_mod_self_left, Nat.mod_eq_of_lt h.2]

theorem bufValidBit_packHostreq (h : p.encodes o l) : bufValidBit p (packHostreq p k o l b) = b := by
  rw [bufValidBit, packHostreq_div_offset h, Nat.add_mul_div_left _ _ (Nat.two_pow_pos _), Nat.div_eq_of_lt h.2,
    Nat.zero_add]
  cases b <;> rfl

/-- A number is below the width of a `HOSTREQ` word exactly if nothing stands above its top bit. -/
theorem hostreq_lt_iff {w : Nat} : w < 2 ^ (2 * p.wOff + 4) ↔ w / 8 / 2 ^ p.wOff / 2 ^ p.wOff < 2 := by
  have hpow : 2 ^ (2 * p.wOff + 4) = 2 * 2 ^ p.wOff * 2 ^ p.wOff * 8 := by ring
  rw [hpow, Nat.div_lt_iff_lt_mul (Nat.two_pow_pos _), Nat.div_lt_iff_lt_mul (Nat.two_pow_pos _),
    Nat.div_lt_iff_lt_mul (by decide)]

theorem packHostreq_lt (h : p.encodes o l) : packHostreq p k o l b < 2 ^ (2 * p.wOff + 4) := by
  rw [hostreq_lt_iff, packHostreq_div_offset h, Nat.add_mul_div_left _ _ (Nat.two_pow_pos _), Nat.div_eq_of_lt h.2,
    Nat.zero_add]
  exact b.toNat_lt

end

/-- A request that has an encoding is decoded from it (R81, R82). -/
theorem decode_packHostreq {p : Params} (r : Region) (d : Bool) {o l : Nat} (b : Bool) (h : p.encodes o l) :
    decode p (.hostreq (packHostreq p (r.opsel d) o l b)) = .ok (request r d o l b) := by
  show decodeHostreq p _ = _
  rw [decodeHostreq, if_pos (packHostreq_lt h), hostreqInstr_eq packHostreq_mod, offsetBits_packHostreq h,
    lengthBits_packHostreq h, bufValidBit_packHostreq h]

/-- No bit of a `HOSTREQ` word is lost in its fields (R81). -/
theorem packHostreq_fields {p : Params} {k : BitVec 3} {w : Nat} (hk : w % 8 = k.toNat)
    (hw : w < 2 ^ (2 * p.wOff + 4)) :
    packHostreq p k (offsetBits p w) (lengthBits p w) (bufValidBit p w) = w := by
  have hbit : (bufValidBit p w).toNat = w / 8 / 2 ^ p.wOff / 2 ^ p.wOff := by
    have hlt := hostreq_lt_iff.mp hw
    unfold bufValidBit
    generalize w / 8 / 2 ^ p.wOff / 2 ^ p.wOff = x at hlt ⊢
    interval_cases x <;> rfl
  calc packHostreq p k (offsetBits p w) (lengthBits p w) (bufValidBit p w)
      = w % 8 + 8 * (w / 8 % 2 ^ p.wOff + 2 ^ p.wOff * (w / 8 / 2 ^ p.wOff % 2 ^ p.wOff +
          2 ^ p.wOff * (w / 8 / 2 ^ p.wOff / 2 ^ p.wOff))) := by
        rw [packHostreq, hbit, hk]
        simp only [offsetBits, lengthBits, narrow, Nat.mod_mod]
    _ = w := by rw [Nat.mod_add_div, Nat.mod_add_div, Nat.mod_add_div]

/-- A `HOSTREQ` word that decodes is the word of its request, and the operands fit (R81, U25). -/
theorem encode_of_decodeHostreq {p : Params} {w : Nat} {i : Instr} (h : decodeHostreq p w = .ok i) :
    encode p i = .hostreq w ∧ i.encodable p = true := by
  unfold decodeHostreq at h
  split at h
  next hw =>
    obtain ⟨r, d, hk⟩ := exists_opsel (Nat.mod_lt w (by decide : 0 < 8))
    rw [hostreqInstr_eq hk.symm] at h
    cases h
    rw [encode_request, packHostreq_fields hk.symm hw, encodable_request]
    exact ⟨rfl, narrow_lt _ _, narrow_lt _ _⟩
  next => cases h

/-! ### The fields of a command word -/

/-- A word is its base with its low bits put in, if the base has none and agrees with the word above them. -/
theorem or_lowField {n k m : Nat} {base c : BitVec n} (hn : n ≤ k + m) (hlow : base.extractLsb' 0 k = 0)
    (hhigh : c.extractLsb' k m = base.extractLsb' k m) : base ||| (c.extractLsb' 0 k).setWidth n = c := by
  apply BitVec.eq_of_getLsbD_eq
  intro i hi
  simp only [BitVec.getLsbD_or, BitVec.getLsbD_setWidth, BitVec.getLsbD_extractLsb', Nat.zero_add, hi, decide_true,
    Bool.true_and]
  rcases Nat.lt_or_ge i k with hik | hik
  · have hb := congrArg (fun v : BitVec k => v.getLsbD i) hlow
    have hb : base.getLsbD i = false := by simpa [BitVec.getLsbD_extractLsb', hik] using hb
    simp [hik, hb]
  · have hb := congrArg (fun v : BitVec m => v.getLsbD (i - k)) hhigh
    have hb : c.getLsbD i = base.getLsbD i := by
      simpa [BitVec.getLsbD_extractLsb', show i - k < m by omega, Nat.add_sub_cancel' hik] using hb
    simp [Nat.not_lt.mpr hik, hb]

/-- What the device can read in a command word, each time with the word as it is assembled from that (R63, R84). -/
theorem decodeCommand_cases {p : Params} (hp : p.wellFormed = true) (c : Command) :
    (∃ a, decodeCommand p c = .read a ∧ addressCommand p.opRead a = c) ∨
    (∃ a, decodeCommand p c = .write a ∧ addressCommand p.opWrite a = c) ∨
    (∃ x, decodeCommand p c = .ewen x ∧ controlCommand p.opEwen x = c) ∨
    (∃ x, decodeCommand p c = .ewds x ∧ controlCommand p.opEwds x = c) ∨
    decodeCommand p c = .reserved := by
  obtain ⟨hread, hwrite, hewen, hewds, -⟩ := Params.wf_fields hp
  unfold decodeCommand
  split
  next h => exact .inl ⟨_, rfl, or_lowField (by decide) hread h⟩
  split
  next h => exact .inr (.inl ⟨_, rfl, or_lowField (by decide) hwrite h⟩)
  split
  next h => exact .inr (.inr (.inl ⟨_, rfl, or_lowField (by decide) hewen h⟩))
  split
  next h => exact .inr (.inr (.inr (.inl ⟨_, rfl, or_lowField (by decide) hewds h⟩)))
  next => exact .inr (.inr (.inr (.inr rfl)))

/-- A frame of 11 bits that decodes is the frame of its instruction (R83, R84). -/
theorem encode_of_decodeEep11 {p : Params} (hp : p.wellFormed = true) {c : Command} {i : Instr}
    (h : decodeEep11 p c = .ok i) : encode p i = .eep11 c ∧ i.encodable p = true := by
  unfold decodeEep11 at h
  rcases decodeCommand_cases hp c with ⟨a, hd, hc⟩ | ⟨a, hd, -⟩ | ⟨x, hd, hc⟩ | ⟨x, hd, hc⟩ | hd <;> rw [hd] at h <;>
    cases h
  · exact ⟨congrArg Raw.eep11 hc, rfl⟩
  · exact ⟨congrArg Raw.eep11 hc, rfl⟩
  · exact ⟨congrArg Raw.eep11 hc, rfl⟩

/-! ### The two parts of a frame with data -/

theorem frameCommand_append (c : Command) (d : Half) : frameCommand (c ++ d) = c :=
  BitVec.extractLsb'_append_eq_left

theorem frameData_append (c : Command) (d : Half) : frameData (c ++ d) = d :=
  BitVec.extractLsb'_append_eq_right

theorem frame_parts (w : BitVec 27) : frameCommand w ++ frameData w = w := by
  apply BitVec.eq_of_getLsbD_eq
  intro i hi
  simp only [frameCommand, frameData, BitVec.getLsbD_append, BitVec.getLsbD_extractLsb']
  split
  next h => simp [h]
  next h => simp [show i - 16 < 11 by omega, show 16 + (i - 16) = i by omega]

/-- A frame of 27 bits that decodes is the write frame of its instruction (R83, R86, R92). -/
theorem encode_of_decodeEep27 {p : Params} (hp : p.wellFormed = true) {w : BitVec 27} {i : Instr}
    (h : decodeEep27 p w = .ok i) : encode p i = .eep27 w ∧ i.encodable p = true := by
  unfold decodeEep27 at h
  rcases decodeCommand_cases hp (frameCommand w) with ⟨a, hd, -⟩ | ⟨a, hd, hc⟩ | ⟨x, hd, -⟩ | ⟨x, hd, -⟩ | hd <;>
    rw [hd] at h <;> cases h
  refine ⟨?_, rfl⟩
  show Raw.eep27 (addressCommand p.opWrite a ++ frameData w) = .eep27 w
  rw [hc, frame_parts]

/-! ### The OTP command word -/

/-- A read command word is assembled from the index it selects (R61, R88). -/
theorem otpCommand_of_decode {p : Params} (hp : p.wellFormed = true) {w : Word} {k : BitVec 5}
    (h : decodeOtpCommand p w = some k) : otpCommand p k = w := by
  obtain ⟨-, -, -, -, -, -, -, -, -, -, -, -, hflag, -⟩ := Params.wf_fields hp
  unfold decodeOtpCommand at h
  split at h
  next hw =>
    cases h
    exact or_lowField (by decide) hflag hw
  next => cases h

/-- An OTP command word decodes exactly if it selects a word, and then to the read of that word (R91). -/
theorem decode_otpcmd32_ok {p : Params} {w : Word} {i : Instr} :
    decode p (.otpcmd32 w) = .ok i ↔ ∃ k, decodeOtpCommand p w = some k ∧ i = .otpCmdRead k := by
  simp only [decode]
  cases decodeOtpCommand p w with
  | none => simp
  | some k => simp [eq_comm]

/-! ### Decoder and encoder -/

/-- Settles O9: a request by its fields (`decode_packHostreq`), a command word by what the device reads in it. -/
theorem decodeEncode : Obligations.DecodeEncode := by
  intro p i hp he
  have hreq : ∀ (r : Region) (d : Bool) {o l : Nat} {b : Bool}, (request r d o l b).encodable p = true →
      decode p (.hostreq (packHostreq p (r.opsel d) o l b)) = .ok (request r d o l b) :=
    fun r d _ _ b he => decode_packHostreq r d b (encodable_request.mp he)
  cases i with
  | otpRead o l b => exact hreq .otp false he
  | otpWrite o l b => exact hreq .otp true he
  | seepromRead o l b => exact hreq .seeprom false he
  | seepromWrite o l b => exact hreq .seeprom true he
  | boot0Read o l b => exact hreq .boot0 false he
  | boot0Write o l b => exact hreq .boot0 true he
  | sotpRead o l b => exact hreq .sotp false he
  | sotpWrite o l b => exact hreq .sotp true he
  | eepRead a => simp only [encode, decode, decodeEep11, decodeCommand_read hp]
  | eepWrite a d =>
    simp only [encode, decode, decodeEep27, frameCommand_append, frameData_append, decodeCommand_write hp]
  | eepEwen x => simp only [encode, decode, decodeEep11, decodeCommand_ewen hp]
  | eepEwds x => simp only [encode, decode, decodeEep11, decodeCommand_ewds hp]
  | otpCmdRead k => simp only [encode, decode, decodeOtpCommand_read hp]

/-- Settles O10, format by format. -/
theorem encodeDecode : Obligations.EncodeDecode := by
  intro p r i hp h
  cases r with
  | hostreq w => exact encode_of_decodeHostreq h
  | eep11 c => exact encode_of_decodeEep11 hp h
  | eep27 w => exact encode_of_decodeEep27 hp h
  | otpcmd32 w =>
    obtain ⟨k, hk, rfl⟩ := decode_otpcmd32_ok.mp h
    exact ⟨congrArg Raw.otpcmd32 (otpCommand_of_decode hp hk), rfl⟩

/-- Settles O11: the decoder evaluated on each word. -/
theorem decodeWords : Obligations.DecodeWords :=
  ⟨by decide, by decide, by decide, by decide, by decide, by decide⟩

/-! ### Reserved words -/

/-- The classes of command words R90 reserves, with the command words of R84 (log 4). -/
def Reserved (c : Command) : Prop :=
  c.getLsbD 10 = false ∨ c.extractLsb' 8 2 = 3 ∨
    c.extractLsb' 8 2 = 0 ∧ (c.extractLsb' 6 2 = 1 ∨ c.extractLsb' 6 2 = 2)

/-- A command word is reserved if it agrees with none of the four in the fields that tell them apart (R63). -/
theorem decodeCommand_reserved {p : Params} {c : Command} : decodeCommand p c = .reserved ↔
    opField c ≠ opField p.opRead ∧ opField c ≠ opField p.opWrite ∧
      controlField c ≠ controlField p.opEwen ∧ controlField c ≠ controlField p.opEwds := by
  unfold decodeCommand
  split_ifs <;> simp_all

/-- A command word is a write if its start bit and operation are those of `OP_WRITE` and not those of `OP_READ` (R63). -/
theorem decodeCommand_isWrite {p : Params} {c : Command} : (∃ a, decodeCommand p c = .write a) ↔
    opField c ≠ opField p.opRead ∧ opField c = opField p.opWrite := by
  unfold decodeCommand
  split_ifs <;> simp_all

/-- A frame of 11 bits decodes exactly if its command word is neither reserved nor a write (R92). -/
theorem decode_eep11_ok {p : Params} {c : Command} : (∃ i, decode p (.eep11 c) = .ok i) ↔
    decodeCommand p c ≠ .reserved ∧ ¬ ∃ a, decodeCommand p c = .write a := by
  simp only [decode, decodeEep11]
  cases decodeCommand p c <;> simp

/-- A frame of 27 bits decodes exactly if its command word is a write (R92). -/
theorem decode_eep27_ok {p : Params} {w : BitVec 27} : (∃ i, decode p (.eep27 w) = .ok i) ↔
    ∃ a, decodeCommand p (frameCommand w) = .write a := by
  simp only [decode, decodeEep27]
  cases decodeCommand p (frameCommand w) <;> simp

theorem decode_error_or_ok (p : Params) (r : Raw) :
    (∃ e, decode p r = .error e) ∨ ∃ i, decode p r = .ok i := by
  cases decode p r with
  | error e => exact .inl ⟨e, rfl⟩
  | ok i => exact .inr ⟨i, rfl⟩

/-- A field inside the control field is a field of the command word. -/
theorem extractLsb'_controlField (c : Command) {j m : Nat} (h : j + m ≤ 5) :
    (controlField c).extractLsb' j m = c.extractLsb' (6 + j) m := by
  apply BitVec.eq_of_getLsbD_eq
  intro i hi
  simp [controlField, hi, show j + i < 5 by omega, Nat.add_assoc]

/-- The fields R84 and R90 name above the pad bits are all parts of the control field. -/
theorem fields_of_controlField (c : Command) :
    opField c = (controlField c).extractLsb' 2 3 ∧ c.getLsbD 10 = (controlField c).getLsbD 4 ∧
      c.extractLsb' 8 2 = (controlField c).extractLsb' 2 2 ∧ c.extractLsb' 6 2 = (controlField c).extractLsb' 0 2 := by
  refine ⟨?_, by simp [controlField], ?_, ?_⟩ <;> rw [extractLsb'_controlField c (by decide)]
  rfl

/-- With the command words of R84 the device reads nothing in exactly the words R90 reserves. -/
theorem platform_reserved (c : Command) : decodeCommand platformParams c = .reserved ↔ Reserved c := by
  obtain ⟨hop, hstart, hoperation, hcontrol⟩ := fields_of_controlField c
  rw [decodeCommand_reserved, Reserved, hop, hstart, hoperation, hcontrol]
  generalize controlField c = f
  revert f
  decide

/-- With the command words of R84 a write is a word that is not reserved with operation `0b01` (R84). -/
theorem platform_isWrite (c : Command) :
    (∃ a, decodeCommand platformParams c = .write a) ↔ ¬ Reserved c ∧ c.extractLsb' 8 2 = 1 := by
  obtain ⟨hop, hstart, hoperation, hcontrol⟩ := fields_of_controlField c
  rw [decodeCommand_isWrite, Reserved, hop, hstart, hoperation, hcontrol]
  generalize controlField c = f
  revert f
  decide

/-- An OTP command word decodes exactly if it is `OTP_RD_FLAG | k` (R88, R91). -/
theorem otpcmd32_ok_iff {p : Params} (hp : p.wellFormed = true) {w : Word} :
    (∃ i, decode p (.otpcmd32 w) = .ok i) ↔ ∃ k : BitVec 5, w = otpCommand p k := by
  constructor
  · rintro ⟨i, h⟩
    obtain ⟨k, hk, -⟩ := decode_otpcmd32_ok.mp h
    exact ⟨k, (otpCommand_of_decode hp hk).symm⟩
  · rintro ⟨k, rfl⟩
    exact ⟨_, decode_otpcmd32_ok.mpr ⟨k, decodeOtpCommand_read hp k, rfl⟩⟩

/-- The step refuses a word that does not decode, by name (U12, U19, log 28). -/
theorem step_undecodable {s : State} {r : Raw} {rest : List Input} {e : DecodeError}
    (hin : s.inbox = .present r :: rest) (he : decode s.params r = .error e) :
    step s = .refused (.undecodable e) := by
  simp only [step, hin, handleInput, presentWord, State.setInbox_params, he]

/-- Settles O12, from the two questions the decoder asks of a command word: is it reserved, and is it a write. -/
theorem reservedWords : Obligations.ReservedWords := by
  have hshort : ∀ c : Command, (∃ i, decode platformParams (.eep11 c) = .ok i) ↔
      ¬ Reserved c ∧ c.extractLsb' 8 2 ≠ 1 := by
    intro c
    rw [decode_eep11_ok, ne_eq, platform_reserved, platform_isWrite]
    exact and_congr_right fun h => by simp [h]
  have hlong : ∀ w : BitVec 27, (∃ i, decode platformParams (.eep27 w) = .ok i) ↔
      ¬ Reserved (frameCommand w) ∧ (frameCommand w).extractLsb' 8 2 = 1 := by
    intro w
    rw [decode_eep27_ok, platform_isWrite]
  refine ⟨platform_reserved, fun c hc => ?_, fun w hw => ?_, hshort, hlong, fun p w hp => otpcmd32_ok_iff hp,
    fun s r rest e => step_undecodable⟩
  · exact (decode_error_or_ok _ _).resolve_right fun h => ((hshort c).mp h).1 hc
  · exact (decode_error_or_ok _ _).resolve_right fun h => ((hlong w).mp h).1 hw

/-! ### The writes without a write path -/

/-- Settles O15: the three are illegal requests (`illegalRequest_returns`), and their `opsel` is that of a write to
their region. -/
theorem illegalWrites : Obligations.IllegalWrites := by
  refine ⟨fun o l b s hf => ⟨?_, ?_, ?_⟩, fun p o l b h => ⟨?_, ?_, ?_⟩⟩
  · exact illegalRequest_returns (r := .otp) hf
  · exact illegalRequest_returns (r := .boot0) hf
  · exact illegalRequest_returns (r := .sotp) hf
  · exact decode_packHostreq .otp true b h
  · exact decode_packHostreq .boot0 true b h
  · exact decode_packHostreq .sotp true b h

end Sys2Proof.Machine
end

section
/-! PROOF. The range adapter (R100 to R104, R111): the plan of a range, the slice of each of its blocks, and how the slices
tile the buffer. -/

namespace Sys2Proof.Machine

/-! ### The plan -/

/-- The check and the plan of a request leave the plan of its range in the plan registers (R101 to R103). -/
theorem formed_planned (r : Region) {p : Params} {q : Sequencer} (he : p.encodes q.reqOffset q.reqLength)
    (hl : 0 < q.reqLength) :
    Planned r.blockSize q.reqOffset q.reqLength ((q.formEndSum p).plan p r.blockSize) :=
  plan_planned r.blockSize_ok rfl (formEndSum_endSum he) hl he

@[simp] theorem plan_endSum (p : Params) (B : Nat) (q : Sequencer) : (q.plan p B).endSum = q.endSum := by
  unfold Sequencer.plan Sequencer.planAdjust; split <;> rfl

/-- A region is a whole number of blocks, at least one (R3, R8). -/
theorem totalSize_blocks (r : Region) {p : Params} (hp : p.wellFormed = true) :
    0 < r.totalSize p ∧ r.totalSize p % r.blockSize = 0 := by
  obtain ⟨-, -, -, -, -, -, -, -, -, -, -, -, -, -, -, -, hmod, hpos, -⟩ := Params.wf_fields hp
  cases r with
  | boot0 => exact ⟨hpos, hmod⟩
  | otp | seeprom | sotp => simp [Region.totalSize, Region.blockSize]

/-- The block of the last byte before an end `m`: an exact end belongs to the block before (R103). -/
theorem lastBlock_eq {B m : Nat} (hB : BlockSize B) (hm : 0 < m) :
    (m - 1) / B = if m % B = 0 then m / B - 1 else m / B := by
  split <;> rcases hB with rfl | rfl <;> omega

/-- The bytes of the range in its last block, counted from the start of that block (R103). -/
theorem lastRes_eq {B m : Nat} (hB : BlockSize B) (hm : 0 < m) :
    (m - 1) % B + 1 = if m % B = 0 then B else m % B := by
  split <;> rcases hB with rfl | rfl <;> omega

theorem lastBlock_le {B m total : Nat} (hB : BlockSize B) (hm : 0 < m) (h : m ≤ total) (hd : total % B = 0) :
    (m - 1) / B ≤ total / B - 1 := by
  rcases hB with rfl | rfl <;> omega

/-- Settles O18: the plan registers hold the block and the position of the first and of the last byte
(`formed_planned`). -/
theorem rangePlan : Obligations.RangePlan := by
  intro r p q B o n f hp he hn
  have h : Planned B o n f := formed_planned r he hn
  have hB : BlockSize B := r.blockSize_ok
  have hm : 0 < o + n := by omega
  have hsum : f.endSum = o + n := (plan_endSum _ _ _).trans (formEndSum_endSum he)
  have hlt : (o + n - 1) % B < B := Nat.mod_lt _ (by rcases hB with e | e <;> omega)
  have hlast : (o + n - 1) / B * B + ((o + n - 1) % B + 1) = o + n := by
    have := Nat.div_add_mod' (o + n - 1) B
    omega
  refine ⟨hsum, h.startBlock, h.startOff, h.endBlock.trans (lastBlock_eq hB hm), h.endRes.trans (lastRes_eq hB hm), ?_⟩
  rw [h.endRes, h.startBlock, h.endBlock]
  exact ⟨by omega, hlt, Nat.div_le_div_right (by omega), hlast,
    fun ht => lastBlock_le hB hm ht (totalSize_blocks r hp).2⟩

/-! ### The slices -/

/-- The blocks before the first count nothing (R104). -/
theorem done_first {B o l : Nat} (hB : BlockSize B) : done B o l (o / B) = 0 := by
  unfold done; rcases hB with rfl | rfl <;> omega

/-- All blocks together count the whole range (R104, R107). -/
theorem done_last {B o l : Nat} (hB : BlockSize B) (hl : 0 < l) : done B o l ((o + l - 1) / B + 1) = l := by
  unfold done; rcases hB with rfl | rfl <;> omega

/-- The sequencer at block `i` of its loop, with the slice of that block (R104, R105). -/
def Sequencer.atBlock (p : Params) (B : Nat) (q : Sequencer) (i : Nat) : Sequencer :=
  ({ q with curBlock := narrow p.wOff i } : Sequencer).slice p B

/-- What `slice_spec` says, for a block the loop comes to. -/
theorem atBlock_spec {p : Params} {B o l i : Nat} {q : Sequencer} (L : Loop p B o l q) (h1 : o / B ≤ i)
    (h2 : i ≤ (o + l - 1) / B) :
    let f := q.atBlock p B i
    f.lo = q.sliceLo i ∧ f.hi = q.sliceHi B i ∧ f.bufpos = done B o l i ∧
      done B o l (i + 1) = done B o l i + (f.hi.toNat - f.lo.toNat) ∧ f.lo.toNat < f.hi.toNat ∧ f.hi.toNat ≤ B ∧
      i * B + f.lo.toNat = o + f.bufpos := by
  intro f
  have hi : narrow p.wOff i = i := narrow_eq (L.block_lt ((mem_blockRange L.pos).mpr ⟨h1, h2⟩))
  have hp : Planned B o l { q with curBlock := narrow p.wOff i } :=
    ⟨L.planned.offset, L.planned.startBlock, L.planned.startOff, L.planned.endBlock, L.planned.endRes⟩
  obtain ⟨hlo, -, hpos, hnext, hlt, hle⟩ := slice_spec L.size hp L.pos L.fits.2 hi h1 h2
  refine ⟨congrArg q.sliceLo hi, congrArg (q.sliceHi B) hi, hpos, hnext, hlt, hle, ?_⟩
  have hlo' : f.lo.toNat = max o (i * B) - i * B := hlo
  have hpos' : f.bufpos = done B o l i := hpos
  have hl := L.pos
  rw [hlo', hpos', done]
  rcases L.size with rfl | rfl <;> omega

/-- Settles O19: the bytes before a block are what the blocks before it count (`done`). -/
theorem sliceOfABlock : Obligations.SliceOfABlock := by
  intro r p q0 i B o n q at_ lo hi he hn h1 h2
  have hB : BlockSize B := r.blockSize_ok
  have L : Loop p B o n q := ⟨hB, formed_planned r he hn, hn, he⟩
  have hstart := L.planned.startBlock
  have hend := L.planned.endBlock
  rw [hstart] at h1
  rw [hend] at h2
  obtain ⟨elo, ehi, hpos, hnext, hlt, hle, hbyte⟩ := atBlock_spec L h1 h2
  change (at_ i).lo = _ at elo
  change (at_ i).hi = _ at ehi
  change (at_ i).bufpos = _ at hpos
  change _ = _ + (hi - lo) at hnext
  change i * B + lo = o + (at_ i).bufpos at hbyte
  refine ⟨?_, ?_, hlt, hle, by omega, fun hi0 => ?_, fun hin => ?_, fun hil => ?_, hbyte⟩
  · show (at_ i).lo.toNat = _
    rw [elo, Sequencer.sliceLo]
    split <;> rfl
  · show (at_ i).hi.toNat = _
    rw [ehi, Sequencer.sliceHi]
    split
    · rfl
    · rcases hB with e | e <;> rw [e] <;> rfl
  · rw [hpos, hi0, hstart, done_first hB]
  · rw [hend] at hin
    obtain ⟨-, -, hpos1, -⟩ := atBlock_spec L (i := i + 1) (by omega) hin
    rw [hpos, ← hnext]
    exact hpos1
  · rw [hpos, ← hnext, hil, hend, done_last hB hn]

/-- Settles O20, from the first and the last byte position of the block (`slice_spec`). -/
theorem partialFirstBlock : Obligations.PartialFirstBlock := by
  intro r p q0 B o q f he hn ho
  have hB : BlockSize B := r.blockSize_ok
  have h : Planned B o q0.reqLength q := formed_planned r he hn
  have hle : o / B ≤ (o + q0.reqLength - 1) / B := Nat.div_le_div_right (by omega)
  have hp : Planned B o q0.reqLength { q with curBlock := q.startBlock } :=
    ⟨h.offset, h.startBlock, h.startOff, h.endBlock, h.endRes⟩
  obtain ⟨hlo, hhi, -⟩ := slice_spec hB hp hn he.2 h.startBlock (Nat.le_refl _) hle
  change f.lo.toNat = _ at hlo
  change f.hi.toNat = _ at hhi
  rw [hlo, hhi, h.startBlock, h.endBlock, h.endRes, h.startOff]
  clear_value B o
  constructor
  · intro hreach
    rcases hB with rfl | rfl <;> omega
  · intro hone
    rcases hB with rfl | rfl <;> omega

end Sys2Proof.Machine
end

section
/-! PROOF. What every read does to the caller buffer, whatever the medium (R106, R110), and a request that fails its check
(R101). -/

namespace Sys2Proof.Machine

/-- Settles O16: such a request is not in range, and fails the check (`hostRequest_rejected`). -/
theorem preconditionFails : Obligations.PreconditionFails := by
  intro r w o l b s hl hf he hbad
  rw [exec_request hl]
  refine hostRequest_rejected hf he ?_
  rintro ⟨-, rfl, hpos, hend⟩
  rcases hbad with h | h | h | h
  · cases h
  all_goals omega

/-- A read of a range inside its region returns its length and delivers the bytes of the range, the EEPROM device free
(R105, R106, R110). -/
theorem exec_read {r : Region} {o l : Nat} {b : Bool} {s : State} (hi : Inv s) (hf : Free s)
    (hp : s.params.wellFormed = true) (hb : s.eep.busy = false)
    (hr : InRange s.params (r.totalSize s.params) o l b) :
    ∃ t, exec (request r false o l b) s = .next t ∧ Returned t l .ok ∧ Delivered s t r o l := by
  cases r with
  | otp =>
    obtain ⟨t, hx, hret, hdel, -⟩ := otpRead o l b s hi hf hp hr
    exact ⟨t, hx, hret, hdel⟩
  | seeprom =>
    obtain ⟨t, hx, hret, hdel, -⟩ := seepromRead o l b s hi hf hp hr hb
    exact ⟨t, hx, hret, hdel⟩
  | boot0 =>
    obtain ⟨t, hx, hret, hdel, -⟩ := exec_mirrorRead .boot0 hi hf hp hr
    exact ⟨t, hx, hret, hdel⟩
  | sotp =>
    obtain ⟨t, hx, hret, hdel, -⟩ := exec_mirrorRead .sotp hi hf hp hr
    exact ⟨t, hx, hret, hdel⟩

/-- A region as a whole is a range inside it (R3). -/
theorem inRange_region {r : Region} {p : Params} (hp : p.wellFormed = true) (he : p.encodes 0 (r.totalSize p)) :
    InRange p (r.totalSize p) 0 (r.totalSize p) true :=
  ⟨he, rfl, (totalSize_blocks r hp).1, Nat.le_of_eq (Nat.zero_add _)⟩

/-- So is each of its blocks (R3). -/
theorem inRange_block {r : Region} {p : Params} (he : p.encodes 0 (r.totalSize p)) {i : Nat}
    (hi : i < r.totalSize p / r.blockSize) :
    InRange p (r.totalSize p) (r.blockSize * i) r.blockSize true := by
  have hpos : 0 < r.blockSize := by rcases r.blockSize_ok with h | h <;> omega
  have hend : r.blockSize * i + r.blockSize ≤ r.totalSize p :=
    calc r.blockSize * (i + 1) ≤ r.blockSize * (r.totalSize p / r.blockSize) := Nat.mul_le_mul_left _ hi
      _ ≤ r.totalSize p := Nat.mul_div_le _ _
  have hfit := he.2
  exact ⟨⟨by omega, by omega⟩, rfl, hpos, hend⟩

/-- Settles O36: each of the two reads delivers the bytes of the region (`exec_read`). -/
theorem wholeRegionReads : Obligations.WholeRegionReads := by
  constructor
  · intro r s hi hf hp hb N B he
    obtain ⟨t, hx, hret, hdel⟩ := exec_read hi hf hp hb (inRange_region hp he)
    refine ⟨t, hx, hret, fun i hiN => ?_⟩
    have hblock : InRange s.params N (B * i) B true := inRange_block he hiN
    obtain ⟨u, hxu, hretu, hdelu⟩ := exec_read hi hf hp hb hblock
    refine ⟨u, hxu, hretu, fun j hj => ?_⟩
    have hend := hblock.2.2.2
    rw [hdel.bytes (B * i + j) (by omega), hdelu.bytes j hj, Nat.zero_add]
  · intro r o l b s hi hf hp hb hr
    obtain ⟨t, hx, hret, hdel⟩ := exec_read hi hf hp hb hr
    exact ⟨t, hx, hret, hdel.bytes⟩

/-- Settles O38: a read that is accepted delivers its range (`exec_read`), one that is not touches nothing
(`hostRequest_rejected`). -/
theorem readsOnlyFillTheBuffer : Obligations.ReadsOnlyFillTheBuffer := by
  intro r o l b s t hi hf hp hb he hx
  by_cases hr : InRange s.params (r.totalSize s.params) o l b
  · obtain ⟨u, hu, hret, hdel⟩ := exec_read hi hf hp hb hr
    obtain rfl : u = t := Host.Outcome.next.inj (hu.symm.trans hx)
    rw [hret.count]
    exact ⟨hdel.rest, hdel.accesses⟩
  · obtain ⟨u, hu, hret, hun⟩ := hostRequest_rejected (items := opItems r false) (w := false) hf.1 he hr
    rw [← exec_request (.inl rfl)] at hu
    obtain rfl : u = t := Host.Outcome.next.inj (hu.symm.trans hx)
    rw [hret.count, hun.buf, hun.bufTrace]
    exact ⟨fun _ _ => rfl, rfl⟩

end Sys2Proof.Machine
end

section
/-! PROOF. The write whose device completes every block in time (R155 to R164), and the write that stood in the poll of its
last block and goes on after all (R143): which way the operation goes is read off the moments the environment chose
(log 8). -/

namespace Sys2Proof.Machine

/-! ### The write that completes -/

/-- The moment the environment chose for write number `j`. -/
theorem chosen_at {ks : List Nat} {ts : List (Option Nat)} {j : Nat} (h : j < ks.length) :
    (ks.map some ++ ts)[j]? = some (some ks[j]) := by
  rw [List.getElem?_append_left (by simpa using h)]
  simp [h]

/-- The samples the polls took are those of the moments the environment chose. -/
theorem agree_eq {ks ks' : List Nat} {ts : List (Option Nat)} (hlen : ks'.length = ks.length)
    (ha : Agree (ks.map some ++ ts) ks') : ks' = ks := by
  refine List.ext_getElem hlen fun j h' h => ?_
  exact (Option.some.inj (ha j _ _ (chosen_at h) (List.getElem?_eq_getElem h'))).symm

/-- Settles O39, from the ways a write can go (`run_seepromWriteItems`): the moments leave only this one. -/
theorem seepromWrite : Obligations.SeepromWrite := by
  intro o l b s ks ts hi hf hp hr hb hlen ht hks
  obtain ⟨hready, hexec⟩ := exec_accepted (r := .seeprom) (w := true) (.inr rfl) hi hf hr
  obtain ⟨hcs, -, -⟩ := free_lines hi hf.1
  have hrun := run_seepromWriteItems (s := s.started .seeprom true o l b) hp hready hr.2.2.2 hcs hb hi.eepMem hi.pending
  have htimes : (s.started .seeprom true o l b).eep.times = ks.map some ++ ts := ht
  rw [htimes, ← hlen] at hrun
  obtain ⟨hout, hways⟩ := hrun
  rcases hways with ⟨ks', hall, -, hagree, hdone⟩ | ⟨ks', L, hlt, hL, -, -, hbeyond, -⟩ |
    ⟨ks', hlt, -, -, hnever, -⟩
  · obtain rfl : ks' = ks := agree_eq hall hagree
    obtain ⟨hret, hplat, hlines, hbusy, hwel, -, htimes', hbytes, hreads, htrace⟩ := hdone
    rw [blocksTrace_started] at htrace
    have hrest : (ks'.map some ++ ts).drop ks'.length = ts := List.drop_left' (List.length_map _)
    exact ⟨_, hexec, hret, hbytes, hbusy, hwel, htimes'.trans hrest, hlines, hplat, hout.buf, hreads, htrace,
      ⟨hout.params, hout.fuse, hout.boot0, hout.sotp, hout.inbox, hout.disturb⟩⟩
  · exact absurd hbeyond (not_beyond hL (hks _ (List.getElem_mem hlt)) (chosen_at hlt))
  · cases hnever _ (chosen_at hlt)

/-! ### The write that goes on -/

/-- Where a write of `l` bytes that began in `s` stands in the poll of its last block: under the lock, in the status frame,
with the bytes of that block still to count (R107, R142, R156). -/
structure LastPoll (s : State) (l : Nat) (t : State) : Prop where
  outside : OutsideSame s t
  plat : t.plat = { s.plat with irqEnable := false }
  irqSaved : t.seq.irqSaved = s.plat.irqEnable
  cs : t.lines.cs = true
  clk : t.lines.clk = false
  status : t.seq.status = .ok
  count : t.seq.count + (t.seq.hi.toNat - t.seq.lo.toNat) = l

/-- The state after a ready sample of a poll the sequencer stood in (R143). -/
def State.polledReady (s : State) : State :=
  { s with
    seq := { s.seq with pollCnt := s.seq.pollCnt + 1, ok := some true, hung := false, ahead := [] }
    trace := .sample s.params.readyLevel :: s.trace
    draws := s.draws + 1 }

/-- A ready sample ends the poll the sequencer stands in, and the same step runs the rest of the operation (R143). -/
theorem step_polledReady {s : State} (hh : s.seq.hung = true) (hok : s.seq.ok = none) (hcs : s.lines.cs = true)
    (hd : ReadyAfter s.eep 0) (hin : s.inbox = []) (hdis : s.disturb = []) :
    step s = .next (runItems s.seq.ahead s.polledReady) := by
  have hon : step s = s.pollOn := by simp [step, hin, waitStep, hh]
  rw [hon, State.pollOn, pollRound_ready hcs hok hd]
  exact operate_undisturbed (s := s.polledReady) hdis s.seq.ahead

theorem started_ahead (r : Region) (w : Bool) (o l : Nat) (b : Bool) (s : State) :
    (s.started r w o l b).seq.ahead = s.seq.ahead := plan_ahead _ _ _

/-- A write whose device never completes its last block stands in the poll of that block, with the end of that block and the
closing steps ahead (R227, log 8, log 11). -/
theorem exec_seepromWrite_lastPoll {o l : Nat} {b : Bool} {s : State} {ks : List Nat} {ts : List (Option Nat)}
    (hi : Inv s) (hf : Free s) (hp : s.params.wellFormed = true) (hr : InRange s.params 256 o l b)
    (hb : s.eep.busy = false) (hL : s.params.pollLimit = none) (hlen : ks.length + 1 = (blockRange 2 o l).length)
    (ht : s.eep.times = ks.map some ++ none :: ts) :
    ∃ t, exec (.seepromWrite o l b) s = .next t ∧ Stuck t ∧ LastPoll s l t ∧
      t.seq.ahead = writeAhead s.params (s.started .seeprom true o l b).seq [] := by
  obtain ⟨hready, hexec⟩ := exec_accepted (r := .seeprom) (w := true) (.inr rfl) hi hf hr
  obtain ⟨hcs, -, -⟩ := free_lines hi hf.1
  have hrun := run_seepromWriteItems (s := s.started .seeprom true o l b) hp hready hr.2.2.2 hcs hb hi.eepMem hi.pending
  have htimes : (s.started .seeprom true o l b).eep.times = ks.map some ++ none :: ts := ht
  have hnone : (s.started .seeprom true o l b).params.pollLimit = none := hL
  rw [htimes, ← hlen, hnone] at hrun
  obtain ⟨hout, hways⟩ := hrun
  rcases hways with ⟨ks', hall, -, hagree, -⟩ | ⟨_, _, -, hlim, -⟩ | ⟨ks', hlt, -, -, hnever, hstand⟩
  · cases hagree _ _ _ (times_at ks none ts) (List.getElem?_eq_getElem (by omega))
  · cases hlim
  · have hlast : ks'.length = ks.length := by
      by_contra hne
      have hbefore : ks'.length < ks.length := by omega
      cases hnever _ (times_before hbefore)
    obtain ⟨hhung, -, hok, hirq, hstatus, hcount, hbytes, hahead, hplat, hcs', hclk, -, hbusy, hleft, hedges, hafter,
      -⟩ := hstand
    have hl := hr.2.2.1
    have hblocks : (blockRange 2 o l).length = (o + l - 1) / 2 + 1 - o / 2 := List.length_range'
    have hend : o / 2 + ks'.length = (o + l - 1) / 2 := by omega
    rw [hend] at hcount hbytes
    rw [done_last (.inl rfl) hl] at hbytes
    have hle : done 2 o l ((o + l - 1) / 2) ≤ l := by unfold done; omega
    rw [started_ahead, ((hi.rest (free_idle hf.1).2).2.2.2.1), List.nil_append,
      List.drop_eq_nil_of_le (by omega)] at hahead
    have hall : _ + _ = l := (congrArg₂ (· + ·) hcount hbytes).trans (Nat.add_sub_cancel' hle)
    exact ⟨_, hexec, ⟨hhung, hok, hout.params ▸ hnone, hcs', hbusy, hleft, hedges, hafter⟩,
      ⟨⟨hout.params, hout.fuse, hout.boot0, hout.sotp, hout.buf, hout.inbox, hout.disturb⟩, hplat, hirq, hcs', hclk,
        hstatus, hall⟩, hahead⟩

/-- The state at the end of a block whose poll answered `true` (R107, R142). -/
def State.blockEnded (s : State) : State :=
  { s with
    seq := s.seq.counted s.params
    lines := { s.lines with cs := false }
    eep := s.eep.tick
    trace := .delay :: .line .cs false :: s.trace
    draws := s.draws + 1 }

/-- The end of a block whose poll answered `true`: the device keeps its array, the bytes of the block count (R67, R107,
R142). -/
theorem run_blockEnd {s : State} (hcs : s.lines.cs = true) (hedges : s.eep.edges = 0) (hh : s.seq.hung = false)
    (hst : s.seq.status = .ok) (hok : s.seq.ok = some true) :
    runItems (inLoop [.line .cs false, .delay, .blockDone]) s = s.blockEnded := by
  have hframe := runItems_inLoop (ms := [.line .cs false, .delay]) rfl hh (by rw [hst]; decide)
  rw [run_statusEnd hcs hedges] at hframe
  have hparts : inLoop [.line .cs false, .delay, .blockDone] = inLoop [.line .cs false, .delay] ++ inLoop [.blockDone] := rfl
  rw [hparts, runItems_append, hframe, runItems_blockDone (by exact hh) (by exact hst), if_pos (by exact hok)]
  rfl

/-- Once the poll of its last block has answered `true`, a write counts that block, runs its closing steps and returns
(R107, R160, R162, R163). -/
theorem run_lastAhead {s u : State} {l : Nat} (q : Sequencer) (hp : s.params.wellFormed = true) (hl : l < 2 ^ s.params.wOff)
    (hpend : s.plat.irqPending = true → s.plat.irqEnable = false) (h : LastPoll s l u) (hh : u.seq.hung = false)
    (hok : u.seq.ok = some true) (hedges : u.eep.edges = 0) (hb : u.eep.busy = false) :
    let t := runItems (writeAhead s.params q []) u
    OutsideSame s t ∧ Returned t l .ok ∧ t.lines = Lines.reset ∧ t.plat = s.plat ∧ t.eep.mem = u.eep.mem ∧
      t.eep.wel = false := by
  intro t
  have hparams := h.outside.params
  obtain ⟨hdev, -⟩ := tick_frameKept hb
  have ht : t = runItems (always (.setPhase .closing :: disableFrame s.params ++ [.afterTimeout, .unlockIrq, .finish]))
      u.blockEnded := by
    rw [← run_blockEnd h.cs hedges hh h.status hok, ← runItems_append]
    rfl
  clear_value t
  have hparams' : u.blockEnded.params = s.params := hparams
  rw [← hparams'] at ht
  obtain ⟨hret, ⟨k1, k2, k3, k4, k5, -, k7, k8⟩, hplat, hlines, hkept, hwel, -⟩ :=
    run_writeClose (s := s) (u := u.blockEnded) (hparams ▸ hp) rfl h.clk hdev.busy hh h.status h.plat h.irqSaved hpend
  have hcount : u.blockEnded.seq.count = l := by
    show narrow u.params.wOff _ = l
    rw [h.count, hparams]
    exact narrow_eq hl
  have hout := h.outside
  rw [← ht] at hret k1 k2 k3 k4 k5 k7 k8 hplat hlines hkept hwel
  rw [hcount] at hret
  exact ⟨⟨k1.trans hout.params, k2.trans hout.fuse, k3.trans hout.boot0, k4.trans hout.sotp, k5.trans hout.buf,
    k7.trans hout.inbox, k8.trans hout.disturb⟩, hret, hlines, hplat, hkept.mem.trans hdev.mem, hwel⟩

/-- Settles O55: the operation stands in its last poll (`exec_seepromWrite_lastPoll`), a ready sample ends that poll
(`step_polledReady`), and what is left runs to the return (`run_lastAhead`). -/
theorem seepromWriteGoesOn : Obligations.SeepromWriteGoesOn := by
  intro o l b s ks ts hi hf hp hr hb hL hlen ht hin
  obtain ⟨t, hx, hstuck, hlast, hahead⟩ := exec_seepromWrite_lastPoll hi hf hp hr hb hL hlen ht
  refine ⟨t, hx, hstuck, fun d hedges hafter hbusy hunready => ?_⟩
  have hout := hlast.outside
  have hready : ReadyAfter d 0 := ⟨hedges, hafter, by simp [hbusy, hunready]⟩
  have hstep := step_polledReady (s := t.setEep d) hstuck.hung hstuck.undecided hlast.cs hready (hout.inbox.trans hin)
    (hout.disturb.trans hf.2)
  have hpolled : LastPoll s l (t.setEep d).polledReady :=
    ⟨⟨hout.params, hout.fuse, hout.boot0, hout.sotp, hout.buf, hout.inbox, hout.disturb⟩, hlast.plat, hlast.irqSaved,
      hlast.cs, hlast.clk, hlast.status, hlast.count⟩
  rw [State.setEep_seq, hahead] at hstep
  obtain ⟨hrest, hret, hlines, hplat, hmem, hwel⟩ :=
    run_lastAhead (s.started .seeprom true o l b).seq hp hr.1.2 hi.pending hpolled rfl rfl hedges hbusy
  exact ⟨_, hstep, hret, hlines, hplat, hrest.buf, hmem, hwel,
    ⟨hrest.params, hrest.fuse, hrest.boot0, hrest.sotp, hrest.inbox, hrest.disturb⟩⟩

end Sys2Proof.Machine
end

section
/-! PROOF. The image of the fuse array, word for word (R55, R124). -/

namespace Sys2Proof.Machine

/-- The whole fuse array is a range that can be requested: `W_OFF` has at least 16 bits (R8, U25). -/
theorem inRange_fuseArray {p : Params} (hp : p.wellFormed = true) : InRange p 128 0 128 true :=
  inRange_region (r := .otp) hp ⟨small_lt hp (by decide), small_lt (n := 128) hp (by decide)⟩

/-- A whole-array read leaves byte position `k` of fuse word `w` at byte `4 * w + k` of the buffer (R51, R55, R110). -/
theorem Delivered.fuseByte {s t : State} (h : Delivered s t .otp 0 128) {w k : Nat} (hw : w < 32) (hk : k < 4) :
    t.buf.read (4 * w + k) = blockByte 4 k (s.fuse.word w) :=
  calc t.buf.read (4 * w + k)
      _ = s.regionByte .otp (0 + (4 * w + k)) := h.bytes _ (by omega)
      _ = s.fuse.read (4 * w + k) := by rw [Nat.zero_add, State.regionByte]
      _ = blockByte 4 k (s.fuse.word w) := (blockByte_word _ _ hk).symm

/-- Settles O37: the read returns and delivers the whole region (`otpRead`), whose bytes are those of the words
(`Delivered.fuseByte`). -/
theorem otpImage : Obligations.OtpImage := by
  intro s hi hf hp
  obtain ⟨t, hexec, hreturned, hdelivered, -⟩ := otpRead 0 128 true s hi hf hp (inRange_fuseArray hp)
  refine ⟨t, hexec, hreturned, fun w hw => ?_⟩
  have hbyte (k : Nat) (hk : k < 4) := hdelivered.fuseByte hw hk
  exact ⟨hbyte 0 (by decide), hbyte 1 (by decide), hbyte 2 (by decide), hbyte 3 (by decide)⟩

end Sys2Proof.Machine
end

section
/-! PROOF. The wire primitives on any device: the line events (R131), the bits sent and received (R133, R138), and the
completion poll (R143). -/

namespace Sys2Proof.Machine

/-! ### One line event -/

/-- Setting a latch is one event of the trace, whether the level changes or not (R131). -/
theorem line_trace (l : Line) (b : Bool) (s : State) : (s.line l b).trace = .line l b :: s.trace := by
  unfold State.line
  cases l with
  | dOut => rfl
  | clk => simp only; split <;> rfl
  | cs =>
    simp only
    split
    · rfl
    · split <;> rfl

/-- The electrical level that goes with a level of the chip-select latch (R29, R131). -/
theorem csElectrical_line (b : Bool) (s : State) :
    (s.line .cs b).csElectrical = if b then s.params.csActiveLevel else !s.params.csActiveLevel := by
  rw [State.csElectrical, line_lines, (line_wireOnly .cs b s).params]

/-- Settles O53, from the rules of one line event (`line_trace`, `line_lines`, `csElectrical_line`). -/
theorem lineLevels : Obligations.LineLevels := by
  intro l b s
  refine ⟨line_trace l b s, ?_, csElectrical_line true s, csElectrical_line false s⟩
  rw [line_lines]
  cases l <;> rfl

/-! ### What a run of wire primitives leaves as it was -/

/-- The micro-operations of `send_bits` and `recv_bits` (R133, R138). -/
def Micro.onWire : Micro → Bool
  | .line _ _ | .delay | .loadTx _ _ | .txBit _ | .clearRx _ | .rxBit _ => true
  | _ => false

theorem micro_wireOnly {m : Micro} (h : m.onWire = true) (s : State) : WireOnly s (m.run s) := by
  cases m with
  | line l b => exact line_wireOnly l b s
  | txBit i => exact (line_wireOnly .dOut (s.seq.txVal.getLsbD i) s).trans (setSeq_wireOnly _ _)
  | delay | loadTx v n | clearRx n | rxBit i => exact ⟨rfl, rfl, rfl, rfl, rfl, rfl, rfl, rfl, rfl⟩
  | _ => cases h

/-- A run of wire primitives touches the wire, the device and the working registers alone. -/
theorem runItems_wireOnly {ms : List Micro} (h : ms.all Micro.onWire = true) (s : State) :
    WireOnly s (runItems (always ms) s) :=
  runItems_rel WireOnly.refl WireOnly.trans (fun _ s h => micro_wireOnly h s) (fun _ _ => setSeq_wireOnly _ _)
    ((all_always Micro.onWire ms).trans h) s

theorem sendLoop_onWire (n : Nat) : (sendLoop n).all Micro.onWire = true := by
  induction n with
  | zero => rfl
  | succ n ih => simpa [sendLoop, Micro.onWire] using ih

theorem sendBits_onWire (v : Half) (n : Nat) : (sendBits v n).all Micro.onWire = true := by
  rw [sendBits, List.all_cons, sendLoop_onWire]
  rfl

theorem recvLoop_onWire (n : Nat) : (recvLoop n).all Micro.onWire = true := by
  induction n with
  | zero => rfl
  | succ n ih => simpa [recvLoop, Micro.onWire] using ih

theorem recvBits_onWire (n : Nat) : (recvBits n).all Micro.onWire = true := by
  rw [recvBits, List.all_cons, recvLoop_onWire]
  rfl

/-! ### Bits sent -/

/-- One bit sent, whatever the device does and wherever the clock stands (R133). -/
theorem run_bit_wire (i : Nat) (s : State) :
    let t := runMicros [.txBit i, .delay, .line .clk true, .delay, .line .clk false, .delay] s
    t.lines = { s.lines with clk := false, dOut := s.seq.txVal.getLsbD i } ∧
      t.seq = { s.seq with bitCnt := BitVec.ofNat 5 i } ∧
      t.trace = (bitTrace (s.seq.txVal.getLsbD i)).reverse ++ s.trace := by
  simp [Micro.run, State.delay, line_lines, line_seq, line_trace, bitTrace]

/-- The bits `n` down to 0 of `tx_val` sent (R133, R134). -/
theorem run_sendLoop_wire (n : Nat) (s : State) :
    let t := runMicros (sendLoop (n + 1)) s
    t.lines = { s.lines with clk := false, dOut := s.seq.txVal.getLsbD 0 } ∧ t.seq = { s.seq with bitCnt := 0 } ∧
      t.trace = (sendTrace s.seq.txVal (n + 1)).reverse ++ s.trace := by
  induction n generalizing s with
  | zero => simpa [sendLoop, sendTrace] using run_bit_wire 0 s
  | succ n ih =>
    rw [sendLoop, runMicros_append]
    obtain ⟨hlines, hseq, htrace⟩ := run_bit_wire (n + 1) s
    obtain ⟨klines, kseq, ktrace⟩ :=
      ih (runMicros [.txBit (n + 1), .delay, .line .clk true, .delay, .line .clk false, .delay] s)
    rw [hseq] at klines kseq ktrace
    refine ⟨by rw [klines, hlines], kseq, ?_⟩
    rw [ktrace, htrace, sendTrace.eq_2 _ (n + 1), List.reverse_append, List.append_assoc]

theorem sendTrace_length (v : Half) (n : Nat) : (sendTrace v n).length = 6 * n := by
  induction n with
  | zero => rfl
  | succ n ih =>
    have hbit : (bitTrace (v.getLsbD n)).length = 6 := rfl
    rw [sendTrace, List.length_append, ih, hbit]
    omega

/-- Three delays for each bit sent (R133, R232). -/
theorem sendTrace_delays (v : Half) (n : Nat) : (sendTrace v n).count .delay = 3 * n := by
  induction n with
  | zero => rfl
  | succ n ih =>
    have hbit : (bitTrace (v.getLsbD n)).count .delay = 3 := by simp [bitTrace]
    rw [sendTrace, List.count_append, ih, hbit]
    omega

/-- `tx_val` and `bit_cnt` where `send_bits` begins (R133). -/
def State.txLoaded (v : Half) (n : Nat) (s : State) : State :=
  s.setSeq { s.seq with txVal := v, bitCnt := BitVec.ofNat 5 n }

/-- `send_bits` is its loop from the state with `tx_val` loaded (R133). -/
theorem runItems_sendBits {s : State} (hh : s.seq.hung = false) (v : Half) (n : Nat) :
    runItems (always (sendBits v n)) s =
      runMicros (sendLoop n) (s.txLoaded v n) :=
  runItems_always (ms := sendBits v n) (sendLoop_plain n) hh

/-- Settles O21: the bits are sent one after the other (`run_sendLoop_wire`). -/
theorem Wire.sendBits : Obligations.SendBits := by
  intro v n s hn _ hh t
  have hwire : WireOnly s t := runItems_wireOnly (sendBits_onWire v n) s
  have ht := runItems_sendBits hh v n
  change t = _ at ht
  obtain ⟨m, rfl⟩ : ∃ m, n = m + 1 := ⟨n - 1, by omega⟩
  obtain ⟨hlines, hseq, htrace⟩ := run_sendLoop_wire m (s.txLoaded v (m + 1))
  clear_value t
  rw [← ht] at hlines hseq htrace
  exact ⟨htrace, sendTrace_length v _, sendTrace_delays v _, hlines, hseq, hwire.plat, hwire.buf, hwire.bufTrace,
    hwire.elsewhere⟩

/-! ### Bits received -/

/-- `rx_acc` after one more sample (R138). -/
def shiftIn (x : Half) (b : Bool) : Half := (x <<< 1) ||| (BitVec.ofBool b).setWidth 16

/-- The bits of `rx_acc` after a list of samples: the last sample in bit 0, the first one highest, what was there before
above it (R138). -/
theorem foldl_shiftIn_getLsbD (bits : List Bool) (x : Half) {k : Nat} (hk : k < 16) :
    (bits.foldl shiftIn x).getLsbD k =
      if k < bits.length then bits.getD (bits.length - 1 - k) false else x.getLsbD (k - bits.length) := by
  induction bits generalizing x with
  | nil => rfl
  | cons b bits ih =>
    have hbit : ∀ j, j < 16 → (shiftIn x b).getLsbD j = if j = 0 then b else x.getLsbD (j - 1) := fun j hj =>
      rxAcc_getLsbD x b hj
    rw [List.foldl_cons, ih, List.length_cons]
    rcases Nat.lt_trichotomy k bits.length with h | h | h
    · have hpos : bits.length + 1 - 1 - k = bits.length - 1 - k + 1 := by omega
      rw [if_pos h, if_pos (by omega), hpos, List.getD_cons_succ]
    · rw [if_neg (by omega), if_pos (by omega), hbit _ (by omega), if_pos (by omega), h, Nat.add_sub_cancel,
        Nat.sub_self, List.getD_cons_zero]
    · rw [if_neg (by omega), if_neg (by omega), hbit _ (by omega), if_neg (by omega), Nat.sub_sub]

/-- One bit received, whatever the device does and wherever the clock stands (R138). -/
theorem run_in_wire (i : Nat) (s : State) :
    let t := runMicros [.line .clk true, .delay, .line .clk false, .delay, .rxBit i] s
    ∃ b, t.lines = { s.lines with clk := false } ∧
      t.seq = { s.seq with rxAcc := shiftIn s.seq.rxAcc b, bitCnt := BitVec.ofNat 5 i } ∧
      t.trace = (sampleTrace b).reverse ++ s.trace := by
  refine ⟨(runMicros [.line .clk true, .delay, .line .clk false, .delay] s).diLevel, ?_⟩
  simp [Micro.run, State.delay, State.sample, line_lines, line_seq, line_trace, sampleTrace, shiftIn]

/-- `n + 1` bits received (R138). -/
theorem run_recvLoop_wire (n : Nat) (s : State) :
    let t := runMicros (recvLoop (n + 1)) s
    ∃ bits : List Bool, bits.length = n + 1 ∧ t.lines = { s.lines with clk := false } ∧
      t.seq = { s.seq with rxAcc := bits.foldl shiftIn s.seq.rxAcc, bitCnt := 0 } ∧
      t.trace = (bits.flatMap sampleTrace).reverse ++ s.trace := by
  induction n generalizing s with
  | zero =>
    obtain ⟨b, hlines, hseq, htrace⟩ := run_in_wire 0 s
    exact ⟨[b], rfl, hlines, hseq, by simpa [recvLoop] using htrace⟩
  | succ n ih =>
    rw [recvLoop, runMicros_append]
    obtain ⟨b, hlines, hseq, htrace⟩ := run_in_wire (n + 1) s
    obtain ⟨bits, hlen, klines, kseq, ktrace⟩ :=
      ih (runMicros [.line .clk true, .delay, .line .clk false, .delay, .rxBit (n + 1)] s)
    rw [hseq] at kseq
    refine ⟨b :: bits, by rw [List.length_cons, hlen], by rw [klines, hlines], kseq, ?_⟩
    rw [ktrace, htrace, List.flatMap_cons, List.reverse_append, List.append_assoc]

/-- `rx_acc` and `bit_cnt` where `recv_bits` begins (R138). -/
def State.rxCleared (n : Nat) (s : State) : State := s.setSeq { s.seq with rxAcc := 0, bitCnt := BitVec.ofNat 5 n }

/-- `recv_bits` is its loop from the state with `rx_acc` cleared (R138). -/
theorem runItems_recvBits {s : State} (hh : s.seq.hung = false) (n : Nat) :
    runItems (always (recvBits n)) s =
      runMicros (recvLoop n) (s.rxCleared n) :=
  runItems_always (ms := recvBits n) (recvLoop_plain n) hh

/-- Settles O22: the samples are shifted into a cleared accumulator (`run_recvLoop_wire`, `foldl_shiftIn_getLsbD`). -/
theorem Wire.recvBits : Obligations.RecvBits := by
  intro n s hn h16 hh t
  have hwire : WireOnly s t := runItems_wireOnly (recvBits_onWire n) s
  have ht := runItems_recvBits hh n
  change t = _ at ht
  obtain ⟨m, rfl⟩ : ∃ m, n = m + 1 := ⟨n - 1, by omega⟩
  obtain ⟨bits, hlen, hlines, hseq, htrace⟩ :=
    run_recvLoop_wire m (s.rxCleared (m + 1))
  clear_value t
  rw [← ht] at hlines hseq htrace
  have hacc : t.seq.rxAcc = bits.foldl shiftIn 0 := by rw [hseq]; rfl
  refine ⟨bits, hlen, htrace, fun j hj => ?_, fun j hj => ?_, hlines, by rw [hacc, hseq]; rfl, hwire.plat, hwire.buf,
    hwire.bufTrace, hwire.elsewhere⟩
  · rw [hacc, foldl_shiftIn_getLsbD _ _ (by omega), if_pos (by omega), hlen]
    congr 1
    omega
  · by_cases h : j < 16
    · rw [hacc, foldl_shiftIn_getLsbD _ _ h, if_neg (by omega)]
      exact BitVec.getLsbD_zero
    · exact BitVec.getLsbD_of_ge _ _ (by omega)

/-! ### The poll with a finite limit -/

/-- What a round of an undecided poll does: it is ready, or it was the last one allowed, or the poll goes on after a
delay (R143). -/
theorem pollRound_undecided {s : State} (hok : s.seq.ok = none) :
    (s.pollRound = s.sample.setSeq { s.seq with pollCnt := s.seq.pollCnt + 1, ok := some true }) ∨
      (s.params.pollLimit = some (s.seq.pollCnt + 1) ∧
        s.pollRound = s.sample.setSeq { s.seq with pollCnt := s.seq.pollCnt + 1, ok := some false }) ∨
      (s.params.pollLimit ≠ some (s.seq.pollCnt + 1) ∧
        s.pollRound = (s.sample.setSeq { s.seq with pollCnt := s.seq.pollCnt + 1 }).delay) := by
  have hopen : ¬ s.seq.ok.isSome = true := by simp [hok]
  simp only [State.pollRound, if_neg hopen]
  split
  · exact .inl rfl
  · split
    next hlast => exact .inr (.inl ⟨hlast, rfl⟩)
    next hgo => exact .inr (.inr ⟨hgo, rfl⟩)

/-- A poll of limit `L` that stood undecided in `s` has answered in `t` (R143). -/
structure PollEnded (L : Nat) (s t : State) : Prop where
  answered : t.seq.ok ≠ none
  sampled : s.seq.pollCnt < t.seq.pollCnt
  bounded : t.seq.pollCnt ≤ L
  late : t.seq.ok = some false → t.seq.pollCnt = L
  delays : t.delays + (s.seq.pollCnt + 1) = s.delays + t.seq.pollCnt
  pulses : t.pulses = s.pulses
  lines : t.lines = s.lines

/-- A sample is neither a delay nor a clock pulse (R132, R138). -/
theorem sample_counts (s : State) (q : Sequencer) :
    (s.sample.setSeq q).delays = s.delays ∧ (s.sample.setSeq q).pulses = s.pulses := by
  simp [State.delays, State.pulses, State.sample]

/-- A delay after a sample counts once, and is no clock pulse (R132). -/
theorem sample_delay_counts (s : State) (q : Sequencer) :
    (s.sample.setSeq q).delay.delays = s.delays + 1 ∧ (s.sample.setSeq q).delay.pulses = s.pulses := by
  simp [State.delays, State.pulses, State.delay, State.sample]

/-- As many rounds as the limit allows end an undecided poll, whatever the device does (R143). -/
theorem pollRounds_ended {L : Nat} (n : Nat) {s : State} (hL : s.params.pollLimit = some L) (hok : s.seq.ok = none)
    (hcnt : s.seq.pollCnt < L) (hn : L ≤ s.seq.pollCnt + n) : PollEnded L s (s.pollRounds n) := by
  induction n generalizing s with
  | zero => omega
  | succ n ih =>
    rw [State.pollRounds, if_neg (by simp [hok])]
    rcases pollRound_undecided hok with h | ⟨hlast, h⟩ | ⟨hgo, h⟩
    · obtain ⟨hdelays, hpulses⟩ := sample_counts s { s.seq with pollCnt := s.seq.pollCnt + 1, ok := some true }
      rw [h, pollRounds_done rfl]
      exact ⟨nofun, Nat.lt_succ_self _, hcnt, nofun, congrArg (· + _) hdelays, hpulses, rfl⟩
    · have hlim : s.seq.pollCnt + 1 = L := Option.some.inj (hlast.symm.trans hL)
      obtain ⟨hdelays, hpulses⟩ := sample_counts s { s.seq with pollCnt := s.seq.pollCnt + 1, ok := some false }
      rw [h, pollRounds_done rfl]
      exact ⟨nofun, Nat.lt_succ_self _, hcnt, fun _ => hlim, congrArg (· + _) hdelays, hpulses, rfl⟩
    · have hne : s.seq.pollCnt + 1 ≠ L := fun e => hgo (e ▸ hL)
      obtain ⟨hdelays, hpulses⟩ := sample_delay_counts s { s.seq with pollCnt := s.seq.pollCnt + 1 }
      rw [← h] at hdelays hpulses
      have hcnt' : s.pollRound.seq.pollCnt = s.seq.pollCnt + 1 := by rw [h]; rfl
      have hrest := ih (s := s.pollRound) (by rw [h]; exact hL) (by rw [h]; exact hok) (by omega) (by omega)
      have hsampled := hrest.sampled
      have htotal := hrest.delays
      exact ⟨hrest.answered, by omega, hrest.bounded, hrest.late, by omega, hrest.pulses.trans hpulses,
        hrest.lines.trans (by rw [h]; rfl)⟩

/-- `poll_cnt` and the answer where `PollReady()` begins (R143). -/
def State.pollBegun (s : State) : State := s.setSeq { s.seq with pollCnt := 0, ok := none }

/-- A poll that begins with a finite limit ends within it: its fuel is no less than the limit (R143). -/
theorem poll_ended {L : Nat} {s : State} (hL : s.params.pollLimit = some L) (hpos : 0 < L) :
    PollEnded L s.pollBegun s.pollBegun.poll ∧ s.pollBegun.poll.seq.hung = s.seq.hung := by
  have hfuel : L ≤ s.pollBegun.seq.pollCnt + s.pollBegun.pollFuel := by
    have hlim : s.pollBegun.params.pollLimit = some L := hL
    rw [State.pollFuel, hlim, Option.getD_some]
    omega
  have hended : PollEnded L s.pollBegun (s.pollBegun.pollRounds s.pollBegun.pollFuel) :=
    pollRounds_ended _ hL rfl hpos hfuel
  rw [State.poll, if_pos (Option.isSome_iff_ne_none.mpr hended.answered)]
  exact ⟨hended, (pollRounds_way _ _).2.1⟩

/-- Settles O23, from how a poll with a finite limit ends (`poll_ended`). -/
theorem pollIsBounded : Obligations.PollIsBounded := by
  intro s L hh hL hpos t
  have ht : t = s.pollBegun.poll := by
    simp [t, always, Item.run, hh, Micro.run, State.pollBegun]
  obtain ⟨hended, hhung⟩ := poll_ended hL hpos
  rw [← ht] at hended hhung
  have hsampled : 0 < t.seq.pollCnt := hended.sampled
  have hdelays : t.delays + 1 = s.delays + t.seq.pollCnt := hended.delays
  exact ⟨hhung.trans hh, hended.answered, hsampled, hended.bounded, hended.late, by omega, hended.pulses, hended.lines⟩

/-! ### A poll the sequencer stood in -/

/-- Settles O54, from what a ready sample does to a poll the sequencer stands in (`step_polledReady`). -/
theorem pollReturns : Obligations.PollReturns := by
  intro s hh hok hcs hedges hafter hbusy hunready hin hdis
  have hready : ReadyAfter s.eep 0 := ⟨hedges, hafter, by simp [hbusy, hunready]⟩
  exact ⟨s.polledReady, step_polledReady hh hok hcs hready hin hdis, rfl, rfl, rfl, rfl, rfl, rfl, rfl,
    ⟨rfl, rfl, rfl, rfl, rfl, rfl⟩⟩

end Sys2Proof.Machine
end

section
/-! PROOF. The wire invariants of R145: which event lists keep them, said once for every part of a frame, and that the
events of every frame and operation of the EEPROM master are such lists. -/

namespace Sys2Proof.Machine

/-! ### What a stretch of events does to the wire -/

/-- The wire levels, and the change of a line that no `Delay()` has followed yet (R145). -/
abbrev WireAt := Lines → Option (Line × Bool) → Prop

/-- Between frames: chip-select deasserted, the clock low, the last change followed by a delay. -/
def Resting : WireAt := fun l last => l.cs = false ∧ l.clk = false ∧ last = none

/-- Inside a frame, the clock low: no change waits for its delay but that of chip-select. -/
def Begun : WireAt := fun l last => l.cs = true ∧ l.clk = false ∧ (last = none ∨ last = some (.cs, true))

/-- Inside a frame, the clock low, the last change followed by a delay. -/
def Running : WireAt := fun l last => l.cs = true ∧ l.clk = false ∧ last = none

/-- From every wire in `A` on, the events keep the rules of R145 and leave the wire in `B`: whatever follows keeps the
rules if it keeps them from there on. -/
def Passes (A B : WireAt) (ev : List Event) : Prop :=
  ∀ l last rest, A l last → ∃ l' last', B l' last' ∧ stableUnderClock l (ev ++ rest) = stableUnderClock l' rest ∧
    spacedChanges l last (ev ++ rest) = spacedChanges l' last' rest

theorem Passes.nil {A B : WireAt} (h : ∀ l last, A l last → B l last) : Passes A B [] :=
  fun l last _ ha => ⟨l, last, h l last ha, rfl, rfl⟩

theorem Passes.append {A B C : WireAt} {ev ew : List Event} (h : Passes A B ev) (k : Passes B C ew) :
    Passes A C (ev ++ ew) := by
  intro l last rest ha
  obtain ⟨l', last', hb, hstable, hspaced⟩ := h l last (ew ++ rest) ha
  obtain ⟨l'', last'', hc, kstable, kspaced⟩ := k l' last' rest hb
  rw [List.append_assoc, hstable, hspaced]
  exact ⟨l'', last'', hc, kstable, kspaced⟩

/-- One stretch for each member of a list. -/
theorem Passes.flatMap {α : Type} {A : WireAt} {f : α → List Event} (h : ∀ a, Passes A A (f a)) (as : List α) :
    Passes A A (as.flatMap f) := by
  induction as with
  | nil => exact .nil fun _ _ ha => ha
  | cons a as ih => exact (h a).append ih

/-! ### The parts of a frame -/

theorem running_begun (l : Lines) (last : Option (Line × Bool)) (h : Running l last) : Begun l last :=
  ⟨h.1, h.2.1, .inl h.2.2⟩

/-- Chip-select rises between frames (R140). -/
theorem passes_assert : Passes Resting Begun [.line .cs true] := by
  rintro l last rest ⟨hcs, hclk, rfl⟩
  refine ⟨{ l with cs := true }, some (.cs, true), ⟨rfl, hclk, .inr rfl⟩, ?_, ?_⟩
  · simp [stableUnderClock, Lines.after, hclk]
  · have hne : ({ l with cs := true } : Lines) ≠ l := fun h => by simpa [hcs] using congrArg Lines.cs h
    simp [spacedChanges, Lines.after, hne]

/-- Chip-select falls at the end of a frame (R140). -/
theorem passes_deassert : Passes Running Resting [.line .cs false, .delay] := by
  rintro l last rest ⟨hcs, hclk, rfl⟩
  refine ⟨{ l with cs := false }, none, ⟨rfl, hclk, rfl⟩, ?_, ?_⟩
  · simp [stableUnderClock, Lines.after, hclk]
  · have hne : ({ l with cs := false } : Lines) ≠ l := fun h => by simpa [hcs] using congrArg Lines.cs h
    simp [spacedChanges, Lines.after, hne]

/-- A clock pulse with the delays after its two changes (R133, R138). -/
theorem passes_pulse : Passes Running Running [.line .clk true, .delay, .line .clk false, .delay] := by
  rintro ⟨cs, clk, dOut, lock⟩ last rest ⟨rfl, rfl, rfl⟩
  exact ⟨⟨true, false, dOut, lock⟩, none, ⟨rfl, rfl, rfl⟩, by simp [stableUnderClock, Lines.after],
    by simp [spacedChanges, Lines.after]⟩

/-- The data-out line changes while the clock is low, at once after chip-select or after a delay (R133). -/
theorem passes_data (b : Bool) : Passes Begun Running [.line .dOut b, .delay] := by
  rintro ⟨cs, clk, dOut, lock⟩ last rest ⟨rfl, rfl, hlast⟩
  refine ⟨⟨true, false, b, lock⟩, none, ⟨rfl, rfl, rfl⟩, by simp [stableUnderClock, Lines.after], ?_⟩
  rcases hlast with rfl | rfl <;> cases dOut <;> cases b <;> simp [spacedChanges, Lines.after]

theorem passes_sample (b : Bool) : Passes Begun Running [.sample b] := by
  rintro l last rest ⟨hcs, hclk, hlast⟩
  refine ⟨l, none, ⟨hcs, hclk, rfl⟩, by simp [stableUnderClock, Lines.after], ?_⟩
  rcases hlast with rfl | rfl <;> simp [spacedChanges]

theorem passes_delay : Passes Running Running [.delay] := by
  rintro l last rest h
  exact ⟨l, none, ⟨h.1, h.2.1, rfl⟩, by simp [stableUnderClock, Lines.after], by simp [spacedChanges]⟩

theorem Passes.fromBegun {B : WireAt} {ev : List Event} (h : Passes Begun B ev) : Passes Running B ev :=
  fun l last rest ha => h l last rest (running_begun l last ha)

theorem passes_bit (b : Bool) : Passes Begun Running (bitTrace b) := (passes_data b).append passes_pulse

theorem passes_sampleTrace (b : Bool) : Passes Running Running (sampleTrace b) :=
  passes_pulse.append (passes_sample b).fromBegun

/-- Any bits sent, at least one of them (R133). -/
theorem passes_send (v : Half) (n : Nat) : Passes Begun Running (sendTrace v (n + 1)) := by
  induction n with
  | zero => exact (passes_bit _).append (.nil fun _ _ h => h)
  | succ n ih => exact (passes_bit _).append ih.fromBegun

/-- Any bits received (R138). -/
theorem passes_recv (w : Half) (n : Nat) : Passes Running Running (recvTrace w n) := by
  induction n with
  | zero => exact .nil fun _ _ h => h
  | succ n ih => exact (passes_sampleTrace _).append ih

/-- A poll that ends ready (R143). -/
theorem passes_poll (r : Bool) (k : Nat) : Passes Begun Running (pollTrace r k) := by
  induction k with
  | zero => exact passes_sample r
  | succ k ih => exact (passes_sample (!r)).append (passes_delay.append ih.fromBegun)

/-- A poll that gives up (R143). -/
theorem passes_late (r : Bool) (k : Nat) : Passes Begun Running (lateTrace r k) := by
  induction k with
  | zero => exact passes_sample (!r)
  | succ k ih => exact (passes_sample (!r)).append (passes_delay.append ih.fromBegun)

/-! ### The frames and the operations -/

/-- The events keep the rules of R145 from a wire at rest to a wire at rest. -/
abbrev Orderly (ev : List Event) : Prop := Passes Resting Resting ev

/-- The line preamble changes nothing on a wire at rest (R139). -/
theorem orderly_preamble : Orderly preambleTrace := by
  rintro ⟨cs, clk, dOut, lock⟩ last rest ⟨rfl, rfl, rfl⟩
  exact ⟨⟨false, false, dOut, lock⟩, none, ⟨rfl, rfl, rfl⟩, by simp [preambleTrace, stableUnderClock, Lines.after],
    by simp [preambleTrace, spacedChanges, Lines.after]⟩

theorem orderly_read (c : Command) (w : Half) : Orderly (readTrace c w) :=
  ((passes_assert.append (passes_send _ 10)).append (passes_recv w 16)).append passes_deassert

theorem orderly_control (c : Command) : Orderly (controlTrace c 11) :=
  (passes_assert.append (passes_send _ 10)).append passes_deassert

/-- A write frame with its status frame is orderly if its poll is (R142). -/
theorem orderly_write (c : Command) (d : Half) {poll : List Event} (h : Passes Begun Running poll) :
    Orderly (writeTrace c d poll) := by
  have hsend := (passes_assert.append (passes_send (c.setWidth 16) 10)).append (passes_send d 15).fromBegun
  have hstatus : Passes Running Begun [.line .cs false, .delay, .line .cs true] := passes_deassert.append passes_assert
  exact ((hsend.append hstatus).append h).append passes_deassert

theorem orderly_preRead (s : State) (o n i : Nat) : Orderly (preReadTrace s o n i) := by
  unfold preReadTrace
  split
  · exact .nil fun _ _ h => h
  · exact orderly_read _ _

theorem orderly_blocks (s : State) (o n i : Nat) (ks : List Nat) : Orderly (blocksTrace s o n i ks) := by
  induction ks generalizing i with
  | nil => exact .nil fun _ _ h => h
  | cons k ks ih => exact ((orderly_preRead s o n i).append (orderly_write _ _ (passes_poll _ k))).append (ih (i + 1))

theorem orderly_blockLate (s : State) (o n i k : Nat) : Orderly (blockLateTrace s o n i k) :=
  (orderly_preRead s o n i).append (orderly_write _ _ (passes_late _ k))

/-- A SEEPROM write is orderly if its blocks are (R164). -/
theorem orderly_writeOp (p : Params) {blocks : List Event} (h : Orderly blocks) : Orderly (writeOpTrace p blocks) :=
  ((orderly_preamble.append (orderly_control _)).append h).append (orderly_control _)

/-- The run from `s` to `t` has added orderly events to the trace. -/
def OrderlyRun (s t : State) : Prop := ∃ ev, Orderly ev ∧ t.trace = ev.reverse ++ s.trace

theorem OrderlyRun.same {s t : State} (h : t.trace = s.trace) : OrderlyRun s t := ⟨[], .nil fun _ _ h => h, h⟩

/-- An orderly run of a block whose wire is at rest keeps the wire invariants of R145. -/
theorem OrderlyRun.keepsRules {s t : State} (h : OrderlyRun s t) (hcs : s.lines.cs = false)
    (hclk : s.lines.clk = false) :
    ∃ ev, t.trace = ev.reverse ++ s.trace ∧ stableUnderClock s.lines ev = true ∧
      spacedChanges s.lines none ev = true := by
  obtain ⟨ev, hev, htrace⟩ := h
  obtain ⟨l, last, -, hstable, hspaced⟩ := hev s.lines none [] ⟨hcs, hclk, rfl⟩
  rw [List.append_nil] at hstable hspaced
  exact ⟨ev, htrace, hstable, hspaced⟩

/-! ### Requests whose operands have no encoding -/

theorem narrow_narrow (w n : Nat) : narrow w (narrow w n) = narrow w n := narrow_eq (narrow_lt w n)

/-- A request register of `W_OFF` bits keeps the low `W_OFF` bits of its operand, so that a request is the one with its
operands narrowed (R22, log 2). -/
theorem hostRequest_narrow (r : Region) (w : Bool) (items : Params → Sequencer → List Item) (o l : Nat) (b : Bool)
    (s : State) :
    hostRequest r w items o l b s =
      hostRequest r w items (narrow s.params.wOff o) (narrow s.params.wOff l) b s := by
  have h : s.checked r w o l b = s.checked r w (narrow s.params.wOff o) (narrow s.params.wOff l) b := by
    simp only [State.checked, State.accept, narrow_narrow]
  simp only [hostRequest, h]

/-- What a legal SEEPROM request does on the wire, if it is orderly for every range inside the region: the rest fails the
check and has no event (R101). -/
theorem hostRequest_orderly {w : Bool} {items : Params → Sequencer → List Item} {s t : State} (hf : s.busy = false)
    (hrange : ∀ o l b, InRange s.params 256 o l b → hostRequest .seeprom w items o l b s = .next t → OrderlyRun s t)
    {o l : Nat} {b : Bool} (h : hostRequest .seeprom w items o l b s = .next t) : OrderlyRun s t := by
  rw [hostRequest_narrow] at h
  generalize ho : narrow s.params.wOff o = o' at h
  generalize hl : narrow s.params.wOff l = l' at h
  have he : s.params.encodes o' l' := ⟨ho ▸ narrow_lt _ _, hl ▸ narrow_lt _ _⟩
  by_cases hr : InRange s.params 256 o' l' b
  · exact hrange o' l' b hr h
  · obtain ⟨u, hu, -, hrest⟩ := hostRequest_rejected (r := .seeprom) (w := w) (items := items) hf he hr
    cases hu.symm.trans h
    exact .same hrest.trace

/-! ### The instructions -/

theorem seepromRead_orderly {o l : Nat} {b : Bool} {s t : State} (hi : Inv s) (hf : Free s)
    (hp : s.params.wellFormed = true) (hb : s.eep.busy = false) (h : exec (.seepromRead o l b) s = .next t) :
    OrderlyRun s t := by
  refine hostRequest_orderly hf.1 (fun o l b hr h => ?_) h
  obtain ⟨u, hu, -, -, -, -, -, -, -, -, htrace, -⟩ := seepromRead o l b s hi hf hp hr hb
  cases hu.symm.trans h
  exact ⟨_, orderly_preamble.append (.flatMap (fun _ => orderly_read _ _) _), htrace⟩

/-- A write that does not stand in a poll has stored its blocks or given up at one of them (R160, R161). -/
theorem seepromWrite_orderly {o l : Nat} {b : Bool} {s t : State} (hi : Inv s) (hf : Free s)
    (hp : s.params.wellFormed = true) (hb : s.eep.busy = false) (h : exec (.seepromWrite o l b) s = .next t)
    (hh : t.seq.hung = false) : OrderlyRun s t := by
  refine hostRequest_orderly hf.1 (fun o l b hr h => ?_) h
  obtain ⟨hready, hexec⟩ := exec_accepted (r := .seeprom) (w := true) (.inr rfl) hi hf hr
  obtain ⟨hcs, -, -⟩ := free_lines hi hf.1
  obtain ⟨-, hways⟩ :=
    run_seepromWriteItems (s := s.started .seeprom true o l b) hp hready hr.2.2.2 hcs hb hi.eepMem hi.pending
  cases hexec.symm.trans h
  rcases hways with ⟨ks, -, -, -, -, -, -, -, -, -, -, -, -, htrace⟩ | ⟨ks, L, -, -, -, -, -, -, -, -, -, -, -, htrace⟩ |
    ⟨ks, -, -, -, -, hhung, -⟩
  · exact ⟨_, orderly_writeOp _ (orderly_blocks _ _ _ _ ks), htrace⟩
  · exact ⟨_, orderly_writeOp _ ((orderly_blocks _ _ _ _ ks).append (orderly_blockLate _ _ _ _ L)), htrace⟩
  · exact absurd (hhung.symm.trans hh) (by decide)

/-- A sequencer that goes on at the end of a run has gone on from its beginning (R227). -/
theorem not_hung_of_runItems {is : List Item} {s : State} (h : (runItems is s).seq.hung = false) :
    s.seq.hung = false := by
  cases hs : s.seq.hung with
  | false => rfl
  | true =>
    rw [runItems_hung hs] at h
    exact absurd (hs.symm.trans h) (by decide)

/-- A finite limit allows a sample (R8). -/
theorem pollLimit_ne_zero {p : Params} (hp : p.wellFormed = true) {L : Nat} (hL : p.pollLimit = some L) : L ≠ 0 := by
  obtain ⟨-, -, -, -, -, -, -, -, -, -, -, -, -, -, -, -, -, -, hzero⟩ := Params.wf_fields hp
  rintro rfl
  exact hzero hL

/-- A write frame on an enabled device that does not leave the sequencer in its poll has polled the device until it was
ready or until the limit (R142, R143). -/
theorem writeFrame_orderly {a : Byte} {s : State} (hp : s.params.wellFormed = true) (hcs : s.lines.cs = false)
    (hclk : s.lines.clk = false) (hb : s.eep.busy = false) (hw : s.eep.wel = true) (hm : Memory.wf s.eep.mem = true)
    (hh : s.seq.hung = false)
    (ht : (runItems ((writeFrameOf (addressCommand s.params.opWrite a)).map (Item.mk false)) s).seq.hung = false) :
    OrderlyRun s (runItems ((writeFrameOf (addressCommand s.params.opWrite a)).map (Item.mk false)) s) := by
  have hloop : false = true → s.seq.status ≠ .timeout := nofun
  by_cases hready : ∃ k, s.eep.moment s.draws = some k ∧ LimitAllows s.params 0 k
  · obtain ⟨k, hk, hlim⟩ := hready
    obtain ⟨-, -, -, -, -, -, -, htrace, -⟩ := run_writeFrame hp hcs hclk hb hw hm hk hlim hh false hloop
    exact ⟨_, orderly_write _ _ (passes_poll _ k), htrace⟩
  · cases hL : s.params.pollLimit with
    | some M =>
      obtain ⟨L, rfl⟩ : ∃ L, M = L + 1 := Nat.exists_eq_succ_of_ne_zero (pollLimit_ne_zero hp hL)
      have hlate : ∀ k, s.eep.moment s.draws = some k → L < k := by
        intro k hk
        by_contra hle
        refine hready ⟨k, hk, fun M hM => ?_⟩
        have := Option.some.inj (hL.symm.trans hM)
        omega
      obtain ⟨-, -, -, -, -, -, htrace⟩ := run_writeFrame_late hp hcs hclk hb hw hm hL hlate hh false hloop
      exact ⟨_, orderly_write _ _ (passes_late _ L), htrace⟩
    | none =>
      have hnever : s.eep.moment s.draws = none := Option.eq_none_iff_forall_ne_some.mpr fun k hk =>
        hready ⟨k, hk, fun M hM => nomatch hL.symm.trans hM⟩
      obtain ⟨-, -, -, -, -, -, -, hseq⟩ := run_writeFrame_hang hp hcs hclk hb hw hm hL hnever hh false hloop
      rw [hseq] at ht
      cases ht

theorem finish_trace (s : State) : s.finish.trace = s.trace := rfl

theorem eepRead_orderly {a : Byte} {s t : State} (hi : Inv s) (hf : Free s) (hp : s.params.wellFormed = true)
    (hb : s.eep.busy = false) (h : exec (.eepRead a) s = .next t) : OrderlyRun s t := by
  obtain ⟨hx, -, -, -, -, -, -, htrace⟩ := eepRead a s hi hf hp hb
  rw [← Host.Outcome.next.inj (hx.symm.trans h)]
  exact ⟨_, orderly_read _ _, (finish_trace _).trans htrace⟩

theorem control_orderly {c : Command} {s t : State} (hi : Inv s) (hf : Free s) (hb : s.eep.busy = false)
    (hc : (∃ x, decodeCommand s.params c = .ewen x) ∨ ∃ x, decodeCommand s.params c = .ewds x)
    (h : subStep (controlFrame c 11) s = .next t) : OrderlyRun s t := by
  obtain ⟨u, hu, -, -, -, -, -, htrace⟩ := subStep_controlFrame hi hf hb hc
  cases hu.symm.trans h
  exact ⟨_, orderly_control c, htrace⟩

/-- A sub-step taken as an instruction that has returned did not stand in its poll (R227). -/
theorem subStep_not_hung {ms : List Micro} {s t : State} (hd : s.disturb = []) (h : subStep ms s = .next t)
    (hh : t.seq.hung = false) : (runItems (always (.setPhase .xfer :: ms)) s).seq.hung = false := by
  have hop := (subStep_cases h).2
  have hsplit : subItems ms = always (.setPhase .xfer :: ms) ++ always [.finish] := by simp [subItems, always]
  rw [operate_undisturbed hd, hsplit, runItems_append] at hop
  rw [← Host.Outcome.next.inj hop] at hh
  exact not_hung_of_runItems hh

theorem eepWrite_orderly {a : Byte} {d : Half} {s t : State} (hi : Inv s) (hf : Free s)
    (hp : s.params.wellFormed = true) (hb : s.eep.busy = false) (hw : s.eep.wel = true)
    (h : exec (.eepWrite a d) s = .next t) (hh : t.seq.hung = false) : OrderlyRun s t := by
  obtain ⟨hcs, hclk, -⟩ := free_lines hi hf.1
  have hidle := (free_idle hf.1).2
  have hsub : exec (.eepWrite a d) s =
      subStep (.loadBlk d :: writeFrameOf (addressCommand s.params.opWrite a)) s := rfl
  have hframe := subStep_not_hung hf.2 (hsub.symm.trans h) hh
  rw [runItems_loaded hidle] at hframe
  obtain ⟨hu, hx⟩ := exec_eepWrite hf hframe
  have hrun := writeFrame_orderly (a := a) (s := s.loaded d) hp hcs hclk hb hw hi.eepMem.1 hidle
  rw [loaded_params] at hrun
  obtain ⟨ev, hev, htrace⟩ := hrun hframe
  refine ⟨ev, hev, ?_⟩
  rw [← Host.Outcome.next.inj (hx.symm.trans h)]
  exact (finish_trace _).trans ((congrArg State.trace hu).trans htrace)

/-- Settles O24: the run of each of the forms is orderly, and begins with the wire at rest. -/
theorem wireInvariants : Obligations.WireInvariants := by
  intro i s t hform hi hf hp hb h hh
  have horderly : OrderlyRun s t := by
    rcases hform with ⟨o, l, b, rfl⟩ | ⟨o, l, b, rfl⟩ | ⟨a, rfl⟩ | ⟨x, rfl⟩ | ⟨x, rfl⟩ | ⟨a, d, rfl, hw⟩
    · exact seepromRead_orderly hi hf hp hb h
    · exact seepromWrite_orderly hi hf hp hb h hh
    · exact eepRead_orderly hi hf hp hb h
    · exact control_orderly hi hf hb (.inl ⟨x, decodeCommand_ewen hp x⟩) h
    · exact control_orderly hi hf hb (.inr ⟨x, decodeCommand_ewds hp x⟩) ((exec_eepEwds hp x).symm.trans h)
    · exact eepWrite_orderly hi hf hp hb hw h hh
  obtain ⟨hcs, hclk, -⟩ := free_lines hi hf.1
  exact horderly.keepsRules hcs hclk

end Sys2Proof.Machine
end

section
/-! PROOF. Interrupts change nothing the block computes (R146, R192): every micro-operation commutes with forgetting the
processor's record of interrupts, and cutting a run at any moment, inside a poll too, does not change where it ends. -/

namespace Sys2Proof.Machine

/-! ### Forgetting the record of interrupts -/

/-- The state without the processor's record of interrupts, and without what will meet the next operation (log 20,
log 21). -/
def State.forget (s : State) : State :=
  { s with plat := { s.plat with irqPending := false, handlers := [] }, disturb := [] }

/-- Taking an interrupt that waited changes the record alone (R192). -/
theorem forget_takePending (s : State) : s.takePending.forget = s.forget := by
  unfold State.takePending
  split <;> rfl

/-- An interrupt that arrives changes the record alone (R192). -/
theorem forget_interruptArrives (s : State) : s.interruptArrives.forget = s.forget := by
  unfold State.interruptArrives
  split <;> rfl

theorem takePending_of_forget (s : State) : s.forget.takePending = s.forget := by
  simp [State.takePending, State.forget]

theorem forget_ite {c : Prop} [Decidable c] {s t : State} :
    (if c then s else t).forget = if c then s.forget else t.forget :=
  apply_ite State.forget c s t

theorem forget_line (l : Line) (b : Bool) (s : State) : s.forget.line l b = (s.line l b).forget := by
  cases l <;> simp only [State.line, forget_ite] <;> rfl

theorem forget_pollRound (s : State) : s.forget.pollRound = s.pollRound.forget := by
  simp only [State.pollRound, forget_ite]
  rfl

theorem forget_pollRounds (n : Nat) (s : State) : s.forget.pollRounds n = (s.pollRounds n).forget := by
  induction n generalizing s with
  | zero => rfl
  | succ n ih =>
    simp only [State.pollRounds, forget_ite, forget_pollRound, ih]
    rfl

theorem forget_poll (s : State) : s.forget.poll = s.poll.forget := by
  have h : s.forget.pollFuel = s.pollFuel := rfl
  simp only [State.poll, forget_ite, h, forget_pollRounds]
  rfl

/-- A micro-operation makes no use of the record of interrupts (R195). -/
theorem forget_micro (m : Micro) (s : State) : m.run s.forget = (m.run s).forget := by
  cases m with
  | line l b => exact forget_line l b s
  | poll => exact forget_poll s
  | pollSome n => exact forget_pollRounds n s
  | unlockIrq =>
    simp only [Micro.run, State.unlockIrq, forget_takePending]
    exact takePending_of_forget
      ((s.setPlat { s.plat with irqEnable := s.seq.irqSaved }).setLines { s.lines with lock := false })
  | protExpose => simp only [Micro.run, State.protExpose, forget_ite]; rfl
  | protReread => simp only [Micro.run, State.protReread, forget_ite]; rfl
  | protRestore => simp only [Micro.run, State.protRestore, forget_ite]; rfl
  | blockDone => simp only [Micro.run, forget_ite]; rfl
  | afterTimeout => simp only [Micro.run, forget_ite]; rfl
  | _ => rfl

theorem forget_item (it : Item) (s : State) : it.run s.forget = (it.run s).forget := by
  have hoff : s.forget.putOff it = (s.putOff it).forget := by rw [putOff_eq, putOff_eq]; rfl
  simp only [Item.run, forget_ite, forget_micro, hoff]
  rfl

/-- A run makes no use of the record of interrupts. -/
theorem forget_runItems (is : List Item) (s : State) : runItems is s.forget = (runItems is s).forget := by
  induction is generalizing s with
  | nil => rfl
  | cons it is ih => rw [runItems_cons, runItems_cons, forget_item, ih]

/-! ### A run cut at a moment -/

/-- The device's own time passes by at most one a delay (R66). -/
theorem tick_left (d : Eeprom) : d.left.getD 0 ≤ d.tick.left.getD 0 + 1 := by
  unfold Eeprom.tick
  split
  next h => omega
  next h => simp [h]
  next k h => simp [h]

/-- A round of a poll uses up at most one round of its fuel (log 11). -/
theorem pollRound_fuel (s : State) : s.pollFuel ≤ s.pollRound.pollFuel + 1 := by
  have htick := tick_left s.eep
  rcases pollRound_cases s with h | ⟨n, ok, h⟩ | ⟨n, h⟩ <;> rw [h]
  · omega
  · exact Nat.le_succ _
  · show s.params.pollLimit.getD 0 + s.eep.left.getD 0 + 2 ≤ s.params.pollLimit.getD 0 + s.eep.tick.left.getD 0 + 2 + 1
    omega

theorem pollRounds_fuel (n : Nat) (s : State) : s.pollFuel ≤ (s.pollRounds n).pollFuel + n := by
  induction n generalizing s with
  | zero => exact Nat.le_refl _
  | succ n ih =>
    have hround := pollRound_fuel s
    have hrest := ih s.pollRound
    rw [State.pollRounds]
    split <;> omega

/-- A poll that answers gives the same answer, in the same state, when it is begun with some rounds of it done
already. -/
theorem poll_after_rounds {s : State} (h : s.poll.seq.hung = false) (k : Nat) : (s.pollRounds k).poll = s.poll := by
  have hanswer : (s.pollRounds s.pollFuel).seq.ok.isSome = true := by
    by_contra hopen
    rw [State.poll, if_neg hopen] at h
    cases h
  have hsame : (s.pollRounds k).pollRounds (s.pollRounds k).pollFuel = s.pollRounds s.pollFuel := by
    obtain ⟨m, hm⟩ := Nat.exists_eq_add_of_le (pollRounds_fuel k s)
    rw [← pollRounds_add, Nat.add_comm k, hm, pollRounds_add, pollRounds_done hanswer]
  rw [State.poll, State.poll, hsame]

/-- An item that is a poll, begun with some rounds of it done already. -/
theorem poll_item_after_rounds {il : Bool} {s : State} (h : (Item.run s ⟨il, .poll⟩).seq.hung = false) (k : Nat) :
    Item.run (Item.run s ⟨il, .pollSome k⟩) ⟨il, .poll⟩ = Item.run s ⟨il, .poll⟩ := by
  have hs : s.seq.hung = false := not_hung_of_runItems (is := [⟨il, .poll⟩]) h
  have hway := pollRounds_way k s
  generalize hu : s.pollRounds k = u at hway
  have hu' : u.seq.hung = false := hway.2.1.trans hs
  have hstop : decide (u.seq.status = .timeout) = decide (s.seq.status = .timeout) := congrArg Ctl.stopped hway.1
  cases hskip : il && decide (s.seq.status = .timeout) with
  | true => simp [Item.run, hs, hskip]
  | false =>
    simp only [Item.run, hs, hskip, Bool.false_eq_true, if_false, Micro.run, hu, hu', hstop] at h ⊢
    rw [← hu]
    exact poll_after_rounds h k

/-- A run that does not stand in a poll ends where it ends when it is cut at a moment, inside a poll too (log 20). -/
theorem runItems_cut {is : List Item} {s : State} (h : (runItems is s).seq.hung = false) (n k : Nat) :
    runItems (is.drop n) (runItems (itemsBefore n k is) s) = runItems is s := by
  have hsplit : runItems is s = runItems (is.drop n) (runItems (is.take n) s) := by
    rw [← runItems_append, List.take_append_drop]
  unfold itemsBefore
  split
  next il hhead =>
    obtain ⟨rest, hrest⟩ := List.head?_eq_some_iff.mp hhead
    rw [hsplit, hrest, runItems_cons] at h
    rw [hsplit, hrest, runItems_append, runItems_cons, runItems_cons, runItems_cons, runItems_nil,
      poll_item_after_rounds (not_hung_of_runItems h)]
  next => rw [hsplit]

/-- Interrupts that meet a run that does not stand in a poll change the record of interrupts alone, whatever their moments
(R146, R192). -/
theorem meet_interrupts {ds : List Disturbance} (hds : ∀ d ∈ ds, d.kind = .interrupt) {is : List Item} {s t : State}
    (h : meet ds is s = .next t) (hh : (runItems is s.forget).seq.hung = false) : t.forget = runItems is s.forget := by
  induction ds generalizing is s with
  | nil =>
    cases h
    exact (forget_runItems is s).symm
  | cons d ds ih =>
    have hd : d.kind = .interrupt := hds d List.mem_cons_self
    have hcut := runItems_cut hh d.after d.samples
    rw [forget_runItems, ← forget_interruptArrives] at hcut
    simp only [meet, hd] at h
    rw [← hcut]
    exact ih (fun e he => hds e (List.mem_cons_of_mem _ he)) h (hcut ▸ hh)

/-! ### What an instruction does of what will meet it -/

/-- What an instruction does, whatever will meet it: nothing, a return at its check with nothing met, or a run of
items. -/
inductive Course (f : List Disturbance → Host.Outcome State Fault Refusal) : Prop where
  | refused (r : Refusal) (h : ∀ ds, f ds = .refused r)
  | returned (u : State) (h : ∀ ds, f ds = .next (u.setDisturb ds))
  | runs (is : List Item) (u : State) (h : ∀ ds, f ds = meet ds is (u.setDisturb []))

theorem hostRequest_course (r : Region) (w : Bool) (items : Params → Sequencer → List Item) (o l : Nat) (b : Bool)
    (s : State) : Course fun ds => hostRequest r w items o l b (s.setDisturb ds) := by
  by_cases hb : s.busy = true
  · exact .refused .concurrentUse fun ds => if_pos hb
  · by_cases hr : rangeAccepted (r.totalSize s.params) (s.checked r w o l b).seq = true
    · refine .runs (items s.params (s.started r w o l b).seq) (s.started r w o l b) fun ds => ?_
      exact (if_neg hb).trans (if_pos hr)
    · exact .returned ((s.checked r w o l b).giveUp .precond) fun ds => (if_neg hb).trans (if_neg hr)

theorem illegalRequest_course (r : Region) (o l : Nat) (b : Bool) (s : State) :
    Course fun ds => illegalRequest r o l b (s.setDisturb ds) := by
  by_cases hb : s.busy = true
  · exact .refused .concurrentUse fun ds => if_pos hb
  · exact .returned ((s.accept (r.opsel true) o l b).giveUp .illegal) fun ds => if_neg hb

theorem subStep_course (ms : List Micro) (s : State) : Course fun ds => subStep ms (s.setDisturb ds) := by
  by_cases hb : s.busy = true
  · exact .refused .concurrentUse fun ds => if_pos hb
  · exact .runs (subItems ms) s fun ds => if_neg hb

theorem exec_course (i : Instr) (s : State) : Course fun ds => exec i (s.setDisturb ds) := by
  cases i with
  | otpRead o l b | seepromRead o l b | seepromWrite o l b | boot0Read o l b | sotpRead o l b =>
    exact hostRequest_course _ _ _ o l b s
  | otpWrite o l b | boot0Write o l b | sotpWrite o l b => exact illegalRequest_course _ o l b s
  | eepRead a => exact subStep_course (readFrameOf (addressCommand s.params.opRead a)) s
  | eepWrite a d => exact subStep_course (.loadBlk d :: writeFrameOf (addressCommand s.params.opWrite a)) s
  | eepEwen x => exact subStep_course (controlFrame (controlCommand s.params.opEwen x) 11) s
  | eepEwds x => exact subStep_course (controlFrame (controlCommand s.params.opEwds x) s.params.ewdsBits) s
  | otpCmdRead w => exact subStep_course [.otpWriteCmd (otpCommand s.params w), .otpReadData] s

/-- An instruction that interrupts meet, and that stands in no poll when nothing meets it, ends as it does then, but for
the record of interrupts. -/
theorem exec_interrupts {i : Instr} {s t u : State} {ds : List Disturbance} (hds : ∀ d ∈ ds, d.kind = .interrupt)
    (ht : exec i (s.setDisturb ds) = .next t) (hu : exec i (s.setDisturb []) = .next u) (hh : u.seq.hung = false) :
    t.forget = u.forget := by
  cases exec_course i s with
  | refused r h => exact nomatch (h ds).symm.trans ht
  | returned v h =>
    rw [← Host.Outcome.next.inj ((h ds).symm.trans ht), ← Host.Outcome.next.inj ((h []).symm.trans hu)]
    rfl
  | runs is v h =>
    have hmeet := (h ds).symm.trans ht
    have hrun : runItems is (v.setDisturb []) = u := Host.Outcome.next.inj ((h []).symm.trans hu)
    subst hrun
    rw [← forget_runItems]
    exact meet_interrupts hds hmeet (by rw [forget_runItems]; exact hh)

/-- Settles O50: what an instruction ends as, but for the record of interrupts, is all that is compared
(`exec_interrupts`). -/
theorem interruptsAreHarmless : Obligations.InterruptsAreHarmless := by
  intro i s t u ds hds ht hu _ hh
  have h := exec_interrupts hds ht hu hh
  have same : ∀ {α : Type} (f : State → α), f t.forget = f u.forget := fun f => congrArg f h
  exact ⟨same State.seq, same State.lines, same State.eep, same State.buf, same State.trace, same State.bufTrace,
    same State.draws, same (·.plat.otpCmd), same (·.plat.otpData), same (·.plat.prot), same (·.plat.irqEnable),
    ⟨same State.params, same State.fuse, same State.boot0, same State.sotp, same State.inbox, rfl⟩⟩

end Sys2Proof.Machine
end

section
/-! PROOF. The round trip (R166): what a write that returned OK has stored, a read of the same range delivers. -/

namespace Sys2Proof.Machine

/-- A legal request that returned another status than PRECOND has passed the check of R101. -/
theorem inRange_of_returned {r : Region} {w : Bool} {o l n : Nat} {b : Bool} {s t : State} {st : Status}
    (hl : Legal r w) (hf : Free s) (he : s.params.encodes o l) (hx : exec (request r w o l b) s = .next t)
    (hret : Returned t n st) (hst : st ≠ .precond) : InRange s.params (r.totalSize s.params) o l b := by
  by_contra hr
  obtain ⟨u, hu, hrej, -⟩ := hostRequest_rejected (items := opItems r w) (w := w) hf.1 he hr
  rw [← exec_request hl] at hu
  obtain rfl : u = t := Host.Outcome.next.inj (hu.symm.trans hx)
  exact hst (hret.status.symm.trans hrej.status)

/-- A write that returned OK has stored the caller's bytes and no other, whatever moments the environment drew (R159,
R166): of the ways a write can go, the one that gives up a block returns TIMEOUT and the one that hangs does not return. -/
theorem exec_seepromWrite_stored {o l n : Nat} {b : Bool} {s t : State} (hi : Inv s) (hf : Free s)
    (hp : s.params.wellFormed = true) (hb : s.eep.busy = false) (hr : InRange s.params 256 o l b)
    (hx : exec (.seepromWrite o l b) s = .next t) (hret : Returned t n .ok) :
    (∀ k, t.eep.mem.read k = storedByte s o l k) ∧ t.eep.busy = false ∧ OutsideSame s t := by
  obtain ⟨hready, hexec⟩ := exec_accepted (r := .seeprom) (w := true) (.inr rfl) hi hf hr
  obtain ⟨hcs, -, -⟩ := free_lines hi hf.1
  obtain ⟨hout, hways⟩ :=
    run_seepromWriteItems (s := s.started .seeprom true o l b) hp hready hr.2.2.2 hcs hb hi.eepMem hi.pending
  obtain rfl : _ = t := Host.Outcome.next.inj (hexec.symm.trans hx)
  rcases hways with ⟨_, -, -, -, -, -, -, hbusy, -, -, -, hbytes, -⟩ | ⟨_, _, -, -, -, -, -, hlate, -⟩ |
    ⟨_, -, -, -, -, hhung, -⟩
  · exact ⟨hbytes, hbusy, hout.params, hout.fuse, hout.boot0, hout.sotp, hout.buf, hout.inbox, hout.disturb⟩
  · cases hlate.status.symm.trans hret.status
  · cases hhung.symm.trans hret.hung

/-- A block whose operation has returned is free, with whatever the host then puts into the caller buffer (R14, R195). -/
theorem Returned.free_setBuf {t : State} {n : Nat} {st : Status} (h : Returned t n st) (hd : t.disturb = [])
    (m : Memory) : Free (t.setBuf m) := by
  refine ⟨?_, hd⟩
  simp only [State.busy, State.setBuf_seq, h.hung, h.phase, ne_eq, not_true_eq_false, decide_false, Bool.or_false]

/-- Settles O45: the write has stored the bytes (`exec_seepromWrite_stored`), and the read delivers what is stored and
leaves the array as it is (`seepromRead`). -/
theorem roundTrip : Obligations.RoundTrip := by
  intro o l s t m hi hf hp hb he hx hret hm _
  have hr : InRange s.params 256 o l true :=
    inRange_of_returned (r := .seeprom) (w := true) (.inr rfl) hf he hx hret (by decide)
  obtain ⟨hstored, hbusy, hout⟩ := exec_seepromWrite_stored hi hf hp hb hr hx hret
  have hparams : (t.setBuf m).params = s.params := hout.params
  obtain ⟨u, hu, huret, hdel, hmem, -⟩ :=
    seepromRead o l true (t.setBuf m) ((exec_inv hi hx).setBuf hm) (hret.free_setBuf (hout.disturb.trans hf.2) m)
      (hparams ▸ hp) (hparams ▸ hr) hbusy
  have hread : ∀ k, u.eep.mem.read k = storedByte s o l k := fun k => by rw [hmem]; exact hstored k
  refine ⟨u, hu, huret, fun j hj => ?_, fun k hk => ?_⟩
  · calc u.buf.read j = storedByte s o l (o + j) := (hdel.bytes j hj).trans (hstored (o + j))
      _ = s.buf.read j := by rw [storedByte, if_pos (by omega), Nat.add_sub_cancel_left]
  · rw [hread, storedByte, if_neg hk]

end Sys2Proof.Machine
end

section
/-! PROOF. What a step runs (R194), and what no operation in progress lets through: a second request, and another user of
the block (R195, D29). -/

namespace Sys2Proof.Machine

/-! ### What a step runs -/

/-- A word that decodes is run as the instruction it stands for (R194). -/
theorem presentWord_ok {r : Raw} {i : Instr} {s : State} (h : decode s.params r = .ok i) :
    presentWord r s = exec i s := by
  simp only [presentWord, h]

/-- With an input waiting, a step handles that input with the rest still to come (log 12). -/
theorem step_input {s : State} {inp : Input} {rest : List Input} (h : s.inbox = inp :: rest) :
    step s = handleInput inp (s.setInbox rest) := by
  simp only [step, h]

/-- Settles O13: the input is a word, and the word decodes. -/
theorem stepRunsDecoded : Obligations.StepRunsDecoded := by
  intro s r rest i hin hdec
  calc step s = presentWord r (s.setInbox rest) := step_input hin
    _ = exec i (s.setInbox rest) := presentWord_ok hdec

/-- Settles O14: the word stands at the head of the queue, and taking it leaves the queue as it was. -/
theorem fetchedWordRuns : Obligations.FetchedWordRuns := by
  intro s nbits w r i hword hdec
  have hfetch : s.withFetchWord nbits w = s.setInbox (.present r :: s.inbox) := by
    simp only [State.withFetchWord, hword]
  rw [hfetch]
  exact stepRunsDecoded _ r s.inbox i rfl hdec

/-! ### What an operation in progress refuses -/

/-- Settles O17: each of the three courses an instruction can take asks first whether the block is free. -/
theorem concurrentRefused : Obligations.ConcurrentRefused := by
  intro i s hb
  rcases exec_cases i s with ⟨r, w, o, l, b, e⟩ | ⟨r, o, l, b, e⟩ | ⟨ms, -, e⟩ <;> rw [e]
  · exact if_pos hb
  · exact if_pos hb
  · exact if_pos hb

/-- Another user of the block that meets an operation with an item still to run gives the run no meaning (R195,
log 20). -/
theorem operate_intruder {s : State} {n k : Nat} {ds : List Disturbance} (h : s.disturb = ⟨n, k, .intruder⟩ :: ds)
    {is : List Item} (hn : n < is.length) : operate is s = .refused .concurrentUse := by
  have hrest : (is.drop n).isEmpty = false := by
    rw [List.isEmpty_eq_false_iff, ne_eq, List.drop_eq_nil_iff]
    omega
  simp [operate, h, meet, hrest]

/-- Settles O52: the request passes its check, and its items meet the intruder (`operate_intruder`). -/
theorem intruderRefused : Obligations.IntruderRefused := by
  intro r w o l b s n k ds hl hb hr hn hd
  rw [exec_request hl, hostRequest_accepted hb hr]
  exact operate_intruder (s := s.started r w o l b) hd hn

end Sys2Proof.Machine
end

section
/-! PROOF. The events from outside that meet a write transaction: an interrupt under the lock (R192), and an event
`irq_enable` cannot mask (R193). -/

namespace Sys2Proof.Machine

/-- An interrupt that arrives while interrupts are disabled waits (R192). -/
theorem interruptArrives_masked {s : State} (h : s.plat.irqEnable = false) :
    s.interruptArrives = s.setPlat { s.plat with irqPending := true } := by
  simp only [State.interruptArrives, h, Bool.false_eq_true, if_false]

/-- The unlock takes an interrupt that waited if it enables interrupts again; the handler finds the lock released (R163,
R192). -/
theorem unlockIrq_taken {s : State} (hq : s.seq.irqSaved = true) (hp : s.plat.irqPending = true) :
    s.unlockIrq.plat =
      { s.plat with irqEnable := true, irqPending := false, handlers := false :: s.plat.handlers } := by
  simp only [State.unlockIrq, State.takePending, State.setLines_plat, State.setPlat_plat, hq, hp, Bool.and_self, if_true,
    State.setLines_lines]

/-- The unlock takes no interrupt if it leaves interrupts disabled (R163, R192). -/
theorem unlockIrq_waits {s : State} (hq : s.seq.irqSaved = false) :
    s.unlockIrq.plat = { s.plat with irqEnable := false } := by
  simp only [State.unlockIrq, State.takePending, State.setLines_plat, State.setPlat_plat, hq, Bool.false_and,
    Bool.false_eq_true, if_false]

/-- Settles O49: it waits (`interruptArrives_masked`), and the unlock takes it or leaves it waiting. -/
theorem interruptWaitsForUnlock : Obligations.InterruptWaitsForUnlock := by
  intro s hirq _
  rw [interruptArrives_masked hirq]
  refine ⟨rfl, fun hq => ?_, fun hq => ?_⟩
  · exact unlockIrq_taken (s := s.setPlat { s.plat with irqPending := true }) hq rfl
  · rw [unlockIrq_waits (s := s.setPlat { s.plat with irqPending := true }) hq, State.setPlat_plat, ← hirq]

/-- Settles O51: whether the lock is held decides between a draw of the device and nothing. -/
theorem nonMaskableEvent : Obligations.NonMaskableEvent := by
  intro s
  refine ⟨fun hlock => ?_, fun hlock => ?_⟩
  · have h : s.nonMaskable = s.havocEep := if_pos hlock
    rw [h]
    exact ⟨rfl, rfl, rfl, rfl, rfl, rfl⟩
  · exact if_neg (by simp [hlock])

end Sys2Proof.Machine
end

section
/-! PROOF. Every operation ends that polls within a limit, or not at all (R185, R227). -/

namespace Sys2Proof.Machine

/-! ### Items that leave the sequencer in no poll -/

/-- Under the parameters `p`, a sequencer that goes on before these items goes on after them (R227). -/
def Ends (p : Params) (is : List Item) : Prop :=
  ∀ s : State, s.params = p → s.seq.hung = false → (runItems is s).seq.hung = false

/-- Items without a poll end. -/
theorem Ends.of_goesOn {p : Params} {is : List Item} (h : is.all (fun it => it.op.goesOn) = true) : Ends p is :=
  fun s _ hs => runItems_goesOn h s hs

theorem Ends.append {p : Params} {is js : List Item} (h : Ends p is) (k : Ends p js) : Ends p (is ++ js) := by
  intro s hp hs
  rw [runItems_append]
  exact k _ ((runItems_elsewhere is s).params.trans hp) (h s hp hs)

theorem Ends.flatMap {α : Type} {p : Params} {f : α → List Item} (h : ∀ a, Ends p (f a)) (as : List α) :
    Ends p (as.flatMap f) := by
  induction as with
  | nil => exact fun _ _ hs => hs
  | cons a as ih => exact (h a).append ih

/-- An item of a block loop that has stopped with a time-out is passed over (R161). -/
theorem item_passed {it : Item} {s : State} (hh : s.seq.hung = false)
    (hskip : (it.inLoop && decide (s.seq.status = .timeout)) = true) : it.run s = s := by
  simp only [Item.run, hh, hskip, Bool.false_eq_true, if_false, if_true]

/-- Any other item of a sequencer that goes on is run. -/
theorem item_runs {it : Item} {s : State} (hh : s.seq.hung = false)
    (hskip : (it.inLoop && decide (s.seq.status = .timeout)) = false) : it.run s = it.op.run s := by
  simp only [Item.run, hh, hskip, Bool.false_eq_true, if_false]

/-- `PollReady()` with a finite limit ends, or is passed over with the block loop it stands in (R143, R161). -/
theorem ends_poll {p : Params} (hp : p.wellFormed = true) (hl : p.pollLimit ≠ none) (il : Bool) :
    Ends p [⟨il, .pollStart⟩, ⟨il, .poll⟩] := by
  intro s hs hh
  obtain ⟨L, hL⟩ := Option.ne_none_iff_exists'.mp hl
  obtain ⟨-, hended⟩ := poll_ended (s := s) (hs ▸ hL) (Nat.pos_of_ne_zero (pollLimit_ne_zero hp hL))
  rw [runItems_cons, runItems_cons, runItems_nil]
  cases hskip : il && decide (s.seq.status = .timeout) with
  | true => rwa [item_passed hh hskip, item_passed hh hskip]
  | false =>
    have hstart : Item.run s ⟨il, .pollStart⟩ = s.pollBegun := item_runs hh hskip
    have hpoll : Item.run s.pollBegun ⟨il, .poll⟩ = s.pollBegun.poll := item_runs hh hskip
    rw [hstart, hpoll, hended, hh]

/-! ### The frames and the loops -/

/-- Plain micro-operations end, in the block loop and outside it. -/
theorem ends_plain {p : Params} {ms : List Micro} (h : ms.all Micro.plain = true) (il : Bool) :
    Ends p (ms.map (Item.mk il)) :=
  .of_goesOn (all_mono Micro.plain_goesOn (by simpa using h))

/-- A write frame ends within the limit of its poll (R142, R143). -/
theorem ends_writeFrame {p : Params} (hp : p.wellFormed = true) (hl : p.pollLimit ≠ none) (il : Bool) (c : Command) :
    Ends p ((writeFrameOf c).map (Item.mk il)) := by
  have hparts : writeFrameOf c = (.line .cs true :: sendBits (c.setWidth 16) 11 ++ sendBlk ++
      [.line .cs false, .delay, .line .cs true]) ++ ([.pollStart, .poll] ++ [.line .cs false, .delay]) := by
    simp [writeFrameOf]
  have hbits : (.line .cs true :: sendBits (c.setWidth 16) 11 ++ sendBlk ++
      [.line .cs false, .delay, .line .cs true] : List Micro).all Micro.plain = true := by
    simp [sendBits, sendBlk, sendLoop_plain, Micro.plain]
  have hpoll : ([.pollStart, .poll] ++ [.line .cs false, .delay] : List Micro).map (Item.mk il) =
      [⟨il, .pollStart⟩, ⟨il, .poll⟩] ++ [.line .cs false, .delay].map (Item.mk il) := rfl
  rw [hparts, List.map_append, hpoll]
  exact .append (ends_plain hbits il) (.append (ends_poll hp hl il) (ends_plain rfl il))

/-- A read loop ends if its block transfer is plain (R105). -/
theorem ends_readLoop {p : Params} {B : Nat} {br : Nat → List Micro} (h : ∀ i, (br i).all Micro.plain = true)
    (q : Sequencer) : Ends p (readLoop B br q) :=
  .append (.of_goesOn rfl) (.flatMap (fun i => ends_plain (readStep_plain h q i) true) _)

/-- The write loop ends within the limit of its polls (R107). -/
theorem ends_writeLoop {p : Params} (hp : p.wellFormed = true) (hl : p.pollLimit ≠ none) (q : Sequencer) :
    Ends p (writeLoop p q) := by
  refine .append (.of_goesOn rfl) (.flatMap (fun i => ?_) _)
  rw [writeStep_eq, inLoop_append, inLoop_append]
  exact .append (ends_plain (beforeWrite_plain p q i) true) (.append (ends_writeFrame hp hl true _) (.of_goesOn rfl))

/-- Every operation ends whose polls have a limit, and every one but the write has no poll (R121, R151, R155, R177). -/
theorem ends_opItems {r : Region} {w : Bool} {p : Params} (hp : p.wellFormed = true)
    (hl : p.pollLimit ≠ none ∨ ¬ (r = .seeprom ∧ w = true)) (q : Sequencer) : Ends p (opItems r w p q) := by
  have read {hd tl : List Micro} {B : Nat} {br : Nat → List Micro} (hhd : hd.all Micro.goesOn = true)
      (htl : tl.all Micro.goesOn = true) (hbr : ∀ i, (br i).all Micro.plain = true) :
      Ends p (always hd ++ readLoop B br q ++ always tl) :=
    .append (.append (.of_goesOn (by rwa [all_always])) (ends_readLoop hbr q)) (.of_goesOn (by rwa [all_always]))
  cases r with
  | otp => exact read rfl rfl fun _ => rfl
  | boot0 => exact read (br := mirrorBlockRead .boot0) rfl rfl fun _ => rfl
  | sotp => exact read (br := mirrorBlockRead .sotp) rfl rfl fun _ => rfl
  | seeprom =>
    cases w with
    | false => exact read rfl rfl fun i => readFrameOf_plain (readCommand p i)
    | true =>
      have hlim : p.pollLimit ≠ none := hl.resolve_right (not_not_intro ⟨rfl, rfl⟩)
      have hopen : (.setPhase .opening :: .lockIrq :: preamble ++ enableFrame p).all Micro.plain = true :=
        controlFrame_plain p.opEwen 11
      have hclose : (Micro.setPhase .closing :: disableFrame p).all Micro.plain = true :=
        controlFrame_plain p.opEwds p.ewdsBits
      refine .append (.append (ends_plain hopen false) (ends_writeLoop hp hlim q)) ?_
      rw [always_append]
      exact .append (ends_plain hclose false) (.of_goesOn rfl)

/-! ### The instructions -/

/-- A legal request whose items end answers a state in no poll (R101, R185). -/
theorem hostRequest_ends {r : Region} {w : Bool} {items : Params → Sequencer → List Item} {o l : Nat} {b : Bool}
    {s : State} (hf : Free s) (h : ∀ q, Ends s.params (items s.params q)) :
    ∃ t, hostRequest r w items o l b s = .next t ∧ t.seq.hung = false := by
  have hfree : ¬ s.busy = true := by simp [hf.1]
  by_cases hr : rangeAccepted (r.totalSize s.params) (s.checked r w o l b).seq = true
  · have hrun : hostRequest r w items o l b s =
        operate (items s.params (s.started r w o l b).seq) (s.started r w o l b) := (if_neg hfree).trans (if_pos hr)
    rw [hrun, operate_undisturbed (s := s.started r w o l b) hf.2]
    exact ⟨_, rfl, h _ _ rfl ((plan_hung _ _ _).trans (free_idle hf.1).2)⟩
  · exact ⟨(s.checked r w o l b).giveUp .precond, (if_neg hfree).trans (if_neg hr), rfl⟩

/-- So does a sub-step taken as an instruction (log 13). -/
theorem subStep_ends {ms : List Micro} {s : State} (hf : Free s) (h : Ends s.params (always ms)) :
    ∃ t, subStep ms s = .next t ∧ t.seq.hung = false := by
  have hxfer := runItems_xfer ms (free_idle hf.1).2
  have hgo : (runItems (always (.setPhase .xfer :: ms)) s).seq.hung = false := by
    rw [hxfer]
    exact h _ rfl (free_idle hf.1).2
  exact ⟨_, subStep_returns hf.1 hf.2 hgo, rfl⟩

/-- An instruction of a free block whose polls have a limit, or that has no poll, answers a state in no poll (R185,
R227). -/
theorem exec_ends {i : Instr} {s : State} (hf : Free s) (hp : s.params.wellFormed = true)
    (hl : s.params.pollLimit ≠ none ∨ (∀ o l b, i ≠ .seepromWrite o l b) ∧ ∀ a d, i ≠ .eepWrite a d) :
    ∃ t, exec i s = .next t ∧ t.seq.hung = false := by
  have legal (r : Region) (w : Bool) (o l : Nat) (b : Bool)
      (hl : s.params.pollLimit ≠ none ∨ ¬ (r = .seeprom ∧ w = true)) :
      ∃ t, hostRequest r w (opItems r w) o l b s = .next t ∧ t.seq.hung = false :=
    hostRequest_ends hf fun q => ends_opItems hp hl q
  have illegal (r : Region) (o l : Nat) (b : Bool) :
      ∃ t, illegalRequest r o l b s = .next t ∧ t.seq.hung = false := by
    obtain ⟨t, hx, hret, -⟩ := illegalRequest_returns (r := r) (o := o) (l := l) (b := b) hf.1
    exact ⟨t, hx, hret.hung⟩
  cases i with
  | otpRead o l b => exact legal .otp false o l b (.inr (by simp))
  | seepromRead o l b => exact legal .seeprom false o l b (.inr (by simp))
  | boot0Read o l b => exact legal .boot0 false o l b (.inr (by simp))
  | sotpRead o l b => exact legal .sotp false o l b (.inr (by simp))
  | seepromWrite o l b => exact legal .seeprom true o l b (hl.imp_right fun h => absurd rfl (h.1 o l b))
  | otpWrite o l b => exact illegal .otp o l b
  | boot0Write o l b => exact illegal .boot0 o l b
  | sotpWrite o l b => exact illegal .sotp o l b
  | eepRead a => exact subStep_ends hf (ends_plain (readFrameOf_plain _) false)
  | eepEwen x | eepEwds x => exact subStep_ends hf (ends_plain (controlFrame_plain _ _) false)
  | otpCmdRead w => exact subStep_ends hf (ends_plain rfl false)
  | eepWrite a d =>
    have hlim : s.params.pollLimit ≠ none := hl.resolve_right fun h => h.2 a d rfl
    have hload : Ends s.params (always [.loadBlk d]) := .of_goesOn rfl
    have hframe := ends_writeFrame hp hlim false (addressCommand s.params.opWrite a)
    have hends : Ends s.params (always (.loadBlk d :: writeFrameOf (addressCommand s.params.opWrite a))) :=
      hload.append hframe
    exact subStep_ends hf hends

/-- A block with the invariant that stands in no poll is free, its lines and the lock at rest (R145, R162, R163). -/
theorem Inv.atRest {t : State} (hi : Inv t) (hh : t.seq.hung = false) :
    t.busy = false ∧ t.lines.cs = false ∧ t.lines.clk = false ∧ t.lines.lock = false := by
  obtain ⟨hphase, -⟩ := hi.rest hh
  have hfree : t.busy = false := by simp [State.busy, hh, hphase]
  exact ⟨hfree, free_lines hi hfree⟩

/-- Settles O43: the instruction ends in no poll (`exec_ends`), and the invariant it keeps says the rest. -/
theorem everyOperationEnds : Obligations.EveryOperationEnds := by
  intro i s hi hf hp hl
  obtain ⟨t, hx, hh⟩ := exec_ends hf hp hl
  exact ⟨t, hx, (exec_inv hi hx).atRest hh⟩

end Sys2Proof.Machine
end

section
/-! PROOF. The status codes and what they say of the count (R187, R188). -/

namespace Sys2Proof.Machine

/-- The results a request of `l` bytes can return: all of them with OK, none with PRECOND or ILLEGAL, fewer with TIMEOUT
(R187). -/
inductive Result (l : Nat) : Nat → Status → Prop where
  | ok : Result l l .ok
  | precond : Result l 0 .precond
  | illegal : Result l 0 .illegal
  | timeout {n : Nat} (h : n < l) : Result l n .timeout

/-- What such a result says of the count, for a request of at least one byte (R187). -/
theorem Result.says {l n : Nat} {st : Status} (h : Result l n st) (hl : 0 < l) :
    (st = .ok ↔ n = l) ∧ (st = .precond → n = 0) ∧ (st = .illegal → n = 0) ∧ (st = .timeout → n < l) := by
  cases h with
  | ok => exact ⟨⟨fun _ => rfl, fun _ => rfl⟩, nofun, nofun, nofun⟩
  | precond => exact ⟨⟨nofun, fun h => absurd h (by omega)⟩, fun _ => rfl, nofun, nofun⟩
  | illegal => exact ⟨⟨nofun, fun h => absurd h (by omega)⟩, nofun, fun _ => rfl, nofun⟩
  | timeout h => exact ⟨⟨nofun, fun e => absurd e (by omega)⟩, nofun, nofun, fun _ => h⟩

/-- A write inside the region that has returned stored all bytes, or gave up at a block (R160, R161). -/
theorem exec_seepromWrite_result {o l : Nat} {b : Bool} {s t : State} (hi : Inv s) (hf : Free s)
    (hp : s.params.wellFormed = true) (hb : s.eep.busy = false) (hr : InRange s.params 256 o l b)
    (hx : exec (.seepromWrite o l b) s = .next t) (hh : t.seq.hung = false) :
    ∃ n st, Returned t n st ∧ Result l n st := by
  obtain ⟨hready, hexec⟩ := exec_accepted (r := .seeprom) (w := true) (.inr rfl) hi hf hr
  obtain ⟨hcs, -, -⟩ := free_lines hi hf.1
  obtain ⟨-, hways⟩ :=
    run_seepromWriteItems (s := s.started .seeprom true o l b) hp hready hr.2.2.2 hcs hb hi.eepMem hi.pending
  obtain rfl : _ = t := Host.Outcome.next.inj (hexec.symm.trans hx)
  rcases hways with ⟨_, -, -, -, hret, -⟩ | ⟨_, _, hlen, -, -, -, -, hret, -⟩ | ⟨_, -, -, -, -, hhung, -⟩
  · exact ⟨_, _, hret, .ok⟩
  · exact ⟨_, _, hret, .timeout (done_lt_length hr.2.2.1 hlen)⟩
  · exact absurd (hhung.symm.trans hh) (by decide)

/-- A request that is not legal is a write to a region without a write path (R89). -/
theorem exec_illegal {r : Region} {w : Bool} (h : ¬ Legal r w) (o l : Nat) (b : Bool) (s : State) :
    exec (request r w o l b) s = illegalRequest r o l b s := by
  obtain rfl : w = true := by simpa using fun e => h (.inl e)
  cases r with
  | seeprom => exact absurd (.inr rfl) h
  | otp | boot0 | sotp => rfl

/-- Every host request that has returned has returned one of these results (R89, R101, R110, R160, R161). -/
theorem exec_request_result {r : Region} {w : Bool} {o l : Nat} {b : Bool} {s t : State} (hi : Inv s) (hf : Free s)
    (hp : s.params.wellFormed = true) (hb : s.eep.busy = false) (he : s.params.encodes o l)
    (hx : exec (request r w o l b) s = .next t) (hh : t.seq.hung = false) :
    ∃ n st, Returned t n st ∧ Result l n st := by
  by_cases hlegal : Legal r w
  · by_cases hr : InRange s.params (r.totalSize s.params) o l b
    · cases w with
      | false =>
        obtain ⟨u, hu, hret, -⟩ := exec_read hi hf hp hb hr
        obtain rfl : u = t := Host.Outcome.next.inj (hu.symm.trans hx)
        exact ⟨_, _, hret, .ok⟩
      | true =>
        obtain rfl : r = .seeprom := hlegal.resolve_left (by decide)
        exact exec_seepromWrite_result hi hf hp hb hr hx hh
    · obtain ⟨u, hu, hret, -⟩ := hostRequest_rejected (items := opItems r w) (w := w) hf.1 he hr
      rw [← exec_request hlegal] at hu
      obtain rfl : u = t := Host.Outcome.next.inj (hu.symm.trans hx)
      exact ⟨_, _, hret, .precond⟩
  · obtain ⟨u, hu, hret, -⟩ := illegalRequest_returns (r := r) (o := o) (l := l) (b := b) hf.1
    rw [← exec_illegal hlegal] at hu
    obtain rfl : u = t := Host.Outcome.next.inj (hu.symm.trans hx)
    exact ⟨_, _, hret, .illegal⟩

/-- Settles O46: the request returned one of the results (`exec_request_result`), and each says this of its count. -/
theorem statusAndCount : Obligations.StatusAndCount := by
  refine ⟨⟨rfl, rfl, rfl, rfl⟩, fun r w o l b s t hi hf hp hb he hl hx hh => ?_⟩
  obtain ⟨n, st, hret, hresult⟩ := exec_request_result hi hf hp hb he hx hh
  rw [hret.count, hret.status]
  exact hresult.says hl

end Sys2Proof.Machine
end

section
/-! PROOF. The counts of delays and clock pulses (R232): what each event list of the traces costs, the cost of the blocks of
a write, and with them what the two SEEPROM operations cost. -/

namespace Sys2Proof.Machine

/-! ### The cost of a list of events -/

/-- These events hold `d` delays and `p` clock pulses (R232). -/
abbrev Costs (ev : List Event) (d p : Nat) : Prop := ev.count .delay = d ∧ ev.count (.line .clk true) = p

theorem Costs.nil : Costs [] 0 0 := ⟨rfl, rfl⟩

theorem Costs.append {ev ew : List Event} {d p d' p' : Nat} (h : Costs ev d p) (k : Costs ew d' p') :
    Costs (ev ++ ew) (d + d') (p + p') := by
  obtain ⟨hd, hp⟩ := h
  obtain ⟨kd, kp⟩ := k
  exact ⟨by rw [List.count_append, hd, kd], by rw [List.count_append, hp, kp]⟩

theorem Costs.cast {ev : List Event} {d p d' p' : Nat} (h : Costs ev d p) (hd : d = d') (hp : p = p') :
    Costs ev d' p' := hd ▸ hp ▸ h

/-- Parts of one cost each. -/
theorem Costs.flatMap {α : Type} {f : α → List Event} {d p : Nat} (h : ∀ a, Costs (f a) d p) (as : List α) :
    Costs (as.flatMap f) (d * as.length) (p * as.length) := by
  induction as with
  | nil => exact .nil
  | cons a as ih =>
    rw [List.flatMap_cons]
    exact ((h a).append ih).cast (by rw [List.length_cons, Nat.mul_succ, Nat.add_comm])
      (by rw [List.length_cons, Nat.mul_succ, Nat.add_comm])

/-- What a run that added these events to the trace has added to the counts of its state. -/
theorem Costs.counted {s t : State} {ev : List Event} {d p : Nat} (h : Costs ev d p)
    (ht : t.trace = ev.reverse ++ s.trace) : t.delays = s.delays + d ∧ t.pulses = s.pulses + p := by
  obtain ⟨hd, hp⟩ := h
  unfold State.delays State.pulses
  rw [ht, List.count_append, List.count_append, List.count_reverse, List.count_reverse, hd, hp]
  exact ⟨Nat.add_comm .., Nat.add_comm ..⟩

/-! ### The parts of a frame -/

theorem costs_bit (b : Bool) : Costs (bitTrace b) 3 1 := by cases b <;> decide

theorem costs_sampled (b : Bool) : Costs (sampleTrace b) 2 1 := by cases b <;> decide

theorem costs_assert : Costs [.line .cs true] 0 0 := by decide

theorem costs_deassert : Costs [.line .cs false, .delay] 1 0 := by decide

theorem costs_send (v : Half) (n : Nat) : Costs (sendTrace v n) (3 * n) n := by
  induction n with
  | zero => exact .nil
  | succ n ih => exact ((costs_bit _).append ih).cast (by omega) (by omega)

theorem costs_recv (w : Half) (n : Nat) : Costs (recvTrace w n) (2 * n) n := by
  induction n with
  | zero => exact .nil
  | succ n ih => exact ((costs_sampled _).append ih).cast (by omega) (by omega)

/-- One delay after each busy sample, none after the ready one (R143). -/
theorem costs_poll (r : Bool) (k : Nat) : Costs (pollTrace r k) k 0 := by
  induction k with
  | zero => cases r <;> decide
  | succ k ih =>
    have hround : Costs [.sample (!r), .delay] 1 0 := by cases r <;> decide
    exact (hround.append ih).cast (Nat.add_comm ..) rfl

/-! ### The frames -/

theorem costs_preamble : Costs preambleTrace 1 0 := by decide

theorem costs_read (c : Command) (w : Half) : Costs (readTrace c w) 66 27 :=
  ((costs_assert.append (costs_send _ 11)).append (costs_recv w 16)).append costs_deassert

theorem costs_control (c : Command) : Costs (controlTrace c 11) 34 11 :=
  (costs_assert.append (costs_send _ 11)).append costs_deassert

theorem costs_write (c : Command) (d : Half) (r : Bool) (k : Nat) :
    Costs (writeTrace c d (pollTrace r k)) (82 + (k + 1)) 27 := by
  have hturn : Costs [.line .cs false, .delay, .line .cs true] 1 0 := costs_deassert.append costs_assert
  have hsent := (costs_assert.append (costs_send (c.setWidth 16) 11)).append (costs_send d 16)
  exact (((hsent.append hturn).append (costs_poll r k)).append costs_deassert).cast (by omega) rfl

/-- Settles O25: the lists by their parts, and a read by its trace (`seepromRead`): the preamble and one frame a block. -/
theorem delayCounts : Obligations.DelayCounts := by
  refine ⟨costs_send, costs_recv, costs_preamble, costs_read, costs_control, costs_write, ?_⟩
  intro o l b s hi hf hp hb hr
  obtain ⟨t, hexec, -, -, -, -, -, -, -, -, htrace, -⟩ := seepromRead o l b s hi hf hp hr hb
  have hframes := Costs.flatMap (fun i => costs_read (readCommand s.params i) (s.eep.mem.half i)) (blockRange 2 o l)
  obtain ⟨hd, hpulses⟩ := (costs_preamble.append hframes).counted htrace
  exact ⟨t, hexec, by omega, by omega⟩

/-! ### The blocks of a write -/

/-- The blocks of a list that the range covers only partially, which a write reads first (R112, R158). -/
def partialBlocks (o l : Nat) (bs : List Nat) : List Nat :=
  bs.filter fun i => !decide (o ≤ 2 * i ∧ 2 * i + 2 ≤ o + l)

theorem partialBlocks_cons (o l i : Nat) (bs : List Nat) :
    (partialBlocks o l (i :: bs)).length =
      (if o ≤ 2 * i ∧ 2 * i + 2 ≤ o + l then 0 else 1) + (partialBlocks o l bs).length := by
  unfold partialBlocks
  by_cases h : o ≤ 2 * i ∧ 2 * i + 2 ≤ o + l
  · rw [List.filter_cons_of_neg (by simpa using h), if_pos h, Nat.zero_add]
  · rw [List.filter_cons_of_pos (by simp only [h, decide_false, Bool.not_false]), if_neg h, List.length_cons, Nat.add_comm]

/-- Only the first and the last block of a range can be covered partially (R112). -/
theorem partialBlocks_length_le {o l : Nat} (hl : 0 < l) : (partialBlocks o l (blockRange 2 o l)).length ≤ 2 := by
  have hends : partialBlocks o l (blockRange 2 o l) ⊆ [o / 2, (o + l - 1) / 2] := by
    intro i hi
    obtain ⟨hmem, hpart⟩ := List.mem_filter.mp hi
    rw [Bool.not_eq_true', decide_eq_false_iff_not] at hpart
    have hbounds := (mem_blockRange hl).mp hmem
    have hend : i = o / 2 ∨ i = (o + l - 1) / 2 := by omega
    simpa using hend
  have hnodup : (partialBlocks o l (blockRange 2 o l)).Nodup := List.Nodup.filter _ List.nodup_range'
  exact (hnodup.subperm hends).length_le

theorem costs_preRead (s : State) (o l i : Nat) :
    Costs (preReadTrace s o l i) (66 * if o ≤ 2 * i ∧ 2 * i + 2 ≤ o + l then 0 else 1)
      (27 * if o ≤ 2 * i ∧ 2 * i + 2 ≤ o + l then 0 else 1) := by
  unfold preReadTrace
  split
  · exact .nil
  · exact costs_read _ _

/-- The blocks from `i` on whose polls find `ks` samples busy: one pre-read for each partially covered block, one write
frame for each block (R158, R232). -/
theorem costs_blocks (s : State) (o l i : Nat) (ks : List Nat) :
    let P := (partialBlocks o l (List.range' i ks.length)).length
    Costs (blocksTrace s o l i ks) (66 * P + (ks.map fun k => 82 + (k + 1)).sum) (27 * P + 27 * ks.length) := by
  induction ks generalizing i with
  | nil => exact .nil
  | cons k ks ih =>
    have hblock := (costs_preRead s o l i).append
      (costs_write (writeCommand s.params i) (storedWord s o l i) s.params.readyLevel k)
    rw [List.length_cons, List.range'_succ, partialBlocks_cons, List.map_cons, List.sum_cons]
    exact (hblock.append (ih (i + 1))).cast (by omega) (by omega)

/-- The preamble and the two control frames around the blocks (R164). -/
theorem costs_writeOp (p : Params) {blocks : List Event} {d n : Nat} (h : Costs blocks d n) :
    Costs (writeOpTrace p blocks) (1 + 34 + d + 34) (11 + n + 11) :=
  (((costs_preamble.append (costs_control _)).append h).append (costs_control _)).cast rfl (by omega)

/-- Settles O26: the trace of the write (`seepromWrite`) and what its blocks cost (`costs_blocks`). -/
theorem writeDelayCounts : Obligations.WriteDelayCounts := by
  intro o l b s ks ts hi hf hp hr hb hlen ht hks N P
  obtain ⟨t, hexec, -, -, -, -, -, -, -, -, -, htrace, -⟩ := seepromWrite o l b s ks ts hi hf hp hr hb hlen ht hks
  have hcosts := costs_writeOp s.params (costs_blocks s o l (o / 2) ks)
  have hrange : List.range' (o / 2) ks.length = blockRange 2 o l := by rw [hlen, blockRange, List.length_range']
  have hP : (partialBlocks o l (blockRange 2 o l)).length = P := rfl
  rw [hrange, hP] at hcosts
  obtain ⟨hd, hpulses⟩ := hcosts.counted htrace
  exact ⟨t, hexec, partialBlocks_length_le hr.2.2.1, by omega, by omega⟩

end Sys2Proof.Machine
end

section
/-! PROOF. The poll that never ends (R227; log 8, log 11): how a write comes to stand in it, and that it goes on for ever. -/

namespace Sys2Proof.Machine

/-- The blocks stored before a write hangs are those the environment let complete: it stands where the moment is never. -/
theorem hang_at {ks ks' : List Nat} {ts : List (Option Nat)} (ha : Agree (ks.map some ++ none :: ts) ks')
    (hn : Never (ks.map some ++ none :: ts) ks'.length) : ks'.length = ks.length := by
  rcases lt_trichotomy ks'.length ks.length with hlt | heq | hgt
  · cases hn _ (times_before hlt)
  · exact heq
  · cases ha _ _ _ (times_at ks none ts) (List.getElem?_eq_getElem hgt)

/-- Settles O41, from the ways a write can go (`run_seepromWriteItems`): the moments leave only the hang, at this block. -/
theorem seepromWriteHangs : Obligations.SeepromWriteHangs := by
  intro o l b s ks ts hi hf hp hr hb hL hlen ht e
  obtain ⟨hready, hexec⟩ := exec_accepted (r := .seeprom) (w := true) (.inr rfl) hi hf hr
  obtain ⟨hcs, -, -⟩ := free_lines hi hf.1
  have hrun := run_seepromWriteItems (s := s.started .seeprom true o l b) hp hready hr.2.2.2 hcs hb hi.eepMem hi.pending
  have htimes : (s.started .seeprom true o l b).eep.times = ks.map some ++ none :: ts := ht
  have hnone : (s.started .seeprom true o l b).params.pollLimit = none := hL
  rw [htimes, hnone] at hrun
  obtain ⟨hout, hways⟩ := hrun
  rcases hways with ⟨ks', hall, -, hagree, -⟩ | ⟨_, _, -, hlim, -⟩ | ⟨ks', -, -, hagree, hnever, hstand⟩
  · cases hagree _ _ _ (times_at ks none ts) (List.getElem?_eq_getElem (hlen.trans_eq hall.symm))
  · cases hlim
  · rw [hang_at hagree hnever] at hstand
    obtain ⟨hhung, hphase, hok, -, -, -, -, hahead, hplat, hcs', -, hlock, hbusy, hleft, hedges, hafter, hbytes⟩ :=
      hstand
    have hfresh : s.seq.ahead = [] := (hi.rest (free_idle hf.1).2).2.2.2.1
    rw [started_ahead, hfresh, List.nil_append] at hahead
    exact ⟨_, hexec, ⟨hhung, hok, hout.params ▸ hnone, hcs', hbusy, hleft, hedges, hafter⟩, hphase, hlock, hplat,
      hout.buf, hahead, hbytes, ⟨hout.params, hout.fuse, hout.boot0, hout.sotp, hout.inbox, hout.disturb⟩⟩

/-- The state after one more busy sample of an endless poll, and the delay that follows it (R143, R227). -/
def State.polledBusy (s : State) : State :=
  { s with
    seq := { s.seq with pollCnt := s.seq.pollCnt + 1 }
    trace := .delay :: .sample (!s.params.readyLevel) :: s.trace
    draws := s.draws + 1 }

/-- A round of an endless poll: no delay brings the device nearer to its end (R66, R227). -/
theorem Stuck.pollRound {s : State} (h : Stuck s) : s.pollRound = s.polledBusy := by
  obtain ⟨hedges, hafter⟩ := h.status
  have htick : s.eep.tick = s.eep := by simp [Eeprom.tick, h.never]
  rw [pollRound_busy h.cs h.undecided hedges hafter (by simp [h.busy]) (by simp [h.unlimited]), htick]
  rfl

theorem Stuck.polledBusy {s : State} (h : Stuck s) : Stuck s.polledBusy :=
  ⟨h.hung, h.undecided, h.unlimited, h.cs, h.busy, h.never, h.status⟩

/-- Settles O42: without an input the step is one more round (`Stuck.pollRound`), which gives no answer. -/
theorem hangGoesOn : Obligations.HangGoesOn := by
  intro s h hin
  have hon : step s = s.pollOn := by simp [step, hin, waitStep, h.hung]
  have hstep : step s = .next s.polledBusy := by
    rw [hon, State.pollOn, h.pollRound, if_neg (by simp [h.polledBusy.undecided])]
  exact ⟨_, hstep, h.polledBusy, rfl, rfl, rfl, rfl, rfl, hin⟩

end Sys2Proof.Machine
end

section
/-! PROOF. The invariant of the state after reset, with which every run begins (R40, R210). -/

namespace Sys2Proof.Machine

/-- The registers of `W_OFF` bits are 0 after reset, whatever their width (log 6). -/
theorem Sequencer.reset_fits (p : Params) : Sequencer.reset.fits p :=
  have hpos (n : Nat) : 0 < 2 ^ n := Nat.two_pow_pos n
  ⟨hpos _, hpos _, hpos _, hpos _, hpos _, hpos _, hpos _, hpos _⟩

/-- Settles O2: the byte spaces list nothing, the block is at rest, and nothing waits. -/
theorem resetHasInv : Obligations.ResetHasInv where
  fuse := ⟨rfl, rfl⟩
  eepMem := ⟨rfl, rfl⟩
  boot0 := ⟨rfl, rfl⟩
  sotp := ⟨rfl, rfl⟩
  buf := rfl
  clock := rfl
  rest _ := ⟨rfl, rfl, rfl, rfl, rfl⟩
  polling := nofun
  masked := nofun
  pending := nofun
  handlers := nofun
  widths := Sequencer.reset_fits _

end Sys2Proof.Machine
end
